-- ==== Sys2Proof/Word.lean ====
section
/-! DEFINITION. The word types of the BKN-4160: the quantities that the manual adds, wraps, masks or carries as bytes
(00_scope.md, Conventions; R198). Everything else of the model is a named alternative, a `Nat`, a `Fin` or a list. -/

namespace Sys2Proof

/-- One byte of a port frame, of an air message or of a page. -/
abbrev Byte := BitVec 8

/-- A frame number: 24 bits, added and compared modulo 16,777,216 (00_scope.md, Wrapping arithmetic; R97). -/
abbrev Frame := BitVec 24

/-- A label's 24-bit radio address (R1). -/
abbrev Address := BitVec 24

/-- An epoch number: 16 bits, compared modulo 65,536; 0 means no epoch (R70). -/
abbrev Epoch := BitVec 16

/-- A page check: a CRC-16 value (R67). -/
abbrev Check := BitVec 16

/-- A zone number, 0 to 63. -/
abbrev ZoneNo := Fin 64

/-- A radio lane, 0 to 3. -/
abbrev Lane := Fin 4

/-- A data slot or an acknowledgement slot of a frame, 0 to 5 (R98). -/
abbrev SlotNo := Fin 6

end Sys2Proof
end

