-- ==== Sys2Proof/Config.lean ====
section
/-! DEFINITION. What the part fixes once: its identity and capacities (R183), the limits the request rules name, and the two
choices that the manual leaves open and the model leaves free. -/

namespace Sys2Proof.Config

/-- Label records the directory holds (R1, R183). -/
def labelCapacity : Nat := 16384
/-- Item records the table holds (R29, R183). -/
def itemCapacity : Nat := 16384
/-- Entries of the in-flight table (R133, R183). -/
def inFlightCapacity : Nat := 64
/-- Zones the hold set holds at most (R159, R183). -/
def holdCapacity : Nat := 8
/-- Body bytes a request frame keeps at most (R172, R176, R183). -/
def bodyCapacity : Nat := 256
/-- The largest item number and the largest price in minor units (R29, R30). -/
def moneyLimit : Nat := 99999999
/-- The largest unit quantity in base units (R30). -/
def quantityLimit : Nat := 999999
/-- The largest cutover countdown in frames (R75). -/
def countdownLimit : Nat := 1048575
/-- The vendor code DEVICE_INFO reports (R183). -/
def vendorCode : Nat := 0x0E71
/-- The part code DEVICE_INFO reports (R183). -/
def partCode : Nat := 0x4160
/-- The revision DEVICE_INFO reports (R183). -/
def revision : Nat := 1

/-- FREE VALUE (assumption 1). R1 answers NOT_FOUND when a label request names an address that is not in the lookup; R18 and
R19 answer BAD_VALUE when LABEL_BIND or LABEL_MOVE carries a value out of range. Neither says which answer a request gets that
earns both. True: the address is judged first. The constant has no body, so nothing can be proved about which it is. -/
opaque addressJudgedFirst : Bool

/-- FREE VALUE (assumption 24). R40 and R41 for an item change, R51 and R52 for a reload, and R157 for any content change say that a
label so marked while IN_FLIGHT returns to its queue whatever the outcome of the delivery; R12 and R146 say that a failed attempt
whose count reaches MAX_ATTEMPTS makes a label FAILED, in no queue. No rule says which holds where both apply. True: the label
returns to its queue. The constant has no body, so nothing can be proved about which it is. -/
opaque changedInFlightRequeued : Bool

end Sys2Proof.Config
end

