-- ==== Sys2Proof/Syntax.lean ====
section
/-! DEFINITION. The commands of the block: one constructor of `Instr` for each row of spec/opcode_table.json. A request command
carries its frame's tag and the body's fields at the widths R198 and R199 give them, so that every value a frame can carry, the
refused ones too, is a command. An event command carries what tells one occurrence of the event from another. -/

namespace Sys2Proof

/-- The 17 bytes of a price set as a request carries them (R30, R198): an absent old price is `none`; a unit quantity of 0 is
absent; the basis and the unit kind are codes still to be checked. -/
structure PriceWords where
  price : BitVec 32
  old : Option (BitVec 32)
  promo : Bool
  quantity : BitVec 32
  basis : BitVec 16
  kind : Byte
  deriving DecidableEq, Repr

/-- One field entry of a TEMPLATE_LOAD body (R47, R199): kind code, bit offset, digit count, minimum digit count. -/
structure FieldWords where
  kind : Byte
  offset : BitVec 16
  digits : Byte
  minimum : Byte
  deriving DecidableEq, Repr

/-- The body of a TEMPLATE_LOAD (R48, R199); the field count it declares is the length of `fields`. -/
structure TemplateWords where
  id : Byte
  length : Byte
  mask : BitVec 48
  fields : List FieldWords
  deriving DecidableEq, Repr

/-- The body of a LABEL_ADD (R16, R199). -/
structure LabelAddWords where
  address : Address
  zone : Byte
  lane : Byte
  exponent : Byte
  phase : Byte
  template : Byte
  item : Option (BitVec 32)
  deriving DecidableEq, Repr

/-- The optional values of a LABEL_MOVE (R19, R198). -/
structure MoveWords where
  zone : Option Byte
  lane : Option Byte
  exponent : Option Byte
  phase : Option Byte
  template : Option Byte
  deriving DecidableEq, Repr

/-- The optional values of a ZONE_SET (R119, R198). -/
structure ZoneWords where
  priority : Option Byte
  reload : Option Byte
  boost : Option Byte
  deriving DecidableEq, Repr

/-- The body of a RADIO_CONFIG (R92, R199). -/
structure RadioWords where
  lanes : Byte
  channel0 : Byte
  channel1 : Byte
  channel2 : Byte
  channel3 : Byte
  ackDelay : Byte
  retryGap : Byte
  maxAttempts : Byte
  holdIdle : Byte
  deriving DecidableEq, Repr

/-- The result codes (R181, R200). -/
inductive Result where
  | ok | none | unknownKind | badLength | badCheck | notPermitted | notFound | exists | full | inUse
  | badValue | layoutBad | wrongEpochState | epochNotAfter | radioRunning | radioStopped | holdFull
  deriving DecidableEq, Repr

/-- What an ACK carries, its air check judged and removed (R103, R201). -/
structure Ack where
  address : Address
  accepted : Bool
  shownCheck : Check
  stagedEpoch : Epoch
  stagedCheck : Check
  battery : Fin 16
  deriving DecidableEq, Repr

/-- A request as its owning block receives it: the kinds of R199 with their bodies' fields. READ_RESPONSE is a kind code of
the Gateway Port's framing and no request (R175). -/
inductive Request where
  | itemPut (item : BitVec 32) (set : PriceWords)
  | itemSetNext (item : BitVec 32) (set : PriceWords)
  | itemClearNext (item : BitVec 32)
  | itemGet (item : BitVec 32)
  | itemRetire (item : BitVec 32)
  | labelAdd (body : LabelAddWords)
  | labelBind (address : Address) (item : Option (BitVec 32))
  | labelMove (address : Address) (move : MoveWords)
  | labelGet (address : Address)
  | labelRetire (address : Address)
  | labelRetry (address : Address)
  | labelQuery (address : Address)
  | labelLocate (address : Address)
  | labelScan (start : BitVec 16) (states : Byte) (flags : Byte)
  | templateLoad (body : TemplateWords)
  | templateGet (id : Byte)
  | zoneSet (zone : Byte) (values : ZoneWords)
  | zoneGet (zone : Byte)
  | zoneHold (zone : Byte) (budget : BitVec 16)
  | zoneRelease (zone : Byte)
  | zoneRetry (zone : Byte)
  | epochOpen (epoch : Epoch)
  | epochSchedule (count : BitVec 32)
  | epochAbandon
  | epochStatus
  | radioConfig (body : RadioWords)
  | radioStart
  | radioStop
  | radioStatus
  | noticeRead
  | noticeClear (sources : Byte)
  | noticeMask (sources : Byte)
  | portConfig (enable : Option Byte) (polarity : Option Byte)
  | deviceInfo
  | deviceReset
  deriving DecidableEq, Repr

/-- Which frame-start work of frame f is taken inside FRAME_START, and whether the frame's beacons are composed inside it. R71,
R101 and R167 leave the order of the cutover, of the Hold Unit's count and of the beacon composition open, and R77, R101 and
R170 let a request of the frame come before each of them; the sender of the command says which order happened (assumption 3).
Work named here is taken before the composition; work not named stays due and is taken by its own row (BACKOFF_RETRY_DUE,
COUNTDOWN_EXPIRY, HOLD_BUDGET_SPENT, HOLD_IDLE_REACHED), at the latest before the frame's first window opens. -/
structure FrameOrder where
  /-- the Label Directory's retry frames (R14) are taken inside FRAME_START -/
  retries : Bool
  /-- a countdown expiry (R77) is taken inside FRAME_START -/
  expiry : Bool
  /-- the ends of holds by budget or idleness (R164) are taken inside FRAME_START -/
  holds : Bool
  /-- the beacons (R101) are composed inside FRAME_START, after the work named above -/
  beacon : Bool
  deriving DecidableEq, Repr

/-- The commands of the block, one constructor per row of spec/opcode_table.json, in the table's order. -/
inductive Instr where
  | itemPut (tag : Byte) (item : BitVec 32) (set : PriceWords)
  | itemSetNext (tag : Byte) (item : BitVec 32) (set : PriceWords)
  | itemClearNext (tag : Byte) (item : BitVec 32)
  | itemGet (tag : Byte) (item : BitVec 32)
  | itemRetire (tag : Byte) (item : BitVec 32)
  | labelAdd (tag : Byte) (body : LabelAddWords)
  | labelBind (tag : Byte) (address : Address) (item : Option (BitVec 32))
  | labelMove (tag : Byte) (address : Address) (move : MoveWords)
  | labelGet (tag : Byte) (address : Address)
  | labelRetire (tag : Byte) (address : Address)
  | labelRetry (tag : Byte) (address : Address)
  | labelQuery (tag : Byte) (address : Address)
  | labelLocate (tag : Byte) (address : Address)
  | labelScan (tag : Byte) (start : BitVec 16) (states : Byte) (flags : Byte)
  | templateLoad (tag : Byte) (body : TemplateWords)
  | templateGet (tag : Byte) (id : Byte)
  | zoneSet (tag : Byte) (zone : Byte) (values : ZoneWords)
  | zoneGet (tag : Byte) (zone : Byte)
  | zoneHold (tag : Byte) (zone : Byte) (budget : BitVec 16)
  | zoneRelease (tag : Byte) (zone : Byte)
  | zoneRetry (tag : Byte) (zone : Byte)
  | epochOpen (tag : Byte) (epoch : Epoch)
  | epochSchedule (tag : Byte) (count : BitVec 32)
  | epochAbandon (tag : Byte)
  | epochStatus (tag : Byte)
  | radioConfig (tag : Byte) (body : RadioWords)
  | radioStart (tag : Byte)
  | radioStop (tag : Byte)
  | radioStatus (tag : Byte)
  | noticeRead (tag : Byte)
  | noticeClear (tag : Byte) (sources : Byte)
  | noticeMask (tag : Byte) (sources : Byte)
  | portConfig (tag : Byte) (enable : Option Byte) (polarity : Option Byte)
  | deviceInfo (tag : Byte)
  | deviceReset (tag : Byte)
  /-- power is applied (R184) -/
  | powerOnReset
  /-- 5 ms after the reset was taken (R184) -/
  | resetEnd
  /-- a Gateway Port transaction whose first byte is READ_RESPONSE; `clocked` counts its complete bytes, that one included (R175) -/
  | readResponse (clocked : Nat)
  /-- a Gateway Port request transaction given by all its complete bytes (R172, R173) -/
  | unknownKindFrame (bytes : List Byte)
  /-- a byte on the Service Line, and whether its stop bit was wrong (R176) -/
  | serviceLineByte (byte : Byte) (stopBitError : Bool)
  | serviceLineGapTimeout
  | serviceResponseSent
  | frameStart (order : FrameOrder)
  /-- the retry frame of the label in this directory slot falls due (R14) -/
  | backoffRetryDue (slot : Nat)
  | countdownExpiry
  | holdBudgetSpent (zone : ZoneNo)
  | holdIdleReached (zone : ZoneNo)
  | dataSlotOpening (lane : Lane) (slot : SlotNo)
  /-- a message received in an ack slot, as the bytes the receiver took (R100, R201) -/
  | ackArrival (lane : Lane) (slot : SlotNo) (message : List Byte)
  | ackSlotClose (lane : Lane) (slot : SlotNo)
  deriving DecidableEq, Repr

end Sys2Proof
end

