-- ==== Sys2Proof/Decode.lean ====
section
/-! DEFINITION. Bytes to values and back: little-endian quantities, request bodies by kind (R197 to R199), the Gateway Port's
judgement of a request frame (R173), the CRC-16 of page checks and air checks (R67, R102), the ACK message (R201), and the
table's words, of which this table has none. -/

namespace Sys2Proof

/-! ## Little-endian quantities (00_scope.md, Byte order and bit order) -/

/-- `n` bytes holding `v` modulo 256^n, least significant byte first. -/
def leBytes : Nat → Nat → List Byte
  | 0, _ => []
  | n + 1, v => BitVec.ofNat 8 v :: leBytes n (v / 256)

/-- The number that bytes spell, least significant byte first. -/
def leNat : List Byte → Nat
  | [] => 0
  | b :: bs => b.toNat + 256 * leNat bs

/-- The number in the `n` bytes at offset `off` of a body. -/
def leAt (body : List Byte) (off n : Nat) : Nat := leNat ((body.drop off).take n)

/-- The byte at an offset of a body. -/
def byteAt (body : List Byte) (off : Nat) : Byte := BitVec.ofNat 8 (leAt body off 1)

/-- "1 byte: 0 no, any other value yes" and a presence byte (R198), as read. -/
def flagAt (body : List Byte) (off : Nat) : Bool := leAt body off 1 != 0

/-- Yes or no, as sent: 0 for no, and of the values that R198 lets stand for yes always 1. DESIGN CHOICE (assumption 14). -/
def flagByte (b : Bool) : Byte := if b then 1 else 0

/-- An optional value of `n` bytes behind its presence byte; when it is absent its bytes are 0 (R198). Of the values that R198 lets
stand for present the byte sent is always 1. DESIGN CHOICE (assumption 14). -/
def optBytes (n : Nat) : Option Nat → List Byte
  | none => 0 :: leBytes n 0
  | some v => 1 :: leBytes n v

/-- The value behind a presence byte; the bytes of an absent value are not read (R198). -/
def optAt (body : List Byte) (off n : Nat) : Option Nat :=
  if flagAt body off then some (leAt body (off + 1) n) else none

/-- An optional byte selected by a bit of a presence byte (R198, LABEL_MOVE, ZONE_SET and PORT_CONFIG). -/
def selectedAt (body : List Byte) (bits : Byte) (bit off : Nat) : Option Byte :=
  if bits.getLsbD bit then some (byteAt body off) else none

/-- The presence bits of a list of optional values, the first in bit 0 (R198). -/
def presenceBits : List (Option Byte) → Nat
  | [] => 0
  | o :: os => (if o.isSome then 1 else 0) + 2 * presenceBits os

/-! ## Request kinds and bodies (R198, R199) -/

/-- The kind code of READ_RESPONSE, the Gateway Port's framing kind (R175, R199). -/
def readResponseKind : Byte := 0x5A

/-- The kind code of a request (R199). -/
def Request.kind : Request → Byte
  | .itemPut .. => 0x10 | .itemSetNext .. => 0x11 | .itemClearNext .. => 0x12 | .itemGet .. => 0x13 | .itemRetire .. => 0x14
  | .labelAdd .. => 0x20 | .labelBind .. => 0x21 | .labelMove .. => 0x22 | .labelGet .. => 0x23 | .labelRetire .. => 0x24
  | .labelRetry .. => 0x25 | .labelQuery .. => 0x26 | .labelLocate .. => 0x27 | .labelScan .. => 0x28
  | .templateLoad .. => 0x30 | .templateGet .. => 0x31
  | .zoneSet .. => 0x40 | .zoneGet .. => 0x41 | .zoneHold .. => 0x42 | .zoneRelease .. => 0x43 | .zoneRetry .. => 0x44
  | .epochOpen .. => 0x50 | .epochSchedule .. => 0x51 | .epochAbandon => 0x52 | .epochStatus => 0x53
  | .radioConfig .. => 0x60 | .radioStart => 0x61 | .radioStop => 0x62 | .radioStatus => 0x63
  | .noticeRead => 0x70 | .noticeClear .. => 0x71 | .noticeMask .. => 0x72 | .portConfig .. => 0x73
  | .deviceInfo => 0x74 | .deviceReset => 0x75

/-- The body length a kind requires (R173, R199), `none` for a code that names no request. A TEMPLATE_LOAD's length follows from
the field count at body offset 8; a body too short to hold it requires at least 9 bytes and so does not fit. -/
def requiredLength (kind : Byte) (body : List Byte) : Option Nat :=
  match kind.toNat with
  | 0x10 => some 21 | 0x11 => some 21 | 0x12 => some 4 | 0x13 => some 4 | 0x14 => some 4
  | 0x20 => some 13 | 0x21 => some 8 | 0x22 => some 9 | 0x23 => some 3 | 0x24 => some 3
  | 0x25 => some 3 | 0x26 => some 3 | 0x27 => some 3 | 0x28 => some 4
  | 0x30 => some (9 + 5 * leAt body 8 1) | 0x31 => some 1
  | 0x40 => some 5 | 0x41 => some 1 | 0x42 => some 3 | 0x43 => some 1 | 0x44 => some 1
  | 0x50 => some 2 | 0x51 => some 4 | 0x52 => some 0 | 0x53 => some 0
  | 0x60 => some 9 | 0x61 => some 0 | 0x62 => some 0 | 0x63 => some 0
  | 0x70 => some 0 | 0x71 => some 1 | 0x72 => some 1 | 0x73 => some 3 | 0x74 => some 0 | 0x75 => some 0
  | _ => none

/-- The price set at an offset of a body: 17 bytes (R198). -/
def priceAt (body : List Byte) (off : Nat) : PriceWords where
  price := BitVec.ofNat 32 (leAt body off 4)
  old := (optAt body (off + 4) 4).map (BitVec.ofNat 32)
  promo := flagAt body (off + 9)
  quantity := BitVec.ofNat 32 (leAt body (off + 10) 4)
  basis := BitVec.ofNat 16 (leAt body (off + 14) 2)
  kind := byteAt body (off + 16)

/-- The 17 bytes of a price set (R198). -/
def PriceWords.bytes (p : PriceWords) : List Byte :=
  leBytes 4 p.price.toNat ++ optBytes 4 (p.old.map BitVec.toNat) ++ [flagByte p.promo] ++ leBytes 4 p.quantity.toNat
    ++ leBytes 2 p.basis.toNat ++ [p.kind]

/-- The field entry at an offset of a TEMPLATE_LOAD body: 5 bytes (R199). -/
def fieldAt (body : List Byte) (off : Nat) : FieldWords where
  kind := byteAt body off
  offset := BitVec.ofNat 16 (leAt body (off + 1) 2)
  digits := byteAt body (off + 3)
  minimum := byteAt body (off + 4)

/-- The 5 bytes of a field entry (R199). -/
def FieldWords.bytes (f : FieldWords) : List Byte := [f.kind] ++ leBytes 2 f.offset.toNat ++ [f.digits, f.minimum]

/-- `n` field entries from an offset on, in list order. -/
def fieldsAt (body : List Byte) : Nat → Nat → List FieldWords
  | _, 0 => []
  | off, n + 1 => fieldAt body off :: fieldsAt body (off + 5) n

/-- The fields a body of the kind's length holds (R198, R199); `none` for a code that names no request. -/
def decodeBody (kind : Byte) (b : List Byte) : Option Request :=
  let address : Address := BitVec.ofNat 24 (leAt b 0 3)
  let number : BitVec 32 := BitVec.ofNat 32 (leAt b 0 4)
  match kind.toNat with
  | 0x10 => some (.itemPut number (priceAt b 4))
  | 0x11 => some (.itemSetNext number (priceAt b 4))
  | 0x12 => some (.itemClearNext number)
  | 0x13 => some (.itemGet number)
  | 0x14 => some (.itemRetire number)
  | 0x20 => some (.labelAdd ⟨address, byteAt b 3, byteAt b 4, byteAt b 5, byteAt b 6, byteAt b 7,
      (optAt b 8 4).map (BitVec.ofNat 32)⟩)
  | 0x21 => some (.labelBind address ((optAt b 3 4).map (BitVec.ofNat 32)))
  | 0x22 => some (.labelMove address ⟨selectedAt b (byteAt b 3) 0 4, selectedAt b (byteAt b 3) 1 5,
      selectedAt b (byteAt b 3) 2 6, selectedAt b (byteAt b 3) 3 7, selectedAt b (byteAt b 3) 4 8⟩)
  | 0x23 => some (.labelGet address)
  | 0x24 => some (.labelRetire address)
  | 0x25 => some (.labelRetry address)
  | 0x26 => some (.labelQuery address)
  | 0x27 => some (.labelLocate address)
  | 0x28 => some (.labelScan (BitVec.ofNat 16 (leAt b 0 2)) (byteAt b 2) (byteAt b 3))
  | 0x30 => some (.templateLoad ⟨byteAt b 0, byteAt b 1, BitVec.ofNat 48 (leAt b 2 6), fieldsAt b 9 (leAt b 8 1)⟩)
  | 0x31 => some (.templateGet (byteAt b 0))
  | 0x40 => some (.zoneSet (byteAt b 0) ⟨selectedAt b (byteAt b 1) 0 2, selectedAt b (byteAt b 1) 1 3,
      selectedAt b (byteAt b 1) 2 4⟩)
  | 0x41 => some (.zoneGet (byteAt b 0))
  | 0x42 => some (.zoneHold (byteAt b 0) (BitVec.ofNat 16 (leAt b 1 2)))
  | 0x43 => some (.zoneRelease (byteAt b 0))
  | 0x44 => some (.zoneRetry (byteAt b 0))
  | 0x50 => some (.epochOpen (BitVec.ofNat 16 (leAt b 0 2)))
  | 0x51 => some (.epochSchedule number)
  | 0x52 => some .epochAbandon
  | 0x53 => some .epochStatus
  | 0x60 => some (.radioConfig ⟨byteAt b 0, byteAt b 1, byteAt b 2, byteAt b 3, byteAt b 4, byteAt b 5, byteAt b 6,
      byteAt b 7, byteAt b 8⟩)
  | 0x61 => some .radioStart
  | 0x62 => some .radioStop
  | 0x63 => some .radioStatus
  | 0x70 => some .noticeRead
  | 0x71 => some (.noticeClear (byteAt b 0))
  | 0x72 => some (.noticeMask (byteAt b 0))
  | 0x73 => some (.portConfig (selectedAt b (byteAt b 0) 0 1) (selectedAt b (byteAt b 0) 1 2))
  | 0x74 => some .deviceInfo
  | 0x75 => some .deviceReset
  | _ => none

/-- The body of a request's frame (R198, R199): the inverse of `decodeBody`. The place of an absent optional value holds 0. -/
def Request.body : Request → List Byte
  | .itemPut n p | .itemSetNext n p => leBytes 4 n.toNat ++ p.bytes
  | .itemClearNext n | .itemGet n | .itemRetire n => leBytes 4 n.toNat
  | .labelAdd a => leBytes 3 a.address.toNat ++ [a.zone, a.lane, a.exponent, a.phase, a.template]
      ++ optBytes 4 (a.item.map BitVec.toNat)
  | .labelBind a item => leBytes 3 a.toNat ++ optBytes 4 (item.map BitVec.toNat)
  | .labelMove a m =>
      leBytes 3 a.toNat ++ leBytes 1 (presenceBits [m.zone, m.lane, m.exponent, m.phase, m.template])
        ++ [m.zone.getD 0, m.lane.getD 0, m.exponent.getD 0, m.phase.getD 0, m.template.getD 0]
  | .labelGet a | .labelRetire a | .labelRetry a | .labelQuery a | .labelLocate a => leBytes 3 a.toNat
  | .labelScan start states flags => leBytes 2 start.toNat ++ [states, flags]
  | .templateLoad t =>
      [t.id, t.length] ++ leBytes 6 t.mask.toNat ++ leBytes 1 t.fields.length ++ t.fields.flatMap FieldWords.bytes
  | .templateGet i => [i]
  | .zoneSet z v => [z] ++ leBytes 1 (presenceBits [v.priority, v.reload, v.boost])
      ++ [v.priority.getD 0, v.reload.getD 0, v.boost.getD 0]
  | .zoneHold z budget => [z] ++ leBytes 2 budget.toNat
  | .zoneGet z | .zoneRelease z | .zoneRetry z => [z]
  | .epochOpen e => leBytes 2 e.toNat
  | .epochSchedule n => leBytes 4 n.toNat
  | .radioConfig r => [r.lanes, r.channel0, r.channel1, r.channel2, r.channel3, r.ackDelay, r.retryGap, r.maxAttempts,
      r.holdIdle]
  | .noticeClear set | .noticeMask set => [set]
  | .portConfig enable polarity => leBytes 1 (presenceBits [enable, polarity]) ++ [enable.getD 0, polarity.getD 0]
  | .epochAbandon | .epochStatus | .radioStart | .radioStop | .radioStatus | .noticeRead | .deviceInfo | .deviceReset => []

/-- A Gateway Port request frame: kind, tag, body length, body (R172, R197). -/
def Request.frame (tag : Byte) (r : Request) : List Byte := [r.kind, tag] ++ leBytes 2 r.body.length ++ r.body

/-! ## The Gateway Port's checks (R173) -/

/-- The last two checks of R173, which the Service Line shares (R177): the kind, then the length the kind requires. -/
def judgeBody (kind : Byte) (body : List Byte) : Except Result Request :=
  match requiredLength kind body, decodeBody kind body with
  | some n, some r => if body.length = n then .ok r else .error .badLength
  | _, _ => .error .unknownKind

/-- R173: the checks of a request frame at chip select rise, in order, on all the complete bytes of the transaction. -/
def judgeFrame (bytes : List Byte) : Except Result Request :=
  let declared := leAt bytes 2 2
  if bytes.length < 4 then .error .badLength
  else if declared > Config.bodyCapacity then .error .badLength
  else if bytes.length - 4 ≠ declared then .error .badLength
  else judgeBody (byteAt bytes 0) (bytes.drop 4)

/-- The tag a refusal by the port echoes: the tag if one was received and 0 otherwise (R173). -/
def frameTag (bytes : List Byte) : Byte := byteAt bytes 1

/-! ## CRC-16 (R67) and the air check (R102) -/

/-- One shift of the CRC register (R67, step 3). -/
def crcShift (r : Check) : Check := if r.msb then (r <<< 1) ^^^ 0x1021#16 else r <<< 1

/-- Repeated shifts of the CRC register. -/
def crcShifts : Nat → Check → Check
  | 0, r => r
  | n + 1, r => crcShifts n (crcShift r)

/-- One included byte (R67, steps 2 and 3). -/
def crcByte (r : Check) (b : Byte) : Check := crcShifts 8 (r ^^^ (b.setWidth 16 <<< 8))

/-- The CRC-16 of a run of bytes: start 0xFFFF, polynomial 0x1021, no final inversion (R67). -/
def crc16 (bytes : List Byte) : Check := bytes.foldl crcByte 0xFFFF#16

/-- A message with its air check: the CRC-16 of every byte before it, little-endian (R102, R201). -/
def sealAir (bytes : List Byte) : List Byte := bytes ++ leBytes 2 (crc16 bytes).toNat

/-! ## The ACK message (R103, R201) -/

/-- The bytes of an ACK, its air check last (R201). -/
def Ack.message (a : Ack) : List Byte :=
  sealAir ([(0x04 : Byte)] ++ leBytes 3 a.address.toNat ++ [if a.accepted then (0 : Byte) else 1] ++ leBytes 2 a.shownCheck.toNat
    ++ leBytes 2 a.stagedEpoch.toNat ++ leBytes 2 a.stagedCheck.toNat ++ leBytes 1 a.battery.val)

/-- What the receiver takes as an acknowledgement arrival (R201): 14 bytes with a correct air check, type 0x04, a result of 0 or
1 and a battery value of 0 to 15. Every other message is discarded. -/
def receiveAck (m : List Byte) : Option Ack :=
  if m.length = 14 ∧ m = sealAir (m.take 12) ∧ leAt m 0 1 = 4 ∧ leAt m 4 1 ≤ 1 ∧ leAt m 11 1 ≤ 15 then
    some { address := BitVec.ofNat 24 (leAt m 1 3), accepted := leAt m 4 1 == 0, shownCheck := BitVec.ofNat 16 (leAt m 5 2),
           stagedEpoch := BitVec.ofNat 16 (leAt m 7 2), stagedCheck := BitVec.ofNat 16 (leAt m 9 2),
           battery := Fin.ofNat 16 (leAt m 11 1) }
  else none

/-! ## The table's words -/

/-- The command a word of spec/opcode_table.json spells: no row of this table gives bits, so no word spells one. -/
def decodeTableWord (_nbits _w : Nat) : Option Instr := none

end Sys2Proof
end

