-- ==== Sys2Proof/Machine/State.lean ====
section
/-! DEFINITION. The state of the BKN-4160: every table, register, buffer and pin the manual gives it, block by block
(00_scope.md, Blocks), the model's own bookkeeping of the frame in progress, and the queue of waiting commands. Plain data. -/

namespace Sys2Proof.Machine

/-! ## Stops -/

/-- Why the block stops with a fault. It has no constructor: the manual gives no command an effect that stops the block. -/
inductive Fault where
  deriving DecidableEq, Repr

/-- Why a command has no meaning. -/
inductive Refusal where
  /-- Raised by `exec` for a command of the table whose meaning is not written; safe. No arm raises it. -/
  | notModelled (mnemonic : String)
  deriving DecidableEq, Repr

/-! ## Tables -/

/-- A table of records by slot: the slots in use, strictly rising, each with its record. A slot not listed is free. -/
abbrev Table (α : Type) := List (Nat × α)

/-! ## Items (R29, R30) -/

/-- The unit basis: 1, 10, 100 or 1000 base units (R30). -/
inductive Basis where
  | one | ten | hundred | thousand
  deriving DecidableEq, Repr

/-- The unit kind (R30). -/
inductive UnitKind where
  | piece | mass | volume | length
  deriving DecidableEq, Repr

/-- A stored price set (R30); two are equal when their six fields are equal (R31). -/
structure PriceSet where
  price : Nat
  old : Option Nat
  promo : Bool
  quantity : Option Nat
  basis : Basis
  kind : UnitKind
  deriving DecidableEq, Repr

/-- An item record (R29). -/
structure Item where
  number : Nat
  current : PriceSet
  next : Option PriceSet
  bound : Nat
  deriving DecidableEq, Repr

/-! ## Templates (R46, R47) -/

/-- The kind of a template field (R47). -/
inductive FieldKind where
  | price | oldPrice | unitPrice | savePct | itemCode | indicator
  deriving DecidableEq, Repr

/-- A field entry of a template (R47). -/
structure Field where
  kind : FieldKind
  offset : Nat
  digits : Nat
  minimum : Nat
  deriving DecidableEq, Repr

/-- A template record; its id is its slot (R46). Bit k of the mask includes page byte k in the page check. -/
structure Template where
  length : Nat
  mask : BitVec 48
  fields : List Field
  deriving DecidableEq, Repr

/-! ## Labels (R1 to R7) -/

/-- A label's settings (R2). -/
structure Settings where
  zone : ZoneNo
  lane : Lane
  exponent : Fin 9
  phase : Nat
  deriving DecidableEq, Repr

/-- The delivery state of a label record (section 1.3). -/
inductive Delivery where
  | current | queued | backoff | inFlight | failed
  deriving DecidableEq, Repr

/-- A set of need flags (R3); SETTINGS is derived and is no flag. -/
structure Needs where
  shown : Bool
  staged : Bool
  query : Bool
  locate : Bool
  deriving DecidableEq, Repr

/-- A confirmed staged page: the epoch it is for and its page check (R5, R142). -/
structure StagedPage where
  epoch : Epoch
  check : Check
  deriving DecidableEq, Repr

/-- A label record (section 1.1); its slot is its place in the directory. -/
structure Label where
  address : Address
  confirmed : Settings
  requested : Option Settings
  template : Fin 32
  binding : Option Nat
  needs : Needs
  state : Delivery
  attempts : Nat
  retryFrame : Option Frame
  shownCheck : Option Check
  stagedPage : Option StagedPage
  battery : Option (Fin 16)
  lastHeard : Option Frame
  lowBattery : Bool
  overflow : Bool
  mismatch : Bool
  serviceTouched : Bool
  /-- the model's own: a content change has marked the label since its last grant, and its flags stand (R41, R52;
  assumption 24) -/
  changed : Bool
  deriving DecidableEq, Repr

/-! ## Epochs (R70) -/

/-- The epoch state: STEADY, OPEN or ARMED (R70). -/
inductive EpochState where
  | steady | opened | armed
  deriving DecidableEq, Repr

/-- The epoch record (R70). -/
structure EpochRecord where
  state : EpochState
  active : Epoch
  lastIssued : Epoch
  pending : Option Epoch
  countdown : Nat
  outstanding : Nat
  /-- the model's own: the countdown's expiry is due at the frame start in progress and not yet taken (assumption 3) -/
  expiryDue : Bool
  deriving DecidableEq, Repr

/-! ## The radio (R91, R98) -/

/-- The radio state (R91). -/
inductive RadioState where
  | stopped | running
  deriving DecidableEq, Repr

/-- The active lane count: 1, 2 or 4 (R91). -/
inductive LaneCount where
  | one | two | four
  deriving DecidableEq, Repr

/-- The radio configuration (R91). -/
structure RadioConfig where
  lanes : LaneCount
  channels : Vector (Fin 16) 4
  ackDelay : Nat
  retryGap : Nat
  maxAttempts : Nat
  holdIdle : Nat
  deriving DecidableEq, Repr

/-- The radio record (R91). -/
structure Radio where
  state : RadioState
  config : RadioConfig
  frame : Frame
  deriving DecidableEq, Repr

/-- How far one lane has come through the windows of the frame in progress (R98, R100); the model's own (assumption 4). -/
structure LaneWindows where
  /-- how many of data slots 0 to 5 have opened: they open in that order (R98) -/
  opened : Nat
  /-- ack slots in which an acknowledgement has been taken (R100) -/
  taken : List SlotNo
  /-- ack slots that have closed, which may be taken in any order (R147) -/
  closed : List SlotNo
  deriving DecidableEq, Repr

/-- The windows of a lane whose frame has just started. -/
def LaneWindows.none : LaneWindows := ⟨0, [], []⟩

/-- The frame in progress on the air; the model's own (assumptions 3, 4 and 5). -/
structure Air where
  /-- the frame has windows: it started while RUNNING and no RADIO_STOP came since (R94, R95, R98) -/
  windowsOpen : Bool
  /-- the frame's beacons are still to be composed (R101) -/
  beaconDue : Bool
  /-- how far each lane has come through its windows -/
  windows : Vector LaneWindows 4
  /-- what each lane's transmitter sent in the beacon or data slot it opened last; `none` when that slot was left silent -/
  sent : Vector (Option (List Byte)) 4
  /-- labels with a success taken in this frame, eligible on no lane in the rest of it (R110) -/
  confirmedNow : List Nat
  deriving DecidableEq, Repr

/-! ## Zones (R114) -/

/-- The six counts of a zone (R7). -/
structure Counts where
  members : Nat
  current : Nat
  queued : Nat
  backoff : Nat
  inFlight : Nat
  failed : Nat
  deriving DecidableEq, Repr

/-- The hold state of a zone (R159). -/
inductive HoldState where
  | none | held
  deriving DecidableEq, Repr

/-- A zone record (R114). -/
structure Zone where
  priority : Fin 8
  boost : Bool
  reload : Nat
  counter : Nat
  promoted : Bool
  hold : HoldState
  budget : Nat
  idle : Nat
  holdStart : Option Frame
  /-- the model's own: how many frames of the hold have begun, its hold start frame counted (R111; assumption 6) -/
  holdFrames : Nat
  counts : Counts
  deriving DecidableEq, Repr

/-! ## Deliveries (section 7.1) -/

/-- The staged standing of an entry to the STAGED side (section 7.1). -/
inductive Standing where
  | live | withdrawn
  deriving DecidableEq, Repr

/-- The side an entry's PAGE is for; the staged standing is present only while the side is STAGED. -/
inductive PageSide where
  | shown
  | staged (standing : Standing)
  deriving DecidableEq, Repr

/-- The message an entry stands for: side, epoch and page check belong to a PAGE only. -/
inductive Sent where
  | page (side : PageSide) (epoch : Epoch) (check : Check)
  | query
  deriving DecidableEq, Repr

/-- An in-flight entry (section 7.1). -/
structure Entry where
  lane : Lane
  grantFrame : Frame
  slot : SlotNo
  expected : Frame
  label : Nat
  address : Address
  message : Sent
  remembered : Needs
  settings : Settings
  deriving DecidableEq, Repr

/-! ## Notices (R186) -/

/-- The six notice sources (section 10.1). -/
inductive Source where
  | cutoverDone | stagingComplete | labelFailed | holdEnded | renderOverflow | serviceChange
  deriving DecidableEq, Repr

/-- A set of notice sources. -/
structure SourceSet where
  cutoverDone : Bool
  stagingComplete : Bool
  labelFailed : Bool
  holdEnded : Bool
  renderOverflow : Bool
  serviceChange : Bool
  deriving DecidableEq, Repr

/-- The NOTICE polarity (R186). -/
inductive Polarity where
  | activeLow | activeHigh
  deriving DecidableEq, Repr

/-- What the NOTICE pin does (R188): it is open-drain and drives in one direction only. -/
inductive PinDrive where
  | drivenLow | released
  deriving DecidableEq, Repr

/-- The Notice Unit (R186). -/
structure Notices where
  pending : SourceSet
  enabled : SourceSet
  polarity : Polarity
  deriving DecidableEq, Repr

/-! ## The ports (R172 to R178) -/

/-- A response: tag, result, body (R174); its body length is the body's. -/
structure Response where
  tag : Byte
  result : Result
  body : List Byte
  deriving DecidableEq, Repr

/-- The Gateway Port (R172, R174, R180, R185). -/
structure Gateway where
  held : Option Response
  /-- the receive buffer: the header and up to 256 body bytes of the last request transaction (R172; assumption 7) -/
  received : List Byte
  /-- the model's own view of the output pin: the bytes shifted out in the last transaction (R172, R175; assumption 7) -/
  shifted : List Byte
  /-- the Service Line enable, which the Gateway Port keeps (R180) -/
  serviceEnabled : Bool
  deriving DecidableEq, Repr

/-- The Service Line's receiver; while ASSEMBLING it has its buffer, the bytes since the sync byte (R176). -/
inductive Receiver where
  | hunting
  | assembling (buffer : List Byte)
  deriving DecidableEq, Repr

/-- The Service Line's transmitter; while SENDING it has the response frame being sent (R178). -/
inductive Transmitter where
  | idle
  | sending (frame : List Byte)
  deriving DecidableEq, Repr

/-- The Service Line (R176, R178). -/
structure ServiceLine where
  receiver : Receiver
  transmitter : Transmitter
  deriving DecidableEq, Repr

/-! ## The whole -/

/-- The state of the block. -/
structure State where
  /-- a reset was taken and has not ended (R184) -/
  inReset : Bool
  gateway : Gateway
  service : ServiceLine
  /-- the Label Directory's records by slot (R1) -/
  labels : Table Label
  /-- the 64 zone queues of label slots, oldest first (R6) -/
  queues : Vector (List Nat) 64
  /-- the Item Table's records by slot (R29) -/
  items : Table Item
  /-- the Template Store's defined slots (R46) -/
  templates : Table Template
  epoch : EpochRecord
  radio : Radio
  air : Air
  /-- the zone table (R114) -/
  zones : Vector Zone 64
  /-- one round-robin pointer per lane (R122) -/
  pointers : Vector ZoneNo 4
  /-- the entries of the in-flight table that are not free (R133) -/
  entries : List Entry
  /-- the hold set, oldest hold first (R159) -/
  holdSet : List ZoneNo
  /-- the model's own: held zones whose count at this frame start ends the hold and is not yet taken (assumption 3) -/
  holdsDue : List ZoneNo
  notices : Notices
  /-- commands waiting, first in, first out -/
  pending : List Instr
  deriving DecidableEq, Repr

/-! ## Reset -/

/-- No need flag set. -/
def Needs.none : Needs := ⟨false, false, false, false⟩

/-- No notice source. -/
def SourceSet.empty : SourceSet := ⟨false, false, false, false, false, false⟩

/-- A zone record after reset (R132, R171). -/
def Zone.reset : Zone :=
  { priority := 4, boost := true, reload := 0, counter := 0, promoted := false, hold := .none, budget := 0, idle := 0,
    holdStart := none, holdFrames := 0, counts := ⟨0, 0, 0, 0, 0, 0⟩ }

/-- The epoch record after reset (R90). -/
def EpochRecord.reset : EpochRecord :=
  { state := .steady, active := 0, lastIssued := 0, pending := none, countdown := 0, outstanding := 0, expiryDue := false }

/-- The radio record after reset (R113). -/
def Radio.reset : Radio :=
  { state := .stopped, frame := 0,
    config := { lanes := .one, channels := Vector.replicate 4 0, ackDelay := 8, retryGap := 12, maxAttempts := 6, holdIdle := 20 } }

/-- No windows: a frame that has none, or has had none yet (R98). -/
def Air.silent : Air :=
  { windowsOpen := false, beaconDue := false, windows := Vector.replicate 4 .none, sent := Vector.replicate 4 none,
    confirmedNow := [] }

/-- The Notice Unit after reset (R196). -/
def Notices.reset : Notices := { pending := .empty, enabled := .empty, polarity := .activeLow }

/-- The machine right after the end of a reset: every block at the values its chapter gives (R28, R45, R54, R90, R113, R132,
R158, R171, R185, R196), no command waiting. -/
def State.reset : State :=
  { inReset := false
    gateway := { held := none, received := [], shifted := [], serviceEnabled := true }
    service := { receiver := .hunting, transmitter := .idle }
    labels := []
    queues := Vector.replicate 64 []
    items := []
    templates := []
    epoch := .reset
    radio := .reset
    air := .silent
    zones := Vector.replicate 64 .reset
    pointers := Vector.replicate 4 0
    entries := []
    holdSet := []
    holdsDue := []
    notices := .reset
    pending := [] }

end Sys2Proof.Machine
end

