-- ==== Sys2Proof/Machine/Ops.lean ====
section
/-! DEFINITION. The shared operations: tables by slot, the parts of State, the label record's needs and transitions, the one
operation that writes a label record and keeps queues, zone counts and bound counts with it (R6, R7, R33), the marking of
labels by a content change (R4, R9, R40), the staged rule (R78), the staged-outstanding count (R80, R81), the raising of a
notice (R187), and the taking of a Gateway Port request (R172 to R174). A block has no exception entry: what an event sets is
its effect on State. -/

namespace Sys2Proof.Machine

/-! ## Tables by slot (R1, R29, R46) -/

/-- The record in a slot. -/
def Table.find {α : Type} : Table α → Nat → Option α
  | [], _ => none
  | (k, v) :: t, n => if n = k then some v else Table.find t n

/-- Put a record in a slot, keeping the slots in rising order. -/
def Table.put {α : Type} : Table α → Nat → α → Table α
  | [], n, x => [(n, x)]
  | (k, v) :: t, n, x => if n < k then (n, x) :: (k, v) :: t else if n = k then (n, x) :: t else (k, v) :: Table.put t n x

/-- Free a slot. -/
def Table.erase {α : Type} : Table α → Nat → Table α
  | [], _ => []
  | (k, v) :: t, n => if n = k then t else (k, v) :: Table.erase t n

/-- Put or free, as the record is present or absent. -/
def Table.write {α : Type} (t : Table α) (n : Nat) : Option α → Table α
  | some x => t.put n x
  | none => t.erase n

/-- The lowest slot at or above `n` that no record of a rising table takes (R1, R29). -/
def Table.freeFrom {α : Type} : Nat → Table α → Nat
  | n, [] => n
  | n, (k, _) :: t => if k = n then Table.freeFrom (n + 1) t else n

/-- The lowest-numbered free slot, if any of `capacity` slots is free. -/
def Table.lowestFree {α : Type} (t : Table α) (capacity : Nat) : Option Nat :=
  let n := Table.freeFrom 0 t
  if n < capacity then some n else none

/-- The canonical form: slots strictly rising and below the capacity. -/
abbrev Table.wf {α : Type} (t : Table α) (capacity : Nat) : Prop :=
  t.Pairwise (fun a b => a.1 < b.1) ∧ ∀ kv ∈ t, kv.1 < capacity

/-! ## The parts of State -/

/-- Replace the reset in progress. -/
def State.setInReset (x : Bool) (s : State) : State := { s with inReset := x }
/-- Replace the Gateway Port. -/
def State.setGateway (x : Gateway) (s : State) : State := { s with gateway := x }
/-- Replace the Service Line. -/
def State.setService (x : ServiceLine) (s : State) : State := { s with service := x }
/-- Replace the label records. -/
def State.setLabels (x : Table Label) (s : State) : State := { s with labels := x }
/-- Replace the zone queues. -/
def State.setQueues (x : Vector (List Nat) 64) (s : State) : State := { s with queues := x }
/-- Replace the item records. -/
def State.setItems (x : Table Item) (s : State) : State := { s with items := x }
/-- Replace the templates. -/
def State.setTemplates (x : Table Template) (s : State) : State := { s with templates := x }
/-- Replace the epoch record. -/
def State.setEpoch (x : EpochRecord) (s : State) : State := { s with epoch := x }
/-- Replace the radio record. -/
def State.setRadio (x : Radio) (s : State) : State := { s with radio := x }
/-- Replace the frame on the air. -/
def State.setAir (x : Air) (s : State) : State := { s with air := x }
/-- Replace the zone table. -/
def State.setZones (x : Vector Zone 64) (s : State) : State := { s with zones := x }
/-- Replace the round-robin pointers. -/
def State.setPointers (x : Vector ZoneNo 4) (s : State) : State := { s with pointers := x }
/-- Replace the in-flight entries. -/
def State.setEntries (x : List Entry) (s : State) : State := { s with entries := x }
/-- Replace the hold set. -/
def State.setHoldSet (x : List ZoneNo) (s : State) : State := { s with holdSet := x }
/-- Replace the counts due. -/
def State.setHoldsDue (x : List ZoneNo) (s : State) : State := { s with holdsDue := x }
/-- Replace the Notice Unit. -/
def State.setNotices (x : Notices) (s : State) : State := { s with notices := x }
/-- Replace the waiting commands. -/
def State.setPending (x : List Instr) (s : State) : State := { s with pending := x }

/-- The label record in a directory slot. -/
def State.label (s : State) (k : Nat) : Option Label := s.labels.find k

/-- The slot and record of a label address: the address lookup (R1), read off the records. -/
def State.lookup (s : State) (a : Address) : Option (Nat × Label) := s.labels.find? (fun kv => kv.2.address == a)

/-- The item record in an item slot. -/
def State.item (s : State) (k : Nat) : Option Item := s.items.find k

/-- The slot and record of an item number: the item lookup (R29), read off the records. -/
def State.itemLookup (s : State) (n : Nat) : Option (Nat × Item) := s.items.find? (fun kv => kv.2.number == n)

/-- A zone record. -/
def State.zone (s : State) (z : ZoneNo) : Zone := s.zones[z.val]

/-- Replace a zone record. -/
def State.setZone (z : ZoneNo) (x : Zone) (s : State) : State := s.setZones (s.zones.set z.val x)

/-- A zone's queue (R6). -/
def State.queue (s : State) (z : ZoneNo) : List Nat := s.queues[z.val]

/-- Replace a zone's queue. -/
def State.setQueue (z : ZoneNo) (q : List Nat) (s : State) : State := s.setQueues (s.queues.set z.val q)

/-- The entry of a label (R133): the one whose label slot is the label's. -/
def State.entryOf (s : State) (k : Nat) : Option Entry := s.entries.find? (fun e => e.label == k)

/-- Zones 0 to 63 in order. -/
def allZones : List ZoneNo := List.finRange 64

/-- The radio is RUNNING. -/
def State.running (s : State) : Bool := s.radio.state == .running

/-- The epoch state is OPEN or ARMED. -/
def State.epochOpen (s : State) : Bool := s.epoch.state != .steady

/-- A frame number a count of frames later, modulo 16,777,216 (00_scope.md, Wrapping arithmetic). -/
def framePlus (f : Frame) (n : Nat) : Frame := f + BitVec.ofNat 24 n

/-- The number of lanes an active lane count names (R91). -/
def LaneCount.count : LaneCount → Nat
  | .one => 1 | .two => 2 | .four => 4

/-- A lane is active (R91). -/
def State.laneActive (s : State) (lane : Lane) : Bool := lane.val < s.radio.config.lanes.count

/-- A lane's partition of the in-flight table (R134). -/
def State.partition (s : State) : Nat := Config.inFlightCapacity / s.radio.config.lanes.count

/-- The entries a lane holds (R134). -/
def State.laneEntries (s : State) (lane : Lane) : Nat := s.entries.countP (fun e => e.lane == lane)

/-! ## Notices raised (R187) -/

/-- Put a source into a set. -/
def SourceSet.add (x : Source) (t : SourceSet) : SourceSet :=
  match x with
  | .cutoverDone => { t with cutoverDone := true }
  | .stagingComplete => { t with stagingComplete := true }
  | .labelFailed => { t with labelFailed := true }
  | .holdEnded => { t with holdEnded := true }
  | .renderOverflow => { t with renderOverflow := true }
  | .serviceChange => { t with serviceChange := true }

/-- A block raises an event: its source becomes pending, enabled or not (R187). -/
def State.raise (x : Source) (s : State) : State := s.setNotices { s.notices with pending := s.notices.pending.add x }

/-! ## Settings, needs and delivery states of a record (R2, R3, R8, R9, R15) -/

/-- The listen period of settings: 2 to the power of the exponent (section 1.1). -/
def Settings.period (c : Settings) : Nat := 2 ^ c.exponent.val

/-- The administrative zone (R2). -/
def Label.adminZone (l : Label) : ZoneNo := (l.requested.getD l.confirmed).zone

/-- The settings the next message carries (R2, R135). -/
def Label.settingsToSend (l : Label) : Settings := l.requested.getD l.confirmed

/-- Some flag of a set is set. -/
def Needs.any (n : Needs) : Bool := n.shown || n.staged || n.query || n.locate

/-- Set in either of two sets. -/
def Needs.union (a b : Needs) : Needs :=
  ⟨a.shown || b.shown, a.staged || b.staged, a.query || b.query, a.locate || b.locate⟩

/-- Outside IN_FLIGHT: a flag is set, or SETTINGS is held because requested settings are (R3). -/
def Label.hasNeed (l : Label) : Bool := l.needs.any || l.requested.isSome

/-- SETTINGS as R3 derives it: in IN_FLIGHT only requested settings that differ from those the message carries count. -/
def State.settingsHeld (s : State) (k : Nat) (l : Label) : Bool :=
  match l.requested with
  | none => false
  | some r => if l.state = .inFlight then (s.entryOf k).all (fun e => r != e.settings) else true

/-- The label stands in its administrative zone's queue (R6). -/
def Label.inQueue (l : Label) : Bool := l.state == .queued || l.state == .backoff

/-- The delivery state that follows the needs: CURRENT with a need becomes QUEUED (R8); QUEUED, BACKOFF and FAILED with none
become CURRENT with attempts 0 and no retry frame (R15); IN_FLIGHT waits for its resolution. -/
def Label.followNeeds (l : Label) : Label :=
  match l.state with
  | .inFlight => l
  | .current => if l.hasNeed then { l with state := .queued, attempts := 0 } else l
  | .queued | .backoff | .failed =>
    if l.hasNeed then l else { l with state := .current, attempts := 0, retryFrame := none }

/-- The revival of a FAILED label (R9, R24); a label in any other state is unchanged. -/
def Label.revive (l : Label) : Label :=
  if l.state = .failed then { l with state := .queued, attempts := 0 } else l

/-- Needs set on a label by a cause that is no content change (R8, R9). -/
def Label.owe (n : Needs) (l : Label) : Label := ({ l with needs := l.needs.union n }).followNeeds

/-- A label marked by a content change: flags set, a FAILED label revived, a CURRENT one queued (R4, R9, R40), and the change noted
for a delivery in flight (R41, R52; assumption 24). -/
def Label.mark (shown staged : Bool) (l : Label) : Label :=
  ({ l with changed := l.changed || shown || staged }.revive).owe ⟨shown, staged, false, false⟩

/-! ## Writing a label record (R6, R7, R33) -/

/-- The zone in whose queue a record stands, if in any (R6). -/
def queueOf (l : Option Label) : Option ZoneNo := l.bind fun l => if l.inQueue then some l.adminZone else none

/-- Leave a zone's queue from whatever position; those behind keep their order (R6). -/
def State.leave (k : Nat) (z : ZoneNo) (s : State) : State := s.setQueue z ((s.queue z).erase k)

/-- Join a zone's queue at its tail (R6). -/
def State.join (k : Nat) (z : ZoneNo) (s : State) : State := s.setQueue z (s.queue z ++ [k])

/-- R6: a record that stays in one zone's queue keeps its place; otherwise it leaves the old queue and joins the new one. -/
def State.requeue (k : Nat) (old new : Option Label) (s : State) : State :=
  match queueOf old, queueOf new with
  | some a, some b => if a = b then s else (s.leave k a).join k b
  | some a, none => s.leave k a
  | none, some b => s.join k b
  | none, none => s

/-- Add 1 to members and to the count of a delivery state (R7). -/
def Counts.add (d : Delivery) (c : Counts) : Counts :=
  let c := { c with members := c.members + 1 }
  match d with
  | .current => { c with current := c.current + 1 }
  | .queued => { c with queued := c.queued + 1 }
  | .backoff => { c with backoff := c.backoff + 1 }
  | .inFlight => { c with inFlight := c.inFlight + 1 }
  | .failed => { c with failed := c.failed + 1 }

/-- Subtract 1 from members and from the count of a delivery state (R7). -/
def Counts.sub (d : Delivery) (c : Counts) : Counts :=
  let c := { c with members := c.members - 1 }
  match d with
  | .current => { c with current := c.current - 1 }
  | .queued => { c with queued := c.queued - 1 }
  | .backoff => { c with backoff := c.backoff - 1 }
  | .inFlight => { c with inFlight := c.inFlight - 1 }
  | .failed => { c with failed := c.failed - 1 }

/-- Count a record in, or out, of its administrative zone (R7). -/
def State.countRecord (change : Delivery → Counts → Counts) (l : Option Label) (s : State) : State :=
  match l with
  | none => s
  | some l =>
    let z := s.zone l.adminZone
    s.setZone l.adminZone { z with counts := change l.state z.counts }

/-- Change the bound count of the item a record is bound to (R33). -/
def State.countBinding (change : Nat → Nat) (l : Option Label) (s : State) : State :=
  match l.bind Label.binding with
  | none => s
  | some i =>
    match s.item i with
    | none => s
    | some x => s.setItems (s.items.put i { x with bound := change x.bound })

/-- Write the record of a directory slot, or free the slot, and keep with it the zone queues (R6), the six counts of the zones
concerned (R7) and the bound counts of the items concerned (R33), each by the difference between the two records. Writing the
record the slot holds changes nothing. -/
def State.writeLabel (k : Nat) (new : Option Label) (s : State) : State :=
  let old := s.label k
  if old = new then s
  else (((((s.requeue k old new).countRecord Counts.sub old).countRecord Counts.add new).countBinding (· - 1) old).countBinding
    (· + 1) new).setLabels (s.labels.write k new)

/-- Write observation fields of a record, which concern no queue, count or binding (R5). -/
def State.noteLabel (k : Nat) (l : Label) (s : State) : State := s.setLabels (s.labels.put k l)

/-- Rewrite every label record that meets a test, in ascending slot order (R40, R51, R83, R151). -/
def State.updateLabels (test : Nat → Label → Bool) (change : Nat → Label → Label) (s : State) : State :=
  (s.labels.filter fun kv => test kv.1 kv.2).foldl (fun t kv => t.writeLabel kv.1 (some (change kv.1 kv.2))) s

/-! ## The staged rule (R78) and the staged-outstanding count (R80, R81) -/

/-- The item a record is bound to has a next price set. -/
def State.itemHasNext (s : State) (l : Label) : Bool := ((l.binding.bind s.item).bind Item.next).isSome

/-- An entry is a staged PAGE in flight: side STAGED, staged standing LIVE (section 7.1). -/
def Entry.liveStaged (e : Entry) : Bool :=
  match e.message with
  | .page (.staged .live) _ _ => true
  | _ => false

/-- The label has a staged PAGE for the pending epoch in flight (R78). -/
def State.stagedInFlight (s : State) (k : Nat) (l : Label) : Bool :=
  l.state == .inFlight && s.entries.any fun e =>
    e.label == k && (match e.message with | .page (.staged .live) n _ => s.epoch.pending == some n | _ => false)

/-- The staged rule: while OPEN or ARMED, the label needs its staged side (R78). -/
def State.meetsStagedRule (s : State) (k : Nat) (l : Label) : Bool :=
  s.epochOpen && (s.itemHasNext l || l.stagedPage.isSome || s.stagedInFlight k l)

/-- The two numbers R80 adds: labels with STAGED set, and staged PAGEs in flight. -/
def State.owed (s : State) : Nat := s.labels.countP (fun kv => kv.2.needs.staged) + s.entries.countP Entry.liveStaged

/-- The Directory and the Tracker report the change an event made to those two numbers, in one report, to the Epoch Controller
(R80); a fall to 0 while OPEN or ARMED raises STAGING_COMPLETE (R81). `before` is the state the event began in. -/
def State.reportStaged (s before : State) : State :=
  let n := s.epoch.outstanding + s.owed - before.owed
  let t := s.setEpoch { s.epoch with outstanding := n }
  if n = 0 ∧ 0 < s.epoch.outstanding ∧ s.epochOpen then t.raise .stagingComplete else t

/-! ## Requests served (R174, R181) -/

/-- What an owning block makes of a request: the result and body it composes (none for DEVICE_RESET alone, R184), and the
state it leaves. -/
structure Served where
  reply : Option (Result × List Byte)
  state : State

/-- Answer OK with a body. -/
def State.accept (s : State) (body : List Byte) : Served := ⟨some (.ok, body), s⟩

/-- Refuse: a result other than OK, an empty body, nothing changed (R181). -/
def State.refuse (s : State) (r : Result) : Served := ⟨some (r, []), s⟩

/-- Which port a request came through (R179). -/
inductive Port where
  | gateway | service
  deriving DecidableEq, Repr

/-- The Gateway Port collects a request transaction's bytes: the header and 256 body bytes are kept, and 0xFF is shifted out
for each byte (R172). -/
def State.collect (bytes : List Byte) (s : State) : State :=
  s.setGateway { s.gateway with received := bytes.take (4 + Config.bodyCapacity),
                                shifted := List.replicate bytes.length 0xFF }

/-- The Gateway Port holds a response in place of any held before (R174). -/
def State.holdResponse (tag : Byte) (r : Result × List Byte) (s : State) : State :=
  s.setGateway { s.gateway with held := some ⟨tag, r.1, r.2⟩ }

/-- Hold what the owning block composed, if it composed anything (R174, R184). -/
def Served.held (v : Served) (tag : Byte) : State :=
  match v.reply with
  | none => v.state
  | some r => v.state.holdResponse tag r

/-- A request taken at chip select rise whose frame passed the port's checks (R172 to R174): collected, handed to its owning
block, its response held. Transactions during a reset are ignored (R184). -/
def State.gatewayTake (tag : Byte) (r : Request) (block : State → Served) (s : State) : State :=
  if s.inReset then s else (block (s.collect (r.frame tag))).held tag

end Sys2Proof.Machine
end

