-- ==== Sys2Proof/Machine/Operands.lean ====
section
/-! DEFINITION. The operands of requests and the bytes of responses: the codes of R198 and R200, the checks that turn written
values into stored ones (R29, R30, R92), and the encodings of what responses report. -/

namespace Sys2Proof.Machine

/-! ## Codes -/

/-- The numeric value of a result code (R200). -/
def resultCode : Result → Byte
  | .ok => 0x00 | .none => 0x01 | .unknownKind => 0x02 | .badLength => 0x03 | .badCheck => 0x04 | .notPermitted => 0x05
  | .notFound => 0x06 | .exists => 0x07 | .full => 0x08 | .inUse => 0x09 | .badValue => 0x0A | .layoutBad => 0x0B
  | .wrongEpochState => 0x0C | .epochNotAfter => 0x0D | .radioRunning => 0x0E | .radioStopped => 0x0F | .holdFull => 0x10

/-- The code of a delivery state, also its bit in a LABEL_SCAN state set (R198). -/
def deliveryCode : Delivery → Nat
  | .current => 0 | .queued => 1 | .backoff => 2 | .inFlight => 3 | .failed => 4

/-- The code of an epoch state (R198). -/
def epochStateCode : EpochState → Byte
  | .steady => 0 | .opened => 1 | .armed => 2

/-- The code of a radio state (R198). -/
def radioStateCode : RadioState → Byte
  | .stopped => 0 | .running => 1

/-- The code of a hold state (R198). -/
def holdStateCode : HoldState → Byte
  | .none => 0 | .held => 1

/-- The code of a polarity (R198). -/
def polarityCode : Polarity → Byte
  | .activeLow => 0 | .activeHigh => 1

/-- The polarity a code names (R180, R198). -/
def polarityOf (b : Byte) : Option Polarity :=
  if b = 0 then some .activeLow else if b = 1 then some .activeHigh else none

/-- Enabled or disabled, as a code (R198: 0 disabled, 1 enabled, any other refused). -/
def enableOf (b : Byte) : Option Bool := if b = 0 then some false else if b = 1 then some true else none

/-- The number of base units of a basis (R30). -/
def Basis.units : Basis → Nat
  | .one => 1 | .ten => 10 | .hundred => 100 | .thousand => 1000

/-- The basis a written value names (R30). -/
def basisOf (n : Nat) : Option Basis :=
  if n = 1 then some .one else if n = 10 then some .ten else if n = 100 then some .hundred
  else if n = 1000 then some .thousand else none

/-- The basis code of the indicator byte (R64). -/
def Basis.code : Basis → Nat
  | .one => 0 | .ten => 1 | .hundred => 2 | .thousand => 3

/-- The code of a unit kind (R64, R198). -/
def UnitKind.code : UnitKind → Nat
  | .piece => 0 | .mass => 1 | .volume => 2 | .length => 3

/-- The unit kind a code names (R198). -/
def unitKindOf (b : Byte) : Option UnitKind :=
  match b.toNat with
  | 0 => some .piece | 1 => some .mass | 2 => some .volume | 3 => some .length | _ => none

/-- The code of a field kind (R198). -/
def FieldKind.code : FieldKind → Byte
  | .price => 0 | .oldPrice => 1 | .unitPrice => 2 | .savePct => 3 | .itemCode => 4 | .indicator => 5

/-- The field kind a code names (R198). -/
def fieldKindOf (b : Byte) : Option FieldKind :=
  match b.toNat with
  | 0 => some .price | 1 => some .oldPrice | 2 => some .unitPrice | 3 => some .savePct | 4 => some .itemCode
  | 5 => some .indicator | _ => none

/-! ## Written values -/

/-- A zone number, refused above 63 (R119, R121, R151, R161). -/
def zoneOf (b : Byte) : Option ZoneNo := if b.toNat ≤ 63 then some (Fin.ofNat 64 b.toNat) else none

/-- An item number, refused at 0 and above 99,999,999 (R29). -/
def itemNumberOf (n : BitVec 32) : Option Nat :=
  if n.toNat = 0 ∨ n.toNat > Config.moneyLimit then none else some n.toNat

/-- A price set as R30 checks it and stores it; `none` is BAD_VALUE. -/
def priceSetOf (p : PriceWords) : Option PriceSet :=
  if p.price.toNat > Config.moneyLimit then none
  else if p.old.any (fun o => o.toNat > Config.moneyLimit) then none
  else if p.quantity.toNat > Config.quantityLimit then none
  else match basisOf p.basis.toNat, unitKindOf p.kind with
    | some basis, some kind => some
        { price := p.price.toNat, old := p.old.map BitVec.toNat, promo := p.promo,
          quantity := if p.quantity.toNat = 0 then none else some p.quantity.toNat, basis := basis, kind := kind }
    | _, _ => none

/-- A value brought into a range before it is stored (R92). -/
def clamp (low high n : Nat) : Nat := max low (min high n)

/-! ## Bytes of responses (R198) -/

/-- A price set: 17 bytes (R198). -/
def PriceSet.bytes (p : PriceSet) : List Byte :=
  leBytes 4 p.price ++ optBytes 4 p.old ++ [flagByte p.promo] ++ leBytes 4 (p.quantity.getD 0) ++ leBytes 2 p.basis.units
    ++ leBytes 1 p.kind.code

/-- Settings: zone, lane, listen exponent, listen phase, one byte each (R198). -/
def Settings.bytes (c : Settings) : List Byte :=
  leBytes 1 c.zone.val ++ leBytes 1 c.lane.val ++ leBytes 1 c.exponent.val ++ leBytes 1 c.phase

/-- An optional value of several fields behind one presence byte; all its bytes are 0 when it is absent (R198). Of the
values that R198 lets stand for present the byte sent is always 1. DESIGN CHOICE (assumption 14). -/
def optGroup (width : Nat) : Option (List Byte) → List Byte
  | none => 0 :: List.replicate width 0
  | some bytes => 1 :: bytes

/-- An optional frame number (R198). -/
def optFrame (f : Option Frame) : List Byte := optBytes 3 (f.map BitVec.toNat)

/-- A Service Line response frame: sync, tag, result, length, body and the check byte that makes the sum of every byte after
the sync 0 modulo 256 (R178, R197). -/
def serviceFrameOf (tag : Byte) (result : Result) (body : List Byte) : List Byte :=
  let covered := [tag, resultCode result] ++ leBytes 2 body.length ++ body
  (0xA5 : Byte) :: (covered ++ [-(covered.foldl (· + ·) 0)])

/-- What a READ_RESPONSE transaction clocks out after its first byte: tag, result, body length, body (R175, R197). -/
def Response.bytes (r : Response) : List Byte := [r.tag, resultCode r.result] ++ leBytes 2 r.body.length ++ r.body

/-- What is read when no response is held: tag 0, NONE, length 0 (R175). -/
def Response.nothing : Response := ⟨0, .none, []⟩

end Sys2Proof.Machine
end

