-- ==== Sys2Proof/Machine/Flags.lean ====
section
/-! DEFINITION. The flag sets the block reports and the NOTICE line that follows from them (R186 to R192, R198). -/

namespace Sys2Proof.Machine

/-- A byte whose bits are given, bit 0 first. -/
def byteOfBits : List Bool → Byte
  | [] => 0
  | b :: bs => (if b then 1 else 0) + (byteOfBits bs <<< 1)

/-- A set of notice sources as a byte (R198). -/
def SourceSet.byte (t : SourceSet) : Byte :=
  byteOfBits [t.cutoverDone, t.stagingComplete, t.labelFailed, t.holdEnded, t.renderOverflow, t.serviceChange]

/-- The set a byte names; bit 6 or 7 set is refused BAD_VALUE (R191, R192, R198). -/
def sourceSetOf (b : Byte) : Option SourceSet :=
  if b.toNat < 64 then
    some ⟨b.getLsbD 0, b.getLsbD 1, b.getLsbD 2, b.getLsbD 3, b.getLsbD 4, b.getLsbD 5⟩
  else none

/-- The sources of a set that another does not name (R191). -/
def SourceSet.without (t u : SourceSet) : SourceSet :=
  ⟨t.cutoverDone && !u.cutoverDone, t.stagingComplete && !u.stagingComplete, t.labelFailed && !u.labelFailed,
   t.holdEnded && !u.holdEnded, t.renderOverflow && !u.renderOverflow, t.serviceChange && !u.serviceChange⟩

/-- Some source is in both sets (R188). -/
def SourceSet.meets (t u : SourceSet) : Bool :=
  (t.cutoverDone && u.cutoverDone) || (t.stagingComplete && u.stagingComplete) || (t.labelFailed && u.labelFailed)
    || (t.holdEnded && u.holdEnded) || (t.renderOverflow && u.renderOverflow) || (t.serviceChange && u.serviceChange)

/-- The NOTICE line is active: a source is both pending and enabled (R188). -/
def State.noticeActive (s : State) : Bool := s.notices.pending.meets s.notices.enabled

/-- What the NOTICE pin does by the polarity (R188); during a reset it is released (R196). -/
def State.noticePin (s : State) : PinDrive :=
  if s.inReset then .released
  else match s.notices.polarity with
    | .activeLow => if s.noticeActive then .drivenLow else .released
    | .activeHigh => if s.noticeActive then .released else .drivenLow

/-- The four flags of a label as LABEL_GET reports them and LABEL_SCAN names them (R198). -/
def Label.flagsByte (l : Label) : Byte := byteOfBits [l.lowBattery, l.overflow, l.mismatch, l.serviceTouched]

/-- The needs of a label as LABEL_GET reports them, SETTINGS in bit 4 (R22, R198). -/
def State.needsByte (s : State) (k : Nat) (l : Label) : Byte :=
  byteOfBits [l.needs.shown, l.needs.staged, l.needs.query, l.needs.locate, s.settingsHeld k l]

end Sys2Proof.Machine
end

