-- ==== Sys2Proof/Machine/Epochs.lean ====
section
/-! DEFINITION. The Epoch Controller (chapter 4): EPOCH_OPEN, EPOCH_SCHEDULE, EPOCH_ABANDON, EPOCH_STATUS, the cutover and
COUNTDOWN_EXPIRY. -/

namespace Sys2Proof.Machine

/-- One epoch number lies after another: their difference modulo 65,536 lies in 1 to 32,767 (R72, R73). -/
def liesAfter (e f : Epoch) : Bool := 1 ≤ (e - f).toNat && (e - f).toNat ≤ 32767

/-- EPOCH_OPEN (R73, R74). -/
def serveEpochOpen (e : Epoch) (s : State) : Served :=
  if e = 0 then s.refuse .badValue
  else if s.epochOpen then s.refuse .wrongEpochState
  else if !(liesAfter e s.epoch.lastIssued && liesAfter e s.epoch.active) then s.refuse .epochNotAfter
  else (s.setEpoch { s.epoch with state := .opened, lastIssued := e, pending := some e }).accept (leBytes 2 e.toNat)

/-- The cutover commits the staged prices (R82). -/
def Item.committed (x : Item) : Item := { x with current := x.next.getD x.current, next := none }

/-- The cutover converts a label record (R83): a confirmed staged page of the pending epoch is presumed shown and removed;
STAGED becomes SHOWN. -/
def Label.cutOver (pending : Option Epoch) (l : Label) : Label :=
  let l := match l.stagedPage with
    | some p => if pending = some p.epoch then { l with shownCheck := some p.check, stagedPage := none } else l
    | none => l
  if l.needs.staged then { l with needs := { l.needs with staged := false, shown := true } } else l

/-- The cutover relabels a LIVE staged entry as a PAGE to the SHOWN side (R84, R154); other entries are not changed. -/
def Entry.relabelled (e : Entry) : Entry :=
  match e.message with
  | .page (.staged .live) n c =>
    { e with message := .page .shown n c,
             remembered := { e.remembered with shown := e.remembered.shown || e.remembered.staged, staged := false } }
  | _ => e

/-- An abandon withdraws a LIVE staged entry (R88, R155). -/
def Entry.withdrawn (e : Entry) : Entry :=
  match e.message with
  | .page (.staged .live) n c =>
    { e with message := .page (.staged .withdrawn) n c, remembered := { e.remembered with staged := false } }
  | _ => e

/-- The epoch record once a changeover has ended (R85, R87): STEADY, nothing pending, countdown and count 0. -/
def EpochRecord.ended (e : EpochRecord) (active : Epoch) : EpochRecord :=
  { e with state := .steady, active := active, pending := none, countdown := 0, outstanding := 0, expiryDue := false }

/-- The cutover, one event (R82 to R85): items committed, labels converted in slot order, LIVE entries relabelled, the pending
epoch made active, CUTOVER_DONE raised. -/
def State.cutover (s : State) : State :=
  let t := s.setItems (s.items.map fun kx => (kx.1, kx.2.committed))
  let t := t.updateLabels (fun _ _ => true) (fun _ l => l.cutOver s.epoch.pending)
  let t := t.setEntries (t.entries.map Entry.relabelled)
  (t.setEpoch (t.epoch.ended (t.epoch.pending.getD t.epoch.active))).raise .cutoverDone

/-- EPOCH_SCHEDULE (R75, R76). A countdown set replaces one running, an expiry due at this frame start included (R77). -/
def serveEpochSchedule (count : BitVec 32) (s : State) : Served :=
  let n := count.toNat
  if n > Config.countdownLimit then s.refuse .badValue
  else if !s.epochOpen then s.refuse .wrongEpochState
  else
    let t := if n = 0 then s.cutover
      else s.setEpoch { s.epoch with state := .armed, countdown := n, expiryDue := false }
    t.accept (leBytes 4 t.epoch.countdown ++ leBytes 2 t.epoch.active.toNat)

/-- An abandon clears a label's staged work; one left with no need becomes CURRENT unless it is IN_FLIGHT (R15, R87). A change
noted since the label's grant stands while SHOWN does (assumption 24). -/
def Label.abandon (l : Label) : Label :=
  ({ l with needs := { l.needs with staged := false }, stagedPage := none, changed := l.changed && l.needs.shown }).followNeeds

/-- EPOCH_ABANDON (R87, R88). -/
def serveEpochAbandon (s : State) : Served :=
  if !s.epochOpen then s.refuse .wrongEpochState
  else
    let t := s.setItems (s.items.map fun kx => (kx.1, { kx.2 with next := none }))
    let t := t.updateLabels (fun _ l => l.needs.staged || l.stagedPage.isSome) (fun _ l => l.abandon)
    let t := t.setEntries (t.entries.map Entry.withdrawn)
    (t.setEpoch (t.epoch.ended t.epoch.active)).accept (leBytes 2 (s.epoch.pending.getD 0).toNat)

/-- EPOCH_STATUS (R89). -/
def serveEpochStatus (s : State) : Served :=
  s.accept ([epochStateCode s.epoch.state] ++ leBytes 2 s.epoch.active.toNat ++ leBytes 2 s.epoch.lastIssued.toNat
    ++ optBytes 2 (s.epoch.pending.map BitVec.toNat) ++ leBytes 4 s.epoch.countdown ++ leBytes 2 s.epoch.outstanding
    ++ leBytes 3 s.radio.frame.toNat)

/-- The Epoch Controller's frame-start work (R77): an ARMED countdown is decremented. A decrement that reaches 0 is the expiry; it
stays due, for its own row or for the frame's first window, and the countdown reads 1 until it is taken (assumption 3). -/
def State.countDown (s : State) : State :=
  if s.epoch.state = .armed then
    if s.epoch.countdown ≤ 1 then s.setEpoch { s.epoch with expiryDue := true }
    else s.setEpoch { s.epoch with countdown := s.epoch.countdown - 1 }
  else s

/-- A due expiry taken: the countdown reaches 0 and the cutover is taken (R77). -/
def State.takeExpiry (s : State) : State := if s.epoch.expiryDue && s.epoch.state == .armed then s.cutover else s

/-- EPOCH_OPEN taken from the Gateway Port. -/
def execEpochOpen (tag : Byte) (e : Epoch) (s : State) : Host.Outcome State Fault Refusal :=
  .next (s.gatewayTake tag (.epochOpen e) (serveEpochOpen e))

/-- EPOCH_SCHEDULE taken from the Gateway Port. -/
def execEpochSchedule (tag : Byte) (count : BitVec 32) (s : State) : Host.Outcome State Fault Refusal :=
  .next (s.gatewayTake tag (.epochSchedule count) (serveEpochSchedule count))

/-- EPOCH_ABANDON taken from the Gateway Port. -/
def execEpochAbandon (tag : Byte) (s : State) : Host.Outcome State Fault Refusal :=
  .next (s.gatewayTake tag .epochAbandon serveEpochAbandon)

/-- EPOCH_STATUS taken from the Gateway Port. -/
def execEpochStatus (tag : Byte) (s : State) : Host.Outcome State Fault Refusal :=
  .next (s.gatewayTake tag .epochStatus serveEpochStatus)

/-- COUNTDOWN_EXPIRY (R77). Where no expiry is due the event does not occur. -/
def execCountdownExpiry (s : State) : Host.Outcome State Fault Refusal := .next s.takeExpiry

end Sys2Proof.Machine
end

