-- ==== Sys2Proof/Machine/Render.lean ====
section
/-! DEFINITION. The Page Renderer (sections 3.3 to 3.8) and the messages the controller transmits (R101, R102, R201). -/

namespace Sys2Proof.Machine

/-! ## Fields (R58 to R64) -/

/-- The blank code of a place (R58). -/
def blankPlace : BitVec 4 := 0xF

/-- The dash code of a place (R58). -/
def dashPlace : BitVec 4 := 0xE

/-- `d` decimal digits of a value, most significant first; above the lowest `m` places leading zeros are blank (R58). -/
def digitPlaces (d m v : Nat) : List (BitVec 4) :=
  (List.range d).map fun i =>
    let high := v / 10 ^ (d - 1 - i)
    if high = 0 ∧ i + m < d then blankPlace else BitVec.ofNat 4 (high % 10)

/-- The promotion condition (R61). -/
def PriceSet.promotion (p : PriceSet) : Bool := p.promo && p.old.any (fun o => p.price < o)

/-- The value a numeric field shows on a bound label's page, or `none` when it is blank (R59 to R63). -/
def fieldValue (number : Nat) (p : PriceSet) : FieldKind → Option Nat
  | .price => some p.price
  | .itemCode => some number
  | .oldPrice => if p.promotion then p.old else none
  | .unitPrice => p.quantity.map fun q => (2 * p.price * p.basis.units + q) / (2 * q)
  | .savePct =>
    if p.promotion then
      p.old.bind fun o => let v := (o - p.price) * 100 / o; if v = 0 then none else some v
    else none
  | .indicator => none

/-- A value overflows a field of `d` places (R58). -/
def overflows (d : Nat) (v : Option Nat) : Bool := v.any fun v => 10 ^ d ≤ v

/-- The places of a numeric field: blank, overflow or the value (R58, R59). -/
def numericPlaces (f : Field) (v : Option Nat) : List (BitVec 4) :=
  match v with
  | none => List.replicate f.digits blankPlace
  | some n => if 10 ^ f.digits ≤ n then List.replicate f.digits dashPlace else digitPlaces f.digits f.minimum n

/-- The indicator byte (R64). -/
def indicatorByte (p : PriceSet) (overflow : Bool) : Byte :=
  BitVec.ofNat 8 ((if p.promotion then 128 else 0) + (if overflow then 64 else 0) + 16 * p.basis.code + 4 * p.kind.code)

/-- The two places of an INDICATOR field: its byte's high half first (R47, R57). -/
def indicatorPlaces (b : Byte) : List (BitVec 4) := [b.extractLsb' 4 4, b.extractLsb' 0 4]

/-! ## Pages (R56, R57, R66) -/

/-- Write places into a page from a place on; the other places stay (R57). -/
def writePlaces (page : List (BitVec 4)) (start : Nat) (places : List (BitVec 4)) : List (BitVec 4) :=
  page.take start ++ places ++ page.drop (start + places.length)

/-- Two places to a byte, the high half first (R57). -/
def packPlaces : List (BitVec 4) → List Byte
  | h :: l :: t => (h ++ l) :: packPlaces t
  | _ => []

/-- Some numeric field of the page overflows (R65). -/
def pageOverflows (t : Template) (content : Option (Nat × PriceSet)) : Bool :=
  match content with
  | none => false
  | some (number, p) => t.fields.any fun f => overflows f.digits (fieldValue number p f.kind)

/-- The places one field receives: `content` is the item number and price set of a bound label, `none` for the blank page, whose
numeric fields are blank and whose INDICATOR fields hold 0 (R66). -/
def fieldPlaces (t : Template) (content : Option (Nat × PriceSet)) (f : Field) : List (BitVec 4) :=
  match content with
  | none => if f.kind = .indicator then [0, 0] else List.replicate f.digits blankPlace
  | some (number, p) =>
    if f.kind = .indicator then indicatorPlaces (indicatorByte p (pageOverflows t content))
    else numericPlaces f (fieldValue number p f.kind)

/-- The places of a page: all ones, then the numeric fields in list order, then the INDICATOR fields (R56). -/
def pagePlaces (t : Template) (content : Option (Nat × PriceSet)) : List (BitVec 4) :=
  let write := fun page (f : Field) => writePlaces page (f.offset / 4) (fieldPlaces t content f)
  let numeric := (t.fields.filter fun f => f.kind != .indicator).foldl write (List.replicate (2 * t.length) blankPlace)
  (t.fields.filter fun f => f.kind == .indicator).foldl write numeric

/-- The page bytes (R56). -/
def pageBytes (t : Template) (content : Option (Nat × PriceSet)) : List Byte := packPlaces (pagePlaces t content)

/-- The bytes of a page that the check mask includes, in ascending byte order, from byte `k` on (R67). -/
def includedBytes (mask : BitVec 48) : Nat → List Byte → List Byte
  | _, [] => []
  | k, b :: bs => if mask.getLsbD k then b :: includedBytes mask (k + 1) bs else includedBytes mask (k + 1) bs

/-- The page check (R67). -/
def pageCheck (t : Template) (page : List Byte) : Check := crc16 (includedBytes t.mask 0 page)

/-- What a label's page is rendered from: the item's number with its current set, or with its next set on the STAGED side when
it has one; `none` for an unbound label (R55, R79). -/
def State.pageContent (s : State) (side : PageSide) (l : Label) : Option (Nat × PriceSet) :=
  (l.binding.bind s.item).map fun x =>
    (x.number, match side with
      | .shown => x.current
      | .staged _ => x.next.getD x.current)

/-! ## Messages (R101, R102, R201) -/

/-- The beacon of a frame (R101, R201). -/
def State.beacon (s : State) : List Byte :=
  sealAir ([(0x01 : Byte)] ++ leBytes 3 s.radio.frame.toNat ++ leBytes 2 s.epoch.active.toNat
    ++ leBytes 1 s.radio.config.ackDelay ++ leBytes 1 s.holdSet.length ++ s.holdSet.flatMap fun z => leBytes 1 z.val)

/-- The side code of a PAGE (R201). -/
def sideCode : PageSide → Byte
  | .shown => 0
  | .staged _ => 1

/-- A PAGE (R102, R201). -/
def pageMessage (a : Address) (side : PageSide) (epoch : Epoch) (c : Settings) (locate : Bool) (template : Fin 32)
    (page : List Byte) (check : Check) : List Byte :=
  sealAir ([(0x02 : Byte)] ++ leBytes 3 a.toNat ++ [sideCode side] ++ leBytes 2 epoch.toNat ++ c.bytes ++ [flagByte locate]
    ++ leBytes 1 template.val ++ leBytes 1 page.length ++ page ++ leBytes 2 check.toNat)

/-- A QUERY (R102, R201). -/
def queryMessage (a : Address) (c : Settings) (locate : Bool) : List Byte :=
  sealAir ([(0x03 : Byte)] ++ leBytes 3 a.toNat ++ c.bytes ++ [flagByte locate])

end Sys2Proof.Machine
end

