-- ==== Sys2Proof/Machine/Delivery.lean ====
section
/-! DEFINITION. The Delivery Tracker (chapter 7): the grant, the judgement of an acknowledgement, success, failed attempt, abort. -/

namespace Sys2Proof.Machine

/-! ## The grant (R135 to R137) -/

/-- The kind and side of the message chosen at a grant (R135): SHOWN first, then STAGED, otherwise a QUERY. -/
def messageSide (n : Needs) : Option PageSide :=
  if n.shown then some .shown else if n.staged then some (.staged .live) else none

/-- The flags the chosen message satisfies, cleared on the record and remembered in the entry (R136). -/
def satisfied (n : Needs) : Needs :=
  match messageSide n with
  | some .shown => ⟨true, false, false, n.locate⟩
  | some (.staged _) => ⟨false, true, false, n.locate⟩
  | none => ⟨false, false, n.query, n.locate⟩

/-- The flags of one set that another lacks. -/
def Needs.minus (n m : Needs) : Needs :=
  ⟨n.shown && !m.shown, n.staged && !m.staged, n.query && !m.query, n.locate && !m.locate⟩

/-- The epoch a PAGE carries: the pending epoch for STAGED, 0 for SHOWN (R102). -/
def State.pageEpoch (s : State) : PageSide → Epoch
  | .shown => 0
  | .staged _ => s.epoch.pending.getD 0

/-- What a grant sends to a label: what its entry records of the message, the bytes transmitted, and, for a PAGE, whether its
render overflowed (R55, R65, R135). -/
def State.chooseMessage (s : State) (l : Label) : Sent × List Byte × Option Bool :=
  match messageSide l.needs with
  | none => (.query, queryMessage l.address l.settingsToSend l.needs.locate, none)
  | some side =>
    let t := (s.templates.find l.template.val).getD ⟨0, 0, []⟩
    let content := s.pageContent side l
    let page := pageBytes t content
    let check := pageCheck t page
    (.page side (s.pageEpoch side) check,
      pageMessage l.address side (s.pageEpoch side) l.settingsToSend l.needs.locate l.template page check,
      some (pageOverflows t content))

/-- The entry a grant fills (R137). -/
def State.grantEntry (s : State) (lane : Lane) (slot : SlotNo) (k : Nat) (l : Label) : Entry :=
  { lane := lane, grantFrame := s.radio.frame, slot := slot, expected := framePlus s.radio.frame s.radio.config.ackDelay,
    label := k, address := l.address, message := (s.chooseMessage l).1, remembered := satisfied l.needs,
    settings := l.settingsToSend }

/-- The record after its grant (R10, R65, R136): IN_FLIGHT, the satisfied flags cleared, OVERFLOW as the render found it. -/
def State.grantedLabel (s : State) (l : Label) : Label :=
  { l with state := .inFlight, needs := l.needs.minus (satisfied l.needs), overflow := (s.chooseMessage l).2.2.getD l.overflow,
           changed := false }

/-- A lane's transmitter sends, or is left silent, in the window it opened (R98, R99). -/
def State.transmit (lane : Lane) (message : Option (List Byte)) (s : State) : State :=
  s.setAir { s.air with sent := s.air.sent.set lane.val message }

/-- The grant of a data slot to a label (R10, R99, R130, R135 to R137). -/
def State.grant (lane : Lane) (slot : SlotNo) (k : Nat) (s : State) : State :=
  match s.label k with
  | none => s
  | some l =>
    let t := (s.setEntries (s.entries ++ [s.grantEntry lane slot k l])).writeLabel k (some (s.grantedLabel l))
    let t := (t.transmit lane (some (s.chooseMessage l).2.1)).reportStaged s
    if (s.chooseMessage l).2.2 = some true then t.raise .renderOverflow else t

/-! ## Resolution (R140 to R146) -/

/-- A matched arrival is a success (R140). -/
def Entry.succeeds (e : Entry) (a : Ack) : Bool :=
  match e.message with
  | .page .shown _ check => a.accepted && a.shownCheck == check
  | .page (.staged _) epoch check => a.accepted && a.stagedEpoch == epoch && a.stagedCheck == check
  | .query => a.accepted

/-- The observations of a matched arrival (R5, R139). -/
def Label.observe (f : Frame) (a : Ack) (l : Label) : Label :=
  { l with battery := some a.battery, lastHeard := some f, lowBattery := a.battery.val ≤ 2 }

/-- Requested settings equal to given ones are removed (R12, R143). -/
def Label.dropRequested (c : Settings) (l : Label) : Label :=
  if l.requested = some c then { l with requested := none } else l

/-- The settings sent are confirmed (R143). -/
def Label.confirm (c : Settings) (l : Label) : Label := ({ l with confirmed := c }).dropRequested c

/-- The shown side of a successful QUERY compared with the record (R144). -/
def Label.compareShown (a : Ack) (l : Label) : Label :=
  match l.shownCheck with
  | none => { l with shownCheck := some a.shownCheck }
  | some c => if c = a.shownCheck then l else { l with needs := { l.needs with shown := true }, mismatch := true }

/-- The staged side of a successful QUERY compared with the record while OPEN or ARMED (R144). -/
def Label.compareStaged (pending : Option Epoch) (a : Ack) (l : Label) : Label :=
  let owed := { l with needs := { l.needs with staged := true }, stagedPage := none }
  if pending = some a.stagedEpoch then
    match l.stagedPage with
    | some p => if p.check = a.stagedCheck then l else owed
    | none => owed
  else if l.stagedPage.isSome then owed else l

/-- What the success of an entry writes into the record besides the settings (R141, R142, R144). -/
def State.confirmMessage (s : State) (e : Entry) (a : Ack) (l : Label) : Label :=
  match e.message with
  | .page .shown _ check => { l with shownCheck := some check, mismatch := false }
  | .page (.staged .live) epoch check => { l with stagedPage := some ⟨epoch, check⟩ }
  | .page (.staged .withdrawn) _ _ => l
  | .query =>
    let l := l.compareShown a
    if s.epochOpen then l.compareStaged s.epoch.pending a else l

/-- The record a success returns (R11, R145): attempts 0; QUEUED if it has a need, otherwise CURRENT. -/
def State.successLabel (s : State) (e : Entry) (a : Ack) (l : Label) : Label :=
  let l := s.confirmMessage e a (l.confirm e.settings)
  { l with attempts := 0, state := if l.hasNeed then .queued else .current }

/-- The record a delivery returns with its remembered needs set again and requested settings equal to the confirmed ones removed:
the common part of a failed attempt and an abort (R12, R13). -/
def Label.takeBack (e : Entry) (l : Label) : Label :=
  ({ l with needs := l.needs.union e.remembered }).dropRequested l.confirmed

/-- The record a failed attempt in frame `f` returns (R12, R146, R148). At MAX_ATTEMPTS a label that a content change marked while
IN_FLIGHT, an item change, a bind, a template change or a reload, returns to its queue by R40, R41, R52 and R157, and is FAILED in no
queue by R12 and R146: which, the free value of assumption 24 says. DESIGN CHOICE (assumption 24): the label that returns is QUEUED
with attempts 0, as the same change taken after the failure leaves it (R9, R157); below MAX_ATTEMPTS every label waits in its queue
in BACKOFF (R12); and a LABEL_QUERY or LABEL_LOCATE taken in flight makes no difference. -/
def Label.failAttempt (c : RadioConfig) (f : Frame) (e : Entry) (l : Label) : Label :=
  let l := l.takeBack e
  if !l.hasNeed then { l with state := .current, attempts := 0, retryFrame := none }
  else
    let n := min 15 (l.attempts + 1)
    if c.maxAttempts ≤ n && l.changed && Config.changedInFlightRequeued then
      { l with state := .queued, attempts := 0, retryFrame := none }
    else if c.maxAttempts ≤ n then { l with state := .failed, attempts := n, retryFrame := none }
    else { l with state := .backoff, attempts := n, retryFrame := some (framePlus f c.retryGap) }

/-- The record an abort returns (R13, R156). -/
def Label.abort (e : Entry) (l : Label) : Label :=
  let l := l.takeBack e
  if l.hasNeed then { l with state := .queued, retryFrame := none }
  else { l with state := .current, attempts := 0, retryFrame := none }

/-- An entry is freed (R133). -/
def State.freeEntry (e : Entry) (s : State) : State := s.setEntries (s.entries.erase e)

/-- A delivery resolved as a failed attempt (R146, R147, R149); LABEL_FAILED is raised by the transition into FAILED. -/
def State.failEntry (e : Entry) (l : Label) (s : State) : State :=
  let l' := l.failAttempt s.radio.config s.radio.frame e
  let t := (s.freeEntry e).writeLabel e.label (some l')
  if l'.state = .failed then t.raise .labelFailed else t

/-- A delivery resolved as a success (R141 to R145); the label is eligible on no lane in the rest of the frame (R110). -/
def State.succeedEntry (e : Entry) (a : Ack) (l : Label) (s : State) : State :=
  let t := (s.freeEntry e).writeLabel e.label (some (s.successLabel e a l))
  t.setAir { t.air with confirmedNow := e.label :: t.air.confirmedNow }

/-- A matched arrival: observations first, then the judgement (R138 to R140). -/
def State.resolveArrival (e : Entry) (a : Ack) (s : State) : State :=
  match s.label e.label with
  | none => (s.freeEntry e).reportStaged s
  | some l =>
    let l := l.observe s.radio.frame a
    ((if e.succeeds a then s.succeedEntry e a l else s.failEntry e l)).reportStaged s

/-- The entry an arrival matches (R138). -/
def State.matchArrival (s : State) (lane : Lane) (slot : SlotNo) (a : Address) : Option Entry :=
  s.entries.find? fun e => e.lane == lane && e.expected == s.radio.frame && e.slot == slot && e.address == a

/-- The entry that expects an ack slot of this frame (R147). -/
def State.expecting (s : State) (lane : Lane) (slot : SlotNo) : Option Entry :=
  s.entries.find? fun e => e.lane == lane && e.expected == s.radio.frame && e.slot == slot

/-- An ack slot's close as a failed attempt of the entry still expecting it (R147); no observation is written. -/
def State.resolveClose (e : Entry) (s : State) : State :=
  match s.label e.label with
  | none => (s.freeEntry e).reportStaged s
  | some l => (s.failEntry e l).reportStaged s

/-! ## RADIO_STOP (R95, R156) -/

/-- The order of aborts: ascending lane, then grant frame, then data slot (R95), the older grant first also where the frame number
has wrapped between the two (assumption 8). -/
def abortBefore (now : Frame) (a b : Entry) : Bool :=
  a.lane < b.lane || (a.lane == b.lane &&
    ((now - b.grantFrame).toNat < (now - a.grantFrame).toNat || (a.grantFrame == b.grantFrame && a.slot ≤ b.slot)))

/-- Insert an entry into a list in abort order. -/
def insertEntry (now : Frame) (e : Entry) : List Entry → List Entry
  | [] => [e]
  | x :: xs => if abortBefore now e x then e :: x :: xs else x :: insertEntry now e xs

/-- The entries in abort order. -/
def State.abortOrder (s : State) : List Entry := s.entries.foldr (insertEntry s.radio.frame) []

/-- One entry aborted (R13, R156). -/
def State.abortEntry (e : Entry) (s : State) : State :=
  let t := s.freeEntry e
  match s.label e.label with
  | none => t
  | some l => t.writeLabel e.label (some (l.abort e))

/-- Every entry aborted (R156). -/
def State.abortAll (s : State) : State := s.abortOrder.foldl (fun t e => t.abortEntry e) s

end Sys2Proof.Machine
end

