-- ==== Sys2Proof/Machine/Holds.lean ====
section
/-! DEFINITION. The Hold Unit (chapter 8): beginning, changing and ending holds, the frame-start count, ZONE_HOLD,
ZONE_RELEASE, HOLD_BUDGET_SPENT, HOLD_IDLE_REACHED. -/

namespace Sys2Proof.Machine

/-- A zone is HELD. -/
def Zone.isHeld (x : Zone) : Bool := x.hold == .held

/-- The end of a hold, whatever ends it (R163): state NONE, out of the hold set, no hold start, budget and idle count kept, one
HOLD_ENDED. A count still due for the zone is dropped, so that a hold begun again in the same frame is first counted at the next
FRAME_START (assumption 23). -/
def State.endHold (z : ZoneNo) (s : State) : State :=
  ((((s.setZone z { s.zone z with hold := .none, holdStart := none, holdFrames := 0 }).setHoldSet (s.holdSet.erase z)).setHoldsDue
    (s.holdsDue.erase z)).raise .holdEnded)

/-- The beginning of a hold (R160). The hold start is the frame whose beacons first carry the zone: this frame while its beacons
are still to be composed, otherwise the next. -/
def State.beginHold (z : ZoneNo) (budget : Nat) (s : State) : State :=
  let start := if s.air.beaconDue then s.radio.frame else framePlus s.radio.frame 1
  (s.setZone z { s.zone z with hold := .held, budget := budget, idle := 0, holdStart := some start,
                               holdFrames := if s.air.beaconDue then 1 else 0 }).setHoldSet (s.holdSet ++ [z])

/-- The position of a zone in the hold set, counted from 1 at the oldest hold; 0 when it is not HELD (R161). -/
def State.holdPosition (s : State) (z : ZoneNo) : Nat := if s.holdSet.contains z then s.holdSet.idxOf z + 1 else 0

/-- The one layout of an OK response to ZONE_HOLD and ZONE_RELEASE (R160, R161). -/
def State.holdBody (s : State) (z : ZoneNo) : List Byte :=
  let x := s.zone z
  [holdStateCode x.hold] ++ leBytes 2 x.budget ++ leBytes 1 x.idle ++ optFrame x.holdStart ++ leBytes 1 (s.holdPosition z)
    ++ leBytes 1 s.holdSet.length

/-- ZONE_HOLD (R160 to R162). -/
def serveZoneHold (zone : Byte) (budget : BitVec 16) (s : State) : Served :=
  match zoneOf zone with
  | none => s.refuse .badValue
  | some z =>
    let b := budget.toNat
    if (s.zone z).isHeld then
      if b = 0 then let t := s.endHold z; t.accept (t.holdBody z)
      else let t := s.setZone z { s.zone z with budget := b, idle := 0 }; t.accept (t.holdBody z)
    else if b = 0 then s.accept (s.holdBody z)
    else if !s.running then s.refuse .radioStopped
    else if s.holdSet.length ≥ Config.holdCapacity then s.refuse .holdFull
    else let t := s.beginHold z b; t.accept (t.holdBody z)

/-- ZONE_RELEASE (R163). -/
def serveZoneRelease (zone : Byte) (s : State) : Served :=
  match zoneOf zone with
  | none => s.refuse .badValue
  | some z =>
    let t := if (s.zone z).isHeld then s.endHold z else s
    t.accept (t.holdBody z)

/-- One count of a HELD zone: the budget falls by 1; the idle count rises while the zone's queued and backoff counts are both 0,
and otherwise becomes 0 (R164, steps 1 and 2). -/
def Zone.counted (x : Zone) : Zone :=
  { x with budget := x.budget - 1, idle := if x.counts.queued = 0 ∧ x.counts.backoff = 0 then x.idle + 1 else 0 }

/-- The count leaves the budget spent or the idle count at HOLD_IDLE (R164, step 3). -/
def State.countEnds (s : State) (z : ZoneNo) : Bool :=
  (s.zone z).counted.budget == 0 || (s.zone z).counted.idle == s.radio.config.holdIdle

/-- The frame-start count over the hold set, in its order (R164): a zone that the count does not end is counted now; one that it
ends stays due, for its own row or for the frame's first window (assumption 3). DESIGN CHOICE (assumption 23): a hold that begins, or
whose budget is replaced, while another zone's ending count is still due is first counted at the next FRAME_START. -/
def State.countHolds (s : State) : State :=
  s.holdSet.foldl (fun t z => if t.countEnds z then t.setHoldsDue (t.holdsDue ++ [z]) else t.setZone z (t.zone z).counted) s

/-- A due count taken: the zone is counted, and its hold ends if a limit is reached (R164). -/
def State.takeHoldCount (z : ZoneNo) (s : State) : State :=
  if s.holdsDue.contains z then
    let t := (s.setZone z (s.zone z).counted).setHoldsDue (s.holdsDue.erase z)
    if s.countEnds z then t.endHold z else t
  else s

/-- All due counts taken, in hold-set order (R164). -/
def State.takeDueHolds (s : State) : State := s.holdsDue.foldl (fun t z => t.takeHoldCount z) s

/-- A frame of each hold begins: the model's count of a hold's frames (R111; assumption 6). -/
def State.ageHolds (s : State) : State :=
  s.holdSet.foldl (fun t z => t.setZone z { t.zone z with holdFrames := (t.zone z).holdFrames + 1 }) s

/-- ZONE_HOLD taken from the Gateway Port. -/
def execZoneHold (tag : Byte) (zone : Byte) (budget : BitVec 16) (s : State) : Host.Outcome State Fault Refusal :=
  .next (s.gatewayTake tag (.zoneHold zone budget) (serveZoneHold zone budget))

/-- ZONE_RELEASE taken from the Gateway Port. -/
def execZoneRelease (tag : Byte) (zone : Byte) (s : State) : Host.Outcome State Fault Refusal :=
  .next (s.gatewayTake tag (.zoneRelease zone) (serveZoneRelease zone))

/-- HOLD_BUDGET_SPENT (R164): a due count takes the zone's budget to 0, and the hold ends. Where no such count is due the event
does not occur. -/
def execHoldBudgetSpent (z : ZoneNo) (s : State) : Host.Outcome State Fault Refusal :=
  .next (if (s.zone z).counted.budget = 0 then s.takeHoldCount z else s)

/-- HOLD_IDLE_REACHED (R164): a due count takes the zone's idle count to HOLD_IDLE, and the hold ends. Where no such count is due
the event does not occur. -/
def execHoldIdleReached (z : ZoneNo) (s : State) : Host.Outcome State Fault Refusal :=
  .next (if (s.zone z).counted.idle = s.radio.config.holdIdle then s.takeHoldCount z else s)

end Sys2Proof.Machine
end

