-- ==== Sys2Proof/Machine/Radio.lean ====
section
/-! DEFINITION. The Air Frame Controller's requests (section 5.1): RADIO_CONFIG, RADIO_START, RADIO_STOP, RADIO_STATUS. -/

namespace Sys2Proof.Machine

/-- The active lane count a written value names (R92). -/
def laneCountOf (b : Byte) : Option LaneCount :=
  match b.toNat with
  | 1 => some .one | 2 => some .two | 4 => some .four | _ => none

/-- The four channels of a RADIO_CONFIG, lane 0 first. -/
def channelsOf (r : RadioWords) : List Byte := [r.channel0, r.channel1, r.channel2, r.channel3]

/-- The channels pass R92: none above 15, and no two lanes that would be active the same. -/
def channelsOk (lanes : LaneCount) (r : RadioWords) : Bool :=
  (channelsOf r).all (·.toNat ≤ 15) && decide ((channelsOf r).take lanes.count).Nodup

/-- The configuration a RADIO_CONFIG stores, its timing values brought into range (R92). -/
def storedConfig (lanes : LaneCount) (r : RadioWords) : RadioConfig :=
  { lanes := lanes
    channels := #v[Fin.ofNat 16 r.channel0.toNat, Fin.ofNat 16 r.channel1.toNat, Fin.ofNat 16 r.channel2.toNat,
                   Fin.ofNat 16 r.channel3.toNat]
    ackDelay := clamp 2 15 r.ackDelay.toNat
    retryGap := clamp 1 255 r.retryGap.toNat
    maxAttempts := clamp 1 15 r.maxAttempts.toNat
    holdIdle := clamp 1 255 r.holdIdle.toNat }

/-- The configuration as a response carries it (R92, R96, R198). -/
def RadioConfig.bytes (c : RadioConfig) : List Byte :=
  leBytes 1 c.lanes.count ++ c.channels.toList.flatMap (fun x => leBytes 1 x.val) ++ leBytes 1 c.ackDelay
    ++ leBytes 1 c.retryGap ++ leBytes 1 c.maxAttempts ++ leBytes 1 c.holdIdle

/-- RADIO_CONFIG (R92, R93). -/
def serveRadioConfig (r : RadioWords) (s : State) : Served :=
  match laneCountOf r.lanes with
  | none => s.refuse .badValue
  | some lanes =>
    if !channelsOk lanes r then s.refuse .badValue
    else if s.running then s.refuse .radioRunning
    else (s.setRadio { s.radio with config := storedConfig lanes r }).accept (storedConfig lanes r).bytes

/-- RADIO_START (R94): RUNNING from the next frame; the frame in progress has no windows. -/
def serveRadioStart (s : State) : Served :=
  (if s.running then s else s.setRadio { s.radio with state := .running }).accept
    ([radioStateCode .running] ++ leBytes 3 (framePlus s.radio.frame 1).toNat)

/-- Every hold ended, in hold-set order (R165). -/
def State.endAllHolds (s : State) : State := s.holdSet.foldl (fun t z => t.endHold z) s

/-- RADIO_STOP (R95, R156, R165). -/
def serveRadioStop (s : State) : Served :=
  if s.running then
    let t := (s.setRadio { s.radio with state := .stopped }).setAir { s.air with windowsOpen := false, beaconDue := false }
    ((t.abortAll.reportStaged s).endAllHolds).accept (leBytes 1 s.entries.length)
  else s.accept (leBytes 1 0)

/-- A label record whose confirmed lane is inactive (R96, R112). -/
def State.stranded (s : State) (l : Label) : Bool := !s.laneActive l.confirmed.lane

/-- RADIO_STATUS (R96). -/
def serveRadioStatus (s : State) : Served :=
  s.accept ([radioStateCode s.radio.state] ++ s.radio.config.bytes ++ leBytes 3 s.radio.frame.toNat
    ++ (List.finRange 4).flatMap (fun lane =>
        leBytes 1 (if s.laneActive lane then s.laneEntries lane else 0) ++ leBytes 1 (if s.laneActive lane then s.partition else 0))
    ++ leBytes 2 (s.labels.countP fun kv => s.stranded kv.2))

/-- RADIO_CONFIG taken from the Gateway Port. -/
def execRadioConfig (tag : Byte) (r : RadioWords) (s : State) : Host.Outcome State Fault Refusal :=
  .next (s.gatewayTake tag (.radioConfig r) (serveRadioConfig r))

/-- RADIO_START taken from the Gateway Port. -/
def execRadioStart (tag : Byte) (s : State) : Host.Outcome State Fault Refusal :=
  .next (s.gatewayTake tag .radioStart serveRadioStart)

/-- RADIO_STOP taken from the Gateway Port. -/
def execRadioStop (tag : Byte) (s : State) : Host.Outcome State Fault Refusal :=
  .next (s.gatewayTake tag .radioStop serveRadioStop)

/-- RADIO_STATUS taken from the Gateway Port. -/
def execRadioStatus (tag : Byte) (s : State) : Host.Outcome State Fault Refusal :=
  .next (s.gatewayTake tag .radioStatus serveRadioStatus)

end Sys2Proof.Machine
end

