-- ==== Sys2Proof/Machine/Zones.lean ====
section
/-! DEFINITION. The Slot Arbiter's zone table and requests (sections 6.1 to 6.4): effective priority, ZONE_SET, ZONE_GET; and
ZONE_RETRY (R151). -/

namespace Sys2Proof.Machine

/-- The zone's queue holds a label with SHOWN set, QUEUED or BACKOFF (R116). -/
def State.queueOwesShown (s : State) (z : ZoneNo) : Bool :=
  (s.queue z).any fun k => (s.label k).any fun l => l.needs.shown

/-- The effective priority: the programmed priority, raised from 1 to 4 up to 5 by boost (R116). -/
def State.effectivePriority (s : State) (z : ZoneNo) : Nat :=
  let x := s.zone z
  if x.boost && (1 ≤ x.priority.val && x.priority.val ≤ 4) && s.queueOwesShown z then 5 else x.priority.val

/-- A zone record with the values a ZONE_SET gives (R119, R120): a priority above 7 is stored as 7; a given guard reload loads
the counter and clears the promotion. -/
def zoneWith (v : ZoneWords) (boost : Option Bool) (x : Zone) : Zone :=
  let x := { x with priority := v.priority.elim x.priority (fun b => Fin.ofNat 8 (min b.toNat 7)), boost := boost.getD x.boost }
  match v.reload with
  | none => x
  | some r => { x with reload := r.toNat, counter := r.toNat, promoted := false }

/-- ZONE_SET (R119, R120). -/
def serveZoneSet (zone : Byte) (v : ZoneWords) (s : State) : Served :=
  match zoneOf zone with
  | none => s.refuse .badValue
  | some z =>
    if v.boost.any (fun b => (enableOf b).isNone) then s.refuse .badValue
    else
      let t := s.setZone z (zoneWith v (v.boost.bind enableOf) (s.zone z))
      let x := t.zone z
      t.accept (leBytes 1 x.priority.val ++ [flagByte x.boost] ++ leBytes 1 x.reload ++ leBytes 1 x.counter
        ++ [flagByte x.promoted] ++ leBytes 1 (t.effectivePriority z))

/-- The six counts, two bytes each (R121, R198). -/
def Counts.bytes (c : Counts) : List Byte :=
  leBytes 2 c.members ++ leBytes 2 c.current ++ leBytes 2 c.queued ++ leBytes 2 c.backoff ++ leBytes 2 c.inFlight
    ++ leBytes 2 c.failed

/-- ZONE_GET (R121). -/
def serveZoneGet (zone : Byte) (s : State) : Served :=
  match zoneOf zone with
  | none => s.refuse .badValue
  | some z =>
    let x := s.zone z
    s.accept ([zone] ++ leBytes 1 x.priority.val ++ leBytes 1 (s.effectivePriority z) ++ [flagByte x.boost]
      ++ leBytes 1 x.reload ++ leBytes 1 x.counter ++ [flagByte x.promoted] ++ [holdStateCode x.hold]
      ++ leBytes 2 x.budget ++ leBytes 1 x.idle ++ optFrame x.holdStart ++ x.counts.bytes)

/-- A label ZONE_RETRY revives: FAILED, its administrative zone the zone named (R151). -/
def Label.failedIn (z : ZoneNo) (l : Label) : Bool := l.state == .failed && l.adminZone == z

/-- ZONE_RETRY (R151): every FAILED label of the zone is revived, in ascending slot order. -/
def serveZoneRetry (zone : Byte) (s : State) : Served :=
  match zoneOf zone with
  | none => s.refuse .badValue
  | some z =>
    (s.updateLabels (fun _ l => l.failedIn z) (fun _ l => l.revive)).accept
      (leBytes 2 (s.labels.countP fun kv => kv.2.failedIn z))

/-- ZONE_SET taken from the Gateway Port. -/
def execZoneSet (tag : Byte) (zone : Byte) (v : ZoneWords) (s : State) : Host.Outcome State Fault Refusal :=
  .next (s.gatewayTake tag (.zoneSet zone v) (serveZoneSet zone v))

/-- ZONE_GET taken from the Gateway Port. -/
def execZoneGet (tag : Byte) (zone : Byte) (s : State) : Host.Outcome State Fault Refusal :=
  .next (s.gatewayTake tag (.zoneGet zone) (serveZoneGet zone))

/-- ZONE_RETRY taken from the Gateway Port. -/
def execZoneRetry (tag : Byte) (zone : Byte) (s : State) : Host.Outcome State Fault Refusal :=
  .next (s.gatewayTake tag (.zoneRetry zone) (serveZoneRetry zone))

end Sys2Proof.Machine
end

