-- ==== Sys2Proof/Machine/Frames.lean ====
section
/-! DEFINITION. The frame (section 5.2): FRAME_START and the frame-start work that can stay due, BACKOFF_RETRY_DUE, the decision
at a data slot (sections 5.5 and 6.6), ACK_ARRIVAL and ACK_SLOT_CLOSE. -/

namespace Sys2Proof.Machine

/-! ## Frame-start work (R14, R77, R97, R101, R164) -/

/-- A label whose retry frame is the frame in progress (R14). -/
def State.retryDue (s : State) (l : Label) : Bool := l.state == .backoff && l.retryFrame == some s.radio.frame

/-- BACKOFF to QUEUED at the retry frame: attempts and queue position kept (R14). -/
def Label.retry (l : Label) : Label := { l with state := .queued, retryFrame := none }

/-- Every retry frame that has come is taken (R14). -/
def State.takeRetries (s : State) : State := s.updateLabels (fun _ l => s.retryDue l) (fun _ l => l.retry)

/-- The beacon composition of the frame, if still due: every active lane transmits the same beacon (R101). -/
def State.composeBeacons (s : State) : State :=
  if s.air.beaconDue then
    s.setAir { s.air with beaconDue := false,
                          sent := Vector.ofFn fun lane => if s.laneActive lane then some s.beacon else s.air.sent[lane.val] }
  else s

/-- The frame-start work still due, and then the beacons: all of it is taken before the frame's first window opens (R98, R131). R101
lets each request of the frame come before or after the composition, which has no row of its own: here, or in FRAME_START, are the only
places it falls, so never between two requests with no window between them, nor between a request and due work taken after it
(assumption 3). -/
def State.settleFrame (s : State) : State := s.takeRetries.takeExpiry.takeDueHolds.composeBeacons

/-- The frame number advances and the frame's windows are still to come; they open only while RUNNING (R97, R98). -/
def State.advanceFrame (s : State) : State :=
  ((s.setRadio { s.radio with frame := framePlus s.radio.frame 1 }).setAir
    { s.air with windowsOpen := s.running, beaconDue := s.running, windows := Vector.replicate 4 .none,
                 confirmedNow := [] }).ageHolds

/-- BACKOFF_RETRY_DUE (R14): the label of a directory slot becomes QUEUED if its retry frame has come. -/
def execBackoffRetryDue (k : Nat) (s : State) : Host.Outcome State Fault Refusal :=
  .next <|
    match s.label k with
    | none => s
    | some l => if s.retryDue l then s.writeLabel k (some l.retry) else s

/-! ## Eligibility (R110, R111, R168) -/

/-- A frame is a natural listen frame of settings (R105, R110). -/
def naturalListen (c : Settings) (f : Frame) : Bool := f.toNat % c.period == c.phase

/-- The held part of R110: the confirmed zone is HELD, the battery is not low, and the first natural listen frame at or after the
hold start, which comes (p - h) modulo P frames after it (R111), is among the frames of the hold that have begun. -/
def State.heldListen (s : State) (l : Label) : Bool :=
  match (s.zone l.confirmed.zone).isHeld, (s.zone l.confirmed.zone).holdStart with
  | true, some h =>
    !l.lowBattery && (BitVec.ofNat 24 l.confirmed.phase - h).toNat % l.confirmed.period < (s.zone l.confirmed.zone).holdFrames
  | _, _ => false

/-- The label of a slot is eligible for a lane in the frame in progress (R110). -/
def State.eligible (s : State) (lane : Lane) (k : Nat) (l : Label) : Bool :=
  l.confirmed.lane == lane && s.laneActive lane && !s.air.confirmedNow.contains k
    && (naturalListen l.confirmed s.radio.frame || s.heldListen l)

/-! ## The decision at a data slot (R123 to R130) -/

/-- A label slot is a candidate of its queue's zone: QUEUED and eligible (R124). -/
def State.candidate (s : State) (lane : Lane) (k : Nat) : Bool :=
  (s.label k).any fun l => l.state == .queued && s.eligible lane k l

/-- The candidate zones (R124): programmed priority 1 to 7 and at least one candidate in the queue. -/
def State.candidateZones (s : State) (lane : Lane) : List ZoneNo :=
  allZones.filter fun z => (s.zone z).priority != 0 && (s.queue z).any (s.candidate lane)

/-- Zone numbers counted upward from a pointer, its own zone included, through 63 and on from 0 (R126). -/
def zonesFrom (p : ZoneNo) : List ZoneNo := allZones.map fun i => p + i

/-- The winning zone among the candidate zones (R126). -/
def State.winner (s : State) (pointer : ZoneNo) (zones : List ZoneNo) : Option ZoneNo :=
  let promoted := zones.filter fun z => (s.zone z).promoted
  let competing := if promoted.isEmpty then zones else promoted
  let best := competing.filter fun z => competing.all fun y => s.effectivePriority y ≤ s.effectivePriority z
  (zonesFrom pointer).find? fun z => best.contains z

/-- The guard of the zone that wins (R129): the counter is loaded, the promotion cleared. -/
def Zone.won (x : Zone) : Zone := { x with counter := x.reload, promoted := false }

/-- The guard of a candidate zone passed over (R129). -/
def Zone.passedOver (x : Zone) : Zone :=
  if x.reload = 0 then x
  else
    let n := if x.counter > 1 then x.counter - 1 else x.counter
    { x with counter := n, promoted := x.promoted || n == 1 }

/-- The guard update of a grant (R129). -/
def State.updateGuards (zones : List ZoneNo) (winner : ZoneNo) (s : State) : State :=
  zones.foldl (fun t z => t.setZone z (if z = winner then (t.zone z).won else (t.zone z).passedOver)) s

/-- The decision of a data slot opening (R123 to R130): the partition, the candidate zones, the winner, the pointer, the label
nearest the head of its queue, the guard, the grant; or the slot is left silent. -/
def State.decideSlot (lane : Lane) (slot : SlotNo) (s : State) : State :=
  let unused := s.transmit lane none
  if s.partition ≤ s.laneEntries lane then unused
  else
    let zones := s.candidateZones lane
    match s.winner s.pointers[lane.val] zones with
    | none => unused
    | some z =>
      match (s.queue z).find? (s.candidate lane) with
      | none => unused
      | some k => ((s.setPointers (s.pointers.set lane.val (z + 1))).updateGuards zones z).grant lane slot k

/-! ## Windows (R98 to R100) -/

/-- A lane's windows of this frame can open: the frame has windows and the lane is active (R95, R98). -/
def State.laneOnAir (s : State) (lane : Lane) : Bool := !s.inReset && s.air.windowsOpen && s.laneActive lane

/-- Replace how far a lane has come through its windows. -/
def State.setWindows (lane : Lane) (w : LaneWindows) (s : State) : State :=
  s.setAir { s.air with windows := s.air.windows.set lane.val w }

/-- The lane's next data slot opens and is decided (R98, R99). -/
def State.openSlot (lane : Lane) (s : State) : State :=
  let w := s.air.windows[lane.val]
  (s.setWindows lane { w with opened := w.opened + 1 }).decideSlot lane (Fin.ofNat 6 w.opened)

/-- A number of the lane's next data slots open, one after another. -/
def State.openSlots (lane : Lane) : Nat → State → State
  | 0, s => s
  | n + 1, s => (s.openSlot lane).openSlots lane n

/-- The data slots of a lane below a number that have not opened yet, open (R98: a lane carries all its windows, in order). -/
def State.openUpTo (lane : Lane) (n : Nat) (s : State) : State := s.openSlots lane (n - s.air.windows[lane.val].opened)

/-- An ack slot of a lane closes, once: an entry still expecting it is a failed attempt (R100, R147). -/
def State.closeSlot (lane : Lane) (slot : SlotNo) (s : State) : State :=
  let w := s.air.windows[lane.val]
  if w.closed.contains slot then s
  else
    let t := s.setWindows lane { w with closed := slot :: w.closed }
    match t.expecting lane slot with
    | none => t
    | some e => t.resolveClose e

/-- An ACK is taken in an ack slot of a lane, matched to an entry and judged; one that matches none is ignored (R100, R138). -/
def State.takeAck (lane : Lane) (slot : SlotNo) (a : Ack) (s : State) : State :=
  let w := s.air.windows[lane.val]
  let t := s.setWindows lane { w with taken := slot :: w.taken }
  match t.matchArrival lane slot a.address with
  | none => t
  | some e => t.resolveArrival e a

/-- The active lanes, in order (R91). -/
def State.activeLanes (s : State) : List Lane := (List.finRange 4).filter s.laneActive

/-- Slot by slot, and lane by lane within a slot number: every pair of an active lane and a slot. -/
def State.laneSlots (s : State) : List (Lane × SlotNo) :=
  (List.finRange 6).flatMap fun slot => s.activeLanes.map fun lane => (lane, slot)

/-- The windows of the frame that no command has named come before the next frame starts (R98, R147; assumption 4): the data slots
not opened yet open, and then the ack slots not closed yet close. -/
def State.finishWindows (s : State) : State :=
  if s.air.windowsOpen then
    let t := s.laneSlots.foldl (fun t w => t.openUpTo w.1 (w.2.val + 1)) s
    s.laneSlots.foldl (fun t w => t.closeSlot w.1 w.2) t
  else s

/-- DATA_SLOT_OPENING (R99, R123). The slots of the lane before it open first, if no command named them; a slot that has opened does
not open again, and on a lane or in a frame without windows the event does not occur (assumption 4). -/
def execDataSlotOpening (lane : Lane) (slot : SlotNo) (s : State) : Host.Outcome State Fault Refusal :=
  .next <|
    if s.laneOnAir lane && s.air.windows[lane.val].opened ≤ slot.val then s.settleFrame.openUpTo lane (slot.val + 1) else s

/-- ACK_ARRIVAL (R100, R138), after the data slots of the lane. The first ACK the receiver takes in an ack slot that has not closed, and
after which no later ack slot has had one (R98), is taken, also once a later ack slot of the lane has closed, which R98 and R147 leave open
(assumption 4); a message the receiver does not take is discarded (R201). -/
def execAckArrival (lane : Lane) (slot : SlotNo) (message : List Byte) (s : State) : Host.Outcome State Fault Refusal :=
  .next <|
    let w := s.air.windows[lane.val]
    if s.laneOnAir lane && !w.closed.contains slot && w.taken.all (· < slot) then
      let t := s.settleFrame.openUpTo lane 6
      match receiveAck message with
      | none => t
      | some a => t.takeAck lane slot a
    else s

/-- ACK_SLOT_CLOSE (R100, R147), after the data slots of the lane; the closes of a lane may be taken in any order (R147). -/
def execAckSlotClose (lane : Lane) (slot : SlotNo) (s : State) : Host.Outcome State Fault Refusal :=
  .next <|
    if s.laneOnAir lane && !s.air.windows[lane.val].closed.contains slot then (s.settleFrame.openUpTo lane 6).closeSlot lane slot
    else s

/-! ## FRAME_START -/

/-- FRAME_START (R97): the work of the frame before (assumption 3) and its windows (assumption 4) are completed, the frame number
advances, the countdown and the holds are counted, and the work that falls due is taken here or left due, as the order given says
(assumption 3). No frame starts during a reset, since the frame timer runs from its end. -/
def execFrameStart (o : FrameOrder) (s : State) : Host.Outcome State Fault Refusal :=
  .next <|
    if s.inReset then s
    else
      let s := s.settleFrame.finishWindows.advanceFrame.countDown.countHolds
      let s := if o.retries then s.takeRetries else s
      let s := if o.expiry then s.takeExpiry else s
      let s := if o.holds then s.takeDueHolds else s
      if o.beacon then s.composeBeacons else s

end Sys2Proof.Machine
end

