-- ==== Sys2Proof/Machine/Items.lean ====
section
/-! DEFINITION. The Item Table's requests (chapter 2): ITEM_PUT, ITEM_SET_NEXT, ITEM_CLEAR_NEXT, ITEM_GET, ITEM_RETIRE. -/

namespace Sys2Proof.Machine

/-- A change of an item as a content change of the labels bound to it, in ascending slot order (R40): each label that `marks`
names has SHOWN set when `shown` says so, and STAGED set when it meets the staged rule after the change (R39). -/
def State.markBound (slot : Nat) (shown : Bool) (marks : Nat → Label → Bool) (s : State) : State :=
  s.updateLabels (fun k l => l.binding == some slot && marks k l) (fun k l => l.mark shown (s.meetsStagedRule k l))

/-- ITEM_PUT (R34, R35): create an item, or replace the current set of one and mark its bound labels SHOWN. -/
def serveItemPut (item : BitVec 32) (set : PriceWords) (s : State) : Served :=
  match itemNumberOf item, priceSetOf set with
  | some n, some p =>
    match s.itemLookup n with
    | some (k, x) =>
      if x.current = p then s.accept (leBytes 2 k ++ [flagByte false, flagByte false])
      else
        let t := s.setItems (s.items.put k { x with current := p })
        ((t.markBound k true fun _ _ => true).reportStaged s).accept (leBytes 2 k ++ [flagByte false, flagByte true])
    | none =>
      match s.items.lowestFree Config.itemCapacity with
      | none => s.refuse .full
      | some k => (s.setItems (s.items.put k ⟨n, p, none, 0⟩)).accept (leBytes 2 k ++ [flagByte true, flagByte true])
  | _, _ => s.refuse .badValue

/-- The checks of ITEM_SET_NEXT and ITEM_CLEAR_NEXT after their values (R36, R38): the epoch state, then the lookup. -/
def State.stagingItem (s : State) (n : Nat) : Except Result (Nat × Item) :=
  if s.epochOpen then
    match s.itemLookup n with
    | some kx => .ok kx
    | none => .error .notFound
  else .error .wrongEpochState

/-- ITEM_SET_NEXT (R36, R37): give the item a next set and mark its bound labels STAGED. -/
def serveItemSetNext (item : BitVec 32) (set : PriceWords) (s : State) : Served :=
  match itemNumberOf item, priceSetOf set with
  | some n, some p =>
    match s.stagingItem n with
    | .error r => s.refuse r
    | .ok (k, x) =>
      if x.next = some p then s.accept (leBytes 2 k ++ [flagByte false])
      else
        let t := s.setItems (s.items.put k { x with next := some p })
        ((t.markBound k false fun _ _ => true).reportStaged s).accept (leBytes 2 k ++ [flagByte true])
  | _, _ => s.refuse .badValue

/-- ITEM_CLEAR_NEXT (R38): remove the next set and mark STAGED the bound labels that still meet the staged rule. -/
def serveItemClearNext (item : BitVec 32) (s : State) : Served :=
  match itemNumberOf item with
  | none => s.refuse .badValue
  | some n =>
    match s.stagingItem n with
    | .error r => s.refuse r
    | .ok (k, x) =>
      if x.next = none then s.accept (leBytes 2 k ++ [flagByte false])
      else
        let t := s.setItems (s.items.put k { x with next := none })
        ((t.markBound k false t.meetsStagedRule).reportStaged s).accept (leBytes 2 k ++ [flagByte true])

/-- ITEM_GET (R42): slot, item number, current set, next set or its absence, bound count. -/
def serveItemGet (item : BitVec 32) (s : State) : Served :=
  match itemNumberOf item with
  | none => s.refuse .badValue
  | some n =>
    match s.itemLookup n with
    | none => s.refuse .notFound
    | some (k, x) => s.accept (leBytes 2 k ++ leBytes 4 x.number ++ x.current.bytes
        ++ optGroup 17 (x.next.map PriceSet.bytes) ++ leBytes 2 x.bound)

/-- ITEM_RETIRE (R43): remove an item no label is bound to. -/
def serveItemRetire (item : BitVec 32) (s : State) : Served :=
  match itemNumberOf item with
  | none => s.refuse .badValue
  | some n =>
    match s.itemLookup n with
    | none => s.refuse .notFound
    | some (k, x) => if x.bound > 0 then s.refuse .inUse else (s.setItems (s.items.erase k)).accept (leBytes 2 k)

/-- ITEM_PUT taken from the Gateway Port. -/
def execItemPut (tag : Byte) (item : BitVec 32) (set : PriceWords) (s : State) : Host.Outcome State Fault Refusal :=
  .next (s.gatewayTake tag (.itemPut item set) (serveItemPut item set))

/-- ITEM_SET_NEXT taken from the Gateway Port. -/
def execItemSetNext (tag : Byte) (item : BitVec 32) (set : PriceWords) (s : State) : Host.Outcome State Fault Refusal :=
  .next (s.gatewayTake tag (.itemSetNext item set) (serveItemSetNext item set))

/-- ITEM_CLEAR_NEXT taken from the Gateway Port. -/
def execItemClearNext (tag : Byte) (item : BitVec 32) (s : State) : Host.Outcome State Fault Refusal :=
  .next (s.gatewayTake tag (.itemClearNext item) (serveItemClearNext item))

/-- ITEM_GET taken from the Gateway Port. -/
def execItemGet (tag : Byte) (item : BitVec 32) (s : State) : Host.Outcome State Fault Refusal :=
  .next (s.gatewayTake tag (.itemGet item) (serveItemGet item))

/-- ITEM_RETIRE taken from the Gateway Port. -/
def execItemRetire (tag : Byte) (item : BitVec 32) (s : State) : Host.Outcome State Fault Refusal :=
  .next (s.gatewayTake tag (.itemRetire item) (serveItemRetire item))

end Sys2Proof.Machine
end

