-- ==== Sys2Proof/Machine/Labels.lean ====
section
/-! DEFINITION. The Label Directory's requests (section 1.4): LABEL_ADD, LABEL_BIND, LABEL_MOVE, LABEL_GET, LABEL_RETIRE,
LABEL_RETRY, LABEL_QUERY, LABEL_LOCATE, LABEL_SCAN. -/

namespace Sys2Proof.Machine

/-- An optional item number is absent or in range (R16, R18). -/
def itemGivenOk (item : Option (BitVec 32)) : Bool := item.all fun n => (itemNumberOf n).isSome

/-- The binding an optional item number asks for: the item's slot, or unbound; `none` when no item has the number. -/
def State.bindingOf (s : State) (item : Option (BitVec 32)) : Option (Option Nat) :=
  match item with
  | none => some none
  | some n => (s.itemLookup n.toNat).map fun kx => some kx.1

/-- The label a request names (R1), when the request's own values are in range (`ok`) or not. A request that names no label and
carries a value out of range is answered by the free choice of assumption 1. -/
def State.resolve (s : State) (a : Address) (ok : Bool) : Except Result (Nat × Label) :=
  match s.lookup a with
  | some kl => if ok then .ok kl else .error .badValue
  | none => .error (if ok then .notFound else if Config.addressJudgedFirst then .notFound else .badValue)

/-- The first check of LABEL_ADD (R16). -/
def addInRange (b : LabelAddWords) : Bool :=
  b.address != 0 && b.address != 0xFFFFFF && b.zone.toNat ≤ 63 && b.lane.toNat ≤ 3 && b.exponent.toNat ≤ 8
    && b.template.toNat ≤ 31 && itemGivenOk b.item

/-- The settings LABEL_ADD stores, the phase reduced modulo the period (R16). -/
def addSettings (b : LabelAddWords) : Settings :=
  ⟨Fin.ofNat 64 b.zone.toNat, Fin.ofNat 4 b.lane.toNat, Fin.ofNat 9 b.exponent.toNat, b.phase.toNat % 2 ^ b.exponent.toNat⟩

/-- The record an accepted LABEL_ADD creates (R17). -/
def addRecord (b : LabelAddWords) (binding : Option Nat) (staged : Bool) : Label :=
  { address := b.address, confirmed := addSettings b, requested := none, template := Fin.ofNat 32 b.template.toNat,
    binding := binding, needs := ⟨true, staged, false, false⟩, state := .queued, attempts := 0, retryFrame := none,
    shownCheck := none, stagedPage := none, battery := none, lastHeard := none, lowBattery := false, overflow := false,
    mismatch := false, serviceTouched := false, changed := false }

/-- LABEL_ADD (R16, R17). -/
def serveLabelAdd (b : LabelAddWords) (s : State) : Served :=
  if !addInRange b then s.refuse .badValue
  else if (s.lookup b.address).isSome then s.refuse .exists
  else match s.templates.find b.template.toNat, s.bindingOf b.item with
    | some _, some binding =>
      match s.labels.lowestFree Config.labelCapacity with
      | none => s.refuse .full
      | some k =>
        let staged := s.epochOpen && s.itemHasNext (addRecord b binding false)
        ((s.writeLabel k (some (addRecord b binding staged))).reportStaged s).accept (leBytes 2 k ++ leBytes 1 (addSettings b).phase)
    | _, _ => s.refuse .notFound

/-- LABEL_BIND (R18); from the Service Line a changed binding sets SERVICE_TOUCHED and raises SERVICE_CHANGE (R179). -/
def serveLabelBind (port : Port) (a : Address) (item : Option (BitVec 32)) (s : State) : Served :=
  match s.resolve a (itemGivenOk item) with
  | .error r => s.refuse r
  | .ok (k, l) =>
    match s.bindingOf item with
    | none => s.refuse .notFound
    | some binding =>
      if binding = l.binding then s.accept []
      else
        let bound := { l with binding := binding, serviceTouched := l.serviceTouched || port == Port.service }
        let t := (s.writeLabel k (some (bound.mark true (s.meetsStagedRule k bound)))).reportStaged s
        (if port = .service then t.raise .serviceChange else t).accept []

/-- The values of a LABEL_MOVE are in range (R19). -/
def moveInRange (m : MoveWords) : Bool :=
  m.zone.all (·.toNat ≤ 63) && m.lane.all (·.toNat ≤ 3) && m.exponent.all (·.toNat ≤ 8) && m.template.all (·.toNat ≤ 31)

/-- A LABEL_MOVE gives one of the four settings (R19). -/
def givesSettings (m : MoveWords) : Bool :=
  m.zone.isSome || m.lane.isSome || m.exponent.isSome || m.phase.isSome

/-- The target settings: each given value in place of the base's, the phase reduced modulo the target period (R19). -/
def moveTarget (m : MoveWords) (base : Settings) : Settings :=
  let e : Fin 9 := m.exponent.elim base.exponent fun b => Fin.ofNat 9 b.toNat
  { zone := m.zone.elim base.zone fun b => Fin.ofNat 64 b.toNat
    lane := m.lane.elim base.lane fun b => Fin.ofNat 4 b.toNat
    exponent := e
    phase := (m.phase.elim base.phase BitVec.toNat) % 2 ^ e.val }

/-- The requested settings after a LABEL_MOVE: removed when the target equals the confirmed settings and, for an IN_FLIGHT label,
also the settings its message carries; otherwise the target (R19). -/
def State.requestedAfter (s : State) (k : Nat) (l : Label) (m : MoveWords) : Option Settings :=
  if givesSettings m then
    let target := moveTarget m l.settingsToSend
    if target = l.confirmed ∧ (l.state = .inFlight → (s.entryOf k).any (fun (e : Entry) => e.settings == target)) then none
    else some target
  else l.requested

/-- The record after a LABEL_MOVE: the settings part and the template part taken together, one delivery state (R19, R20). -/
def State.movedLabel (s : State) (k : Nat) (l : Label) (m : MoveWords) : Label :=
  let template : Fin 32 := m.template.elim l.template fun b => Fin.ofNat 32 b.toNat
  let moved := { l with requested := s.requestedAfter k l m, template := template }
  if template = l.template then moved.followNeeds else moved.mark true (s.meetsStagedRule k moved)

/-- What a LABEL_MOVE reports: confirmed settings, requested settings or their absence, template (R19). -/
def Label.moveBody (l : Label) : List Byte :=
  l.confirmed.bytes ++ optGroup 4 (l.requested.map Settings.bytes) ++ leBytes 1 l.template.val

/-- LABEL_MOVE (R19 to R21). A move that gives nothing changes nothing. -/
def serveLabelMove (a : Address) (m : MoveWords) (s : State) : Served :=
  match s.resolve a (moveInRange m) with
  | .error r => s.refuse r
  | .ok (k, l) =>
    if m.template.any (fun b => (s.templates.find b.toNat).isNone) then s.refuse .notFound
    else if !givesSettings m && m.template.isNone then s.accept l.moveBody
    else
      let l' := s.movedLabel k l m
      ((s.writeLabel k (some l')).reportStaged s).accept l'.moveBody

/-- The record LABEL_GET returns (R22): every field in the rule's order. -/
def State.labelBody (s : State) (k : Nat) (l : Label) : List Byte :=
  leBytes 2 k ++ leBytes 3 l.address.toNat ++ l.confirmed.bytes ++ optGroup 4 (l.requested.map Settings.bytes)
    ++ leBytes 1 l.adminZone.val ++ leBytes 1 l.template.val
    ++ optBytes 4 ((l.binding.bind s.item).map Item.number) ++ [s.needsByte k l] ++ leBytes 1 (deliveryCode l.state)
    ++ leBytes 1 l.attempts ++ optFrame l.retryFrame ++ optBytes 2 (l.shownCheck.map BitVec.toNat)
    ++ optGroup 4 (l.stagedPage.map fun p => leBytes 2 p.epoch.toNat ++ leBytes 2 p.check.toNat)
    ++ optBytes 1 (l.battery.map Fin.val) ++ optFrame l.lastHeard ++ [l.flagsByte]

/-- LABEL_GET (R22); from the Gateway Port SERVICE_TOUCHED is reported and then cleared (R179). -/
def serveLabelGet (port : Port) (a : Address) (s : State) : Served :=
  match s.resolve a true with
  | .error r => s.refuse r
  | .ok (k, l) =>
    (if port = .gateway then s.noteLabel k { l with serviceTouched := false } else s).accept (s.labelBody k l)

/-- The record's in-flight entry is freed and the record removed (R23, R152). -/
def State.retireLabel (k : Nat) (s : State) : State :=
  ((s.setEntries (s.entries.filter fun e => e.label != k)).setAir { s.air with confirmedNow := s.air.confirmedNow.filter (· != k) }
    ).writeLabel k none

/-- LABEL_RETIRE (R23, R152). -/
def serveLabelRetire (a : Address) (s : State) : Served :=
  match s.resolve a true with
  | .error r => s.refuse r
  | .ok (k, _) => ((s.retireLabel k).reportStaged s).accept (leBytes 2 k)

/-- LABEL_RETRY (R24). -/
def serveLabelRetry (a : Address) (s : State) : Served :=
  match s.resolve a true with
  | .error r => s.refuse r
  | .ok (k, l) => (s.writeLabel k (some l.revive)).accept []

/-- LABEL_QUERY (R25). -/
def serveLabelQuery (a : Address) (s : State) : Served :=
  match s.resolve a true with
  | .error r => s.refuse r
  | .ok (k, l) => (s.writeLabel k (some (l.owe ⟨false, false, true, false⟩))).accept []

/-- LABEL_LOCATE (R26). -/
def serveLabelLocate (a : Address) (s : State) : Served :=
  match s.resolve a true with
  | .error r => s.refuse r
  | .ok (k, l) => (s.writeLabel k (some (l.owe ⟨false, false, false, true⟩))).accept []

/-- A record matches a LABEL_SCAN: its state is in the state set (an empty set matches every state) and it carries every flag of
the flag set; bits 5 to 7 of the one and 4 to 7 of the other are ignored (R27, R198). -/
def Label.matchesScan (states flags : Byte) (l : Label) : Bool :=
  (states &&& 0x1F == 0 || states.getLsbD (deliveryCode l.state)) && (flags &&& 0x0F &&& ~~~l.flagsByte) == 0

/-- LABEL_SCAN (R27): the first matching record at or after the start slot. -/
def serveLabelScan (start : BitVec 16) (states flags : Byte) (s : State) : Served :=
  if start.toNat ≥ Config.labelCapacity then s.refuse .badValue
  else match s.labels.find? fun kv => start.toNat ≤ kv.1 && kv.2.matchesScan states flags with
    | none => s.refuse .notFound
    | some (k, l) => s.accept (leBytes 2 k ++ leBytes 3 l.address.toNat ++ leBytes 1 (deliveryCode l.state))

/-- LABEL_ADD taken from the Gateway Port. -/
def execLabelAdd (tag : Byte) (body : LabelAddWords) (s : State) : Host.Outcome State Fault Refusal :=
  .next (s.gatewayTake tag (.labelAdd body) (serveLabelAdd body))

/-- LABEL_BIND taken from the Gateway Port. -/
def execLabelBind (tag : Byte) (a : Address) (item : Option (BitVec 32)) (s : State) : Host.Outcome State Fault Refusal :=
  .next (s.gatewayTake tag (.labelBind a item) (serveLabelBind .gateway a item))

/-- LABEL_MOVE taken from the Gateway Port. -/
def execLabelMove (tag : Byte) (a : Address) (m : MoveWords) (s : State) : Host.Outcome State Fault Refusal :=
  .next (s.gatewayTake tag (.labelMove a m) (serveLabelMove a m))

/-- LABEL_GET taken from the Gateway Port. -/
def execLabelGet (tag : Byte) (a : Address) (s : State) : Host.Outcome State Fault Refusal :=
  .next (s.gatewayTake tag (.labelGet a) (serveLabelGet .gateway a))

/-- LABEL_RETIRE taken from the Gateway Port. -/
def execLabelRetire (tag : Byte) (a : Address) (s : State) : Host.Outcome State Fault Refusal :=
  .next (s.gatewayTake tag (.labelRetire a) (serveLabelRetire a))

/-- LABEL_RETRY taken from the Gateway Port. -/
def execLabelRetry (tag : Byte) (a : Address) (s : State) : Host.Outcome State Fault Refusal :=
  .next (s.gatewayTake tag (.labelRetry a) (serveLabelRetry a))

/-- LABEL_QUERY taken from the Gateway Port. -/
def execLabelQuery (tag : Byte) (a : Address) (s : State) : Host.Outcome State Fault Refusal :=
  .next (s.gatewayTake tag (.labelQuery a) (serveLabelQuery a))

/-- LABEL_LOCATE taken from the Gateway Port. -/
def execLabelLocate (tag : Byte) (a : Address) (s : State) : Host.Outcome State Fault Refusal :=
  .next (s.gatewayTake tag (.labelLocate a) (serveLabelLocate a))

/-- LABEL_SCAN taken from the Gateway Port. -/
def execLabelScan (tag : Byte) (start : BitVec 16) (states flags : Byte) (s : State) : Host.Outcome State Fault Refusal :=
  .next (s.gatewayTake tag (.labelScan start states flags) (serveLabelScan start states flags))

end Sys2Proof.Machine
end

