-- ==== Sys2Proof/Machine/Notices.lean ====
section
/-! DEFINITION. The Notice Unit's requests (section 10.3): NOTICE_READ, NOTICE_CLEAR, NOTICE_MASK; and PORT_CONFIG (R180),
DEVICE_INFO (R183). -/

namespace Sys2Proof.Machine

/-- NOTICE_READ (R190). -/
def serveNoticeRead (s : State) : Served :=
  s.accept [s.notices.pending.byte, s.notices.enabled.byte, polarityCode s.notices.polarity, flagByte s.noticeActive]

/-- NOTICE_CLEAR (R191). -/
def serveNoticeClear (sources : Byte) (s : State) : Served :=
  match sourceSetOf sources with
  | none => s.refuse .badValue
  | some set =>
    let t := s.setNotices { s.notices with pending := s.notices.pending.without set }
    t.accept [t.notices.pending.byte, flagByte t.noticeActive]

/-- NOTICE_MASK (R192). -/
def serveNoticeMask (sources : Byte) (s : State) : Served :=
  match sourceSetOf sources with
  | none => s.refuse .badValue
  | some set =>
    let t := s.setNotices { s.notices with enabled := set }
    t.accept [t.notices.enabled.byte, t.notices.pending.byte, flagByte t.noticeActive]

/-- PORT_CONFIG (R180, R189). -/
def servePortConfig (enable polarity : Option Byte) (s : State) : Served :=
  if enable.any (fun b => (enableOf b).isNone) || polarity.any (fun b => (polarityOf b).isNone) then s.refuse .badValue
  else
    let t := (s.setGateway { s.gateway with serviceEnabled := (enable.bind enableOf).getD s.gateway.serviceEnabled }).setNotices
      { s.notices with polarity := (polarity.bind polarityOf).getD s.notices.polarity }
    t.accept [flagByte t.gateway.serviceEnabled, polarityCode t.notices.polarity]

/-- DEVICE_INFO (R183). -/
def serveDeviceInfo (s : State) : Served :=
  s.accept (leBytes 2 Config.vendorCode ++ leBytes 2 Config.partCode ++ leBytes 1 Config.revision
    ++ leBytes 2 Config.labelCapacity ++ leBytes 2 Config.itemCapacity ++ leBytes 2 64 ++ leBytes 2 32 ++ leBytes 2 4
    ++ leBytes 2 Config.inFlightCapacity ++ leBytes 2 Config.holdCapacity ++ leBytes 2 Config.bodyCapacity)

/-- NOTICE_READ taken from the Gateway Port. -/
def execNoticeRead (tag : Byte) (s : State) : Host.Outcome State Fault Refusal :=
  .next (s.gatewayTake tag .noticeRead serveNoticeRead)

/-- NOTICE_CLEAR taken from the Gateway Port. -/
def execNoticeClear (tag : Byte) (sources : Byte) (s : State) : Host.Outcome State Fault Refusal :=
  .next (s.gatewayTake tag (.noticeClear sources) (serveNoticeClear sources))

/-- NOTICE_MASK taken from the Gateway Port. -/
def execNoticeMask (tag : Byte) (sources : Byte) (s : State) : Host.Outcome State Fault Refusal :=
  .next (s.gatewayTake tag (.noticeMask sources) (serveNoticeMask sources))

/-- PORT_CONFIG taken from the Gateway Port. -/
def execPortConfig (tag : Byte) (enable polarity : Option Byte) (s : State) : Host.Outcome State Fault Refusal :=
  .next (s.gatewayTake tag (.portConfig enable polarity) (servePortConfig enable polarity))

/-- DEVICE_INFO taken from the Gateway Port. -/
def execDeviceInfo (tag : Byte) (s : State) : Host.Outcome State Fault Refusal :=
  .next (s.gatewayTake tag .deviceInfo serveDeviceInfo)

end Sys2Proof.Machine
end

