-- ==== Sys2Proof/Machine/Templates.lean ====
section
/-! DEFINITION. The Template Store's requests (section 3.2): TEMPLATE_LOAD and TEMPLATE_GET. -/

namespace Sys2Proof.Machine

/-- The places a field spans: d for a numeric field, two for an INDICATOR (R47). -/
def fieldWidth (kind : FieldKind) (digits : Nat) : Nat := if kind = .indicator then 8 else 4 * digits

/-- The record-level checks of R48, all passed. -/
def recordOk (t : TemplateWords) : Bool :=
  t.id.toNat ≤ 31 && (8 ≤ t.length.toNat && t.length.toNat ≤ 48) && (1 ≤ t.fields.length && t.fields.length ≤ 10)
    && t.mask != 0 && (t.mask >>> t.length.toNat) == 0

/-- Two bit spans share a bit. -/
def spansMeet (o w o' w' : Nat) : Bool := o < o' + w' && o' < o + w

/-- One field entry checked as R49 orders, against the page length and the fields before it; the stored entry if it passes. -/
def checkField (length : Nat) (before : List Field) (f : FieldWords) : Option Field :=
  match fieldKindOf f.kind with
  | none => none
  | some kind =>
    let d := if kind = .indicator then 2 else f.digits.toNat
    let m := if kind = .indicator then 2 else f.minimum.toNat
    let o := f.offset.toNat
    let w := fieldWidth kind d
    if d = 0 ∨ d > 10 then none
    else if m = 0 ∨ m > d then none
    else if o % 4 ≠ 0 then none
    else if o + w > 8 * length then none
    else if before.any (fun g => spansMeet o w g.offset (fieldWidth g.kind g.digits)) then none
    else some ⟨kind, o, d, m⟩

/-- The fields of a load in list order: the stored list, or the index of the first field that fails (R49). -/
def checkFields (length : Nat) : List Field → List FieldWords → Except Nat (List Field)
  | before, [] => .ok before
  | before, f :: fs =>
    match checkField length before f with
    | none => .error before.length
    | some g => checkFields length (before ++ [g]) fs

/-- A reload of a template as a content change of every label that uses it, in ascending slot order (R51). -/
def State.markTemplate (t : Fin 32) (s : State) : State :=
  s.updateLabels (fun _ l => l.template == t) (fun k l => l.mark true (s.meetsStagedRule k l))

/-- The number of label records that use a template (R51). -/
def State.templateUsers (s : State) (t : Fin 32) : Nat := s.labels.countP fun kv => kv.2.template == t

/-- TEMPLATE_LOAD (R48 to R51). -/
def serveTemplateLoad (b : TemplateWords) (s : State) : Served :=
  if !recordOk b then s.refuse .badValue
  else match checkFields b.length.toNat [] b.fields with
    | .error index => ⟨some (.layoutBad, leBytes 1 index), s⟩
    | .ok fields =>
      let record : Template := ⟨b.length.toNat, b.mask, fields⟩
      let stored := s.setTemplates (s.templates.put b.id.toNat record)
      match s.templates.find b.id.toNat with
      | none => stored.accept (flagByte true :: leBytes 2 0)
      | some old =>
        if old = record then s.accept (flagByte false :: leBytes 2 0)
        else
          let t : Fin 32 := Fin.ofNat 32 b.id.toNat
          ((stored.markTemplate t).reportStaged s).accept (flagByte true :: leBytes 2 (s.templateUsers t))

/-- A field entry as TEMPLATE_GET reports it (R53, R198). -/
def Field.bytes (f : Field) : List Byte := [f.kind.code] ++ leBytes 2 f.offset ++ leBytes 1 f.digits ++ leBytes 1 f.minimum

/-- TEMPLATE_GET (R53). -/
def serveTemplateGet (id : Byte) (s : State) : Served :=
  if id.toNat > 31 then s.refuse .badValue
  else match s.templates.find id.toNat with
    | none => s.refuse .notFound
    | some t => s.accept ([id] ++ leBytes 1 t.length ++ leBytes 6 t.mask.toNat ++ leBytes 1 t.fields.length
        ++ t.fields.flatMap Field.bytes)

/-- TEMPLATE_LOAD taken from the Gateway Port. -/
def execTemplateLoad (tag : Byte) (body : TemplateWords) (s : State) : Host.Outcome State Fault Refusal :=
  .next (s.gatewayTake tag (.templateLoad body) (serveTemplateLoad body))

/-- TEMPLATE_GET taken from the Gateway Port. -/
def execTemplateGet (tag : Byte) (id : Byte) (s : State) : Host.Outcome State Fault Refusal :=
  .next (s.gatewayTake tag (.templateGet id) (serveTemplateGet id))

end Sys2Proof.Machine
end

