-- ==== Sys2Proof/Machine/Ports.lean ====
section
/-! DEFINITION. The two request ports (chapter 9): resets, READ_RESPONSE, raw Gateway Port transactions, the Service Line. -/

namespace Sys2Proof.Machine

/-! ## Resets (R184, R185) -/

/-- A reset taken: every block at its reset values, the reset in progress; the queue of commands is the model's and stays. -/
def State.takeReset (s : State) : State := ({ State.reset with inReset := true } : State).setPending s.pending

/-- DEVICE_RESET composes no response (R184). -/
def serveDeviceReset (s : State) : Served := ⟨none, s.takeReset⟩

/-- DEVICE_RESET taken from the Gateway Port. -/
def execDeviceReset (tag : Byte) (s : State) : Host.Outcome State Fault Refusal :=
  .next (s.gatewayTake tag .deviceReset serveDeviceReset)

/-- POWER_ON_RESET (R184). -/
def execPowerOnReset (s : State) : Host.Outcome State Fault Refusal := .next s.takeReset

/-- RESET_END (R184): the reset ends and the frame timer starts. -/
def execResetEnd (s : State) : Host.Outcome State Fault Refusal := .next (s.setInReset false)

/-! ## Requests to their owning blocks -/

/-- The owning block takes a request whole, from either port (R174, R179). -/
def serve (port : Port) (r : Request) : State → Served :=
  match r with
  | .itemPut n p => serveItemPut n p
  | .itemSetNext n p => serveItemSetNext n p
  | .itemClearNext n => serveItemClearNext n
  | .itemGet n => serveItemGet n
  | .itemRetire n => serveItemRetire n
  | .labelAdd b => serveLabelAdd b
  | .labelBind a n => serveLabelBind port a n
  | .labelMove a m => serveLabelMove a m
  | .labelGet a => serveLabelGet port a
  | .labelRetire a => serveLabelRetire a
  | .labelRetry a => serveLabelRetry a
  | .labelQuery a => serveLabelQuery a
  | .labelLocate a => serveLabelLocate a
  | .labelScan start states flags => serveLabelScan start states flags
  | .templateLoad b => serveTemplateLoad b
  | .templateGet i => serveTemplateGet i
  | .zoneSet z v => serveZoneSet z v
  | .zoneGet z => serveZoneGet z
  | .zoneHold z b => serveZoneHold z b
  | .zoneRelease z => serveZoneRelease z
  | .zoneRetry z => serveZoneRetry z
  | .epochOpen e => serveEpochOpen e
  | .epochSchedule n => serveEpochSchedule n
  | .epochAbandon => serveEpochAbandon
  | .epochStatus => serveEpochStatus
  | .radioConfig b => serveRadioConfig b
  | .radioStart => serveRadioStart
  | .radioStop => serveRadioStop
  | .radioStatus => serveRadioStatus
  | .noticeRead => serveNoticeRead
  | .noticeClear set => serveNoticeClear set
  | .noticeMask set => serveNoticeMask set
  | .portConfig e p => servePortConfig e p
  | .deviceInfo => serveDeviceInfo
  | .deviceReset => serveDeviceReset

/-! ## The Gateway Port (R172 to R175) -/

/-- What a READ_RESPONSE transaction of `n` bytes shifts out (R175, R197): 0xFF for the first byte, the response, 0xFF beyond. -/
def readBytes (r : Response) (n : Nat) : List Byte :=
  ((0xFF : Byte) :: (r.bytes ++ List.replicate n 0xFF)).take n

/-- A READ_RESPONSE transaction of `n` complete bytes, its first included (R175): the held response, or NONE, is clocked out, and a
response clocked out whole is removed. -/
def State.readResponse (n : Nat) (s : State) : State :=
  match s.gateway.held with
  | none => s.setGateway { s.gateway with shifted := readBytes .nothing n }
  | some r =>
    s.setGateway { s.gateway with shifted := readBytes r n,
                                  held := if 1 + r.bytes.length ≤ n then none else some r }

/-- READ_RESPONSE. A transaction of no complete byte is ignored (R172), as is one during a reset (R184). -/
def execReadResponse (n : Nat) (s : State) : Host.Outcome State Fault Refusal :=
  .next (if s.inReset ∨ n = 0 then s else s.readResponse n)

/-- A Gateway Port transaction given by all its complete bytes (R172 to R175): none is ignored; a first byte READ_RESPONSE reads; a
frame that fails a check is answered by the port with the tag it received, or 0; a frame that passes is taken. -/
def State.gatewayTransaction (bytes : List Byte) (s : State) : State :=
  if s.inReset ∨ bytes = [] then s
  else if byteAt bytes 0 = readResponseKind then s.readResponse bytes.length
  else match judgeFrame bytes with
    | .error r => (s.collect bytes).holdResponse (frameTag bytes) (r, [])
    | .ok r => (serve .gateway r (s.collect bytes)).held (frameTag bytes)

/-- UNKNOWN_KIND_FRAME (R173). -/
def execUnknownKindFrame (bytes : List Byte) (s : State) : Host.Outcome State Fault Refusal := .next (s.gatewayTransaction bytes)

/-! ## The Service Line (R176 to R179) -/

/-- The kinds the Service Line carries (R179). -/
def serviceRight (kind : Byte) : Bool :=
  kind == 0x23 || kind == 0x21 || kind == 0x27 || kind == 0x26 || kind == 0x25 || kind == 0x13

/-- The Service Line's checks of a completed frame, given from its kind byte to its check byte, in order (R177). -/
def State.judgeService (s : State) (frame : List Byte) : Except Result Request :=
  let kind := byteAt frame 0
  let body := (frame.drop 4).take (leAt frame 2 2)
  if frame.foldl (· + ·) 0 ≠ 0 then .error .badCheck
  else if !s.gateway.serviceEnabled then .error .notPermitted
  else if kind ≠ readResponseKind ∧ (requiredLength kind body).isNone then .error .unknownKind
  else if !serviceRight kind then .error .notPermitted
  else judgeBody kind body

/-- The receiver's next state. -/
def State.receive (r : Receiver) (s : State) : State := s.setService { s.service with receiver := r }

/-- A response composed while the transmitter is IDLE begins to be sent (R178). -/
def State.sendService (tag : Byte) (r : Result × List Byte) (s : State) : State :=
  s.setService { s.service with transmitter := .sending (serviceFrameOf tag r.1 r.2) }

/-- A completed frame is checked and answered, or taken and answered (R177); while the transmitter is SENDING it is discarded
(R178). -/
def State.serviceFrame (frame : List Byte) (s : State) : State :=
  if s.service.transmitter ≠ .idle then s
  else match s.judgeService frame with
    | .error r => s.sendService (byteAt frame 1) (r, [])
    | .ok r =>
      let v := serve .service r s
      match v.reply with
      | none => v.state
      | some reply => v.state.sendService (byteAt frame 1) reply

/-- A declared length above 256 is answered BAD_LENGTH with the frame's tag, unless the transmitter is SENDING (R176, R178). -/
def State.serviceTooLong (frame : List Byte) (s : State) : State :=
  if s.service.transmitter ≠ .idle then s else s.sendService (byteAt frame 1) (.badLength, [])

/-- A received byte in ASSEMBLING is appended; it may end the frame as too long or complete it (R176). -/
def State.assemble (buffer : List Byte) (b : Byte) (s : State) : State :=
  let frame := buffer ++ [b]
  let declared := leAt frame 2 2
  if frame.length < 4 then s.receive (.assembling frame)
  else if declared > Config.bodyCapacity then (s.receive .hunting).serviceTooLong frame
  else if frame.length < 4 + declared + 1 then s.receive (.assembling frame)
  else (s.receive .hunting).serviceFrame frame

/-- SERVICE_LINE_BYTE (R176): a byte with a stop-bit error is discarded and ends a frame; in HUNTING 0xA5 starts one; bytes during a
reset are ignored (R184). -/
def execServiceLineByte (b : Byte) (stopBitError : Bool) (s : State) : Host.Outcome State Fault Refusal :=
  .next <|
    if s.inReset then s
    else match s.service.receiver with
      | .hunting => if !stopBitError && b == 0xA5 then s.receive (.assembling []) else s
      | .assembling buffer => if stopBitError then s.receive .hunting else s.assemble buffer b

/-- SERVICE_LINE_GAP_TIMEOUT (R176): in ASSEMBLING the frame is discarded; in HUNTING a pause has no effect. -/
def execServiceLineGapTimeout (s : State) : Host.Outcome State Fault Refusal := .next (s.receive .hunting)

/-- SERVICE_RESPONSE_SENT (R178): the last byte of the response has left. -/
def execServiceResponseSent (s : State) : Host.Outcome State Fault Refusal :=
  .next (s.setService { s.service with transmitter := .idle })

end Sys2Proof.Machine
end

