-- ==== Sys2Proof/Machine/Dispatch.lean ====
section
/-! DEFINITION. The meaning of each command: one arm per constructor. -/

namespace Sys2Proof.Machine

/-- The command's effect on everything but the queue of waiting commands. -/
def exec (i : Instr) (s : State) : Host.Outcome State Fault Refusal :=
  match i with
  | .itemPut tag item set => Sys2Proof.Machine.execItemPut tag item set s
  | .itemSetNext tag item set => Sys2Proof.Machine.execItemSetNext tag item set s
  | .itemClearNext tag item => Sys2Proof.Machine.execItemClearNext tag item s
  | .itemGet tag item => Sys2Proof.Machine.execItemGet tag item s
  | .itemRetire tag item => Sys2Proof.Machine.execItemRetire tag item s
  | .labelAdd tag body => Sys2Proof.Machine.execLabelAdd tag body s
  | .labelBind tag address item => Sys2Proof.Machine.execLabelBind tag address item s
  | .labelMove tag address move => Sys2Proof.Machine.execLabelMove tag address move s
  | .labelGet tag address => Sys2Proof.Machine.execLabelGet tag address s
  | .labelRetire tag address => Sys2Proof.Machine.execLabelRetire tag address s
  | .labelRetry tag address => Sys2Proof.Machine.execLabelRetry tag address s
  | .labelQuery tag address => Sys2Proof.Machine.execLabelQuery tag address s
  | .labelLocate tag address => Sys2Proof.Machine.execLabelLocate tag address s
  | .labelScan tag start states flags => Sys2Proof.Machine.execLabelScan tag start states flags s
  | .templateLoad tag body => Sys2Proof.Machine.execTemplateLoad tag body s
  | .templateGet tag id => Sys2Proof.Machine.execTemplateGet tag id s
  | .zoneSet tag zone values => Sys2Proof.Machine.execZoneSet tag zone values s
  | .zoneGet tag zone => Sys2Proof.Machine.execZoneGet tag zone s
  | .zoneHold tag zone budget => Sys2Proof.Machine.execZoneHold tag zone budget s
  | .zoneRelease tag zone => Sys2Proof.Machine.execZoneRelease tag zone s
  | .zoneRetry tag zone => Sys2Proof.Machine.execZoneRetry tag zone s
  | .epochOpen tag epoch => Sys2Proof.Machine.execEpochOpen tag epoch s
  | .epochSchedule tag count => Sys2Proof.Machine.execEpochSchedule tag count s
  | .epochAbandon tag => Sys2Proof.Machine.execEpochAbandon tag s
  | .epochStatus tag => Sys2Proof.Machine.execEpochStatus tag s
  | .radioConfig tag body => Sys2Proof.Machine.execRadioConfig tag body s
  | .radioStart tag => Sys2Proof.Machine.execRadioStart tag s
  | .radioStop tag => Sys2Proof.Machine.execRadioStop tag s
  | .radioStatus tag => Sys2Proof.Machine.execRadioStatus tag s
  | .noticeRead tag => Sys2Proof.Machine.execNoticeRead tag s
  | .noticeClear tag sources => Sys2Proof.Machine.execNoticeClear tag sources s
  | .noticeMask tag sources => Sys2Proof.Machine.execNoticeMask tag sources s
  | .portConfig tag enable polarity => Sys2Proof.Machine.execPortConfig tag enable polarity s
  | .deviceInfo tag => Sys2Proof.Machine.execDeviceInfo tag s
  | .deviceReset tag => Sys2Proof.Machine.execDeviceReset tag s
  | .powerOnReset => Sys2Proof.Machine.execPowerOnReset s
  | .resetEnd => Sys2Proof.Machine.execResetEnd s
  | .readResponse clocked => Sys2Proof.Machine.execReadResponse clocked s
  | .unknownKindFrame bytes => Sys2Proof.Machine.execUnknownKindFrame bytes s
  | .serviceLineByte byte stopBitError => Sys2Proof.Machine.execServiceLineByte byte stopBitError s
  | .serviceLineGapTimeout => Sys2Proof.Machine.execServiceLineGapTimeout s
  | .serviceResponseSent => Sys2Proof.Machine.execServiceResponseSent s
  | .frameStart order => Sys2Proof.Machine.execFrameStart order s
  | .backoffRetryDue slot => Sys2Proof.Machine.execBackoffRetryDue slot s
  | .countdownExpiry => Sys2Proof.Machine.execCountdownExpiry s
  | .holdBudgetSpent zone => Sys2Proof.Machine.execHoldBudgetSpent zone s
  | .holdIdleReached zone => Sys2Proof.Machine.execHoldIdleReached zone s
  | .dataSlotOpening lane slot => Sys2Proof.Machine.execDataSlotOpening lane slot s
  | .ackArrival lane slot message => Sys2Proof.Machine.execAckArrival lane slot message s
  | .ackSlotClose lane slot => Sys2Proof.Machine.execAckSlotClose lane slot s

end Sys2Proof.Machine
end

