-- ==== Sys2Proof/Machine/ShelfLabel.lean ====
section
/-! DEFINITION. A shelf label as the controller relies on it (section 5.4; R72, R103 to R109, R169): when it listens, on which channel,
what it hears, stores, shows and answers. A label is an agent outside the block and no part of State (assumption 17): it hears what the
block has on the air, and its answers reach the block as ACK_ARRIVAL commands. -/

namespace Sys2Proof.Machine

/-- A page a label stores, with its page check (R103, R108). -/
structure HeldPage where
  bytes : List Byte
  check : Check
  deriving DecidableEq, Repr

/-- An answer a label owes (R107): the frame and ack slot it is due in, the lane it received on, its result, the settings to adopt
after it. -/
structure AnswerDue where
  frame : Frame
  slot : SlotNo
  lane : Lane
  accepted : Bool
  adopts : Option Settings
  deriving DecidableEq, Repr

/-- A label's own state (R104): its address and settings, the store's channel plan, its battery, the check mask of each template form it
holds, its two page stores, its LED, its frame count, whether it listens in the frame in progress, what its last beacon said, whether a
hold keeps it listening, the answers it owes. -/
structure ShelfLabel where
  address : Address
  settings : Settings
  plan : Vector (Fin 16) 4
  battery : Fin 16
  masks : List (Nat × BitVec 48)
  shown : HeldPage
  staged : Option (Epoch × HeldPage)
  led : Bool
  count : Frame
  awake : Bool
  ackDelay : Nat
  holdList : List Nat
  holding : Bool
  due : List AnswerDue
  deriving DecidableEq, Repr

/-! ## The air (R91, R100, R104) -/

/-- One message on the air: its bytes, and the lane and channel it is sent on. -/
structure OnAir where
  lane : Lane
  channel : Fin 16
  bytes : List Byte
  deriving DecidableEq, Repr

/-- What the controller has sent in the beacon or data slot that a lane opened last, on the lane's channel; an inactive lane transmits
nothing (R91, R98). -/
def State.onAir (s : State) (lane : Lane) : Option OnAir :=
  if s.laneActive lane then s.air.sent[lane.val].map fun m => ⟨lane, s.radio.config.channels[lane.val], m⟩ else none

/-- The command by which a label's answer in an ack slot reaches the controller, whose receiver of a lane listens on that lane's channel
(R100, R104). -/
def State.arrivalOf (s : State) (slot : SlotNo) (m : OnAir) : Option Instr :=
  if m.channel = s.radio.config.channels[m.lane.val] then some (.ackArrival m.lane slot m.bytes) else none

/-! ## The messages as a label reads them (R201) -/

/-- What a beacon says (R101). -/
structure Beacon where
  frame : Frame
  active : Epoch
  ackDelay : Nat
  holdList : List Nat
  deriving DecidableEq, Repr

/-- A beacon with a correct air check. One of another length than 10 + n is discarded, although R201's list of what a label discards
does not name the length: DESIGN CHOICE (assumption 18). A hold count above 8 is taken as it stands: DESIGN CHOICE (assumption 25). -/
def readBeacon (m : List Byte) : Option Beacon :=
  let n := leAt m 7 1
  if m.length = 10 + n ∧ m = sealAir (m.take (8 + n)) ∧ leAt m 0 1 = 1 then
    some { frame := BitVec.ofNat 24 (leAt m 1 3), active := BitVec.ofNat 16 (leAt m 4 2), ackDelay := leAt m 6 1,
           holdList := ((m.drop 8).take n).map BitVec.toNat }
  else none

/-- The settings at an offset of a message: one byte each (R201). A byte too large for its setting is taken modulo the number of its
values, and the phase as it stands: DESIGN CHOICE (assumption 25). -/
def settingsAt (m : List Byte) (off : Nat) : Settings :=
  ⟨Fin.ofNat 64 (leAt m off 1), Fin.ofNat 4 (leAt m (off + 1) 1), Fin.ofNat 9 (leAt m (off + 2) 1), leAt m (off + 3) 1⟩

/-- A message addressed to a label, its air check correct and removed. -/
inductive Heard where
  | page (staged : Bool) (epoch : Epoch) (settings : Settings) (locate : Bool) (template : Nat) (page : List Byte) (check : Check)
  | query (settings : Settings) (locate : Bool)
  deriving DecidableEq, Repr

/-- What a label takes of a message in a data slot (R201): a wrong air check, another type or another address is discarded, and so is a
message whose length is not the one R201's layout gives its type, which R201 does not say (assumption 18). A side
other than 1 is read as SHOWN and a locate other than 0 as set: DESIGN CHOICE (assumption 25). -/
def hear (address : Address) (m : List Byte) : Option Heard :=
  if m ≠ sealAir (m.take (m.length - 2)) ∨ BitVec.ofNat 24 (leAt m 1 3) ≠ address then none
  else if leAt m 0 1 = 2 ∧ m.length = 18 + leAt m 13 1 then
    let n := leAt m 13 1
    some (.page (leAt m 4 1 == 1) (BitVec.ofNat 16 (leAt m 5 2)) (settingsAt m 7) (flagAt m 11) (leAt m 12 1)
      ((m.drop 14).take n) (BitVec.ofNat 16 (leAt m (14 + n) 2)))
  else if leAt m 0 1 = 3 ∧ m.length = 11 then some (.query (settingsAt m 4) (flagAt m 8))
  else none

/-! ## Listening (R104 to R107) -/

/-- A label listens in the frame of its count: a natural listen frame, a hold, or an answer still due (R105 to R107). -/
def ShelfLabel.listens (l : ShelfLabel) : Bool :=
  l.count.toNat % l.settings.period == l.settings.phase || l.holding || !l.due.isEmpty

/-- A frame passes on the label's own timer (R105): an answer whose frame has passed is due no longer (R107), and the label listens in
the new frame or sleeps through it. -/
def ShelfLabel.tick (l : ShelfLabel) : ShelfLabel :=
  let next := { l with count := l.count + 1, due := l.due.filter fun d => d.frame != l.count }
  { next with awake := next.listens }

/-- A label hears a message while it listens, on its own lane, where its plan gives that lane the channel it is sent on (R104, R105). -/
def ShelfLabel.hears (m : OnAir) (l : ShelfLabel) : Bool :=
  l.awake && m.lane == l.settings.lane && m.channel == l.plan[m.lane.val]

/-- A label heeds a hold list while its battery is above 2 (R106). -/
def ShelfLabel.heeds (l : ShelfLabel) (holdList : List Nat) : Bool := 2 < l.battery.val && holdList.contains l.settings.zone.val

/-- One epoch lies after another (R72). -/
def epochAfter (e f : Epoch) : Bool := 1 ≤ (e - f).toNat && (e - f).toNat ≤ 32767

/-- The three responses to the active epoch of a beacon (R72): flip, discard at 0, discard what an epoch after it has passed. -/
def ShelfLabel.meetEpoch (active : Epoch) (l : ShelfLabel) : ShelfLabel :=
  match l.staged with
  | none => l
  | some (e, page) =>
    if active = e then { l with shown := page, staged := none }
    else if active = 0 || epochAfter active e then { l with staged := none }
    else l

/-- A label takes a beacon (R72, R105, R106): the frame number taken, the staged side judged, the hold list heeded, and no further
listening in the frame unless it is a natural listen frame, a held one or one with an answer due (R106). The answers due stay as many
frames ahead as they were when the number taken is another than the label's own (assumption 22). -/
def ShelfLabel.takeBeacon (b : Beacon) (l : ShelfLabel) : ShelfLabel :=
  let due := l.due.map fun d => { d with frame := d.frame + (b.frame - l.count) }
  let next := { l.meetEpoch b.active with
                  count := b.frame, ackDelay := b.ackDelay, holdList := b.holdList, holding := l.heeds b.holdList, due := due }
  { next with awake := next.listens }

/-- The beacon of a frame, if the label hears it and its air check is right (R102, R105). -/
def ShelfLabel.hearBeacon (m : OnAir) (l : ShelfLabel) : ShelfLabel :=
  if l.hears m then
    match readBeacon m.bytes with
    | none => l
    | some b => l.takeBeacon b
  else l

/-! ## Messages and answers (R103, R107 to R109) -/

/-- The page check of received bytes by the label's own mask for the template, if it holds one (R68, R108). -/
def ShelfLabel.checkOf (l : ShelfLabel) (template : Nat) (page : List Byte) : Option Check :=
  (l.masks.find? fun km => km.1 == template).map fun km => crc16 (includedBytes km.2 0 page)

/-- An answer falls due in ack slot s of the frame ACK_DELAY later (R107). -/
def ShelfLabel.owe (slot : SlotNo) (accepted : Bool) (c : Settings) (l : ShelfLabel) : ShelfLabel :=
  { l with due := l.due ++ [⟨framePlus l.count l.ackDelay, slot, l.settings.lane, accepted, if accepted then some c else none⟩] }

/-- A message received (R107 to R109). When its LED goes out again no rule says: the model's label keeps it lit (assumption 22). -/
def ShelfLabel.take (slot : SlotNo) (h : Heard) (l : ShelfLabel) : ShelfLabel :=
  match h with
  | .query c locate => { l with led := l.led || locate }.owe slot true c
  | .page staged epoch c locate template page check =>
    if l.checkOf template page = some check then
      let stored := if staged then { l with staged := some (epoch, ⟨page, check⟩) } else { l with shown := ⟨page, check⟩ }
      { stored with led := l.led || locate }.owe slot true c
    else l.owe slot false c

/-- A data slot of the frame, if the label hears it and the message is one it takes (R105, R107, R201). -/
def ShelfLabel.receive (slot : SlotNo) (m : OnAir) (l : ShelfLabel) : ShelfLabel :=
  if l.hears m then
    match hear l.address m.bytes with
    | none => l
    | some h => l.take slot h
  else l

/-- What an answer reports, as the label stands when it composes it (R103). R108 has a CHECK_FAILED answer report the checks as they
stood before the message: where a beacon between the message and the answer flips or empties the staged side, the model follows R103
(assumption 21). -/
def ShelfLabel.ack (l : ShelfLabel) (accepted : Bool) : Ack :=
  { address := l.address, accepted := accepted, shownCheck := l.shown.check, stagedEpoch := (l.staged.map Prod.fst).getD 0,
    stagedCheck := (l.staged.map fun p => p.2.check).getD 0, battery := l.battery }

/-- The settings an accepted message carried are adopted after its answer, and the label judges its held listening afresh by its last
beacon's hold list (R107, R169). -/
def ShelfLabel.adopt (c : Settings) (l : ShelfLabel) : ShelfLabel :=
  let moved := { l with settings := c }
  { moved with holding := moved.heeds l.holdList }

/-- An ack slot of the frame: the answer due in it, if any, is sent on the lane and channel the message came on, and what it adopts is
adopted after it (R103, R104, R107). -/
def ShelfLabel.answer (slot : SlotNo) (l : ShelfLabel) : Option (OnAir × ShelfLabel) :=
  match l.due.find? fun d => d.frame == l.count && d.slot == slot with
  | none => none
  | some d =>
    let rest := { l with due := l.due.erase d }
    some (⟨d.lane, l.plan[d.lane.val], (l.ack d.accepted).message⟩, (d.adopts.map fun c => rest.adopt c).getD rest)

end Sys2Proof.Machine
end

