-- ==== Sys2Proof/WellFormed.lean ====
section
/-! DEFINITION. Which commands can occur at the block's pins. The types hold every value a frame can carry; four rows need more. -/

namespace Sys2Proof

/-- A TEMPLATE_LOAD that a frame can carry: a count of 49 or fewer, or its body passes 256 bytes (R199). -/
def TemplateWords.fitsFrame (t : TemplateWords) : Bool := t.fields.length ≤ 49

/-- A transaction that is a request frame and fails a check of R173. -/
def isRefusedFrame (bytes : List Byte) : Bool :=
  !bytes.isEmpty && byteAt bytes 0 != readResponseKind && (match judgeFrame bytes with | .error _ => true | .ok _ => false)

/-- The commands the block can be given: a load that fits a frame; a read transaction of at least its own byte (R175); a refused
frame that is refused; a directory slot (R1); a message that the receiver takes (R201). -/
def Instr.wellFormed : Instr → Bool
  | .templateLoad _ t => t.fitsFrame
  | .readResponse clocked => 1 ≤ clocked
  | .unknownKindFrame bytes => isRefusedFrame bytes
  | .backoffRetryDue slot => slot < Config.labelCapacity
  | .ackArrival _ _ m => (receiveAck m).isSome
  | .itemPut .. | .itemSetNext .. | .itemClearNext .. | .itemGet .. | .itemRetire ..
  | .labelAdd .. | .labelBind .. | .labelMove .. | .labelGet .. | .labelRetire .. | .labelRetry .. | .labelQuery ..
  | .labelLocate .. | .labelScan .. | .templateGet .. | .zoneSet .. | .zoneGet .. | .zoneHold .. | .zoneRelease ..
  | .zoneRetry .. | .epochOpen .. | .epochSchedule .. | .epochAbandon .. | .epochStatus .. | .radioConfig ..
  | .radioStart .. | .radioStop .. | .radioStatus .. | .noticeRead .. | .noticeClear .. | .noticeMask .. | .portConfig ..
  | .deviceInfo .. | .deviceReset .. | .powerOnReset | .resetEnd | .serviceLineByte .. | .serviceLineGapTimeout
  | .serviceResponseSent | .frameStart .. | .countdownExpiry | .holdBudgetSpent .. | .holdIdleReached ..
  | .dataSlotOpening .. | .ackSlotClose .. => true

end Sys2Proof
end

