-- ==== Sys2Proof/Safety.lean ====
section
/-! DEFINITION. What statements speak of: the laws of the state that the manual states about the whole machine, each as a
proposition over one state; the response a taken request leaves; a run of commands; the row that carries a request. -/

namespace Sys2Proof

/-- The tag and request of a row that is a request taken from the Gateway Port; `none` for the event rows. -/
def Instr.request : Instr → Option (Byte × Request)
  | .itemPut tag item set => some (tag, .itemPut item set)
  | .itemSetNext tag item set => some (tag, .itemSetNext item set)
  | .itemClearNext tag item => some (tag, .itemClearNext item)
  | .itemGet tag item => some (tag, .itemGet item)
  | .itemRetire tag item => some (tag, .itemRetire item)
  | .labelAdd tag body => some (tag, .labelAdd body)
  | .labelBind tag address item => some (tag, .labelBind address item)
  | .labelMove tag address move => some (tag, .labelMove address move)
  | .labelGet tag address => some (tag, .labelGet address)
  | .labelRetire tag address => some (tag, .labelRetire address)
  | .labelRetry tag address => some (tag, .labelRetry address)
  | .labelQuery tag address => some (tag, .labelQuery address)
  | .labelLocate tag address => some (tag, .labelLocate address)
  | .labelScan tag start states flags => some (tag, .labelScan start states flags)
  | .templateLoad tag body => some (tag, .templateLoad body)
  | .templateGet tag id => some (tag, .templateGet id)
  | .zoneSet tag zone values => some (tag, .zoneSet zone values)
  | .zoneGet tag zone => some (tag, .zoneGet zone)
  | .zoneHold tag zone budget => some (tag, .zoneHold zone budget)
  | .zoneRelease tag zone => some (tag, .zoneRelease zone)
  | .zoneRetry tag zone => some (tag, .zoneRetry zone)
  | .epochOpen tag epoch => some (tag, .epochOpen epoch)
  | .epochSchedule tag count => some (tag, .epochSchedule count)
  | .epochAbandon tag => some (tag, .epochAbandon)
  | .epochStatus tag => some (tag, .epochStatus)
  | .radioConfig tag body => some (tag, .radioConfig body)
  | .radioStart tag => some (tag, .radioStart)
  | .radioStop tag => some (tag, .radioStop)
  | .radioStatus tag => some (tag, .radioStatus)
  | .noticeRead tag => some (tag, .noticeRead)
  | .noticeClear tag sources => some (tag, .noticeClear sources)
  | .noticeMask tag sources => some (tag, .noticeMask sources)
  | .portConfig tag enable polarity => some (tag, .portConfig enable polarity)
  | .deviceInfo tag => some (tag, .deviceInfo)
  | .deviceReset tag => some (tag, .deviceReset)
  | .powerOnReset | .resetEnd | .readResponse _ | .unknownKindFrame _ | .serviceLineByte _ _ | .serviceLineGapTimeout
  | .serviceResponseSent | .frameStart _ | .backoffRetryDue _ | .countdownExpiry | .holdBudgetSpent _ | .holdIdleReached _
  | .dataSlotOpening _ _ | .ackArrival _ _ _ | .ackSlotClose _ _ => none

/-- A request that a frame can carry (R199): every one, but a TEMPLATE_LOAD of more than 49 fields. -/
def Request.fits : Request → Bool
  | .templateLoad t => t.fitsFrame
  | _ => true

end Sys2Proof

namespace Sys2Proof.Machine

/-- The Gateway Port after a request transaction whose response is held (R172, R174; assumption 7), the rest as `s` has it. -/
def State.answer (tag : Byte) (r : Request) (result : Result) (body : List Byte) (s : State) : State :=
  { s with gateway := { s.gateway with received := (r.frame tag).take 260,
                                       shifted := List.replicate (r.frame tag).length 0xFF,
                                       held := some ⟨tag, result, body⟩ } }

/-- Commands run one after another; the first stop ends the run. -/
def run : List Instr → State → Host.Outcome State Fault Refusal
  | [], s => .next s
  | c :: cs, s =>
    match exec c s with
    | .next t => run cs t
    | .fault f => .fault f
    | .refused r => .refused r

/-! ## The laws of the tables (R1, R29, R46) -/

/-- The three tables are in canonical form; addresses and item numbers are unique and in range. -/
abbrev State.TablesLaw (s : State) : Prop :=
  s.labels.wf Config.labelCapacity ∧ s.items.wf Config.itemCapacity ∧ s.templates.wf 32
    ∧ (s.labels.map fun kl => kl.2.address).Nodup ∧ (∀ kl ∈ s.labels, kl.2.address ≠ 0 ∧ kl.2.address ≠ 0xFFFFFF)
    ∧ (s.items.map fun kx => kx.2.number).Nodup ∧ ∀ kx ∈ s.items, 1 ≤ kx.2.number ∧ kx.2.number ≤ 99999999

/-! ## The law of the epoch record (R70) -/

/-- STEADY has no pending epoch and no countdown; outside it the pending epoch is the last issued one and lies after the active
one; the countdown is above 0 exactly in ARMED. -/
abbrev State.EpochLaw (s : State) : Prop :=
  (s.epoch.state = .steady → s.epoch.pending = none ∧ s.epoch.countdown = 0)
    ∧ (s.epoch.state ≠ .steady → s.epoch.pending = some s.epoch.lastIssued ∧ s.epoch.lastIssued ≠ 0
        ∧ 1 ≤ (s.epoch.lastIssued - s.epoch.active).toNat ∧ (s.epoch.lastIssued - s.epoch.active).toNat ≤ 32767)
    ∧ (s.epoch.state = .armed ↔ 0 < s.epoch.countdown) ∧ s.epoch.countdown ≤ 1048575
    ∧ (s.epoch.expiryDue = true → s.epoch.countdown = 1)

/-! ## The law of the radio record (R91, R92, R98) -/

/-- The timing values lie in their ranges, active lanes have distinct channels, and windows open only while RUNNING. -/
abbrev State.RadioLaw (s : State) : Prop :=
  (2 ≤ s.radio.config.ackDelay ∧ s.radio.config.ackDelay ≤ 15)
    ∧ (1 ≤ s.radio.config.retryGap ∧ s.radio.config.retryGap ≤ 255)
    ∧ (1 ≤ s.radio.config.maxAttempts ∧ s.radio.config.maxAttempts ≤ 15)
    ∧ (1 ≤ s.radio.config.holdIdle ∧ s.radio.config.holdIdle ≤ 255)
    ∧ (s.radio.config.channels.toList.take s.radio.config.lanes.count).Nodup
    ∧ (s.air.windowsOpen = true → s.radio.state = .running) ∧ (s.air.beaconDue = true → s.air.windowsOpen = true)

/-! ## The law of holds (R159, R163, R166) -/

/-- At most 8 zones without repeats, each in the set exactly when HELD; a hold start is present exactly while HELD; holds exist only
while RUNNING; a HELD zone's budget is not spent and its idle count is below HOLD_IDLE; its count of frames is that of the frames from
its hold start to the frame in progress, modulo 16,777,216 (assumption 6). -/
abbrev State.HoldLaw (s : State) : Prop :=
  s.holdSet.Nodup ∧ s.holdSet.length ≤ 8 ∧ (s.holdSet ≠ [] → s.radio.state = .running)
    ∧ (∀ z : ZoneNo, (z ∈ s.holdSet ↔ (s.zone z).hold = .held) ∧ ((s.zone z).hold = .held ↔ (s.zone z).holdStart.isSome = true)
        ∧ (s.zone z).budget ≤ 65535 ∧ (s.zone z).idle ≤ 255
        ∧ ((s.zone z).hold = .held → 1 ≤ (s.zone z).budget ∧ (s.zone z).idle < s.radio.config.holdIdle)
        ∧ (s.zone z).holdStart.all (fun h => BitVec.ofNat 24 (s.zone z).holdFrames == s.radio.frame - h + 1) = true)
    ∧ s.holdsDue.Nodup ∧ ∀ z ∈ s.holdsDue, z ∈ s.holdSet

/-! ## The law of the guard (R117) -/

/-- With reload 0 the counter is 0 and the zone is not promoted; otherwise the counter lies in 1 to the reload. -/
abbrev State.GuardLaw (s : State) : Prop :=
  ∀ z : ZoneNo, (s.zone z).reload ≤ 255
    ∧ ((s.zone z).reload = 0 → (s.zone z).counter = 0 ∧ (s.zone z).promoted = false)
    ∧ (0 < (s.zone z).reload → 1 ≤ (s.zone z).counter ∧ (s.zone z).counter ≤ (s.zone z).reload)

/-! ## The laws of zone counts and queues (R6, R7) -/

/-- The number of label records of an administrative zone in a delivery state (R7). -/
def State.tally (s : State) (z : ZoneNo) (d : Delivery) : Nat :=
  s.labels.countP fun kl => kl.2.adminZone == z && kl.2.state == d

/-- Each count of each zone is the number of its labels in that state, and members is the sum of the five (R7). -/
abbrev State.CountsLaw (s : State) : Prop :=
  ∀ z : ZoneNo, (s.zone z).counts.current = s.tally z .current ∧ (s.zone z).counts.queued = s.tally z .queued
    ∧ (s.zone z).counts.backoff = s.tally z .backoff ∧ (s.zone z).counts.inFlight = s.tally z .inFlight
    ∧ (s.zone z).counts.failed = s.tally z .failed
    ∧ (s.zone z).counts.members = (s.zone z).counts.current + (s.zone z).counts.queued + (s.zone z).counts.backoff
        + (s.zone z).counts.inFlight + (s.zone z).counts.failed

/-- No queue holds a slot twice; a label is in its administrative zone's queue exactly when it is QUEUED or BACKOFF, and in no
other zone's queue (R6). -/
abbrev State.QueueLaw (s : State) : Prop :=
  ∀ z : ZoneNo, (s.queue z).Nodup
    ∧ (∀ k ∈ s.queue z, (s.label k).any (fun l => l.adminZone == z && (l.state == .queued || l.state == .backoff)) = true)
    ∧ ∀ kl ∈ s.labels, kl.2.adminZone = z → (kl.2.state = .queued ∨ kl.2.state = .backoff) → kl.1 ∈ s.queue z

/-! ## The law of bound counts (R33) -/

/-- Every item's bound count is the number of labels bound to it, and every binding names an item of the table. -/
abbrev State.BoundLaw (s : State) : Prop :=
  (∀ kx ∈ s.items, kx.2.bound = s.labels.countP fun kl => kl.2.binding == some kx.1)
    ∧ ∀ kl ∈ s.labels, kl.2.binding.all (fun i => (s.item i).isSome) = true

/-! ## The law of deliveries (section 1.3, R12, R133, R134) -/

/-- A label record agrees with its delivery state: a need, attempts and a retry frame as the table of section 1.3 gives; a
content change noted since the last grant has its flag standing (R41, R52; assumption 24). -/
abbrev Label.Settled (l : Label) : Prop :=
  (l.state = .current → l.hasNeed = false ∧ l.attempts = 0)
    ∧ (l.state = .queued ∨ l.state = .backoff ∨ l.state = .failed → l.hasNeed = true)
    ∧ (l.retryFrame.isSome = true ↔ l.state = .backoff) ∧ l.attempts ≤ 15
    ∧ (l.state = .backoff ∨ l.state = .failed → 1 ≤ l.attempts)
    ∧ (l.changed = true → l.needs.shown = true ∨ l.needs.staged = true)

/-- Every label is settled; a label is IN_FLIGHT exactly when the table holds its one entry, which bears its address and its
confirmed lane; no lane has more entries than its partition, and the table is empty while STOPPED. -/
abbrev State.DeliveryLaw (s : State) : Prop :=
  (∀ kl ∈ s.labels, kl.2.Settled) ∧ (s.entries.map Entry.label).Nodup
    ∧ (∀ e ∈ s.entries, (s.label e.label).any (fun l => l.state == .inFlight && l.address == e.address
        && l.confirmed.lane == e.lane) = true)
    ∧ (∀ kl ∈ s.labels, kl.2.state = .inFlight → kl.1 ∈ s.entries.map Entry.label)
    ∧ (∀ e ∈ s.entries, e.lane.val < s.radio.config.lanes.count)
    ∧ (∀ lane : Lane, s.laneEntries lane ≤ 64 / s.radio.config.lanes.count)
    ∧ (s.radio.state = .stopped → s.entries = [])

/-! ## The law of the air (R98 to R100, R133, R137) -/

/-- Ack slots come after the data slots of their lane; entries exist only in frames with windows; an entry expects its answer ACK_DELAY
frames after its grant, which was made in a data slot that has opened, and the ack slot it expects has not closed; no two entries share
lane, expected acknowledgement frame and slot. -/
abbrev State.AirLaw (s : State) : Prop :=
  (∀ lane : Lane, s.air.windows[lane.val].opened ≤ 6 ∧ (s.air.windows[lane.val].opened < 6 →
      s.air.windows[lane.val].taken = [] ∧ s.air.windows[lane.val].closed = []))
    ∧ (s.entries ≠ [] → s.air.windowsOpen = true)
    ∧ (∀ e ∈ s.entries, e.expected = e.grantFrame + BitVec.ofNat 24 s.radio.config.ackDelay
        ∧ (s.radio.frame - e.grantFrame).toNat ≤ s.radio.config.ackDelay
        ∧ (e.grantFrame = s.radio.frame → e.slot.val < s.air.windows[e.lane.val].opened)
        ∧ (e.expected = s.radio.frame → e.slot ∉ s.air.windows[e.lane.val].closed))
    ∧ s.entries.Pairwise fun a b => ¬(a.lane = b.lane ∧ a.expected = b.expected ∧ a.slot = b.slot)

/-! ## The law of staged work (R78, R80) -/

/-- The staged-outstanding count is the sum of R80; STAGED, staged pages, LIVE staged entries and next sets exist only outside
STEADY, and the staged ones carry the pending epoch (R32, R78). -/
abbrev State.StagedLaw (s : State) : Prop :=
  s.epoch.outstanding = (s.labels.countP fun kl => kl.2.needs.staged) + (s.entries.countP fun e => e.liveStaged)
    ∧ (∀ e ∈ s.entries, e.remembered.staged = e.liveStaged)
    ∧ (s.epoch.state = .steady → (∀ kl ∈ s.labels, kl.2.needs.staged = false ∧ kl.2.stagedPage = none)
        ∧ (∀ e ∈ s.entries, e.liveStaged = false) ∧ ∀ kx ∈ s.items, kx.2.next = none)
    ∧ (∀ kl ∈ s.labels, kl.2.stagedPage.all (fun p => s.epoch.pending == some p.epoch) = true)
    ∧ ∀ e ∈ s.entries, (match e.message with
        | .page (.staged .live) n _ => s.epoch.pending == some n
        | _ => true) = true

/-! ## The law of settings and templates (R2, R16, R19, R46, R47, R49) -/

/-- The phase of settings lies below their listen period. -/
abbrev Settings.Reduced (c : Settings) : Prop := c.phase < 2 ^ c.exponent.val

/-- A stored template passes every check of R48 and R49. -/
abbrev Template.Valid (t : Template) : Prop :=
  (8 ≤ t.length ∧ t.length ≤ 48) ∧ t.mask ≠ 0 ∧ (∀ k : Fin 48, t.length ≤ k.val → t.mask.getLsbD k.val = false)
    ∧ (1 ≤ t.fields.length ∧ t.fields.length ≤ 10)
    ∧ (∀ f ∈ t.fields, 1 ≤ f.minimum ∧ f.minimum ≤ f.digits ∧ f.digits ≤ 10 ∧ (f.kind = .indicator → f.digits = 2 ∧ f.minimum = 2)
        ∧ f.offset % 4 = 0 ∧ f.offset + 4 * f.digits ≤ 8 * t.length)
    ∧ t.fields.Pairwise fun f g => f.offset + 4 * f.digits ≤ g.offset ∨ g.offset + 4 * g.digits ≤ f.offset

/-- Phases are reduced everywhere they are kept, every label's template is defined, and every template is valid. -/
abbrev State.LayoutLaw (s : State) : Prop :=
  (∀ kl ∈ s.labels, kl.2.confirmed.Reduced ∧ (∀ c ∈ kl.2.requested, c.Reduced)
      ∧ (s.templates.find kl.2.template.val).isSome = true)
    ∧ (∀ e ∈ s.entries, e.settings.Reduced) ∧ ∀ kt ∈ s.templates, kt.2.Valid

/-- Every law of the state together. -/
structure State.Laws (s : State) : Prop where
  tables : s.TablesLaw
  epoch : s.EpochLaw
  radio : s.RadioLaw
  hold : s.HoldLaw
  guard : s.GuardLaw
  counts : s.CountsLaw
  queue : s.QueueLaw
  bound : s.BoundLaw
  delivery : s.DeliveryLaw
  air : s.AirLaw
  staged : s.StagedLaw
  layout : s.LayoutLaw

/-! ## What statements about label records share -/

/-- The label stands in a zone's queue, as R6 says who does. -/
def Label.waitsIn (z : ZoneNo) (l : Label) : Bool := l.adminZone == z && (l.state == .queued || l.state == .backoff)

/-- What follows a change of label records from `s` to `t`: those that leave a queue leave it, those that join it join its tail in
slot order and the others keep their order (R6); the six counts are right again and no other part of a zone record moves (R7); the
bound counts are right again and no other part of an item moves (R33); the staged-outstanding count is the sum of R80. -/
abbrev State.Follows (s t : State) : Prop :=
  (∀ z : ZoneNo, t.queue z = ((s.queue z).filter fun k => (t.label k).any fun l => l.waitsIn z)
      ++ ((t.labels.filter fun kl => kl.2.waitsIn z && !(s.label kl.1).any fun l => l.waitsIn z).map Prod.fst))
    ∧ t.CountsLaw ∧ (∀ z : ZoneNo, t.zone z = { s.zone z with counts := (t.zone z).counts })
    ∧ t.BoundLaw ∧ (t.items.map fun kx => (kx.1, { kx.2 with bound := 0 })) = (s.items.map fun kx => (kx.1, { kx.2 with bound := 0 }))
    ∧ t.epoch.outstanding = (t.labels.countP fun kl => kl.2.needs.staged) + (t.entries.countP fun e => e.liveStaged)

/-- `s` with the label records of `t` and what follows them: queues, zone table, items, staged-outstanding count. -/
def State.withRecords (t s : State) : State :=
  { s with labels := t.labels, queues := t.queues, zones := t.zones, items := t.items,
           epoch := { s.epoch with outstanding := t.epoch.outstanding } }

/-- A label marked by a content change: the flags set, and the effect on the delivery state that the table of R40 gives; the
change is noted for a delivery in flight (assumption 24). -/
def Label.marked (shown staged : Bool) (l : Label) : Label :=
  { l with needs := { l.needs with shown := l.needs.shown || shown, staged := l.needs.staged || staged },
           state := if l.state = .current ∨ l.state = .failed then .queued else l.state,
           attempts := if l.state = .current ∨ l.state = .failed then 0 else l.attempts,
           changed := l.changed || shown || staged }

/-- The staged rule as R78 states it: OPEN or ARMED, and the item has a next set, a staged page is confirmed, or a LIVE staged PAGE
is in flight. -/
def State.needsStagedSide (s : State) (k : Nat) (l : Label) : Bool :=
  s.epoch.state != .steady && ((l.binding.bind s.item).any (fun x => x.next.isSome) || l.stagedPage.isSome
    || s.entries.any fun e => e.label == k && e.liveStaged)

/-- No frame-start work is left due and no beacon is still to be composed (assumption 3). -/
abbrev State.Settled (s : State) : Prop :=
  s.air.beaconDue = false ∧ s.epoch.expiryDue = false ∧ s.holdsDue = []
    ∧ ∀ kl ∈ s.labels, ¬(kl.2.state = .backoff ∧ kl.2.retryFrame = some s.radio.frame)

/-- The frame in progress has no window still to come: it has none, or every data slot of every active lane has opened and every ack
slot has closed (R98). -/
abbrev State.WindowsDone (s : State) : Prop :=
  s.air.windowsOpen = true → ∀ lane : Lane, lane.val < s.radio.config.lanes.count →
    s.air.windows[lane.val].opened = 6 ∧ ∀ slot : SlotNo, slot ∈ s.air.windows[lane.val].closed

/-- The notices after a change of the staged-outstanding count: STAGING_COMPLETE at a fall to 0 outside STEADY (R81). -/
def State.noticesAfterCount (s t : State) : Notices :=
  if 0 < s.epoch.outstanding ∧ t.epoch.outstanding = 0 ∧ s.epoch.state ≠ .steady then
    { s.notices with pending := { s.notices.pending with stagingComplete := true } }
  else s.notices

/-- A zone as the Hold Unit's count leaves it (R164, steps 1 and 2). -/
def Zone.afterCount (x : Zone) : Zone :=
  { x with budget := x.budget - 1, idle := if x.counts.queued = 0 ∧ x.counts.backoff = 0 then x.idle + 1 else 0 }

/-- The Hold Unit's count ends the zone's hold: the budget is spent or the idle count has reached HOLD_IDLE (R164, step 3). -/
abbrev State.CountEnds (s : State) (z : ZoneNo) : Prop :=
  (s.zone z).afterCount.budget = 0 ∨ (s.zone z).afterCount.idle = s.radio.config.holdIdle

/-- The beacon a frame's lanes carry (R101, R201). -/
def State.beaconBytes (s : State) : List Byte :=
  sealAir ([1] ++ leBytes 3 s.radio.frame.toNat ++ leBytes 2 s.epoch.active.toNat ++ leBytes 1 s.radio.config.ackDelay
    ++ leBytes 1 s.holdSet.length ++ s.holdSet.flatMap fun z => leBytes 1 z.val)

/-- The state with the frame's beacons composed: every active lane has sent the same beacon (R101; assumption 5). -/
def State.withBeacons (s : State) : State :=
  { s with air := { s.air with
      beaconDue := false
      sent := Vector.ofFn fun lane =>
        if lane.val < s.radio.config.lanes.count then some s.beaconBytes else s.air.sent[lane.val] } }

/-- The windows of a frame in the order of their slots, lane by lane within a slot: data slots, then ack slots (R98). -/
def frameWindows : List Instr :=
  ((List.finRange 6).flatMap fun slot => (List.finRange 4).map fun lane => .dataSlotOpening lane slot)
    ++ (List.finRange 6).flatMap fun slot => (List.finRange 4).map fun lane => .ackSlotClose lane slot

/-- What a label takes of a message by R201's list: its length is that of its type (assumption 18), its air check is right, its type
is PAGE or QUERY, and the address is the label's own. -/
abbrev takesMessage (a : Address) (m : List Byte) : Prop :=
  m = sealAir (m.take (m.length - 2)) ∧ BitVec.ofNat 24 (leAt m 1 3) = a
    ∧ ((leAt m 0 1 = 2 ∧ m.length = 18 + leAt m 13 1) ∨ (leAt m 0 1 = 3 ∧ m.length = 11))

/-! ## Written values as R30 and R47 to R49 accept them -/

/-- A written price set passes the table of R30. -/
def PriceWordsOk (p : PriceWords) : Bool :=
  decide (p.price.toNat ≤ 99999999) && p.old.all (fun o => decide (o.toNat ≤ 99999999)) && decide (p.quantity.toNat ≤ 999999)
    && [1, 10, 100, 1000].contains p.basis.toNat && decide (p.kind.toNat ≤ 3)

/-- A stored price set holds what was written, a unit quantity of 0 as absent (R30). -/
abbrev PriceSet.Holds (q : PriceSet) (p : PriceWords) : Prop :=
  q.price = p.price.toNat ∧ q.old = p.old.map BitVec.toNat ∧ q.promo = p.promo
    ∧ q.quantity = (if p.quantity = 0 then none else some p.quantity.toNat)
    ∧ q.basis.units = p.basis.toNat ∧ q.kind.code = p.kind.toNat

/-- A stored field holds a written one; the digit counts of an INDICATOR are stored as 2 and 2 (R47). -/
abbrev Field.Holds (g : Field) (f : FieldWords) : Prop :=
  g.kind.code = f.kind ∧ g.offset = f.offset.toNat
    ∧ if g.kind = .indicator then g.digits = 2 ∧ g.minimum = 2 else g.digits = f.digits.toNat ∧ g.minimum = f.minimum.toNat

/-- Stored fields lie in their ranges and inside the page, and share no bit (R49). -/
abbrev FieldsFit (length : Nat) (fields : List Field) : Prop :=
  (∀ f ∈ fields, 1 ≤ f.minimum ∧ f.minimum ≤ f.digits ∧ f.digits ≤ 10 ∧ f.offset % 4 = 0
      ∧ f.offset + 4 * f.digits ≤ 8 * length)
    ∧ fields.Pairwise fun f g => f.offset + 4 * f.digits ≤ g.offset ∨ g.offset + 4 * g.digits ≤ f.offset

/-- The record-level checks of R48. -/
abbrev TemplateWordsOk (b : TemplateWords) : Prop :=
  b.id.toNat ≤ 31 ∧ 8 ≤ b.length.toNat ∧ b.length.toNat ≤ 48 ∧ 1 ≤ b.fields.length ∧ b.fields.length ≤ 10
    ∧ (∃ k : Fin 48, b.mask.getLsbD k.val = true) ∧ ∀ k : Fin 48, b.length.toNat ≤ k.val → b.mask.getLsbD k.val = false

/-! ## The ports' checks as R173 and R177 order them -/

/-- The kind codes that name a request (R199). -/
def requestKinds : List Nat :=
  [0x10, 0x11, 0x12, 0x13, 0x14, 0x20, 0x21, 0x22, 0x23, 0x24, 0x25, 0x26, 0x27, 0x28, 0x30, 0x31, 0x40, 0x41, 0x42, 0x43, 0x44,
   0x50, 0x51, 0x52, 0x53, 0x60, 0x61, 0x62, 0x63, 0x70, 0x71, 0x72, 0x73, 0x74, 0x75]

/-- The six kinds of the Service Line (R179). -/
def serviceKinds : List Nat := [0x13, 0x21, 0x23, 0x25, 0x26, 0x27]

/-- The first check of R173 that a request transaction fails. -/
def portRefusal (bytes : List Byte) : Option Result :=
  let declared := (byteAt bytes 2).toNat + 256 * (byteAt bytes 3).toNat
  if bytes.length < 4 then some .badLength
  else if 256 < declared then some .badLength
  else if bytes.length ≠ 4 + declared then some .badLength
  else if !requestKinds.contains (byteAt bytes 0).toNat then some .unknownKind
  else if requiredLength (byteAt bytes 0) (bytes.drop 4) ≠ some declared then some .badLength
  else none

/-- The sum of bytes modulo 256 (R177). -/
def byteSum (bytes : List Byte) : Byte := bytes.foldl (· + ·) 0

/-- The first check of R177 that a completed frame fails, its bytes given from the kind to the check byte. -/
def serviceRefusal (enabled : Bool) (frame : List Byte) : Option Result :=
  let kind := (byteAt frame 0).toNat
  let declared := (byteAt frame 2).toNat + 256 * (byteAt frame 3).toNat
  if byteSum frame ≠ 0 then some .badCheck
  else if !enabled then some .notPermitted
  else if !requestKinds.contains kind && kind != 0x5A then some .unknownKind
  else if !serviceKinds.contains kind then some .notPermitted
  else if requiredLength (byteAt frame 0) ((frame.drop 4).take declared) ≠ some declared then some .badLength
  else none

/-- The bytes of a Service Line request from its kind to its check byte (R197). -/
def serviceBytes (tag : Byte) (r : Request) : List Byte := r.frame tag ++ [-(byteSum (r.frame tag))]

end Sys2Proof.Machine
end

