-- ==== Sys2Proof/Certificates/Slice0/Obligations.lean ====
section
/-! DEFINITION. The statements about the BKN-4160, in the order of the manual's chapters after the machine, its ports and the laws.
A statement that carries the premise `s.Laws` rests on the laws of the state, which the statements named Step… say every step keeps. -/

open Sys2Proof Sys2Proof.Machine

/-! ## The machine -/

/-- One step takes the command at the front of the queue and runs it with the queue's rest (the queue is the model's own, assumption
11). -/
def Obligations.StepRunsFrontCommand : Prop :=
  ∀ (c : Instr) (rest : List Instr) (s : State), step (s.setPending (c :: rest)) = exec c (s.setPending rest)

/-- Every command completes, in every state, and leaves the waiting commands alone (the queue is the model's own, assumption 11). -/
def Obligations.EveryCommandKeepsTheQueue : Prop :=
  ∀ (c : Instr) (s : State), ∃ t, exec c s = .next t ∧ t.pending = s.pending

/-- R181: a request answered with a result other than OK changes no state but the held response and the port's own buffers; its
body is empty but for LAYOUT_BAD. -/
def Obligations.RefusalChangesNothing : Prop :=
  ∀ (c : Instr) (tag : Byte) (r : Request) (s t : State) (p : Response),
    c.request = some (tag, r) → s.inReset = false → exec c s = .next t → t.gateway.held = some p → p.result ≠ .ok →
    p.tag = tag ∧ t = s.answer tag r p.result p.body ∧ (if p.result = .layoutBad then p.body.length = 1 else p.body = [])

/-- R184, R185: a reset taken at power-on or by DEVICE_RESET brings every block to its reset values, with no response held; while it
lasts, requests, reads, Service Line bytes and frame starts do nothing; it ends at RESET_END. That the waiting commands survive it is
the model's choice (assumption 10). -/
def Obligations.ResetsTaken : Prop :=
  (∀ s : State, exec .powerOnReset s = .next { State.reset with inReset := true, pending := s.pending })
    ∧ (∀ (tag : Byte) (s : State), s.inReset = false →
        exec (.deviceReset tag) s = .next { State.reset with inReset := true, pending := s.pending })
    ∧ (∀ s : State, exec .resetEnd s = .next { s with inReset := false })
    ∧ ∀ (c : Instr) (s : State), s.inReset = true →
        (c.request.isSome = true ∨ (∃ n, c = .readResponse n) ∨ (∃ bytes, c = .unknownKindFrame bytes)
          ∨ (∃ b e, c = .serviceLineByte b e) ∨ ∃ o, c = .frameStart o) →
        exec c s = .next s

/-- R28, R45, R54, R90, R113, R132, R158, R171, R185, R196: what the manual says each block holds after a reset. -/
def Obligations.ResetLeavesTheStatedValues : Prop :=
  let s := State.reset
  s.labels = [] ∧ (∀ z, s.queue z = []) ∧ s.items = [] ∧ s.templates = [] ∧ s.entries = [] ∧ s.holdSet = []
    ∧ s.epoch.state = .steady ∧ s.epoch.active = 0 ∧ s.epoch.lastIssued = 0 ∧ s.epoch.pending = none ∧ s.epoch.countdown = 0
    ∧ s.epoch.outstanding = 0
    ∧ s.radio.state = .stopped ∧ s.radio.config.lanes = .one ∧ s.radio.config.channels = #v[0, 0, 0, 0]
    ∧ s.radio.config.ackDelay = 8 ∧ s.radio.config.retryGap = 12 ∧ s.radio.config.maxAttempts = 6 ∧ s.radio.config.holdIdle = 20
    ∧ s.radio.frame = 0
    ∧ (∀ z, (s.zone z).priority = 4 ∧ (s.zone z).boost = true ∧ (s.zone z).reload = 0 ∧ (s.zone z).counter = 0
        ∧ (s.zone z).promoted = false ∧ (s.zone z).hold = .none ∧ (s.zone z).budget = 0 ∧ (s.zone z).idle = 0
        ∧ (s.zone z).holdStart = none ∧ (s.zone z).counts = ⟨0, 0, 0, 0, 0, 0⟩)
    ∧ s.pointers = #v[0, 0, 0, 0]
    ∧ s.gateway.held = none ∧ s.gateway.received = [] ∧ s.gateway.serviceEnabled = true
    ∧ s.service.receiver = .hunting ∧ s.service.transmitter = .idle
    ∧ s.notices.pending = ⟨false, false, false, false, false, false⟩ ∧ s.notices.enabled = ⟨false, false, false, false, false, false⟩
    ∧ s.notices.polarity = .activeLow ∧ s.noticeActive = false ∧ s.noticePin = .released

/-! ## Frames of the ports (chapters 9 and 11) -/

/-- R197 to R199: the frame of a request that a frame can carry passes the Gateway Port's checks and spells that request, with its
tag, at the length R199 gives its kind. -/
def Obligations.RequestFrameRoundTrip : Prop :=
  ∀ (tag : Byte) (r : Request), r.fits = true →
    judgeFrame (r.frame tag) = .ok r ∧ frameTag (r.frame tag) = tag ∧ byteAt (r.frame tag) 0 = r.kind
      ∧ requiredLength r.kind r.body = some r.body.length ∧ (r.frame tag).length = 4 + r.body.length

/-- R172 to R174: a Gateway Port transaction that carries the frame of a request does what that request's own command does (assumption
13: the row UNKNOWN_KIND_FRAME carries a whole transaction). -/
def Obligations.RawFrameDoesWhatItsCommandDoes : Prop :=
  ∀ (c : Instr) (tag : Byte) (r : Request) (s : State), c.request = some (tag, r) → r.fits = true →
    exec (.unknownKindFrame (r.frame tag)) s = exec c s

/-- R173: a request transaction that fails a check is answered with the first result that applies, with the tag received or 0, and
changes nothing beyond the Gateway Port. -/
def Obligations.PortRefusesBadFrames : Prop :=
  ∀ (bytes : List Byte) (result : Result) (s : State), s.inReset = false → bytes ≠ [] → byteAt bytes 0 ≠ 0x5A →
    portRefusal bytes = some result →
    exec (.unknownKindFrame bytes) s = .next { s with gateway := { s.gateway with
      received := bytes.take 260, shifted := List.replicate bytes.length 0xFF, held := some ⟨byteAt bytes 1, result, []⟩ } }

/-- R175: a READ_RESPONSE transaction shifts out 0xFF, then the held response or NONE, then 0xFF; it removes a response it clocked
out whole and changes nothing else. That the bytes shifted out are kept is the model's choice (assumption 7), and so is that a raw
transaction whose first byte is READ_RESPONSE is such a read (assumption 13). -/
def Obligations.ReadResponseShiftsOut : Prop :=
  ∀ (n : Nat) (s : State), 1 ≤ n → s.inReset = false →
    (∃ t, exec (.readResponse n) s = .next t
      ∧ (let frame := match s.gateway.held with
          | some r => [r.tag, resultCode r.result] ++ leBytes 2 r.body.length ++ r.body
          | none => [0, 1, 0, 0]
        t = { s with gateway := { s.gateway with shifted := t.gateway.shifted,
                                                 held := if frame.length ≤ n - 1 then none else s.gateway.held } }
          ∧ t.gateway.shifted.length = n ∧ t.gateway.shifted[0]? = some 0xFF
          ∧ ∀ i, 1 ≤ i → i < n → t.gateway.shifted[i]? = some (frame.getD (i - 1) 0xFF)))
    ∧ ∀ bytes : List Byte, bytes.length = n → byteAt bytes 0 = 0x5A →
        exec (.unknownKindFrame bytes) s = exec (.readResponse n) s

/-- R176 to R179, R174: the bytes of a permitted request, received while the line is enabled and idle, hand the request to its
owning block and begin its response. The owning block does the same for both ports, but for LABEL_BIND and LABEL_GET, and a request
row does what the owning block does with it through the Gateway Port, its response held (the port's buffers as assumption 7 has
them). -/
def Obligations.ServiceLineTakesPermittedFrame : Prop :=
  (∀ (tag : Byte) (r : Request) (s : State), s.inReset = false → s.service = ⟨.hunting, .idle⟩ → s.gateway.serviceEnabled = true →
    serviceKinds.contains r.kind.toNat = true →
    ∃ result body, (serve .service r s).reply = some (result, body)
      ∧ run (((0xA5 : Byte) :: serviceBytes tag r).map fun b => .serviceLineByte b false) s
          = .next ((serve .service r s).state.setService ⟨.hunting, .sending (serviceFrameOf tag result body)⟩))
  ∧ (∀ (r : Request) (s : State), (∀ a item, r ≠ .labelBind a item) → (∀ a, r ≠ .labelGet a) →
    serve .service r s = serve .gateway r s)
  ∧ ∀ (c : Instr) (tag : Byte) (r : Request) (s : State), c.request = some (tag, r) → s.inReset = false →
    let v := serve .gateway r { s with gateway := { s.gateway with
      received := (r.frame tag).take 260, shifted := List.replicate (r.frame tag).length 0xFF } }
    exec c s = .next (match v.reply with
      | none => v.state
      | some (result, body) => { v.state with gateway := { v.state.gateway with held := some ⟨tag, result, body⟩ } })

/-- R177, R178: a frame that its last byte completes and that fails a check is answered with the first result that applies, or
discarded while a response is being sent. -/
def Obligations.ServiceLineRefusesInOrder : Prop :=
  ∀ (buffer : List Byte) (b : Byte) (s : State), s.inReset = false → s.service.receiver = .assembling buffer →
    (byteAt buffer 2).toNat + 256 * (byteAt buffer 3).toNat ≤ 256 →
    buffer.length = 4 + ((byteAt buffer 2).toNat + 256 * (byteAt buffer 3).toNat) →
    (∀ result, serviceRefusal s.gateway.serviceEnabled (buffer ++ [b]) = some result → s.service.transmitter = .idle →
      exec (.serviceLineByte b false) s
        = .next (s.setService ⟨.hunting, .sending (serviceFrameOf (byteAt buffer 1) result [])⟩))
    ∧ (s.service.transmitter ≠ .idle → exec (.serviceLineByte b false) s = .next (s.setService ⟨.hunting, s.service.transmitter⟩))

/-- R176, R178: how the receiver finds a frame, extends it and gives it up, and when the transmitter falls idle. -/
def Obligations.ServiceLineReceiver : Prop :=
  (∀ s : State, s.inReset = false → s.service.receiver = .hunting →
      exec (.serviceLineByte 0xA5 false) s = .next (s.setService ⟨.assembling [], s.service.transmitter⟩)
      ∧ exec (.serviceLineByte 0xA5 true) s = .next s
      ∧ ∀ (b : Byte) (e : Bool), b ≠ 0xA5 → exec (.serviceLineByte b e) s = .next s)
    ∧ (∀ (buffer : List Byte) (b : Byte) (s : State), s.inReset = false → s.service.receiver = .assembling buffer →
      exec (.serviceLineByte b true) s = .next (s.setService ⟨.hunting, s.service.transmitter⟩)
      ∧ (buffer.length < 3 →
          exec (.serviceLineByte b false) s = .next (s.setService ⟨.assembling (buffer ++ [b]), s.service.transmitter⟩))
      ∧ ∀ declared, declared = (byteAt (buffer ++ [b]) 2).toNat + 256 * (byteAt (buffer ++ [b]) 3).toNat → 3 ≤ buffer.length →
          (256 < declared → exec (.serviceLineByte b false) s = .next (s.setService
            ⟨.hunting, if s.service.transmitter = .idle then .sending (serviceFrameOf (byteAt buffer 1) .badLength [])
                       else s.service.transmitter⟩))
          ∧ (declared ≤ 256 → buffer.length + 1 < 5 + declared →
            exec (.serviceLineByte b false) s = .next (s.setService ⟨.assembling (buffer ++ [b]), s.service.transmitter⟩)))
    ∧ (∀ s : State, exec .serviceLineGapTimeout s = .next (s.setService ⟨.hunting, s.service.transmitter⟩))
    ∧ ∀ s : State, exec .serviceResponseSent s = .next (s.setService ⟨s.service.receiver, .idle⟩)

/-! ## Items (chapter 2) -/

/-- R34: ITEM_PUT of a new number creates the item in the lowest free slot, with the set as its current set and a bound count of 0;
with every slot in use it is refused FULL. That the byte sent for yes or for present is 1 is the model's choice (assumption 14). -/
def Obligations.ItemPutCreates : Prop :=
  ∀ (tag : Byte) (item : BitVec 32) (set : PriceWords) (q : PriceSet) (s : State), s.inReset = false → s.Laws →
    1 ≤ item.toNat → item.toNat ≤ 99999999 → PriceWordsOk set = true → q.Holds set →
    (∀ kx ∈ s.items, kx.2.number ≠ item.toNat) →
    (∀ k, k < 16384 → s.item k = none → (∀ j, j < k → (s.item j).isSome = true) →
      exec (.itemPut tag item set) s = .next ((s.setItems (s.items.put k ⟨item.toNat, q, none, 0⟩)).answer tag (.itemPut item set) .ok
        (leBytes 2 k ++ [1, 1])))
    ∧ ((∀ j, j < 16384 → (s.item j).isSome = true) →
      exec (.itemPut tag item set) s = .next (s.answer tag (.itemPut item set) .full []))

/-- R31, R35, R40: ITEM_PUT of an item already present replaces its current set and marks every bound label SHOWN, and STAGED under
the staged rule; an equal set changes nothing. That the byte sent for yes or for present is 1 is the model's choice (assumption 14).
The note that the marked labels keep of the change is the model's own (assumption 24). -/
def Obligations.ItemPutReplaces : Prop :=
  ∀ (tag : Byte) (item : BitVec 32) (set : PriceWords) (q : PriceSet) (k : Nat) (x : Item) (s : State), s.inReset = false → s.Laws →
    PriceWordsOk set = true → q.Holds set → s.item k = some x → x.number = item.toNat →
    (x.current = q → exec (.itemPut tag item set) s = .next (s.answer tag (.itemPut item set) .ok (leBytes 2 k ++ [0, 0])))
    ∧ (x.current ≠ q →
      let s' := s.setItems (s.items.put k { x with current := q })
      ∃ t, exec (.itemPut tag item set) s = .next t
        ∧ (∀ j, t.label j = (s.label j).map fun l => if l.binding = some k then l.marked true (s.needsStagedSide j l) else l)
        ∧ s'.Follows t ∧ t = t.withRecords (s'.answer tag (.itemPut item set) .ok (leBytes 2 k ++ [0, 1])))

/-- R36 to R38, R31: ITEM_SET_NEXT gives the item its next set and marks every bound label STAGED, an equal set changing nothing;
ITEM_CLEAR_NEXT removes it and marks STAGED the bound labels that still meet the staged rule (assumption 16); in STEADY both are
refused. That the byte sent for yes or for present is 1 is the model's choice (assumption 14). The note that the marked labels keep
of the change is the model's own (assumption 24). -/
def Obligations.ItemNextSets : Prop :=
  (∀ (tag : Byte) (item : BitVec 32) (set : PriceWords) (q : PriceSet) (k : Nat) (x : Item) (s : State), s.inReset = false → s.Laws →
    PriceWordsOk set = true → q.Holds set → s.item k = some x → x.number = item.toNat →
    (s.epoch.state = .steady →
      exec (.itemSetNext tag item set) s = .next (s.answer tag (.itemSetNext item set) .wrongEpochState []))
    ∧ (s.epoch.state ≠ .steady → x.next = some q →
      exec (.itemSetNext tag item set) s = .next (s.answer tag (.itemSetNext item set) .ok (leBytes 2 k ++ [0])))
    ∧ (s.epoch.state ≠ .steady → x.next ≠ some q →
      let s' := s.setItems (s.items.put k { x with next := some q })
      ∃ t, exec (.itemSetNext tag item set) s = .next t
        ∧ (∀ j, t.label j = (s.label j).map fun l => if l.binding = some k then l.marked false true else l)
        ∧ s'.Follows t ∧ t = t.withRecords (s'.answer tag (.itemSetNext item set) .ok (leBytes 2 k ++ [1]))))
  ∧ ∀ (tag : Byte) (item : BitVec 32) (k : Nat) (x : Item) (s : State), s.inReset = false → s.Laws →
    s.item k = some x → x.number = item.toNat →
    (s.epoch.state = .steady →
      exec (.itemClearNext tag item) s = .next (s.answer tag (.itemClearNext item) .wrongEpochState []))
    ∧ (s.epoch.state ≠ .steady → x.next = none →
      exec (.itemClearNext tag item) s = .next (s.answer tag (.itemClearNext item) .ok (leBytes 2 k ++ [0])))
    ∧ (s.epoch.state ≠ .steady → x.next ≠ none →
      let s' := s.setItems (s.items.put k { x with next := none })
      ∃ t, exec (.itemClearNext tag item) s = .next t
        ∧ (∀ j, t.label j = (s.label j).map fun l =>
            if l.binding = some k ∧ s'.needsStagedSide j l = true then l.marked false true else l)
        ∧ s'.Follows t ∧ t = t.withRecords (s'.answer tag (.itemClearNext item) .ok (leBytes 2 k ++ [1])))

/-- R43: ITEM_RETIRE frees the slot of an item with a bound count of 0, and is refused IN_USE above it. R29, R30, R34, R36, R38,
R42: an item request is refused BAD_VALUE for a number or a price set out of range, and answered NOT_FOUND for a number that no
record has. ITEM_SET_NEXT and ITEM_CLEAR_NEXT judge the epoch state before the presence of the number. -/
def Obligations.ItemRetireAndRefusals : Prop :=
  (∀ (tag : Byte) (item : BitVec 32) (k : Nat) (x : Item) (s : State), s.inReset = false → s.Laws →
    s.item k = some x → x.number = item.toNat →
    (x.bound = 0 → ∃ t, exec (.itemRetire tag item) s = .next t
      ∧ (∀ j, t.item j = if j = k then none else s.item j) ∧ t.items.wf 16384
      ∧ t = (s.setItems t.items).answer tag (.itemRetire item) .ok (leBytes 2 k))
    ∧ (0 < x.bound → exec (.itemRetire tag item) s = .next (s.answer tag (.itemRetire item) .inUse [])))
  ∧ ∀ (tag : Byte) (item : BitVec 32) (set : PriceWords) (s : State), s.inReset = false →
    ((item.toNat = 0 ∨ 99999999 < item.toNat ∨ PriceWordsOk set = false) →
      exec (.itemPut tag item set) s = .next (s.answer tag (.itemPut item set) .badValue [])
      ∧ exec (.itemSetNext tag item set) s = .next (s.answer tag (.itemSetNext item set) .badValue []))
    ∧ ((item.toNat = 0 ∨ 99999999 < item.toNat) →
      exec (.itemClearNext tag item) s = .next (s.answer tag (.itemClearNext item) .badValue [])
      ∧ exec (.itemGet tag item) s = .next (s.answer tag (.itemGet item) .badValue [])
      ∧ exec (.itemRetire tag item) s = .next (s.answer tag (.itemRetire item) .badValue []))
    ∧ (1 ≤ item.toNat → item.toNat ≤ 99999999 → s.epoch.state = .steady →
      exec (.itemClearNext tag item) s = .next (s.answer tag (.itemClearNext item) .wrongEpochState [])
      ∧ (PriceWordsOk set = true →
        exec (.itemSetNext tag item set) s = .next (s.answer tag (.itemSetNext item set) .wrongEpochState [])))
    ∧ (1 ≤ item.toNat → item.toNat ≤ 99999999 → (∀ kx ∈ s.items, kx.2.number ≠ item.toNat) →
      exec (.itemGet tag item) s = .next (s.answer tag (.itemGet item) .notFound [])
      ∧ exec (.itemRetire tag item) s = .next (s.answer tag (.itemRetire item) .notFound [])
      ∧ (s.epoch.state ≠ .steady → exec (.itemClearNext tag item) s = .next (s.answer tag (.itemClearNext item) .notFound [])
        ∧ (PriceWordsOk set = true →
          exec (.itemSetNext tag item set) s = .next (s.answer tag (.itemSetNext item set) .notFound []))))

/-! ## Labels (chapter 1) -/

/-- R16, R17: LABEL_ADD creates the record in the lowest free slot, QUEUED with SHOWN set, and STAGED set when its item has a next
set outside STEADY. A new record has no change noted (assumption 24). -/
def Obligations.LabelAdd : Prop :=
  ∀ (tag : Byte) (b : LabelAddWords) (k : Nat) (c : Settings) (template : Fin 32) (binding : Option Nat) (s : State),
    s.inReset = false → s.Laws → b.address ≠ 0 → b.address ≠ 0xFFFFFF →
    c.zone.val = b.zone.toNat → c.lane.val = b.lane.toNat → c.exponent.val = b.exponent.toNat →
    c.phase = b.phase.toNat % 2 ^ c.exponent.val → template.val = b.template.toNat →
    (s.templates.find template.val).isSome = true → (∀ kl ∈ s.labels, kl.2.address ≠ b.address) →
    ((b.item = none ∧ binding = none) ∨ ∃ n i x, b.item = some n ∧ binding = some i ∧ s.item i = some x ∧ x.number = n.toNat) →
    k < 16384 → s.label k = none → (∀ j, j < k → (s.label j).isSome = true) →
    ∃ t, exec (.labelAdd tag b) s = .next t
      ∧ (∀ j, t.label j = if j = k then some
          { address := b.address, confirmed := c, requested := none, template := template, binding := binding,
            needs := ⟨true, s.epoch.state != .steady && (binding.bind s.item).any (fun x => x.next.isSome), false, false⟩,
            state := .queued, attempts := 0, retryFrame := none, shownCheck := none, stagedPage := none, battery := none,
            lastHeard := none, lowBattery := false, overflow := false, mismatch := false, serviceTouched := false,
            changed := false }
          else s.label j)
      ∧ s.Follows t ∧ t = t.withRecords (s.answer tag (.labelAdd b) .ok (leBytes 2 k ++ leBytes 1 c.phase))

/-- R18, R179: LABEL_BIND to another binding replaces it as a content change; from the Service Line it also sets SERVICE_TOUCHED and
raises SERVICE_CHANGE; naming the binding the label has changes nothing. The note that the marked labels keep of the change is the
model's own (assumption 24). -/
def Obligations.LabelBind : Prop :=
  ∀ (tag : Byte) (a : Address) (item : Option (BitVec 32)) (binding : Option Nat) (k : Nat) (l : Label) (s : State),
    s.inReset = false → s.Laws → s.label k = some l → l.address = a →
    ((item = none ∧ binding = none) ∨ ∃ n i x, item = some n ∧ binding = some i ∧ s.item i = some x ∧ x.number = n.toNat) →
    (binding = l.binding → exec (.labelBind tag a item) s = .next (s.answer tag (.labelBind a item) .ok [])
      ∧ serve .service (.labelBind a item) s = ⟨some (.ok, []), s⟩)
    ∧ (binding ≠ l.binding →
      (∃ t, exec (.labelBind tag a item) s = .next t
        ∧ (∀ j, t.label j = if j = k then
            some ({ l with binding := binding }.marked true (s.needsStagedSide k { l with binding := binding })) else s.label j)
        ∧ s.Follows t ∧ t = t.withRecords (s.answer tag (.labelBind a item) .ok []))
      ∧ ∃ t, serve .service (.labelBind a item) s = ⟨some (.ok, []), t⟩
        ∧ (∀ j, t.label j = if j = k then
            some ({ l with binding := binding, serviceTouched := true }.marked true
              (s.needsStagedSide k { l with binding := binding })) else s.label j)
        ∧ s.Follows t ∧ t = t.withRecords (s.setNotices { s.notices with
            pending := { s.notices.pending with serviceChange := true } }))

/-- R19 to R21: LABEL_MOVE takes the settings part and the template part together: the target becomes the requested settings unless
they are removed, another template is a content change, and the record ends with one delivery state. That the response's requested
settings stand behind one presence byte is the model's reading (assumption 14). That the byte sent for yes or for present is 1 is
the model's choice (assumption 14). The note that the marked labels keep of the change is the model's own (assumption 24). -/
def Obligations.LabelMove : Prop :=
  ∀ (tag : Byte) (a : Address) (m : MoveWords) (k : Nat) (l : Label) (target : Settings) (template : Fin 32) (s : State),
    s.inReset = false → s.Laws → s.label k = some l → l.address = a →
    target.zone.val = (m.zone.map BitVec.toNat).getD (l.requested.getD l.confirmed).zone.val →
    target.lane.val = (m.lane.map BitVec.toNat).getD (l.requested.getD l.confirmed).lane.val →
    target.exponent.val = (m.exponent.map BitVec.toNat).getD (l.requested.getD l.confirmed).exponent.val →
    target.phase = (m.phase.map BitVec.toNat).getD (l.requested.getD l.confirmed).phase % 2 ^ target.exponent.val →
    template.val = (m.template.map BitVec.toNat).getD l.template.val → (s.templates.find template.val).isSome = true →
    let gives := m.zone.isSome || m.lane.isSome || m.exponent.isSome || m.phase.isSome
    let requested := if gives = false then l.requested
      else if target = l.confirmed ∧ (l.state = .inFlight → ∀ e ∈ s.entries, e.label = k → e.settings = target) then none
      else some target
    let moved := { l with requested := requested, template := template }
    let l' := if template ≠ l.template then moved.marked true (s.needsStagedSide k moved)
      else if l.state = .inFlight then moved
      else if moved.hasNeed = true then { moved with state := if l.state = .current then .queued else l.state }
      else { moved with state := .current, attempts := 0, retryFrame := none }
    ∃ t, exec (.labelMove tag a m) s = .next t
      ∧ (∀ j, t.label j = if j = k then some l' else s.label j) ∧ s.Follows t
      ∧ t = t.withRecords (s.answer tag (.labelMove a m) .ok
          (l'.confirmed.bytes ++ optGroup 4 (requested.map Settings.bytes) ++ leBytes 1 template.val))

/-- R22, R27: LABEL_GET from the Gateway Port reports the record and clears SERVICE_TOUCHED, from the Service Line it reports the
same and changes nothing; LABEL_SCAN reports the first match at or after its start slot, or NOT_FOUND, or BAD_VALUE for a start slot
beyond the directory, and changes nothing. The groups of a LABEL_GET body are the model's reading (assumption 14), and so are
LABEL_SCAN's start slot coming first and a state set with none of bits 0 to 4 counting as empty (assumption 19). That the byte sent
for yes or for present is 1 is the model's choice (assumption 14). -/
def Obligations.LabelGetAndScan : Prop :=
  (∀ (tag : Byte) (a : Address) (k : Nat) (l : Label) (s : State), s.inReset = false → s.Laws → s.label k = some l → l.address = a →
    let settingsHeld : Bool := match l.requested with
      | none => false
      | some c => l.state != .inFlight || s.entries.all fun e => e.label != k || e.settings != c
    let body := leBytes 2 k ++ leBytes 3 a.toNat ++ l.confirmed.bytes ++ optGroup 4 (l.requested.map Settings.bytes)
      ++ leBytes 1 (l.requested.getD l.confirmed).zone.val ++ leBytes 1 l.template.val
      ++ optBytes 4 ((l.binding.bind s.item).map Item.number)
      ++ [byteOfBits [l.needs.shown, l.needs.staged, l.needs.query, l.needs.locate, settingsHeld]]
      ++ leBytes 1 (deliveryCode l.state) ++ leBytes 1 l.attempts ++ optBytes 3 (l.retryFrame.map BitVec.toNat)
      ++ optBytes 2 (l.shownCheck.map BitVec.toNat)
      ++ optGroup 4 (l.stagedPage.map fun p => leBytes 2 p.epoch.toNat ++ leBytes 2 p.check.toNat)
      ++ optBytes 1 (l.battery.map Fin.val) ++ optBytes 3 (l.lastHeard.map BitVec.toNat)
      ++ [byteOfBits [l.lowBattery, l.overflow, l.mismatch, l.serviceTouched]]
    exec (.labelGet tag a) s = .next ((s.setLabels (s.labels.put k { l with serviceTouched := false })).answer tag (.labelGet a) .ok body)
      ∧ serve .service (.labelGet a) s = ⟨some (.ok, body), s⟩)
  ∧ ∀ (tag : Byte) (start : BitVec 16) (states flags : Byte) (s : State), s.inReset = false → s.Laws →
    let found : Label → Bool := fun l =>
      (states &&& 0x1F == 0 || states.getLsbD (deliveryCode l.state)) && (!flags.getLsbD 0 || l.lowBattery)
        && (!flags.getLsbD 1 || l.overflow) && (!flags.getLsbD 2 || l.mismatch) && (!flags.getLsbD 3 || l.serviceTouched)
    (16384 ≤ start.toNat → exec (.labelScan tag start states flags) s = .next (s.answer tag (.labelScan start states flags) .badValue []))
    ∧ (∀ k l, s.label k = some l → start.toNat ≤ k → found l = true →
      (∀ j l', s.label j = some l' → start.toNat ≤ j → j < k → found l' = false) →
      exec (.labelScan tag start states flags) s = .next (s.answer tag (.labelScan start states flags) .ok
        (leBytes 2 k ++ leBytes 3 l.address.toNat ++ leBytes 1 (deliveryCode l.state))))
    ∧ (start.toNat < 16384 → (∀ k l, s.label k = some l → start.toNat ≤ k → found l = false) →
      exec (.labelScan tag start states flags) s = .next (s.answer tag (.labelScan start states flags) .notFound []))

/-- R23, R152: LABEL_RETIRE removes the record in any delivery state, frees its in-flight entry, and lets the staged-outstanding count
fall. -/
def Obligations.LabelRetire : Prop :=
  ∀ (tag : Byte) (a : Address) (k : Nat) (l : Label) (s : State), s.inReset = false → s.Laws → s.label k = some l → l.address = a →
    ∃ t, exec (.labelRetire tag a) s = .next t
      ∧ (∀ j, t.label j = if j = k then none else s.label j) ∧ s.Follows t
      ∧ t = t.withRecords { s.answer tag (.labelRetire a) .ok (leBytes 2 k) with
          entries := s.entries.filter fun e => e.label != k,
          air := { s.air with confirmedNow := s.air.confirmedNow.filter fun j => j != k },
          notices := s.noticesAfterCount t }

/-- R24 to R26: LABEL_RETRY revives a FAILED label alone; LABEL_QUERY and LABEL_LOCATE set their flag, make a CURRENT label QUEUED and
leave every other delivery state. -/
def Obligations.LabelRetryQueryLocate : Prop :=
  ∀ (tag : Byte) (a : Address) (k : Nat) (l : Label) (s : State), s.inReset = false → s.Laws → s.label k = some l → l.address = a →
    (∃ t, exec (.labelRetry tag a) s = .next t
      ∧ (∀ j, t.label j = if j = k then
          some (if l.state = .failed then { l with state := .queued, attempts := 0 } else l) else s.label j)
      ∧ s.Follows t ∧ t = t.withRecords (s.answer tag (.labelRetry a) .ok []))
    ∧ (∃ t, exec (.labelQuery tag a) s = .next t
      ∧ (∀ j, t.label j = if j = k then
          some { l with needs := { l.needs with query := true }, state := if l.state = .current then .queued else l.state }
          else s.label j)
      ∧ s.Follows t ∧ t = t.withRecords (s.answer tag (.labelQuery a) .ok []))
    ∧ ∃ t, exec (.labelLocate tag a) s = .next t
      ∧ (∀ j, t.label j = if j = k then
          some { l with needs := { l.needs with locate := true }, state := if l.state = .current then .queued else l.state }
          else s.label j)
      ∧ s.Follows t ∧ t = t.withRecords (s.answer tag (.labelLocate a) .ok [])

/-- R1, R16, R18, R19: a label request that names no label is answered NOT_FOUND; LABEL_BIND and LABEL_MOVE are refused BAD_VALUE
for a value out of range and NOT_FOUND for an absent item or an undefined template; the checks of LABEL_ADD in their order. What a
LABEL_BIND or LABEL_MOVE that names no label and carries a value out of range is answered, the manual leaves open (assumption 1).
That a LABEL_MOVE with both a value out of range and an undefined template is answered BAD_VALUE is read from the order of R19's
sentences (assumption 19). -/
def Obligations.LabelRequestsRefused : Prop :=
  ∀ (tag : Byte) (s : State), s.inReset = false → s.TablesLaw →
    let numberOk : BitVec 32 → Prop := fun n => 1 ≤ n.toNat ∧ n.toNat ≤ 99999999
    let moveOk : MoveWords → Prop := fun m => (∀ b ∈ m.zone, b.toNat ≤ 63) ∧ (∀ b ∈ m.lane, b.toNat ≤ 3)
      ∧ (∀ b ∈ m.exponent, b.toNat ≤ 8) ∧ ∀ b ∈ m.template, b.toNat ≤ 31
    (∀ a : Address, (∀ kl ∈ s.labels, kl.2.address ≠ a) →
      exec (.labelGet tag a) s = .next (s.answer tag (.labelGet a) .notFound [])
      ∧ exec (.labelRetire tag a) s = .next (s.answer tag (.labelRetire a) .notFound [])
      ∧ exec (.labelRetry tag a) s = .next (s.answer tag (.labelRetry a) .notFound [])
      ∧ exec (.labelQuery tag a) s = .next (s.answer tag (.labelQuery a) .notFound [])
      ∧ exec (.labelLocate tag a) s = .next (s.answer tag (.labelLocate a) .notFound [])
      ∧ (∀ item : Option (BitVec 32), (∀ n ∈ item, numberOk n) →
        exec (.labelBind tag a item) s = .next (s.answer tag (.labelBind a item) .notFound []))
      ∧ ∀ m : MoveWords, moveOk m → exec (.labelMove tag a m) s = .next (s.answer tag (.labelMove a m) .notFound []))
    ∧ (∀ (k : Nat) (l : Label), s.label k = some l →
      (∀ n : BitVec 32,
        (¬numberOk n → exec (.labelBind tag l.address (some n)) s
          = .next (s.answer tag (.labelBind l.address (some n)) .badValue []))
        ∧ (numberOk n → (∀ kx ∈ s.items, kx.2.number ≠ n.toNat) → exec (.labelBind tag l.address (some n)) s
          = .next (s.answer tag (.labelBind l.address (some n)) .notFound [])))
      ∧ ∀ m : MoveWords,
        (¬moveOk m → exec (.labelMove tag l.address m) s = .next (s.answer tag (.labelMove l.address m) .badValue []))
        ∧ (moveOk m → (∃ b ∈ m.template, s.templates.find b.toNat = none) →
          exec (.labelMove tag l.address m) s = .next (s.answer tag (.labelMove l.address m) .notFound [])))
    ∧ ∀ b : LabelAddWords,
      let inRange := b.address ≠ 0 ∧ b.address ≠ 0xFFFFFF ∧ b.zone.toNat ≤ 63 ∧ b.lane.toNat ≤ 3 ∧ b.exponent.toNat ≤ 8
        ∧ b.template.toNat ≤ 31 ∧ ∀ n ∈ b.item, numberOk n
      let present := ∃ kl ∈ s.labels, kl.2.address = b.address
      let missing := s.templates.find b.template.toNat = none ∨ ∃ n ∈ b.item, ∀ kx ∈ s.items, kx.2.number ≠ n.toNat
      (¬inRange → exec (.labelAdd tag b) s = .next (s.answer tag (.labelAdd b) .badValue []))
      ∧ (inRange → present → exec (.labelAdd tag b) s = .next (s.answer tag (.labelAdd b) .exists []))
      ∧ (inRange → ¬present → missing → exec (.labelAdd tag b) s = .next (s.answer tag (.labelAdd b) .notFound []))
      ∧ (inRange → ¬present → ¬missing → (∀ j, j < 16384 → (s.label j).isSome = true) →
        exec (.labelAdd tag b) s = .next (s.answer tag (.labelAdd b) .full []))

/-! ## Templates (chapter 3) -/

/-- R50, R51: an accepted TEMPLATE_LOAD defines an undefined slot and marks no label; an equal load changes nothing; a reload
replaces the record and marks every label that uses the template SHOWN, and STAGED under the staged rule. That the byte sent for yes
or for present is 1 is the model's choice (assumption 14). The note that the marked labels keep of the change is the model's own
(assumption 24). -/
def Obligations.TemplateLoadStores : Prop :=
  ∀ (tag : Byte) (b : TemplateWords) (record : Template) (s : State), s.inReset = false → s.Laws → TemplateWordsOk b →
    record.length = b.length.toNat → record.mask = b.mask → List.Forall₂ Field.Holds record.fields b.fields →
    FieldsFit record.length record.fields →
    let s' := s.setTemplates (s.templates.put b.id.toNat record)
    (s.templates.find b.id.toNat = none →
      exec (.templateLoad tag b) s = .next (s'.answer tag (.templateLoad b) .ok [1, 0, 0]))
    ∧ (s.templates.find b.id.toNat = some record →
      exec (.templateLoad tag b) s = .next (s.answer tag (.templateLoad b) .ok [0, 0, 0]))
    ∧ ∀ old, s.templates.find b.id.toNat = some old → old ≠ record →
      ∃ t, exec (.templateLoad tag b) s = .next t
        ∧ (∀ j, t.label j = (s.label j).map fun l =>
            if l.template.val = b.id.toNat then l.marked true (s.needsStagedSide j l) else l)
        ∧ s'.Follows t ∧ t = t.withRecords (s'.answer tag (.templateLoad b) .ok
            (1 :: leBytes 2 (s.labels.countP fun kl => kl.2.template.val == b.id.toNat)))

/-- R48, R49: a TEMPLATE_LOAD that fails a record-level check is refused BAD_VALUE; otherwise the fields are checked in list order and
the first that fails is reported by LAYOUT_BAD, while fields that all fit are stored as R47 says. -/
def Obligations.TemplateFieldsCheckedInOrder : Prop :=
  ∀ (tag : Byte) (b : TemplateWords) (s : State), s.inReset = false →
    (¬TemplateWordsOk b → exec (.templateLoad tag b) s = .next (s.answer tag (.templateLoad b) .badValue []))
    ∧ (TemplateWordsOk b →
      (∃ fields, List.Forall₂ Field.Holds fields b.fields ∧ FieldsFit b.length.toNat fields
        ∧ ∃ t, exec (.templateLoad tag b) s = .next t ∧ t.templates.find b.id.toNat = some ⟨b.length.toNat, b.mask, fields⟩)
      ∨ ∃ i, i < b.fields.length
        ∧ (∃ fields, List.Forall₂ Field.Holds fields (b.fields.take i) ∧ FieldsFit b.length.toNat fields)
        ∧ (¬∃ fields, List.Forall₂ Field.Holds fields (b.fields.take (i + 1)) ∧ FieldsFit b.length.toNat fields)
        ∧ exec (.templateLoad tag b) s = .next (s.answer tag (.templateLoad b) .layoutBad [BitVec.ofNat 8 i]))

/-! ## Page rendering (sections 3.4 to 3.8) -/

/-- R58: a value that fits is written as its decimal digits, with 0xF exactly in the places above the lowest m that hold a zero and
have only zeros above them; a value of 10 to the power d or more fills every place with 0xE, and the field has overflowed, as no
other has; R59: a blank field holds 0xF and has not overflowed. -/
def Obligations.NumericFieldsSpellTheirValues : Prop :=
  ∀ (f : Field), 1 ≤ f.minimum → f.minimum ≤ f.digits → f.digits ≤ 10 →
    numericPlaces f none = List.replicate f.digits 0xF#4 ∧ overflows f.digits none = false
    ∧ ∀ v : Nat,
      (10 ^ f.digits ≤ v → numericPlaces f (some v) = List.replicate f.digits 0xE#4 ∧ overflows f.digits (some v) = true)
      ∧ (v < 10 ^ f.digits →
        overflows f.digits (some v) = false ∧ (numericPlaces f (some v)).length = f.digits
        ∧ ((numericPlaces f (some v)).foldl (fun n (p : BitVec 4) => 10 * n + (if p = 0xF#4 then 0 else p.toNat)) 0) = v
        ∧ ∀ (i : Nat) (p : BitVec 4), (numericPlaces f (some v))[i]? = some p →
            (p.toNat ≤ 9 ∨ p = 0xF#4)
            ∧ (p = 0xF#4 ↔ i < f.digits - f.minimum ∧ v / 10 ^ (f.digits - 1 - i) = 0))

/-- R61 to R63: the unit price is the price per basis rounded to a whole minor unit, halves up; the saving is the whole percent
rounded down, absent when it is 0; the old price and the saving are shown only under the promotion condition. -/
def Obligations.RenderedValues : Prop :=
  ∀ (number : Nat) (p : PriceSet),
    (∀ q, p.quantity = some q → 0 < q → ∃ v, fieldValue number p .unitPrice = some v
      ∧ 2 * q * v ≤ 2 * p.price * p.basis.units + q ∧ 2 * p.price * p.basis.units + q < 2 * q * (v + 1))
    ∧ (p.quantity = none → fieldValue number p .unitPrice = none)
    ∧ fieldValue number p .price = some p.price ∧ fieldValue number p .itemCode = some number
    ∧ (∀ o, p.promo = true → p.old = some o → p.price < o →
        fieldValue number p .oldPrice = some o
        ∧ (∀ v, 0 < v → v * o ≤ (o - p.price) * 100 → (o - p.price) * 100 < (v + 1) * o →
            fieldValue number p .savePct = some v ∧ v ≤ 100)
        ∧ ((o - p.price) * 100 < o → fieldValue number p .savePct = none))
    ∧ ((p.promo = false ∨ p.old = none ∨ ∃ o, p.old = some o ∧ o ≤ p.price) →
        fieldValue number p .oldPrice = none ∧ fieldValue number p .savePct = none)

/-- R55 to R57, R64, R66, R67: a rendered page has the template's length; every place of a field holds what R58 to R64 give it and
every place outside all fields stays 0xF; the blank page holds 0 in its INDICATOR fields and 0xF in its numeric ones; the page check
is taken over exactly the bytes whose mask bit is set, in ascending order. -/
def Obligations.PagePlacesHoldTheirFields : Prop :=
  ∀ (T : Template) (content : Option (Nat × PriceSet)), T.Valid →
    (pageBytes T content).length = T.length
    ∧ (∀ f ∈ T.fields, ∀ i, i < f.digits → (pagePlaces T content)[f.offset / 4 + i]? = (match content with
        | none => some (if f.kind = .indicator then 0#4 else 0xF#4)
        | some (number, p) =>
          if f.kind = .indicator then
            let b : BitVec 8 := BitVec.ofNat 8 ((if p.promotion then 128 else 0)
              + (if T.fields.any (fun g => g.kind != .indicator && overflows g.digits (fieldValue number p g.kind)) then 64 else 0)
              + 16 * p.basis.code + 4 * p.kind.code)
            some (if i = 0 then b.extractLsb' 4 4 else b.extractLsb' 0 4)
          else (numericPlaces f (fieldValue number p f.kind))[i]?))
    ∧ (∀ j, j < 2 * T.length → (∀ f ∈ T.fields, j < f.offset / 4 ∨ f.offset / 4 + f.digits ≤ j) →
        (pagePlaces T content)[j]? = some 0xF#4)
    ∧ ∀ k, k < T.length → (pageBytes T content)[k]? = (do
        let high ← (pagePlaces T content)[2 * k]?
        let low ← (pagePlaces T content)[2 * k + 1]?
        some (high ++ low))
    ∧ ∀ page : List Byte, pageCheck T page
        = crc16 (((List.range page.length).filter fun k => T.mask.getLsbD k).map fun k => page.getD k 0)

/-! ## Epochs (chapter 4) -/

/-- R73, R74: the checks of EPOCH_OPEN in order, and what an accepted one sets. R75: EPOCH_SCHEDULE refuses a count above 1,048,575
and a STEADY state; a count of 1 or more arms the epoch with that countdown, replacing any that ran (an expiry due at this frame
start included, as R77 has it). That the count is judged before the state is read from the order of R75's sentences (assumption 19).
-/
def Obligations.EpochOpenAndSchedule : Prop :=
  (∀ (tag : Byte) (e : Epoch) (s : State), s.inReset = false →
    exec (.epochOpen tag e) s = .next (
      if e = 0 then s.answer tag (.epochOpen e) .badValue []
      else if s.epoch.state ≠ .steady then s.answer tag (.epochOpen e) .wrongEpochState []
      else if ¬(1 ≤ (e - s.epoch.lastIssued).toNat ∧ (e - s.epoch.lastIssued).toNat ≤ 32767) then
        s.answer tag (.epochOpen e) .epochNotAfter []
      else if ¬(1 ≤ (e - s.epoch.active).toNat ∧ (e - s.epoch.active).toNat ≤ 32767) then
        s.answer tag (.epochOpen e) .epochNotAfter []
      else (s.setEpoch { s.epoch with state := .opened, lastIssued := e, pending := some e }).answer tag (.epochOpen e) .ok
        (leBytes 2 e.toNat)))
  ∧ ∀ (tag : Byte) (count : BitVec 32) (s : State), s.inReset = false →
    (1048575 < count.toNat → exec (.epochSchedule tag count) s = .next (s.answer tag (.epochSchedule count) .badValue []))
    ∧ (count.toNat ≤ 1048575 → s.epoch.state = .steady →
      exec (.epochSchedule tag count) s = .next (s.answer tag (.epochSchedule count) .wrongEpochState []))
    ∧ (1 ≤ count.toNat → count.toNat ≤ 1048575 → s.epoch.state ≠ .steady →
      exec (.epochSchedule tag count) s = .next
        ((s.setEpoch { s.epoch with state := .armed, countdown := count.toNat, expiryDue := false }).answer tag (.epochSchedule count) .ok
          (leBytes 4 count.toNat ++ leBytes 2 s.epoch.active.toNat)))

/-- R82 to R85, R154: what a cutover makes of items, labels, entries, epoch record and notices, whether EPOCH_SCHEDULE takes it at once
(R76) or a countdown expires (R77); COUNTDOWN_EXPIRY without a due expiry changes nothing (assumption 3). -/
def Obligations.CutoverConvertsEverything : Prop :=
  (∀ s : State, s.epoch.expiryDue = false → exec .countdownExpiry s = .next s)
  ∧ ∀ (s : State), s.Laws → s.epoch.state ≠ .steady →
    let committed := s.setItems (s.items.map fun kx => (kx.1, { kx.2 with current := kx.2.next.getD kx.2.current, next := none }))
    let after : State → State := fun t =>
      { t.withRecords committed with
        entries := s.entries.map fun e => match e.message with
          | .page (.staged .live) n c =>
            { e with message := .page .shown n c,
                     remembered := { e.remembered with shown := e.remembered.shown || e.remembered.staged, staged := false } }
          | _ => e
        epoch := { s.epoch with state := .steady, active := s.epoch.lastIssued, pending := none, countdown := 0, outstanding := 0,
                                expiryDue := false }
        notices := { s.notices with pending := { s.notices.pending with cutoverDone := true } } }
    let converted : State → Prop := fun t =>
      (∀ j, t.label j = (s.label j).map fun l =>
        { l with shownCheck := (l.stagedPage.map StagedPage.check).or l.shownCheck, stagedPage := none,
                 needs := { l.needs with staged := false, shown := l.needs.shown || l.needs.staged } })
      ∧ committed.Follows t
    (∀ tag, s.inReset = false → ∃ t, exec (.epochSchedule tag 0) s = .next t ∧ converted t
      ∧ t = (after t).answer tag (.epochSchedule 0) .ok (leBytes 4 0 ++ leBytes 2 s.epoch.lastIssued.toNat))
    ∧ (s.epoch.expiryDue = true → ∃ t, exec .countdownExpiry s = .next t ∧ converted t ∧ t = after t)

/-- R87, R88, R155: EPOCH_ABANDON discards next sets, staged pages and STAGED, withdraws LIVE entries, makes labels left with no
need CURRENT, and ends the epoch with the last issued epoch kept; in STEADY it is refused. What becomes of a change noted in flight
is the model's own (assumption 24). -/
def Obligations.EpochAbandon : Prop :=
  ∀ (tag : Byte) (s : State), s.inReset = false → s.Laws →
    (s.epoch.state = .steady → exec (.epochAbandon tag) s = .next (s.answer tag .epochAbandon .wrongEpochState []))
    ∧ (s.epoch.state ≠ .steady →
      let cleared := s.setItems (s.items.map fun kx => (kx.1, { kx.2 with next := none }))
      ∃ t, exec (.epochAbandon tag) s = .next t
        ∧ (∀ j, t.label j = (s.label j).map fun l =>
            let l' := { l with needs := { l.needs with staged := false }, stagedPage := none, changed := l.changed && l.needs.shown }
            if l.state = .inFlight ∨ l'.hasNeed = true then l'
            else { l' with state := .current, attempts := 0, retryFrame := none })
        ∧ cleared.Follows t
        ∧ t = { (t.withRecords cleared).answer tag .epochAbandon .ok (leBytes 2 s.epoch.lastIssued.toNat) with
            entries := s.entries.map fun e => match e.message with
              | .page (.staged .live) n c =>
                { e with message := .page (.staged .withdrawn) n c, remembered := { e.remembered with staged := false } }
              | _ => e
            epoch := { s.epoch with state := .steady, pending := none, countdown := 0, outstanding := 0, expiryDue := false } })

/-! ## The radio (chapter 5) -/

/-- R92, R93: the checks of RADIO_CONFIG in order, and the configuration stored with its timing values brought into range. That the
configuration stands in the response in the order of R92's list is the model's reading (assumption 14). -/
def Obligations.RadioConfigChecksAndClamps : Prop :=
  ∀ (tag : Byte) (r : RadioWords) (s : State), s.inReset = false →
    let channels := [r.channel0.toNat, r.channel1.toNat, r.channel2.toNat, r.channel3.toNat]
    exec (.radioConfig tag r) s = .next (
      if ¬(r.lanes = 1 ∨ r.lanes = 2 ∨ r.lanes = 4) then s.answer tag (.radioConfig r) .badValue []
      else if ∃ c ∈ channels, 15 < c then s.answer tag (.radioConfig r) .badValue []
      else if ¬(channels.take r.lanes.toNat).Nodup then s.answer tag (.radioConfig r) .badValue []
      else if s.radio.state = .running then s.answer tag (.radioConfig r) .radioRunning []
      else
        let ack := if r.ackDelay.toNat < 2 then 2 else if 15 < r.ackDelay.toNat then 15 else r.ackDelay.toNat
        let gap := if r.retryGap.toNat = 0 then 1 else r.retryGap.toNat
        let attempts := if r.maxAttempts.toNat = 0 then 1 else if 15 < r.maxAttempts.toNat then 15 else r.maxAttempts.toNat
        let idle := if r.holdIdle.toNat = 0 then 1 else r.holdIdle.toNat
        (s.setRadio { s.radio with config :=
          { lanes := if r.lanes = 1 then .one else if r.lanes = 2 then .two else .four,
            channels := #v[Fin.ofNat 16 r.channel0.toNat, Fin.ofNat 16 r.channel1.toNat, Fin.ofNat 16 r.channel2.toNat,
                           Fin.ofNat 16 r.channel3.toNat],
            ackDelay := ack, retryGap := gap, maxAttempts := attempts, holdIdle := idle } }).answer tag (.radioConfig r) .ok
          ([r.lanes, r.channel0, r.channel1, r.channel2, r.channel3] ++ leBytes 1 ack ++ leBytes 1 gap ++ leBytes 1 attempts
            ++ leBytes 1 idle))

/-- R94: RADIO_START sets RUNNING and names the next frame; while RUNNING it changes nothing; no window of the frame in progress
opens for it. R95, R156, R165: RADIO_STOP while RUNNING aborts every entry, in ascending lane, then grant frame (the older first,
assumption 8), then slot order, ends every hold, closes the windows and stops; while STOPPED it changes nothing. Counts still due
are dropped with the holds (assumption 23). -/
def Obligations.RadioStartAndStop : Prop :=
  (∀ (tag : Byte) (s : State), s.inReset = false →
    exec (.radioStart tag) s = .next ((s.setRadio { s.radio with state := .running }).answer tag .radioStart .ok
      (1 :: leBytes 3 (s.radio.frame + 1).toNat)))
  ∧ ∀ (tag : Byte) (s : State), s.inReset = false → s.Laws →
    (s.radio.state = .stopped → exec (.radioStop tag) s = .next (s.answer tag .radioStop .ok [0]))
    ∧ (s.radio.state = .running →
      let aborted : Entry → Label → Label := fun e l =>
        let needs : Needs := ⟨l.needs.shown || e.remembered.shown, l.needs.staged || e.remembered.staged,
          l.needs.query || e.remembered.query, l.needs.locate || e.remembered.locate⟩
        let l' := { l with needs := needs, requested := if l.requested = some l.confirmed then none else l.requested }
        if l'.hasNeed = true then { l' with state := .queued } else { l' with state := .current, attempts := 0 }
      ∃ (t : State) (order : List Entry), exec (.radioStop tag) s = .next t
        ∧ order.Perm s.entries
        ∧ order.Pairwise (fun a b => a.lane < b.lane ∨ (a.lane = b.lane ∧
            ((s.radio.frame - b.grantFrame).toNat < (s.radio.frame - a.grantFrame).toNat
              ∨ (a.grantFrame = b.grantFrame ∧ a.slot ≤ b.slot))))
        ∧ (∀ j, t.label j = (s.label j).map fun l => match s.entries.find? (fun e => e.label == j) with
            | some e => aborted e l
            | none => l)
        ∧ (∀ z, t.queue z = s.queue z ++ (order.map Entry.label).filter fun k => (t.label k).any fun l => l.waitsIn z)
        ∧ t.CountsLaw ∧ t.items = s.items
        ∧ t.epoch = { s.epoch with outstanding := t.labels.countP fun kl => kl.2.needs.staged }
        ∧ (∀ z, t.zone z = (if (s.zone z).hold = .held then
              { s.zone z with hold := .none, holdStart := none, holdFrames := 0, counts := (t.zone z).counts }
            else { s.zone z with counts := (t.zone z).counts }))
        ∧ t = { t.withRecords (s.answer tag .radioStop .ok (leBytes 1 s.entries.length)) with
            queues := t.queues, entries := [], holdSet := [], holdsDue := []
            radio := { s.radio with state := .stopped }
            air := { s.air with windowsOpen := false, beaconDue := false }
            notices := if s.holdSet = [] then s.notices
              else { s.notices with pending := { s.notices.pending with holdEnded := true } } })

/-! ## Zones and holds (chapters 6 and 8) -/

/-- R119, R120, R116: ZONE_SET refuses a zone above 63 and then a bad boost code; an accepted one writes the values it gives, a
guard reload with its counter and promotion, and reports the zone, its effective priority too. That the byte sent for yes or for
present is 1 is the model's choice (assumption 14). -/
def Obligations.ZoneSet : Prop :=
  ∀ (tag : Byte) (zone : Byte) (v : ZoneWords) (s : State), s.inReset = false →
    ((63 < zone.toNat ∨ ∃ b ∈ v.boost, 1 < b.toNat) →
      exec (.zoneSet tag zone v) s = .next (s.answer tag (.zoneSet zone v) .badValue []))
    ∧ ∀ z : ZoneNo, z.val = zone.toNat → (∀ b ∈ v.boost, b.toNat ≤ 1) →
      let old := s.zone z
      let priority : Fin 8 := match v.priority with
        | none => old.priority
        | some p => if 7 < p.toNat then 7 else Fin.ofNat 8 p.toNat
      let boost : Bool := match v.boost with
        | none => old.boost
        | some b => b == 1
      let reload := (v.reload.map BitVec.toNat).getD old.reload
      let counter := (v.reload.map BitVec.toNat).getD old.counter
      let promoted : Bool := v.reload.isNone && old.promoted
      let waiting : Bool := (s.queue z).any fun k => (s.label k).any fun l => l.needs.shown
      let effective := if boost = true ∧ 1 ≤ priority.val ∧ priority.val ≤ 4 ∧ waiting = true then 5 else priority.val
      exec (.zoneSet tag zone v) s = .next
        ((s.setZone z { old with priority := priority, boost := boost, reload := reload, counter := counter, promoted := promoted }).answer
          tag (.zoneSet zone v) .ok
          (leBytes 1 priority.val ++ [if boost = true then 1 else 0] ++ leBytes 1 reload ++ leBytes 1 counter
            ++ [if promoted = true then 1 else 0] ++ leBytes 1 effective))

/-- R151, R24: ZONE_RETRY revives every FAILED label of the administrative zone it names, joining its queue in slot order, and reports
how many. -/
def Obligations.ZoneRetry : Prop :=
  ∀ (tag : Byte) (zone : Byte) (s : State), s.inReset = false → s.Laws →
    (63 < zone.toNat → exec (.zoneRetry tag zone) s = .next (s.answer tag (.zoneRetry zone) .badValue []))
    ∧ ∀ z : ZoneNo, z.val = zone.toNat →
      ∃ t, exec (.zoneRetry tag zone) s = .next t
        ∧ (∀ j, t.label j = (s.label j).map fun l =>
            if l.state = .failed ∧ l.adminZone = z then { l with state := .queued, attempts := 0 } else l)
        ∧ s.Follows t ∧ t = t.withRecords (s.answer tag (.zoneRetry zone) .ok
            (leBytes 2 (s.labels.countP fun kl => kl.2.state == .failed && kl.2.adminZone == z)))

/-- R160 to R163: ZONE_HOLD and ZONE_RELEASE by the zone's hold state and the budget: refused, begun at the tail of the set with the
hold start of R160, changed in place, ended, or without effect; with the one response layout of R161. A hold that begins while the
beacons are due starts in this frame (R160, assumption 3), and the count of its frames is the model's own (assumption 6). That the
end of a hold drops a count still due for the zone is the model's choice (assumption 23). That the byte sent for yes or for present
is 1 is the model's choice (assumption 14). -/
def Obligations.HoldRequests : Prop :=
  ∀ (tag : Byte) (zone : Byte) (budget : BitVec 16) (s : State), s.inReset = false → s.Laws →
    (63 < zone.toNat → exec (.zoneHold tag zone budget) s = .next (s.answer tag (.zoneHold zone budget) .badValue [])
      ∧ exec (.zoneRelease tag zone) s = .next (s.answer tag (.zoneRelease zone) .badValue []))
    ∧ ∀ z : ZoneNo, z.val = zone.toNat →
      let body : State → List Byte := fun t =>
        [if (t.zone z).hold = .held then 1 else 0] ++ leBytes 2 (t.zone z).budget ++ leBytes 1 (t.zone z).idle
          ++ optBytes 3 ((t.zone z).holdStart.map BitVec.toNat)
          ++ leBytes 1 (if z ∈ t.holdSet then t.holdSet.idxOf z + 1 else 0) ++ leBytes 1 t.holdSet.length
      let ended := { s.setZone z { s.zone z with hold := .none, holdStart := none, holdFrames := 0 } with
        holdSet := s.holdSet.erase z, holdsDue := s.holdsDue.erase z,
        notices := { s.notices with pending := { s.notices.pending with holdEnded := true } } }
      ((s.zone z).hold = .none →
        exec (.zoneRelease tag zone) s = .next (s.answer tag (.zoneRelease zone) .ok (body s))
        ∧ (budget = 0 → exec (.zoneHold tag zone budget) s = .next (s.answer tag (.zoneHold zone budget) .ok (body s)))
        ∧ (budget ≠ 0 → s.radio.state = .stopped →
          exec (.zoneHold tag zone budget) s = .next (s.answer tag (.zoneHold zone budget) .radioStopped []))
        ∧ (budget ≠ 0 → s.radio.state = .running → s.holdSet.length = 8 →
          exec (.zoneHold tag zone budget) s = .next (s.answer tag (.zoneHold zone budget) .holdFull []))
        ∧ (budget ≠ 0 → s.radio.state = .running → s.holdSet.length < 8 →
          let begun := { s.setZone z { s.zone z with
              hold := .held, budget := budget.toNat, idle := 0,
              holdStart := some (if s.air.beaconDue = true then s.radio.frame else s.radio.frame + 1),
              holdFrames := if s.air.beaconDue = true then 1 else 0 } with holdSet := s.holdSet ++ [z] }
          exec (.zoneHold tag zone budget) s = .next (begun.answer tag (.zoneHold zone budget) .ok (body begun))))
      ∧ ((s.zone z).hold = .held →
        exec (.zoneRelease tag zone) s = .next (ended.answer tag (.zoneRelease zone) .ok (body ended))
        ∧ (budget = 0 → exec (.zoneHold tag zone budget) s = .next (ended.answer tag (.zoneHold zone budget) .ok (body ended)))
        ∧ (budget ≠ 0 →
          let changed := s.setZone z { s.zone z with budget := budget.toNat, idle := 0 }
          exec (.zoneHold tag zone budget) s = .next (changed.answer tag (.zoneHold zone budget) .ok (body changed))))

/-- R163, R164: HOLD_BUDGET_SPENT and HOLD_IDLE_REACHED take the count due for a zone when it spends the budget, or takes the idle
count to HOLD_IDLE, and the hold ends; where no count is due, or the count due does not reach that limit, they change nothing
(assumption 3). That a due count leaves other zones' holds uncounted, one begun or given a new budget meanwhile too, is the model's
choice (assumption 23). -/
def Obligations.HoldEndsAtItsLimits : Prop :=
  ∀ (z : ZoneNo) (s : State),
    let idle := if (s.zone z).counts.queued = 0 ∧ (s.zone z).counts.backoff = 0 then (s.zone z).idle + 1 else 0
    let ended := { s.setZone z { s.zone z with hold := .none, budget := (s.zone z).budget - 1, idle := idle, holdStart := none,
                                               holdFrames := 0 } with
      holdSet := s.holdSet.erase z, holdsDue := s.holdsDue.erase z,
      notices := { s.notices with pending := { s.notices.pending with holdEnded := true } } }
    (s.Laws → z ∈ s.holdsDue → (s.zone z).budget = 1 → exec (.holdBudgetSpent z) s = .next ended)
    ∧ (s.Laws → z ∈ s.holdsDue → idle = s.radio.config.holdIdle → exec (.holdIdleReached z) s = .next ended)
    ∧ ((z ∉ s.holdsDue ∨ 1 < (s.zone z).budget) → exec (.holdBudgetSpent z) s = .next s)
    ∧ ((z ∉ s.holdsDue ∨ idle ≠ s.radio.config.holdIdle) → exec (.holdIdleReached z) s = .next s)

/-! ## Frames and slots (chapters 5 and 6) -/

/-- R97, R14, R77, R164, R101: FRAME_START advances the frame number, decrements an ARMED countdown, counts every HELD zone that the
count does not end, and opens a frame with no window taken yet; a countdown that the decrement would end, and the holds that the
count would end, stay due. FRAME_START told to take work is that followed by the work's own rows (the retry frames that have come,
the expiry, the holds that end), and then by the composition of the beacons. Which work is taken here and which stays due, the
sender says (assumption 3); the windows and the labels confirmed in the frame (assumption 4), what is on the air (assumption 5) and
the count of a hold's frames (assumption 6) are the model's own. -/
def Obligations.FrameStartDoesItsWork : Prop :=
  ∀ (s : State), s.inReset = false → s.Laws → s.Settled → s.WindowsDone →
    let base : State := { s with
      radio := { s.radio with frame := s.radio.frame + 1 }
      epoch := if s.epoch.state = .armed then
          if s.epoch.countdown = 1 then { s.epoch with expiryDue := true } else { s.epoch with countdown := s.epoch.countdown - 1 }
        else s.epoch
      air := { s.air with
        windowsOpen := s.radio.state == .running, beaconDue := s.radio.state == .running,
        windows := Vector.replicate 4 ⟨0, [], []⟩, confirmedNow := [] }
      zones := Vector.ofFn fun z =>
        if (s.zone z).hold = .none then s.zone z
        else if s.CountEnds z then { s.zone z with holdFrames := (s.zone z).holdFrames + 1 }
        else { (s.zone z).afterCount with holdFrames := (s.zone z).holdFrames + 1 }
      holdsDue := s.holdSet.filter fun z => decide (s.CountEnds z) }
    exec (.frameStart ⟨false, false, false, false⟩) s = .next base
    ∧ ∀ retries expiry holds beacon : Bool, ∃ t,
        run ((if retries = true then s.labels.map fun kl => .backoffRetryDue kl.1 else [])
            ++ (if expiry = true then [.countdownExpiry] else [])
            ++ (if holds = true then base.holdsDue.flatMap fun z => [.holdBudgetSpent z, .holdIdleReached z] else [])) base = .next t
        ∧ exec (.frameStart ⟨retries, expiry, holds, beacon⟩) s
            = .next (if beacon = true ∧ s.radio.state = .running then t.withBeacons else t)

/-- R14: a BACKOFF label whose retry frame is the frame in progress becomes QUEUED, its attempts and its place kept; no other label
does. -/
def Obligations.BackoffRetryDue : Prop :=
  ∀ (k : Nat) (s : State), s.Laws →
    (∀ l, s.label k = some l → l.state = .backoff → l.retryFrame = some s.radio.frame →
      ∃ t, exec (.backoffRetryDue k) s = .next t
        ∧ (∀ j, t.label j = if j = k then some { l with state := .queued, retryFrame := none } else s.label j)
        ∧ (∀ z, t.queue z = s.queue z) ∧ s.Follows t ∧ t = t.withRecords s)
    ∧ ((∀ l, s.label k = some l → l.state ≠ .backoff ∨ l.retryFrame ≠ some s.radio.frame) →
      exec (.backoffRetryDue k) s = .next s)

/-- R110, R111: a label is eligible for a lane exactly when that lane is its confirmed, active lane, no success of it was taken in
this frame, and the frame is a natural listen frame of its confirmed schedule, or its confirmed zone is HELD, its battery is not
low, and one of its natural listen frames lies at or after the hold start and at or before this frame. The frames of a hold are
counted by the model's own field, whose tie to the hold start the law of holds gives (assumption 6): for a hold that has begun and
has lasted at most 16,777,216 frames the count is the frame number less the hold start, plus 1; a count of 0 is a hold that starts
in the next frame. -/
def Obligations.EligibilityIsTheSpecs : Prop :=
  (∀ (s : State) (lane : Lane) (k : Nat) (l : Label), l.confirmed.Reduced →
    (s.eligible lane k l = true ↔
      l.confirmed.lane = lane ∧ lane.val < s.radio.config.lanes.count ∧ k ∉ s.air.confirmedNow
      ∧ (s.radio.frame.toNat % 2 ^ l.confirmed.exponent.val = l.confirmed.phase
        ∨ ((s.zone l.confirmed.zone).hold = .held ∧ l.lowBattery = false
          ∧ ∃ h g, (s.zone l.confirmed.zone).holdStart = some h ∧ g < (s.zone l.confirmed.zone).holdFrames
            ∧ (h.toNat + g) % 2 ^ l.confirmed.exponent.val = l.confirmed.phase))))
  ∧ ∀ (s : State) (z : ZoneNo) (h : Frame), s.HoldLaw → (s.zone z).holdStart = some h →
    (1 ≤ (s.zone z).holdFrames → (s.zone z).holdFrames ≤ 16777216 → (s.radio.frame - h).toNat + 1 = (s.zone z).holdFrames)
    ∧ ((s.zone z).holdFrames = 0 → s.radio.frame + 1 = h)

/-- R126: the winner of a slot is the candidate zone, promoted if any is, of the highest effective priority among those that compete,
and the first of them counted upward from the lane's pointer. -/
def Obligations.SlotWinner : Prop :=
  ∀ (s : State) (pointer : ZoneNo) (zones : List ZoneNo),
    let competes : ZoneNo → Prop := fun z => z ∈ zones ∧ ((∃ y ∈ zones, (s.zone y).promoted = true) → (s.zone z).promoted = true)
    let best : ZoneNo → Prop := fun z => competes z ∧ ∀ y, competes y → s.effectivePriority y ≤ s.effectivePriority z
    (∀ z, s.winner pointer zones = some z ↔ best z ∧ ∀ y, best y → (z - pointer).val ≤ (y - pointer).val)
    ∧ (s.winner pointer zones = none ↔ zones = [])

/-- R123, R125: a data slot whose lane's partition is full, or that has no candidate, is left unused: nothing moves but the record that
the slot opened and was left silent (assumptions 4 and 5). -/
def Obligations.SlotLeftUnused : Prop :=
  ∀ (lane : Lane) (slot : SlotNo) (s : State), s.inReset = false → s.Laws → s.Settled → s.air.windowsOpen = true →
    lane.val < s.radio.config.lanes.count → s.air.windows[lane.val].opened = slot.val →
    ((s.entries.countP fun e => e.lane == lane) = 64 / s.radio.config.lanes.count
      ∨ ∀ kl ∈ s.labels, kl.2.state = .queued → (s.zone kl.2.adminZone).priority ≠ 0 → s.eligible lane kl.1 kl.2 = false) →
    exec (.dataSlotOpening lane slot) s = .next { s with air := { s.air with
      windows := s.air.windows.set lane.val { s.air.windows[lane.val] with opened := slot.val + 1 }
      sent := s.air.sent.set lane.val none } }

/-- R124, R127 to R130, R135 to R137, R65: a data slot granted to the winning zone's oldest candidate: the pointer moves past the
zone, the guards count, the label becomes IN_FLIGHT with the satisfied flags cleared, and the entry and message are those the rules
give. The record of the slot and of what was sent is the model's own (assumptions 4 and 5). That the grant begins a new note of
changes in flight is the model's own (assumption 24). -/
def Obligations.SlotGrant : Prop :=
  ∀ (lane : Lane) (slot : SlotNo) (z : ZoneNo) (before after : List Nat) (k : Nat) (l : Label) (T : Template) (s : State),
    s.inReset = false → s.Laws → s.Settled → s.air.windowsOpen = true →
    lane.val < s.radio.config.lanes.count → s.air.windows[lane.val].opened = slot.val →
    (s.entries.countP fun e => e.lane == lane) < 64 / s.radio.config.lanes.count →
    let candidate : Nat → Prop := fun j => ∃ l', s.label j = some l' ∧ l'.state = .queued ∧ s.eligible lane j l' = true
    let zones := (List.finRange 64).filter fun y => (s.zone y).priority != 0 && (s.queue y).any fun j =>
      (s.label j).any fun l' => l'.state == .queued && s.eligible lane j l'
    s.winner s.pointers[lane.val] zones = some z →
    s.queue z = before ++ k :: after → (∀ j ∈ before, ¬candidate j) → candidate k → s.label k = some l →
    s.templates.find l.template.val = some T →
    let settings := l.requested.getD l.confirmed
    let content : Option (Nat × PriceSet) := (l.binding.bind s.item).map fun x =>
      (x.number, if l.needs.shown = true then x.current else x.next.getD x.current)
    let page := pageBytes T content
    let check := crc16 (includedBytes T.mask 0 page)
    let isPage := l.needs.shown || l.needs.staged
    let epoch : Epoch := if l.needs.shown = true then 0 else s.epoch.lastIssued
    let overflow := T.fields.any fun g => content.any fun c => overflows g.digits (fieldValue c.1 c.2 g.kind)
    let message := if isPage = true then
        sealAir ([2] ++ leBytes 3 l.address.toNat ++ [if l.needs.shown = true then 0 else 1] ++ leBytes 2 epoch.toNat
          ++ settings.bytes ++ [if l.needs.locate = true then 1 else 0] ++ leBytes 1 l.template.val ++ leBytes 1 page.length ++ page
          ++ leBytes 2 check.toNat)
      else sealAir ([3] ++ leBytes 3 l.address.toNat ++ settings.bytes ++ [if l.needs.locate = true then 1 else 0])
    let entry : Entry :=
      { lane := lane, grantFrame := s.radio.frame, slot := slot,
        expected := s.radio.frame + BitVec.ofNat 24 s.radio.config.ackDelay, label := k, address := l.address,
        message := if l.needs.shown = true then .page .shown 0 check
          else if l.needs.staged = true then .page (.staged .live) epoch check else .query,
        remembered := ⟨l.needs.shown, !l.needs.shown && l.needs.staged, !isPage && l.needs.query, l.needs.locate⟩,
        settings := settings }
    let granted := { s with
      entries := s.entries ++ [entry]
      pointers := s.pointers.set lane.val (z + 1)
      zones := Vector.ofFn fun y => if y = z then { s.zone y with counter := (s.zone y).reload, promoted := false }
        else if y ∈ zones ∧ 1 ≤ (s.zone y).reload then
          { s.zone y with counter := if 1 < (s.zone y).counter then (s.zone y).counter - 1 else (s.zone y).counter,
                          promoted := (s.zone y).promoted || decide ((s.zone y).counter ≤ 2) }
        else s.zone y
      air := { s.air with
        windows := s.air.windows.set lane.val { s.air.windows[lane.val] with opened := slot.val + 1 }
        sent := s.air.sent.set lane.val (some message) }
      notices := if isPage = true ∧ overflow = true then
        { s.notices with pending := { s.notices.pending with renderOverflow := true } } else s.notices }
    ∃ t, exec (.dataSlotOpening lane slot) s = .next t
      ∧ (∀ j, t.label j = if j = k then some { l with
            state := .inFlight
            needs := ⟨false, l.needs.shown && l.needs.staged, isPage && l.needs.query, false⟩
            overflow := if isPage = true then overflow else l.overflow
            changed := false } else s.label j)
      ∧ granted.Follows t ∧ t = t.withRecords granted

/-! ## Delivery (chapter 7) -/

/-- R138 to R145, R110: a matched arrival that passes the test of R140 is a success: observations and confirmations are written, the
entry is freed, the label returns QUEUED or CURRENT with attempts 0 and is eligible on no lane in the rest of the frame. The record
of the slot is the model's own (assumption 4). -/
def Obligations.ArrivalSucceeds : Prop :=
  ∀ (lane : Lane) (slot : SlotNo) (a : Ack) (e : Entry) (l : Label) (s : State),
    s.inReset = false → s.Laws → s.Settled → s.air.windowsOpen = true →
    s.air.windows[lane.val].opened = 6 → slot ∉ s.air.windows[lane.val].closed → (∀ j ∈ s.air.windows[lane.val].taken, j < slot) →
    s.entries.filter (fun e' => e'.lane == lane && e'.expected == s.radio.frame && e'.slot == slot && e'.address == a.address) = [e] →
    s.label e.label = some l → a.accepted = true →
    (match e.message with
      | .page .shown _ check => a.shownCheck = check
      | .page (.staged _) epoch check => a.stagedEpoch = epoch ∧ a.stagedCheck = check
      | .query => True) →
    let differs : Bool := match l.shownCheck with
      | none => false
      | some c => c != a.shownCheck
    let known : Bool := match l.stagedPage with
      | none => false
      | some p => p.check == a.stagedCheck
    let lost : Bool := s.epoch.state != .steady &&
      (if s.epoch.pending = some a.stagedEpoch then !known else l.stagedPage.isSome)
    let written : Label := match e.message with
      | .page .shown _ check => { l with shownCheck := some check, mismatch := false }
      | .page (.staged .live) epoch check => { l with stagedPage := some ⟨epoch, check⟩ }
      | .page (.staged .withdrawn) _ _ => l
      | .query => { l with
          shownCheck := some (l.shownCheck.getD a.shownCheck), mismatch := l.mismatch || differs,
          needs := { l.needs with shown := l.needs.shown || differs, staged := l.needs.staged || lost },
          stagedPage := if lost = true then none else l.stagedPage }
    let returned := { written with
      confirmed := e.settings, requested := if l.requested = some e.settings then none else l.requested,
      battery := some a.battery, lastHeard := some s.radio.frame, lowBattery := decide (a.battery.val ≤ 2), attempts := 0 }
    ∃ t, exec (.ackArrival lane slot a.message) s = .next t
      ∧ (∀ j, t.label j = if j = e.label then
          some { returned with state := if returned.hasNeed = true then .queued else .current } else s.label j)
      ∧ s.Follows t
      ∧ t = t.withRecords { s with
          entries := s.entries.filter fun e' => e'.label != e.label
          air := { s.air with
            windows := s.air.windows.set lane.val { s.air.windows[lane.val] with taken := slot :: s.air.windows[lane.val].taken }
            confirmedNow := e.label :: s.air.confirmedNow }
          notices := s.noticesAfterCount t }

/-- R12, R139, R146 to R149, R41, R52: a matched arrival that fails the test of R140, or the close of a slot whose entry is still
expected, is a failed attempt: the remembered needs are set again, an attempt is counted, and the label is in BACKOFF, FAILED (with
LABEL_FAILED), or CURRENT when it has no need; the observations are written by an arrival alone. At MAX_ATTEMPTS a label marked by a
content change in flight is FAILED by R12, or back in its queue by R41 and R52, as a free value says. Three things are the model's
choice (assumption 24): that the label then returns QUEUED with attempts 0; that below MAX_ATTEMPTS a label marked in flight is
BACKOFF, where R157's table writes QUEUED; and that a LABEL_QUERY or LABEL_LOCATE taken in flight makes no difference, where that
table writes QUEUED too. The record of the slot is the model's own (assumption 4). -/
def Obligations.AttemptFails : Prop :=
  ∀ (lane : Lane) (slot : SlotNo) (e : Entry) (l : Label) (s : State),
    s.inReset = false → s.Laws → s.Settled → s.air.windowsOpen = true →
    s.air.windows[lane.val].opened = 6 → slot ∉ s.air.windows[lane.val].closed → s.label e.label = some l →
    let failed : Label → Label := fun l =>
      let needs : Needs := ⟨l.needs.shown || e.remembered.shown, l.needs.staged || e.remembered.staged,
        l.needs.query || e.remembered.query, l.needs.locate || e.remembered.locate⟩
      let l' := { l with needs := needs, requested := if l.requested = some l.confirmed then none else l.requested }
      let attempts := min 15 (l.attempts + 1)
      if l'.hasNeed = false then { l' with state := .current, attempts := 0 }
      else if s.radio.config.maxAttempts ≤ attempts ∧ l.changed = true ∧ Config.changedInFlightRequeued = true then
        { l' with state := .queued, attempts := 0 }
      else if s.radio.config.maxAttempts ≤ attempts then { l' with state := .failed, attempts := attempts }
      else { l' with state := .backoff, attempts := attempts,
                     retryFrame := some (s.radio.frame + BitVec.ofNat 24 s.radio.config.retryGap) }
    let outcome : Label → LaneWindows → State → Prop := fun l' windows t =>
      (∀ j, t.label j = if j = e.label then some l' else s.label j) ∧ s.Follows t
        ∧ t = t.withRecords { s with
            entries := s.entries.filter fun e' => e'.label != e.label
            air := { s.air with windows := s.air.windows.set lane.val windows }
            notices := if l'.state = .failed then
                { s.noticesAfterCount t with pending := { (s.noticesAfterCount t).pending with labelFailed := true } }
              else s.noticesAfterCount t }
    (∀ a : Ack, (∀ j ∈ s.air.windows[lane.val].taken, j < slot) →
      s.entries.filter (fun e' => e'.lane == lane && e'.expected == s.radio.frame && e'.slot == slot && e'.address == a.address) = [e] →
      (a.accepted = false ∨ match e.message with
        | .page .shown _ check => a.shownCheck ≠ check
        | .page (.staged _) epoch check => a.stagedEpoch ≠ epoch ∨ a.stagedCheck ≠ check
        | .query => False) →
      ∃ t, exec (.ackArrival lane slot a.message) s = .next t
        ∧ outcome (failed { l with battery := some a.battery, lastHeard := some s.radio.frame,
                                   lowBattery := decide (a.battery.val ≤ 2) })
            { s.air.windows[lane.val] with taken := slot :: s.air.windows[lane.val].taken } t)
    ∧ (s.entries.filter (fun e' => e'.lane == lane && e'.expected == s.radio.frame && e'.slot == slot) = [e] →
      ∃ t, exec (.ackSlotClose lane slot) s = .next t
        ∧ outcome (failed l) { s.air.windows[lane.val] with closed := slot :: s.air.windows[lane.val].closed } t)

/-- R100, R138, R147, R201: an arrival that matches no entry is ignored, a message that is no ACK by R201's tests is discarded
(another length too, assumption 18), and the close of a slot that no entry expects does nothing: only the window's own record moves
(assumption 4). -/
def Obligations.UnmatchedArrivalIgnored : Prop :=
  ∀ (lane : Lane) (slot : SlotNo) (s : State), s.inReset = false → s.Settled → s.air.windowsOpen = true →
    lane.val < s.radio.config.lanes.count → s.air.windows[lane.val].opened = 6 → slot ∉ s.air.windows[lane.val].closed →
    (∀ a : Ack, (∀ j ∈ s.air.windows[lane.val].taken, j < slot) →
      (∀ e ∈ s.entries, ¬(e.lane = lane ∧ e.expected = s.radio.frame ∧ e.slot = slot ∧ e.address = a.address)) →
      exec (.ackArrival lane slot a.message) s = .next { s with air := { s.air with
        windows := s.air.windows.set lane.val { s.air.windows[lane.val] with taken := slot :: s.air.windows[lane.val].taken } } })
    ∧ (∀ m : List Byte, (m.length ≠ 14 ∨ m ≠ sealAir (m.take 12) ∨ leAt m 0 1 ≠ 4 ∨ 1 < leAt m 4 1 ∨ 15 < leAt m 11 1) →
      exec (.ackArrival lane slot m) s = .next s)
    ∧ ((∀ e ∈ s.entries, ¬(e.lane = lane ∧ e.expected = s.radio.frame ∧ e.slot = slot)) →
      exec (.ackSlotClose lane slot) s = .next { s with air := { s.air with
        windows := s.air.windows.set lane.val { s.air.windows[lane.val] with closed := slot :: s.air.windows[lane.val].closed } } })

/-- Assumption 4, on R95, R98, R100, R147: where a window does not occur, its commands change nothing: during a reset, in a frame
without windows, on an inactive lane, for a data slot that has opened, for an ack slot that has closed, and for an ACK in a slot in
which, or after which, one has been taken. -/
def Obligations.NoWindowNoEffect : Prop :=
  ∀ (lane : Lane) (slot : SlotNo) (m : List Byte) (s : State),
    let off := s.inReset = true ∨ s.air.windowsOpen = false ∨ s.radio.config.lanes.count ≤ lane.val
    ((off ∨ slot.val < s.air.windows[lane.val].opened) → exec (.dataSlotOpening lane slot) s = .next s)
    ∧ ((off ∨ slot ∈ s.air.windows[lane.val].closed ∨ ∃ j ∈ s.air.windows[lane.val].taken, slot ≤ j) →
      exec (.ackArrival lane slot m) s = .next s)
    ∧ ((off ∨ slot ∈ s.air.windows[lane.val].closed) → exec (.ackSlotClose lane slot) s = .next s)

/-- On R98, R100, R131, R147, by assumptions 3 and 4: frame-start work still due, and the beacons, come before the frame's first
window and before the next frame start. The state with all of it taken is the one that BACKOFF_RETRY_DUE for every slot,
COUNTDOWN_EXPIRY, the hold counts due, with the ends they bring, and the composition of R101 leave. A window's command does what it
does after that and after the windows before it on its lane, and FRAME_START after all windows of the frame, each as its own command
takes it. -/
def Obligations.DueWorkPrecedesWindows : Prop :=
  ∀ (s : State), s.Laws →
    (∃ a, run ((s.labels.map fun kl => .backoffRetryDue kl.1) ++ [.countdownExpiry]) s = .next a
      ∧ let counted : State := { a with
          zones := Vector.ofFn fun z =>
            if z ∈ s.holdsDue then
              if a.CountEnds z then { (a.zone z).afterCount with hold := .none, holdStart := none, holdFrames := 0 }
              else (a.zone z).afterCount
            else a.zone z
          holdSet := a.holdSet.filter fun z => !(decide (z ∈ s.holdsDue) && decide (a.CountEnds z))
          holdsDue := []
          notices := { a.notices with pending := { a.notices.pending with
            holdEnded := a.notices.pending.holdEnded || s.holdsDue.any fun z => decide (a.CountEnds z) } } }
        s.settleFrame = if s.air.beaconDue = true then counted.withBeacons else counted)
    ∧ s.settleFrame.Settled
    ∧ (∀ (lane : Lane) (slot : SlotNo), s.inReset = false → s.air.windowsOpen = true → lane.val < s.radio.config.lanes.count →
      (s.air.windows[lane.val].opened ≤ slot.val →
        exec (.dataSlotOpening lane slot) s = run (((List.finRange 6).filter fun j =>
          decide (s.air.windows[lane.val].opened ≤ j.val) && decide (j ≤ slot)).map fun j => .dataSlotOpening lane j) s.settleFrame)
      ∧ (slot ∉ s.air.windows[lane.val].closed →
        exec (.ackSlotClose lane slot) s
          = run (((List.finRange 6).map fun j => .dataSlotOpening lane j) ++ [.ackSlotClose lane slot]) s.settleFrame
        ∧ ∀ m : List Byte, (∀ j ∈ s.air.windows[lane.val].taken, j < slot) →
          exec (.ackArrival lane slot m) s
            = run (((List.finRange 6).map fun j => .dataSlotOpening lane j) ++ [.ackArrival lane slot m]) s.settleFrame))
    ∧ ∀ o : FrameOrder, s.inReset = false →
        ∃ t, run frameWindows s.settleFrame = .next t ∧ exec (.frameStart o) s = exec (.frameStart o) t

/-- R103, R201: the receiver reads back every ACK from its 14 bytes, and takes a message exactly when its air check is right, its
type is 4, its result is 0 or 1 and its battery value is 0 to 15; another length it discards by assumption 18. -/
def Obligations.AckMessageRoundTrip : Prop :=
  (∀ a : Ack, a.message.length = 14 ∧ receiveAck a.message = some a)
  ∧ ∀ m : List Byte, receiveAck m = none ↔
      (m.length ≠ 14 ∨ m ≠ sealAir (m.take 12) ∨ leAt m 0 1 ≠ 4 ∨ 1 < leAt m 4 1 ∨ 15 < leAt m 11 1)

/-- R72, R103 to R109, R140, R201: a label that listens, holds the controller's check mask and owes no other answer, receiving on
its lane and on its plan's channel a message as a grant sends it, listens in every frame until ACK_DELAY frames later, and, where it
has heard no beacon in between, answers in that frame's ack slot with an ACK that the Tracker judges a success of that entry; it
answers in no other slot or frame. A label asleep, on another lane, or whose plan gives its lane another channel hears nothing. A
frame is listened in exactly when R105 to R107 say so, and a beacon heard does what R72, R105 and R106 say. The label is an agent
outside State (assumption 17). Clauses that are the model's choice: that a PAGE or QUERY of another length than R201's layout is
discarded (assumption 18); how a value outside R201's ranges is read, a hold count above 8 among them (assumption 25); that the
ACK_DELAY is that of the last beacon heard, that a label that takes another frame number from a beacon keeps its answers due and
listens no further in a frame that is no natural listen frame of the new numbering, with no hold and no answer due, and that an
answer whose frame has passed is due no longer (assumption 22). -/
def Obligations.LabelAnswersWithSuccess : Prop :=
  (∀ (L : ShelfLabel) (slot : SlotNo) (channel : Fin 16) (c : Settings) (locate : Bool) (message : List Byte) (e : Entry),
    L.awake = true → L.plan[L.settings.lane.val] = channel → L.due = [] → 2 ≤ L.ackDelay → L.ackDelay ≤ 15 → c.phase < 256 →
    ((∃ (side : PageSide) (epoch : Epoch) (template : Fin 32) (mask : BitVec 48) (page : List Byte),
        page.length ≤ 48 ∧ L.masks.find? (fun km => km.1 == template.val) = some (template.val, mask)
        ∧ e.message = .page side epoch (crc16 (includedBytes mask 0 page))
        ∧ message = pageMessage L.address side epoch c locate template page (crc16 (includedBytes mask 0 page)))
      ∨ (e.message = .query ∧ message = queryMessage L.address c locate)) →
    let later : Nat → ShelfLabel := fun n => ShelfLabel.tick^[n] (L.receive slot ⟨L.settings.lane, channel, message⟩)
    (∀ n, n ≤ L.ackDelay → (later n).awake = true)
    ∧ (∀ n j, n ≤ L.ackDelay → (n ≠ L.ackDelay ∨ j ≠ slot) → (later n).answer j = none)
    ∧ ∃ sent L' a, (later L.ackDelay).answer slot = some (⟨L.settings.lane, channel, sent⟩, L')
        ∧ receiveAck sent = some a ∧ a.address = L.address ∧ e.succeeds a = true ∧ L'.settings = c ∧ L'.due = [])
  ∧ (∀ (L : ShelfLabel) (slot : SlotNo) (m : OnAir),
    (L.awake = false ∨ m.lane ≠ L.settings.lane ∨ L.plan[m.lane.val] ≠ m.channel) → L.hearBeacon m = L ∧ L.receive slot m = L)
  ∧ (∀ (L : ShelfLabel) (slot : SlotNo) (m : OnAir), ¬takesMessage L.address m.bytes → L.receive slot m = L)
  ∧ (∀ (L : ShelfLabel) (m : OnAir) (b : Beacon), L.hears m = true → readBeacon m.bytes = some b →
    let L' := L.hearBeacon m
    L'.count = b.frame ∧ L'.settings = L.settings ∧ L'.ackDelay = b.ackDelay
      ∧ (L'.holding = true ↔ 2 < L.battery.val ∧ L.settings.zone.val ∈ b.holdList)
      ∧ (L'.awake = true ↔ b.frame.toNat % 2 ^ L.settings.exponent.val = L.settings.phase ∨ L'.holding = true ∨ L.due ≠ [])
      ∧ (∀ e page, L.staged = some (e, page) →
        (b.active = e → L'.shown = page ∧ L'.staged = none)
        ∧ (b.active ≠ e → L'.shown = L.shown
          ∧ L'.staged = if b.active = 0 ∨ (1 ≤ (b.active - e).toNat ∧ (b.active - e).toNat ≤ 32767) then none else L.staged))
      ∧ (L.staged = none → L'.shown = L.shown ∧ L'.staged = none))
  ∧ ∀ L : ShelfLabel, L.tick.count = L.count + 1
      ∧ (L.tick.awake = true ↔ (L.count + 1).toNat % 2 ^ L.settings.exponent.val = L.settings.phase ∨ L.holding = true
          ∨ ∃ d ∈ L.due, d.frame ≠ L.count)

/-! ## Notices, port configuration and status (chapters 9 and 10) -/

/-- R188, R190 to R192: the notice requests, and the line that is active exactly while a source is pending and enabled. That the
byte sent for yes or for present is 1 is the model's choice (assumption 14). -/
def Obligations.NoticeRequests : Prop :=
  ∀ (tag : Byte) (s : State), s.inReset = false →
    let active : SourceSet → SourceSet → Bool := fun p e =>
      (p.cutoverDone && e.cutoverDone) || (p.stagingComplete && e.stagingComplete) || (p.labelFailed && e.labelFailed)
        || (p.holdEnded && e.holdEnded) || (p.renderOverflow && e.renderOverflow) || (p.serviceChange && e.serviceChange)
    let bits : SourceSet → Byte := fun p =>
      byteOfBits [p.cutoverDone, p.stagingComplete, p.labelFailed, p.holdEnded, p.renderOverflow, p.serviceChange]
    let yes : Bool → Byte := fun b => if b = true then 1 else 0
    s.noticePin = (match s.notices.polarity with
      | .activeLow => if active s.notices.pending s.notices.enabled = true then .drivenLow else .released
      | .activeHigh => if active s.notices.pending s.notices.enabled = true then .released else .drivenLow)
    ∧ exec (.noticeRead tag) s = .next (s.answer tag .noticeRead .ok
        [bits s.notices.pending, bits s.notices.enabled, if s.notices.polarity = .activeLow then 0 else 1,
         yes (active s.notices.pending s.notices.enabled)])
    ∧ ∀ sources : Byte,
      let named : SourceSet := ⟨sources.getLsbD 0, sources.getLsbD 1, sources.getLsbD 2, sources.getLsbD 3, sources.getLsbD 4,
        sources.getLsbD 5⟩
      let left : SourceSet := ⟨s.notices.pending.cutoverDone && !named.cutoverDone,
        s.notices.pending.stagingComplete && !named.stagingComplete, s.notices.pending.labelFailed && !named.labelFailed,
        s.notices.pending.holdEnded && !named.holdEnded, s.notices.pending.renderOverflow && !named.renderOverflow,
        s.notices.pending.serviceChange && !named.serviceChange⟩
      (63 < sources.toNat → exec (.noticeClear tag sources) s = .next (s.answer tag (.noticeClear sources) .badValue [])
        ∧ exec (.noticeMask tag sources) s = .next (s.answer tag (.noticeMask sources) .badValue []))
      ∧ (sources.toNat ≤ 63 →
        exec (.noticeClear tag sources) s = .next
            ((s.setNotices { s.notices with pending := left }).answer tag (.noticeClear sources) .ok
              [bits left, yes (active left s.notices.enabled)])
        ∧ exec (.noticeMask tag sources) s = .next ((s.setNotices { s.notices with enabled := named }).answer tag (.noticeMask sources) .ok
            [bits named, bits s.notices.pending, yes (active s.notices.pending named)]))

/-- R180, R189: PORT_CONFIG refuses a bad code, and otherwise writes the values it gives, the pending and enable sets untouched. R183:
DEVICE_INFO reports the part's fixed identity and capacities, and is not among the Service Line's rights. -/
def Obligations.PortConfigAndDeviceInfo : Prop :=
  (∀ (tag : Byte) (enable polarity : Option Byte) (s : State), s.inReset = false →
    (((∃ b ∈ enable, 1 < b.toNat) ∨ ∃ b ∈ polarity, 1 < b.toNat) →
      exec (.portConfig tag enable polarity) s = .next (s.answer tag (.portConfig enable polarity) .badValue []))
    ∧ ((∀ b ∈ enable, b.toNat ≤ 1) → (∀ b ∈ polarity, b.toNat ≤ 1) →
      let on : Bool := match enable with
        | none => s.gateway.serviceEnabled
        | some b => b == 1
      let p : Polarity := match polarity with
        | none => s.notices.polarity
        | some b => if b = 1 then .activeHigh else .activeLow
      exec (.portConfig tag enable polarity) s = .next
        (((s.setGateway { s.gateway with serviceEnabled := on }).setNotices { s.notices with polarity := p }).answer tag
          (.portConfig enable polarity) .ok [if on = true then 1 else 0, if p = .activeLow then 0 else 1])))
  ∧ (∀ (tag : Byte) (s : State), s.inReset = false →
    exec (.deviceInfo tag) s = .next (s.answer tag .deviceInfo .ok
      [0x71, 0x0E, 0x60, 0x41, 1, 0x00, 0x40, 0x00, 0x40, 64, 0, 32, 0, 4, 0, 64, 0, 8, 0, 0x00, 0x01]))
  ∧ serviceRight Request.deviceInfo.kind = false

/-- R42, R53, R121, R116, R89, R96: the status requests report what their owners hold, field by field, and change nothing;
TEMPLATE_GET and ZONE_GET refuse what names no slot or zone. The grouping inside a body is the model's reading (assumption 14). That
the byte sent for yes or for present is 1 is the model's choice (assumption 14). -/
def Obligations.StatusRequestsReport : Prop :=
  ∀ (tag : Byte) (s : State), s.inReset = false → s.Laws →
    (∀ (item : BitVec 32) (k : Nat) (x : Item), s.item k = some x → x.number = item.toNat →
      exec (.itemGet tag item) s = .next (s.answer tag (.itemGet item) .ok (leBytes 2 k ++ leBytes 4 x.number ++ x.current.bytes
        ++ (match x.next with
          | none => List.replicate 18 (0 : Byte)
          | some p => (1 : Byte) :: p.bytes)
        ++ leBytes 2 x.bound)))
    ∧ (∀ (id : Byte) (T : Template), id.toNat ≤ 31 → s.templates.find id.toNat = some T →
      exec (.templateGet tag id) s = .next (s.answer tag (.templateGet id) .ok ([id] ++ leBytes 1 T.length ++ leBytes 6 T.mask.toNat
        ++ leBytes 1 T.fields.length ++ T.fields.flatMap fun f =>
          [f.kind.code] ++ leBytes 2 f.offset ++ leBytes 1 f.digits ++ leBytes 1 f.minimum)))
    ∧ (∀ id : Byte, (31 < id.toNat → exec (.templateGet tag id) s = .next (s.answer tag (.templateGet id) .badValue []))
      ∧ (id.toNat ≤ 31 → s.templates.find id.toNat = none →
        exec (.templateGet tag id) s = .next (s.answer tag (.templateGet id) .notFound [])))
    ∧ (∀ zone : Byte, 63 < zone.toNat → exec (.zoneGet tag zone) s = .next (s.answer tag (.zoneGet zone) .badValue []))
    ∧ (∀ (zone : Byte) (z : ZoneNo), z.val = zone.toNat →
      let x := s.zone z
      let waiting : Bool := (s.queue z).any fun k => (s.label k).any fun l => l.needs.shown
      exec (.zoneGet tag zone) s = .next (s.answer tag (.zoneGet zone) .ok ([zone] ++ leBytes 1 x.priority.val
        ++ leBytes 1 (if x.boost = true ∧ 1 ≤ x.priority.val ∧ x.priority.val ≤ 4 ∧ waiting = true then 5 else x.priority.val)
        ++ [if x.boost = true then 1 else 0] ++ leBytes 1 x.reload ++ leBytes 1 x.counter ++ [if x.promoted = true then 1 else 0]
        ++ [if x.hold = .held then 1 else 0] ++ leBytes 2 x.budget ++ leBytes 1 x.idle ++ optBytes 3 (x.holdStart.map BitVec.toNat)
        ++ leBytes 2 x.counts.members ++ leBytes 2 x.counts.current ++ leBytes 2 x.counts.queued ++ leBytes 2 x.counts.backoff
        ++ leBytes 2 x.counts.inFlight ++ leBytes 2 x.counts.failed)))
    ∧ exec (.epochStatus tag) s = .next (s.answer tag .epochStatus .ok
        ((match s.epoch.state with
          | .steady => ([0] : List Byte)
          | .opened => [1]
          | .armed => [2]) ++ leBytes 2 s.epoch.active.toNat ++ leBytes 2 s.epoch.lastIssued.toNat
          ++ optBytes 2 (s.epoch.pending.map BitVec.toNat) ++ leBytes 4 s.epoch.countdown ++ leBytes 2 s.epoch.outstanding
          ++ leBytes 3 s.radio.frame.toNat))
    ∧ exec (.radioStatus tag) s = .next (s.answer tag .radioStatus .ok
        ([if s.radio.state = .running then 1 else 0] ++ leBytes 1 s.radio.config.lanes.count
          ++ s.radio.config.channels.toList.flatMap (fun x => leBytes 1 x.val) ++ leBytes 1 s.radio.config.ackDelay
          ++ leBytes 1 s.radio.config.retryGap ++ leBytes 1 s.radio.config.maxAttempts ++ leBytes 1 s.radio.config.holdIdle
          ++ leBytes 3 s.radio.frame.toNat
          ++ ([0, 1, 2, 3] : List Lane).flatMap (fun lane =>
            if lane.val < s.radio.config.lanes.count then
              leBytes 1 (s.entries.countP fun e => e.lane == lane) ++ leBytes 1 (64 / s.radio.config.lanes.count)
            else ([0, 0] : List Byte))
          ++ leBytes 2 (s.labels.countP fun kl => !decide (kl.2.confirmed.lane.val < s.radio.config.lanes.count))))

/-! ## The laws that every step keeps -/

/-- The state after a reset meets every law. -/
def Obligations.ResetMeetsTheLaws : Prop := State.reset.Laws

/-- R1, R29, R46: every step keeps the tables in canonical form, addresses and item numbers unique and in range. -/
def Obligations.StepKeepsTables : Prop :=
  ∀ s t : State, s.TablesLaw → step s = .next t → t.TablesLaw

/-- R70, R91, R92, R117, R159, R163, R166: every step keeps the law of the epoch record, the law of the guard, and the laws of the
radio record and of holds. The law of holds ties the model's count of a hold's frames to its hold start (assumption 6). -/
def Obligations.StepKeepsEpochRadioHoldAndGuardLaws : Prop :=
  (∀ s t : State, s.EpochLaw → step s = .next t → t.EpochLaw)
    ∧ (∀ s t : State, s.RadioLaw → s.HoldLaw → step s = .next t → t.RadioLaw ∧ t.HoldLaw)
    ∧ ∀ s t : State, s.GuardLaw → step s = .next t → t.GuardLaw

/-- R6, R7, R33: every step keeps the zone queues, the zone counts and the bound counts right. -/
def Obligations.StepKeepsQueuesAndCounts : Prop :=
  (∀ s t : State, s.TablesLaw → s.QueueLaw → s.CountsLaw → step s = .next t → t.QueueLaw ∧ t.CountsLaw)
    ∧ ∀ s t : State, s.TablesLaw → s.BoundLaw → step s = .next t → t.BoundLaw

/-- Section 1.3, R12, R98 to R100, R133, R134, R137: every step keeps each label settled in its delivery state and the in-flight
table in step with the labels, within its partitions, and empty while STOPPED; and every entry expecting its answer ACK_DELAY frames
after its grant, in an ack slot that has not closed, no two entries sharing lane, expected acknowledgement frame and slot. A change
noted since a label's grant has its flag standing (assumption 24, the model's own). -/
def Obligations.StepKeepsDeliveryLaw : Prop :=
  ∀ s t : State, s.Laws → step s = .next t → t.DeliveryLaw ∧ t.AirLaw

/-- R32, R78, R80: every step keeps the staged-outstanding count and the law of staged work. -/
def Obligations.StepKeepsStagedLaw : Prop :=
  ∀ s t : State, s.Laws → step s = .next t → t.StagedLaw

/-- R2, R16, R19, R46, R47, R49: every step keeps phases below their periods, every label's template defined, every template valid. -/
def Obligations.StepKeepsLayoutLaw : Prop :=
  ∀ s t : State, s.Laws → step s = .next t → t.LayoutLaw
end

