-- ==== Sys2Proof/Laws/State.lean ====
section
/-! SUPPORT. One lemma for each part of State under each update, true by definition, so that no proof unfolds a record update. -/

namespace Sys2Proof.Machine

/-! ## setInReset -/

@[simp] theorem State.setInReset_inReset (x) (s : State) : (s.setInReset x).inReset = x := rfl
@[simp] theorem State.setInReset_gateway (x) (s : State) : (s.setInReset x).gateway = s.gateway := rfl
@[simp] theorem State.setInReset_service (x) (s : State) : (s.setInReset x).service = s.service := rfl
@[simp] theorem State.setInReset_labels (x) (s : State) : (s.setInReset x).labels = s.labels := rfl
@[simp] theorem State.setInReset_queues (x) (s : State) : (s.setInReset x).queues = s.queues := rfl
@[simp] theorem State.setInReset_items (x) (s : State) : (s.setInReset x).items = s.items := rfl
@[simp] theorem State.setInReset_templates (x) (s : State) : (s.setInReset x).templates = s.templates := rfl
@[simp] theorem State.setInReset_epoch (x) (s : State) : (s.setInReset x).epoch = s.epoch := rfl
@[simp] theorem State.setInReset_radio (x) (s : State) : (s.setInReset x).radio = s.radio := rfl
@[simp] theorem State.setInReset_air (x) (s : State) : (s.setInReset x).air = s.air := rfl
@[simp] theorem State.setInReset_zones (x) (s : State) : (s.setInReset x).zones = s.zones := rfl
@[simp] theorem State.setInReset_pointers (x) (s : State) : (s.setInReset x).pointers = s.pointers := rfl
@[simp] theorem State.setInReset_entries (x) (s : State) : (s.setInReset x).entries = s.entries := rfl
@[simp] theorem State.setInReset_holdSet (x) (s : State) : (s.setInReset x).holdSet = s.holdSet := rfl
@[simp] theorem State.setInReset_holdsDue (x) (s : State) : (s.setInReset x).holdsDue = s.holdsDue := rfl
@[simp] theorem State.setInReset_notices (x) (s : State) : (s.setInReset x).notices = s.notices := rfl
@[simp] theorem State.setInReset_pending (x) (s : State) : (s.setInReset x).pending = s.pending := rfl

/-! ## setGateway -/

@[simp] theorem State.setGateway_inReset (x) (s : State) : (s.setGateway x).inReset = s.inReset := rfl
@[simp] theorem State.setGateway_gateway (x) (s : State) : (s.setGateway x).gateway = x := rfl
@[simp] theorem State.setGateway_service (x) (s : State) : (s.setGateway x).service = s.service := rfl
@[simp] theorem State.setGateway_labels (x) (s : State) : (s.setGateway x).labels = s.labels := rfl
@[simp] theorem State.setGateway_queues (x) (s : State) : (s.setGateway x).queues = s.queues := rfl
@[simp] theorem State.setGateway_items (x) (s : State) : (s.setGateway x).items = s.items := rfl
@[simp] theorem State.setGateway_templates (x) (s : State) : (s.setGateway x).templates = s.templates := rfl
@[simp] theorem State.setGateway_epoch (x) (s : State) : (s.setGateway x).epoch = s.epoch := rfl
@[simp] theorem State.setGateway_radio (x) (s : State) : (s.setGateway x).radio = s.radio := rfl
@[simp] theorem State.setGateway_air (x) (s : State) : (s.setGateway x).air = s.air := rfl
@[simp] theorem State.setGateway_zones (x) (s : State) : (s.setGateway x).zones = s.zones := rfl
@[simp] theorem State.setGateway_pointers (x) (s : State) : (s.setGateway x).pointers = s.pointers := rfl
@[simp] theorem State.setGateway_entries (x) (s : State) : (s.setGateway x).entries = s.entries := rfl
@[simp] theorem State.setGateway_holdSet (x) (s : State) : (s.setGateway x).holdSet = s.holdSet := rfl
@[simp] theorem State.setGateway_holdsDue (x) (s : State) : (s.setGateway x).holdsDue = s.holdsDue := rfl
@[simp] theorem State.setGateway_notices (x) (s : State) : (s.setGateway x).notices = s.notices := rfl
@[simp] theorem State.setGateway_pending (x) (s : State) : (s.setGateway x).pending = s.pending := rfl

/-! ## setService -/

@[simp] theorem State.setService_inReset (x) (s : State) : (s.setService x).inReset = s.inReset := rfl
@[simp] theorem State.setService_gateway (x) (s : State) : (s.setService x).gateway = s.gateway := rfl
@[simp] theorem State.setService_service (x) (s : State) : (s.setService x).service = x := rfl
@[simp] theorem State.setService_labels (x) (s : State) : (s.setService x).labels = s.labels := rfl
@[simp] theorem State.setService_queues (x) (s : State) : (s.setService x).queues = s.queues := rfl
@[simp] theorem State.setService_items (x) (s : State) : (s.setService x).items = s.items := rfl
@[simp] theorem State.setService_templates (x) (s : State) : (s.setService x).templates = s.templates := rfl
@[simp] theorem State.setService_epoch (x) (s : State) : (s.setService x).epoch = s.epoch := rfl
@[simp] theorem State.setService_radio (x) (s : State) : (s.setService x).radio = s.radio := rfl
@[simp] theorem State.setService_air (x) (s : State) : (s.setService x).air = s.air := rfl
@[simp] theorem State.setService_zones (x) (s : State) : (s.setService x).zones = s.zones := rfl
@[simp] theorem State.setService_pointers (x) (s : State) : (s.setService x).pointers = s.pointers := rfl
@[simp] theorem State.setService_entries (x) (s : State) : (s.setService x).entries = s.entries := rfl
@[simp] theorem State.setService_holdSet (x) (s : State) : (s.setService x).holdSet = s.holdSet := rfl
@[simp] theorem State.setService_holdsDue (x) (s : State) : (s.setService x).holdsDue = s.holdsDue := rfl
@[simp] theorem State.setService_notices (x) (s : State) : (s.setService x).notices = s.notices := rfl
@[simp] theorem State.setService_pending (x) (s : State) : (s.setService x).pending = s.pending := rfl

/-! ## setLabels -/

@[simp] theorem State.setLabels_inReset (x) (s : State) : (s.setLabels x).inReset = s.inReset := rfl
@[simp] theorem State.setLabels_gateway (x) (s : State) : (s.setLabels x).gateway = s.gateway := rfl
@[simp] theorem State.setLabels_service (x) (s : State) : (s.setLabels x).service = s.service := rfl
@[simp] theorem State.setLabels_labels (x) (s : State) : (s.setLabels x).labels = x := rfl
@[simp] theorem State.setLabels_queues (x) (s : State) : (s.setLabels x).queues = s.queues := rfl
@[simp] theorem State.setLabels_items (x) (s : State) : (s.setLabels x).items = s.items := rfl
@[simp] theorem State.setLabels_templates (x) (s : State) : (s.setLabels x).templates = s.templates := rfl
@[simp] theorem State.setLabels_epoch (x) (s : State) : (s.setLabels x).epoch = s.epoch := rfl
@[simp] theorem State.setLabels_radio (x) (s : State) : (s.setLabels x).radio = s.radio := rfl
@[simp] theorem State.setLabels_air (x) (s : State) : (s.setLabels x).air = s.air := rfl
@[simp] theorem State.setLabels_zones (x) (s : State) : (s.setLabels x).zones = s.zones := rfl
@[simp] theorem State.setLabels_pointers (x) (s : State) : (s.setLabels x).pointers = s.pointers := rfl
@[simp] theorem State.setLabels_entries (x) (s : State) : (s.setLabels x).entries = s.entries := rfl
@[simp] theorem State.setLabels_holdSet (x) (s : State) : (s.setLabels x).holdSet = s.holdSet := rfl
@[simp] theorem State.setLabels_holdsDue (x) (s : State) : (s.setLabels x).holdsDue = s.holdsDue := rfl
@[simp] theorem State.setLabels_notices (x) (s : State) : (s.setLabels x).notices = s.notices := rfl
@[simp] theorem State.setLabels_pending (x) (s : State) : (s.setLabels x).pending = s.pending := rfl

/-! ## setQueues -/

@[simp] theorem State.setQueues_inReset (x) (s : State) : (s.setQueues x).inReset = s.inReset := rfl
@[simp] theorem State.setQueues_gateway (x) (s : State) : (s.setQueues x).gateway = s.gateway := rfl
@[simp] theorem State.setQueues_service (x) (s : State) : (s.setQueues x).service = s.service := rfl
@[simp] theorem State.setQueues_labels (x) (s : State) : (s.setQueues x).labels = s.labels := rfl
@[simp] theorem State.setQueues_queues (x) (s : State) : (s.setQueues x).queues = x := rfl
@[simp] theorem State.setQueues_items (x) (s : State) : (s.setQueues x).items = s.items := rfl
@[simp] theorem State.setQueues_templates (x) (s : State) : (s.setQueues x).templates = s.templates := rfl
@[simp] theorem State.setQueues_epoch (x) (s : State) : (s.setQueues x).epoch = s.epoch := rfl
@[simp] theorem State.setQueues_radio (x) (s : State) : (s.setQueues x).radio = s.radio := rfl
@[simp] theorem State.setQueues_air (x) (s : State) : (s.setQueues x).air = s.air := rfl
@[simp] theorem State.setQueues_zones (x) (s : State) : (s.setQueues x).zones = s.zones := rfl
@[simp] theorem State.setQueues_pointers (x) (s : State) : (s.setQueues x).pointers = s.pointers := rfl
@[simp] theorem State.setQueues_entries (x) (s : State) : (s.setQueues x).entries = s.entries := rfl
@[simp] theorem State.setQueues_holdSet (x) (s : State) : (s.setQueues x).holdSet = s.holdSet := rfl
@[simp] theorem State.setQueues_holdsDue (x) (s : State) : (s.setQueues x).holdsDue = s.holdsDue := rfl
@[simp] theorem State.setQueues_notices (x) (s : State) : (s.setQueues x).notices = s.notices := rfl
@[simp] theorem State.setQueues_pending (x) (s : State) : (s.setQueues x).pending = s.pending := rfl

/-! ## setItems -/

@[simp] theorem State.setItems_inReset (x) (s : State) : (s.setItems x).inReset = s.inReset := rfl
@[simp] theorem State.setItems_gateway (x) (s : State) : (s.setItems x).gateway = s.gateway := rfl
@[simp] theorem State.setItems_service (x) (s : State) : (s.setItems x).service = s.service := rfl
@[simp] theorem State.setItems_labels (x) (s : State) : (s.setItems x).labels = s.labels := rfl
@[simp] theorem State.setItems_queues (x) (s : State) : (s.setItems x).queues = s.queues := rfl
@[simp] theorem State.setItems_items (x) (s : State) : (s.setItems x).items = x := rfl
@[simp] theorem State.setItems_templates (x) (s : State) : (s.setItems x).templates = s.templates := rfl
@[simp] theorem State.setItems_epoch (x) (s : State) : (s.setItems x).epoch = s.epoch := rfl
@[simp] theorem State.setItems_radio (x) (s : State) : (s.setItems x).radio = s.radio := rfl
@[simp] theorem State.setItems_air (x) (s : State) : (s.setItems x).air = s.air := rfl
@[simp] theorem State.setItems_zones (x) (s : State) : (s.setItems x).zones = s.zones := rfl
@[simp] theorem State.setItems_pointers (x) (s : State) : (s.setItems x).pointers = s.pointers := rfl
@[simp] theorem State.setItems_entries (x) (s : State) : (s.setItems x).entries = s.entries := rfl
@[simp] theorem State.setItems_holdSet (x) (s : State) : (s.setItems x).holdSet = s.holdSet := rfl
@[simp] theorem State.setItems_holdsDue (x) (s : State) : (s.setItems x).holdsDue = s.holdsDue := rfl
@[simp] theorem State.setItems_notices (x) (s : State) : (s.setItems x).notices = s.notices := rfl
@[simp] theorem State.setItems_pending (x) (s : State) : (s.setItems x).pending = s.pending := rfl

/-! ## setTemplates -/

@[simp] theorem State.setTemplates_inReset (x) (s : State) : (s.setTemplates x).inReset = s.inReset := rfl
@[simp] theorem State.setTemplates_gateway (x) (s : State) : (s.setTemplates x).gateway = s.gateway := rfl
@[simp] theorem State.setTemplates_service (x) (s : State) : (s.setTemplates x).service = s.service := rfl
@[simp] theorem State.setTemplates_labels (x) (s : State) : (s.setTemplates x).labels = s.labels := rfl
@[simp] theorem State.setTemplates_queues (x) (s : State) : (s.setTemplates x).queues = s.queues := rfl
@[simp] theorem State.setTemplates_items (x) (s : State) : (s.setTemplates x).items = s.items := rfl
@[simp] theorem State.setTemplates_templates (x) (s : State) : (s.setTemplates x).templates = x := rfl
@[simp] theorem State.setTemplates_epoch (x) (s : State) : (s.setTemplates x).epoch = s.epoch := rfl
@[simp] theorem State.setTemplates_radio (x) (s : State) : (s.setTemplates x).radio = s.radio := rfl
@[simp] theorem State.setTemplates_air (x) (s : State) : (s.setTemplates x).air = s.air := rfl
@[simp] theorem State.setTemplates_zones (x) (s : State) : (s.setTemplates x).zones = s.zones := rfl
@[simp] theorem State.setTemplates_pointers (x) (s : State) : (s.setTemplates x).pointers = s.pointers := rfl
@[simp] theorem State.setTemplates_entries (x) (s : State) : (s.setTemplates x).entries = s.entries := rfl
@[simp] theorem State.setTemplates_holdSet (x) (s : State) : (s.setTemplates x).holdSet = s.holdSet := rfl
@[simp] theorem State.setTemplates_holdsDue (x) (s : State) : (s.setTemplates x).holdsDue = s.holdsDue := rfl
@[simp] theorem State.setTemplates_notices (x) (s : State) : (s.setTemplates x).notices = s.notices := rfl
@[simp] theorem State.setTemplates_pending (x) (s : State) : (s.setTemplates x).pending = s.pending := rfl

/-! ## setEpoch -/

@[simp] theorem State.setEpoch_inReset (x) (s : State) : (s.setEpoch x).inReset = s.inReset := rfl
@[simp] theorem State.setEpoch_gateway (x) (s : State) : (s.setEpoch x).gateway = s.gateway := rfl
@[simp] theorem State.setEpoch_service (x) (s : State) : (s.setEpoch x).service = s.service := rfl
@[simp] theorem State.setEpoch_labels (x) (s : State) : (s.setEpoch x).labels = s.labels := rfl
@[simp] theorem State.setEpoch_queues (x) (s : State) : (s.setEpoch x).queues = s.queues := rfl
@[simp] theorem State.setEpoch_items (x) (s : State) : (s.setEpoch x).items = s.items := rfl
@[simp] theorem State.setEpoch_templates (x) (s : State) : (s.setEpoch x).templates = s.templates := rfl
@[simp] theorem State.setEpoch_epoch (x) (s : State) : (s.setEpoch x).epoch = x := rfl
@[simp] theorem State.setEpoch_radio (x) (s : State) : (s.setEpoch x).radio = s.radio := rfl
@[simp] theorem State.setEpoch_air (x) (s : State) : (s.setEpoch x).air = s.air := rfl
@[simp] theorem State.setEpoch_zones (x) (s : State) : (s.setEpoch x).zones = s.zones := rfl
@[simp] theorem State.setEpoch_pointers (x) (s : State) : (s.setEpoch x).pointers = s.pointers := rfl
@[simp] theorem State.setEpoch_entries (x) (s : State) : (s.setEpoch x).entries = s.entries := rfl
@[simp] theorem State.setEpoch_holdSet (x) (s : State) : (s.setEpoch x).holdSet = s.holdSet := rfl
@[simp] theorem State.setEpoch_holdsDue (x) (s : State) : (s.setEpoch x).holdsDue = s.holdsDue := rfl
@[simp] theorem State.setEpoch_notices (x) (s : State) : (s.setEpoch x).notices = s.notices := rfl
@[simp] theorem State.setEpoch_pending (x) (s : State) : (s.setEpoch x).pending = s.pending := rfl

/-! ## setRadio -/

@[simp] theorem State.setRadio_inReset (x) (s : State) : (s.setRadio x).inReset = s.inReset := rfl
@[simp] theorem State.setRadio_gateway (x) (s : State) : (s.setRadio x).gateway = s.gateway := rfl
@[simp] theorem State.setRadio_service (x) (s : State) : (s.setRadio x).service = s.service := rfl
@[simp] theorem State.setRadio_labels (x) (s : State) : (s.setRadio x).labels = s.labels := rfl
@[simp] theorem State.setRadio_queues (x) (s : State) : (s.setRadio x).queues = s.queues := rfl
@[simp] theorem State.setRadio_items (x) (s : State) : (s.setRadio x).items = s.items := rfl
@[simp] theorem State.setRadio_templates (x) (s : State) : (s.setRadio x).templates = s.templates := rfl
@[simp] theorem State.setRadio_epoch (x) (s : State) : (s.setRadio x).epoch = s.epoch := rfl
@[simp] theorem State.setRadio_radio (x) (s : State) : (s.setRadio x).radio = x := rfl
@[simp] theorem State.setRadio_air (x) (s : State) : (s.setRadio x).air = s.air := rfl
@[simp] theorem State.setRadio_zones (x) (s : State) : (s.setRadio x).zones = s.zones := rfl
@[simp] theorem State.setRadio_pointers (x) (s : State) : (s.setRadio x).pointers = s.pointers := rfl
@[simp] theorem State.setRadio_entries (x) (s : State) : (s.setRadio x).entries = s.entries := rfl
@[simp] theorem State.setRadio_holdSet (x) (s : State) : (s.setRadio x).holdSet = s.holdSet := rfl
@[simp] theorem State.setRadio_holdsDue (x) (s : State) : (s.setRadio x).holdsDue = s.holdsDue := rfl
@[simp] theorem State.setRadio_notices (x) (s : State) : (s.setRadio x).notices = s.notices := rfl
@[simp] theorem State.setRadio_pending (x) (s : State) : (s.setRadio x).pending = s.pending := rfl

/-! ## setAir -/

@[simp] theorem State.setAir_inReset (x) (s : State) : (s.setAir x).inReset = s.inReset := rfl
@[simp] theorem State.setAir_gateway (x) (s : State) : (s.setAir x).gateway = s.gateway := rfl
@[simp] theorem State.setAir_service (x) (s : State) : (s.setAir x).service = s.service := rfl
@[simp] theorem State.setAir_labels (x) (s : State) : (s.setAir x).labels = s.labels := rfl
@[simp] theorem State.setAir_queues (x) (s : State) : (s.setAir x).queues = s.queues := rfl
@[simp] theorem State.setAir_items (x) (s : State) : (s.setAir x).items = s.items := rfl
@[simp] theorem State.setAir_templates (x) (s : State) : (s.setAir x).templates = s.templates := rfl
@[simp] theorem State.setAir_epoch (x) (s : State) : (s.setAir x).epoch = s.epoch := rfl
@[simp] theorem State.setAir_radio (x) (s : State) : (s.setAir x).radio = s.radio := rfl
@[simp] theorem State.setAir_air (x) (s : State) : (s.setAir x).air = x := rfl
@[simp] theorem State.setAir_zones (x) (s : State) : (s.setAir x).zones = s.zones := rfl
@[simp] theorem State.setAir_pointers (x) (s : State) : (s.setAir x).pointers = s.pointers := rfl
@[simp] theorem State.setAir_entries (x) (s : State) : (s.setAir x).entries = s.entries := rfl
@[simp] theorem State.setAir_holdSet (x) (s : State) : (s.setAir x).holdSet = s.holdSet := rfl
@[simp] theorem State.setAir_holdsDue (x) (s : State) : (s.setAir x).holdsDue = s.holdsDue := rfl
@[simp] theorem State.setAir_notices (x) (s : State) : (s.setAir x).notices = s.notices := rfl
@[simp] theorem State.setAir_pending (x) (s : State) : (s.setAir x).pending = s.pending := rfl

/-! ## setZones -/

@[simp] theorem State.setZones_inReset (x) (s : State) : (s.setZones x).inReset = s.inReset := rfl
@[simp] theorem State.setZones_gateway (x) (s : State) : (s.setZones x).gateway = s.gateway := rfl
@[simp] theorem State.setZones_service (x) (s : State) : (s.setZones x).service = s.service := rfl
@[simp] theorem State.setZones_labels (x) (s : State) : (s.setZones x).labels = s.labels := rfl
@[simp] theorem State.setZones_queues (x) (s : State) : (s.setZones x).queues = s.queues := rfl
@[simp] theorem State.setZones_items (x) (s : State) : (s.setZones x).items = s.items := rfl
@[simp] theorem State.setZones_templates (x) (s : State) : (s.setZones x).templates = s.templates := rfl
@[simp] theorem State.setZones_epoch (x) (s : State) : (s.setZones x).epoch = s.epoch := rfl
@[simp] theorem State.setZones_radio (x) (s : State) : (s.setZones x).radio = s.radio := rfl
@[simp] theorem State.setZones_air (x) (s : State) : (s.setZones x).air = s.air := rfl
@[simp] theorem State.setZones_zones (x) (s : State) : (s.setZones x).zones = x := rfl
@[simp] theorem State.setZones_pointers (x) (s : State) : (s.setZones x).pointers = s.pointers := rfl
@[simp] theorem State.setZones_entries (x) (s : State) : (s.setZones x).entries = s.entries := rfl
@[simp] theorem State.setZones_holdSet (x) (s : State) : (s.setZones x).holdSet = s.holdSet := rfl
@[simp] theorem State.setZones_holdsDue (x) (s : State) : (s.setZones x).holdsDue = s.holdsDue := rfl
@[simp] theorem State.setZones_notices (x) (s : State) : (s.setZones x).notices = s.notices := rfl
@[simp] theorem State.setZones_pending (x) (s : State) : (s.setZones x).pending = s.pending := rfl

/-! ## setPointers -/

@[simp] theorem State.setPointers_inReset (x) (s : State) : (s.setPointers x).inReset = s.inReset := rfl
@[simp] theorem State.setPointers_gateway (x) (s : State) : (s.setPointers x).gateway = s.gateway := rfl
@[simp] theorem State.setPointers_service (x) (s : State) : (s.setPointers x).service = s.service := rfl
@[simp] theorem State.setPointers_labels (x) (s : State) : (s.setPointers x).labels = s.labels := rfl
@[simp] theorem State.setPointers_queues (x) (s : State) : (s.setPointers x).queues = s.queues := rfl
@[simp] theorem State.setPointers_items (x) (s : State) : (s.setPointers x).items = s.items := rfl
@[simp] theorem State.setPointers_templates (x) (s : State) : (s.setPointers x).templates = s.templates := rfl
@[simp] theorem State.setPointers_epoch (x) (s : State) : (s.setPointers x).epoch = s.epoch := rfl
@[simp] theorem State.setPointers_radio (x) (s : State) : (s.setPointers x).radio = s.radio := rfl
@[simp] theorem State.setPointers_air (x) (s : State) : (s.setPointers x).air = s.air := rfl
@[simp] theorem State.setPointers_zones (x) (s : State) : (s.setPointers x).zones = s.zones := rfl
@[simp] theorem State.setPointers_pointers (x) (s : State) : (s.setPointers x).pointers = x := rfl
@[simp] theorem State.setPointers_entries (x) (s : State) : (s.setPointers x).entries = s.entries := rfl
@[simp] theorem State.setPointers_holdSet (x) (s : State) : (s.setPointers x).holdSet = s.holdSet := rfl
@[simp] theorem State.setPointers_holdsDue (x) (s : State) : (s.setPointers x).holdsDue = s.holdsDue := rfl
@[simp] theorem State.setPointers_notices (x) (s : State) : (s.setPointers x).notices = s.notices := rfl
@[simp] theorem State.setPointers_pending (x) (s : State) : (s.setPointers x).pending = s.pending := rfl

/-! ## setEntries -/

@[simp] theorem State.setEntries_inReset (x) (s : State) : (s.setEntries x).inReset = s.inReset := rfl
@[simp] theorem State.setEntries_gateway (x) (s : State) : (s.setEntries x).gateway = s.gateway := rfl
@[simp] theorem State.setEntries_service (x) (s : State) : (s.setEntries x).service = s.service := rfl
@[simp] theorem State.setEntries_labels (x) (s : State) : (s.setEntries x).labels = s.labels := rfl
@[simp] theorem State.setEntries_queues (x) (s : State) : (s.setEntries x).queues = s.queues := rfl
@[simp] theorem State.setEntries_items (x) (s : State) : (s.setEntries x).items = s.items := rfl
@[simp] theorem State.setEntries_templates (x) (s : State) : (s.setEntries x).templates = s.templates := rfl
@[simp] theorem State.setEntries_epoch (x) (s : State) : (s.setEntries x).epoch = s.epoch := rfl
@[simp] theorem State.setEntries_radio (x) (s : State) : (s.setEntries x).radio = s.radio := rfl
@[simp] theorem State.setEntries_air (x) (s : State) : (s.setEntries x).air = s.air := rfl
@[simp] theorem State.setEntries_zones (x) (s : State) : (s.setEntries x).zones = s.zones := rfl
@[simp] theorem State.setEntries_pointers (x) (s : State) : (s.setEntries x).pointers = s.pointers := rfl
@[simp] theorem State.setEntries_entries (x) (s : State) : (s.setEntries x).entries = x := rfl
@[simp] theorem State.setEntries_holdSet (x) (s : State) : (s.setEntries x).holdSet = s.holdSet := rfl
@[simp] theorem State.setEntries_holdsDue (x) (s : State) : (s.setEntries x).holdsDue = s.holdsDue := rfl
@[simp] theorem State.setEntries_notices (x) (s : State) : (s.setEntries x).notices = s.notices := rfl
@[simp] theorem State.setEntries_pending (x) (s : State) : (s.setEntries x).pending = s.pending := rfl

/-! ## setHoldSet -/

@[simp] theorem State.setHoldSet_inReset (x) (s : State) : (s.setHoldSet x).inReset = s.inReset := rfl
@[simp] theorem State.setHoldSet_gateway (x) (s : State) : (s.setHoldSet x).gateway = s.gateway := rfl
@[simp] theorem State.setHoldSet_service (x) (s : State) : (s.setHoldSet x).service = s.service := rfl
@[simp] theorem State.setHoldSet_labels (x) (s : State) : (s.setHoldSet x).labels = s.labels := rfl
@[simp] theorem State.setHoldSet_queues (x) (s : State) : (s.setHoldSet x).queues = s.queues := rfl
@[simp] theorem State.setHoldSet_items (x) (s : State) : (s.setHoldSet x).items = s.items := rfl
@[simp] theorem State.setHoldSet_templates (x) (s : State) : (s.setHoldSet x).templates = s.templates := rfl
@[simp] theorem State.setHoldSet_epoch (x) (s : State) : (s.setHoldSet x).epoch = s.epoch := rfl
@[simp] theorem State.setHoldSet_radio (x) (s : State) : (s.setHoldSet x).radio = s.radio := rfl
@[simp] theorem State.setHoldSet_air (x) (s : State) : (s.setHoldSet x).air = s.air := rfl
@[simp] theorem State.setHoldSet_zones (x) (s : State) : (s.setHoldSet x).zones = s.zones := rfl
@[simp] theorem State.setHoldSet_pointers (x) (s : State) : (s.setHoldSet x).pointers = s.pointers := rfl
@[simp] theorem State.setHoldSet_entries (x) (s : State) : (s.setHoldSet x).entries = s.entries := rfl
@[simp] theorem State.setHoldSet_holdSet (x) (s : State) : (s.setHoldSet x).holdSet = x := rfl
@[simp] theorem State.setHoldSet_holdsDue (x) (s : State) : (s.setHoldSet x).holdsDue = s.holdsDue := rfl
@[simp] theorem State.setHoldSet_notices (x) (s : State) : (s.setHoldSet x).notices = s.notices := rfl
@[simp] theorem State.setHoldSet_pending (x) (s : State) : (s.setHoldSet x).pending = s.pending := rfl

/-! ## setHoldsDue -/

@[simp] theorem State.setHoldsDue_inReset (x) (s : State) : (s.setHoldsDue x).inReset = s.inReset := rfl
@[simp] theorem State.setHoldsDue_gateway (x) (s : State) : (s.setHoldsDue x).gateway = s.gateway := rfl
@[simp] theorem State.setHoldsDue_service (x) (s : State) : (s.setHoldsDue x).service = s.service := rfl
@[simp] theorem State.setHoldsDue_labels (x) (s : State) : (s.setHoldsDue x).labels = s.labels := rfl
@[simp] theorem State.setHoldsDue_queues (x) (s : State) : (s.setHoldsDue x).queues = s.queues := rfl
@[simp] theorem State.setHoldsDue_items (x) (s : State) : (s.setHoldsDue x).items = s.items := rfl
@[simp] theorem State.setHoldsDue_templates (x) (s : State) : (s.setHoldsDue x).templates = s.templates := rfl
@[simp] theorem State.setHoldsDue_epoch (x) (s : State) : (s.setHoldsDue x).epoch = s.epoch := rfl
@[simp] theorem State.setHoldsDue_radio (x) (s : State) : (s.setHoldsDue x).radio = s.radio := rfl
@[simp] theorem State.setHoldsDue_air (x) (s : State) : (s.setHoldsDue x).air = s.air := rfl
@[simp] theorem State.setHoldsDue_zones (x) (s : State) : (s.setHoldsDue x).zones = s.zones := rfl
@[simp] theorem State.setHoldsDue_pointers (x) (s : State) : (s.setHoldsDue x).pointers = s.pointers := rfl
@[simp] theorem State.setHoldsDue_entries (x) (s : State) : (s.setHoldsDue x).entries = s.entries := rfl
@[simp] theorem State.setHoldsDue_holdSet (x) (s : State) : (s.setHoldsDue x).holdSet = s.holdSet := rfl
@[simp] theorem State.setHoldsDue_holdsDue (x) (s : State) : (s.setHoldsDue x).holdsDue = x := rfl
@[simp] theorem State.setHoldsDue_notices (x) (s : State) : (s.setHoldsDue x).notices = s.notices := rfl
@[simp] theorem State.setHoldsDue_pending (x) (s : State) : (s.setHoldsDue x).pending = s.pending := rfl

/-! ## setNotices -/

@[simp] theorem State.setNotices_inReset (x) (s : State) : (s.setNotices x).inReset = s.inReset := rfl
@[simp] theorem State.setNotices_gateway (x) (s : State) : (s.setNotices x).gateway = s.gateway := rfl
@[simp] theorem State.setNotices_service (x) (s : State) : (s.setNotices x).service = s.service := rfl
@[simp] theorem State.setNotices_labels (x) (s : State) : (s.setNotices x).labels = s.labels := rfl
@[simp] theorem State.setNotices_queues (x) (s : State) : (s.setNotices x).queues = s.queues := rfl
@[simp] theorem State.setNotices_items (x) (s : State) : (s.setNotices x).items = s.items := rfl
@[simp] theorem State.setNotices_templates (x) (s : State) : (s.setNotices x).templates = s.templates := rfl
@[simp] theorem State.setNotices_epoch (x) (s : State) : (s.setNotices x).epoch = s.epoch := rfl
@[simp] theorem State.setNotices_radio (x) (s : State) : (s.setNotices x).radio = s.radio := rfl
@[simp] theorem State.setNotices_air (x) (s : State) : (s.setNotices x).air = s.air := rfl
@[simp] theorem State.setNotices_zones (x) (s : State) : (s.setNotices x).zones = s.zones := rfl
@[simp] theorem State.setNotices_pointers (x) (s : State) : (s.setNotices x).pointers = s.pointers := rfl
@[simp] theorem State.setNotices_entries (x) (s : State) : (s.setNotices x).entries = s.entries := rfl
@[simp] theorem State.setNotices_holdSet (x) (s : State) : (s.setNotices x).holdSet = s.holdSet := rfl
@[simp] theorem State.setNotices_holdsDue (x) (s : State) : (s.setNotices x).holdsDue = s.holdsDue := rfl
@[simp] theorem State.setNotices_notices (x) (s : State) : (s.setNotices x).notices = x := rfl
@[simp] theorem State.setNotices_pending (x) (s : State) : (s.setNotices x).pending = s.pending := rfl

/-! ## setPending -/

@[simp] theorem State.setPending_inReset (x) (s : State) : (s.setPending x).inReset = s.inReset := rfl
@[simp] theorem State.setPending_gateway (x) (s : State) : (s.setPending x).gateway = s.gateway := rfl
@[simp] theorem State.setPending_service (x) (s : State) : (s.setPending x).service = s.service := rfl
@[simp] theorem State.setPending_labels (x) (s : State) : (s.setPending x).labels = s.labels := rfl
@[simp] theorem State.setPending_queues (x) (s : State) : (s.setPending x).queues = s.queues := rfl
@[simp] theorem State.setPending_items (x) (s : State) : (s.setPending x).items = s.items := rfl
@[simp] theorem State.setPending_templates (x) (s : State) : (s.setPending x).templates = s.templates := rfl
@[simp] theorem State.setPending_epoch (x) (s : State) : (s.setPending x).epoch = s.epoch := rfl
@[simp] theorem State.setPending_radio (x) (s : State) : (s.setPending x).radio = s.radio := rfl
@[simp] theorem State.setPending_air (x) (s : State) : (s.setPending x).air = s.air := rfl
@[simp] theorem State.setPending_zones (x) (s : State) : (s.setPending x).zones = s.zones := rfl
@[simp] theorem State.setPending_pointers (x) (s : State) : (s.setPending x).pointers = s.pointers := rfl
@[simp] theorem State.setPending_entries (x) (s : State) : (s.setPending x).entries = s.entries := rfl
@[simp] theorem State.setPending_holdSet (x) (s : State) : (s.setPending x).holdSet = s.holdSet := rfl
@[simp] theorem State.setPending_holdsDue (x) (s : State) : (s.setPending x).holdsDue = s.holdsDue := rfl
@[simp] theorem State.setPending_notices (x) (s : State) : (s.setPending x).notices = s.notices := rfl
@[simp] theorem State.setPending_pending (x) (s : State) : (s.setPending x).pending = x := rfl

end Sys2Proof.Machine
end

