-- ==== Sys2Proof/Laws/Tables.lean ====
section
/-! SUPPORT. What the table operations do: reading after writing, and that every one of them keeps the canonical form. -/

namespace Sys2Proof.Machine

variable {α : Type}

/-- Reading a slot after a put. -/
theorem Table.find_put (t : Table α) (n m : Nat) (x : α) : (t.put n x).find m = if m = n then some x else t.find m := by
  induction t with
  | nil => simp [Table.put, Table.find]
  | cons kv t ih =>
    obtain ⟨k, v⟩ := kv
    simp only [Table.put]
    split
    · simp only [Table.find]
    · split
      · simp only [Table.find]; split <;> simp_all
      · simp only [Table.find, ih]; split <;> split <;> simp_all

/-- A slot of a rising table that lies below its first one is free. -/
theorem Table.find_below (t : Table α) (n : Nat) (h : ∀ kv ∈ t, n < kv.1) : t.find n = none := by
  induction t with
  | nil => rfl
  | cons kv t ih =>
    have h1 := h kv (by simp)
    simp only [Table.find]
    rw [if_neg (by omega)]
    exact ih fun x hx => h x (by simp [hx])

/-- Reading a slot after an erase. -/
theorem Table.find_erase (t : Table α) (n m : Nat) (h : t.Pairwise fun a b => a.1 < b.1) :
    (t.erase n).find m = if m = n then none else t.find m := by
  induction t with
  | nil => simp [Table.erase, Table.find]
  | cons kv t ih =>
    obtain ⟨k, v⟩ := kv
    rw [List.pairwise_cons] at h
    simp only [Table.erase]
    split
    · subst n
      simp only [Table.find]
      split
      · subst m; exact Table.find_below t k h.1
      · rfl
    · simp only [Table.find, ih h.2]; split <;> split <;> simp_all

/-- A record of a rising table is what its slot reads as. -/
theorem Table.mem_iff_find (t : Table α) (h : t.Pairwise fun a b => a.1 < b.1) (k : Nat) (x : α) :
    (k, x) ∈ t ↔ t.find k = some x := by
  induction t with
  | nil => simp [Table.find]
  | cons kv t ih =>
    obtain ⟨j, v⟩ := kv
    rw [List.pairwise_cons] at h
    simp only [Table.find, List.mem_cons, Prod.mk.injEq]
    split
    · subst k
      constructor
      · rintro (⟨-, rfl⟩ | hm)
        · rfl
        · exact absurd (h.1 _ hm) (by simp)
      · intro hx; left; simp_all
    · rw [← ih h.2]
      constructor
      · rintro (⟨rfl, -⟩ | hm)
        · contradiction
        · exact hm
      · exact Or.inr

/-- The slots a put leaves are the old ones and the one put. -/
theorem Table.mem_put (t : Table α) (n : Nat) (x : α) (kv : Nat × α) (h : kv ∈ t.put n x) : kv = (n, x) ∨ kv ∈ t := by
  induction t with
  | nil => simpa [Table.put] using h
  | cons jw t ih =>
    obtain ⟨j, w⟩ := jw
    simp only [Table.put] at h
    split at h
    · simpa using h
    · split at h
      · simp only [List.mem_cons] at h ⊢; tauto
      · simp only [List.mem_cons] at h ⊢
        rcases h with h | h
        · exact Or.inr (Or.inl h)
        · rcases ih h with h | h
          · exact Or.inl h
          · exact Or.inr (Or.inr h)

/-- The slots an erase leaves are old ones. -/
theorem Table.mem_erase (t : Table α) (n : Nat) (kv : Nat × α) (h : kv ∈ t.erase n) : kv ∈ t := by
  induction t with
  | nil => simp [Table.erase] at h
  | cons jw t ih =>
    obtain ⟨j, w⟩ := jw
    simp only [Table.erase] at h
    split at h
    · exact List.mem_cons_of_mem _ h
    · simp only [List.mem_cons] at h ⊢
      exact h.imp_right ih

/-- A put keeps the canonical form. -/
theorem Table.put_wf (t : Table α) (n c : Nat) (x : α) (h : t.wf c) (hn : n < c) : (t.put n x).wf c := by
  refine ⟨?_, fun kv hm => (t.mem_put n x kv hm).elim (fun e => by simpa [e] using hn) (h.2 kv)⟩
  have h1 := h.1
  clear h hn
  induction t with
  | nil => simp [Table.put]
  | cons kv t ih =>
    obtain ⟨k, v⟩ := kv
    rw [List.pairwise_cons] at h1
    simp only [Table.put]
    split
    · refine List.pairwise_cons.2 ⟨?_, List.pairwise_cons.2 h1⟩
      intro b hb
      rcases List.mem_cons.1 hb with rfl | hb
      · assumption
      · exact Nat.lt_trans ‹_› (h1.1 b hb)
    · split
      · subst n; exact List.pairwise_cons.2 h1
      · refine List.pairwise_cons.2 ⟨?_, ih h1.2⟩
        intro b hb
        rcases Table.mem_put t n x b hb with rfl | hb
        · show k < n; omega
        · exact h1.1 b hb

/-- An erase keeps the canonical form. -/
theorem Table.erase_wf (t : Table α) (n c : Nat) (h : t.wf c) : (t.erase n).wf c := by
  refine ⟨?_, fun kv hm => h.2 kv (t.mem_erase n kv hm)⟩
  have h1 := h.1
  clear h
  induction t with
  | nil => simp [Table.erase]
  | cons kv t ih =>
    obtain ⟨k, v⟩ := kv
    rw [List.pairwise_cons] at h1
    simp only [Table.erase]
    split
    · exact h1.2
    · exact List.pairwise_cons.2 ⟨fun b hb => h1.1 b (Table.mem_erase t n b hb), ih h1.2⟩

/-- A write keeps the canonical form. -/
theorem Table.write_wf (t : Table α) (n c : Nat) (x : Option α) (h : t.wf c) (hn : n < c) : (t.write n x).wf c := by
  cases x with
  | none => exact t.erase_wf n c h
  | some x => exact t.put_wf n c x h hn

/-- Reading a slot after a write. -/
theorem Table.find_write (t : Table α) (n m : Nat) (x : Option α) (h : t.Pairwise fun a b => a.1 < b.1) :
    (t.write n x).find m = if m = n then x else t.find m := by
  cases x with
  | none => exact t.find_erase n m h
  | some x => exact t.find_put n m x

/-- The first gap of a rising table at or above a slot: it is free, and every slot from there up to it is taken. -/
theorem Table.freeFrom_spec (t : Table α) (n : Nat) (h : t.Pairwise fun a b => a.1 < b.1) (hn : ∀ kv ∈ t, n ≤ kv.1) :
    n ≤ Table.freeFrom n t ∧ t.find (Table.freeFrom n t) = none
      ∧ ∀ j, n ≤ j → j < Table.freeFrom n t → (t.find j).isSome = true := by
  induction t generalizing n with
  | nil => exact ⟨Nat.le_refl n, rfl, fun j h1 h2 => absurd h2 (by simp [Table.freeFrom]; omega)⟩
  | cons kv t ih =>
    obtain ⟨k, v⟩ := kv
    rw [List.pairwise_cons] at h
    simp only [Table.freeFrom]
    split
    · subst k
      have hb : ∀ kv ∈ t, n + 1 ≤ kv.1 := fun kv hm => h.1 kv hm
      obtain ⟨h1, h2, h3⟩ := ih (n + 1) h.2 hb
      refine ⟨by omega, ?_, fun j hj hlt => ?_⟩
      · simp only [Table.find]; rw [if_neg (by omega)]; exact h2
      · simp only [Table.find]
        split
        · rfl
        · exact h3 j (by omega) hlt
    · have hk : n ≤ k := hn (k, v) (by simp)
      refine ⟨Nat.le_refl n, ?_, fun j h1 h2 => absurd h2 (by omega)⟩
      simp only [Table.find]
      rw [if_neg (by omega)]
      exact Table.find_below t n fun kv hm => Nat.lt_trans (by omega : n < k) (h.1 kv hm)

/-- The lowest free slot of a table in canonical form: below the capacity, free, and every slot below it is taken. -/
theorem Table.lowestFree_spec (t : Table α) (c n : Nat) (h : t.wf c) (hf : t.lowestFree c = some n) :
    n < c ∧ t.find n = none ∧ ∀ j, j < n → (t.find j).isSome = true := by
  obtain ⟨-, h2, h3⟩ := t.freeFrom_spec 0 h.1 (fun kv _ => Nat.zero_le kv.1)
  simp only [Table.lowestFree] at hf
  split at hf
  · obtain rfl := Option.some.inj hf
    exact ⟨‹_›, h2, fun j => h3 j (Nat.zero_le j)⟩
  · contradiction

/-- The reset state's tables are in canonical form. -/
theorem State.reset_tables_wf :
    State.reset.labels.wf Config.labelCapacity ∧ State.reset.items.wf Config.itemCapacity ∧ State.reset.templates.wf 32 := by
  decide

end Sys2Proof.Machine
end

