-- ==== Sys2Proof/Laws/Ops.lean ====
section
/-! SUPPORT. What each shared operation does, said once. -/

namespace Sys2Proof.Machine

/-! ## Parts by index -/

/-- Reading a zone record after a zone write. -/
@[simp] theorem State.setZone_zone (z w : ZoneNo) (x : Zone) (s : State) :
    (s.setZone z x).zone w = if w = z then x else s.zone w := by
  simp only [State.zone, State.setZone, State.setZones_zones, Vector.getElem_set]
  by_cases h : w = z
  · simp [h]
  · rw [if_neg h, if_neg fun e => h (Fin.ext e.symm)]

/-- Reading a queue after a queue write. -/
@[simp] theorem State.setQueue_queue (z w : ZoneNo) (q : List Nat) (s : State) :
    (s.setQueue z q).queue w = if w = z then q else s.queue w := by
  simp only [State.queue, State.setQueue, State.setQueues_queues, Vector.getElem_set]
  by_cases h : w = z
  · simp [h]
  · rw [if_neg h, if_neg fun e => h (Fin.ext e.symm)]

/-! ## Frames -/

/-- Two states that agree on everything but the label records, the queues, the zone table and the items. -/
structure State.SameBesideLabels (s t : State) : Prop where
  inReset : t.inReset = s.inReset
  gateway : t.gateway = s.gateway
  service : t.service = s.service
  templates : t.templates = s.templates
  epoch : t.epoch = s.epoch
  radio : t.radio = s.radio
  air : t.air = s.air
  pointers : t.pointers = s.pointers
  entries : t.entries = s.entries
  holdSet : t.holdSet = s.holdSet
  holdsDue : t.holdsDue = s.holdsDue
  notices : t.notices = s.notices
  pending : t.pending = s.pending

theorem State.SameBesideLabels.refl (s : State) : s.SameBesideLabels s := by constructor <;> rfl

theorem State.SameBesideLabels.trans {s t u : State} (h : s.SameBesideLabels t) (k : t.SameBesideLabels u) :
    s.SameBesideLabels u := by
  constructor
  · exact k.inReset.trans h.inReset
  · exact k.gateway.trans h.gateway
  · exact k.service.trans h.service
  · exact k.templates.trans h.templates
  · exact k.epoch.trans h.epoch
  · exact k.radio.trans h.radio
  · exact k.air.trans h.air
  · exact k.pointers.trans h.pointers
  · exact k.entries.trans h.entries
  · exact k.holdSet.trans h.holdSet
  · exact k.holdsDue.trans h.holdsDue
  · exact k.notices.trans h.notices
  · exact k.pending.trans h.pending

theorem State.setQueue_same (z : ZoneNo) (q : List Nat) (s : State) : s.SameBesideLabels (s.setQueue z q) := by
  constructor <;> rfl

theorem State.setZone_same (z : ZoneNo) (x : Zone) (s : State) : s.SameBesideLabels (s.setZone z x) := by constructor <;> rfl

theorem State.setLabels_same (x : Table Label) (s : State) : s.SameBesideLabels (s.setLabels x) := by constructor <;> rfl

theorem State.setItems_same (x : Table Item) (s : State) : s.SameBesideLabels (s.setItems x) := by constructor <;> rfl

theorem State.requeue_same (k : Nat) (old new : Option Label) (s : State) : s.SameBesideLabels (s.requeue k old new) := by
  simp only [State.requeue]
  split
  · split
    · exact .refl s
    · exact (State.setQueue_same _ _ _).trans (State.setQueue_same _ _ _)
  · exact State.setQueue_same _ _ _
  · exact State.setQueue_same _ _ _
  · exact .refl s

theorem State.countRecord_same (f : Delivery → Counts → Counts) (l : Option Label) (s : State) :
    s.SameBesideLabels (s.countRecord f l) := by
  cases l with
  | none => exact .refl s
  | some l => exact State.setZone_same _ _ _

theorem State.countBinding_same (f : Nat → Nat) (l : Option Label) (s : State) :
    s.SameBesideLabels (s.countBinding f l) := by
  simp only [State.countBinding]
  split
  · exact .refl s
  · split
    · exact .refl s
    · exact State.setItems_same _ _

/-- Writing a label record leaves everything but labels, queues, zones and items as it was. -/
theorem State.writeLabel_same (k : Nat) (new : Option Label) (s : State) : s.SameBesideLabels (s.writeLabel k new) := by
  simp only [State.writeLabel]
  split
  · exact .refl s
  · exact (State.requeue_same _ _ _ _).trans <| (State.countRecord_same _ _ _).trans <| (State.countRecord_same _ _ _).trans <|
      (State.countBinding_same _ _ _).trans <| (State.countBinding_same _ _ _).trans <| State.setLabels_same _ _

/-- Rewriting label records leaves everything but labels, queues, zones and items as it was. -/
theorem State.updateLabels_same (test : Nat → Label → Bool) (change : Nat → Label → Label) (s : State) :
    s.SameBesideLabels (s.updateLabels test change) := by
  simp only [State.updateLabels]
  generalize (s.labels.filter fun kv => test kv.1 kv.2) = work
  induction work generalizing s with
  | nil => exact .refl s
  | cons kv work ih => exact (State.writeLabel_same _ _ s).trans (ih _)

/-! ## Writing a label record (R6, R7, R33) -/

/-- Writing the record a slot already holds changes nothing. -/
theorem State.writeLabel_self (k : Nat) (s : State) : s.writeLabel k (s.label k) = s := by simp [State.writeLabel]

theorem State.requeue_labels (k : Nat) (old new : Option Label) (s : State) : (s.requeue k old new).labels = s.labels := by
  simp only [State.requeue]
  split
  · split <;> rfl
  · rfl
  · rfl
  · rfl

theorem State.countRecord_labels (f : Delivery → Counts → Counts) (l : Option Label) (s : State) :
    (s.countRecord f l).labels = s.labels := by
  cases l <;> rfl

theorem State.countBinding_labels (f : Nat → Nat) (l : Option Label) (s : State) : (s.countBinding f l).labels = s.labels := by
  simp only [State.countBinding]
  split
  · rfl
  · split <;> rfl

/-- Reading a directory slot after a record is written. -/
theorem State.writeLabel_label (k j : Nat) (new : Option Label) (s : State)
    (h : s.labels.Pairwise fun a b => a.1 < b.1) :
    (s.writeLabel k new).label j = if j = k then new else s.label j := by
  simp only [State.writeLabel]
  split
  · split
    · subst j; assumption
    · rfl
  · exact Table.find_write s.labels k j new h

/-- The label records after a record is written, in every case the table's own write. -/
theorem State.writeLabel_find (k j : Nat) (l : Label) (s : State) :
    (s.writeLabel k (some l)).label j = if j = k then some l else s.label j := by
  simp only [State.writeLabel]
  split
  · split
    · subst j; assumption
    · rfl
  · exact Table.find_put s.labels k j l

/-- Writing a record keeps the directory in canonical form. -/
theorem State.writeLabel_wf (k c : Nat) (new : Option Label) (s : State) (h : s.labels.wf c) (hk : k < c) :
    (s.writeLabel k new).labels.wf c := by
  simp only [State.writeLabel]
  split
  · exact h
  · exact Table.write_wf s.labels k c new h hk

/-! ## Notices and the staged-outstanding count (R80, R81, R187) -/

/-- A raise touches the pending set alone (R187). -/
theorem State.raise_eq (x : Source) (s : State) :
    s.raise x = { s with notices := { s.notices with pending := s.notices.pending.add x } } := rfl

/-- A report sets the count by the change of the two numbers of R80, and raises STAGING_COMPLETE at a fall to 0 outside STEADY. -/
theorem State.reportStaged_eq (s before : State) :
    s.reportStaged before =
      if s.epoch.outstanding + s.owed - before.owed = 0 ∧ 0 < s.epoch.outstanding ∧ s.epochOpen = true then
        (s.setEpoch { s.epoch with outstanding := s.epoch.outstanding + s.owed - before.owed }).raise .stagingComplete
      else s.setEpoch { s.epoch with outstanding := s.epoch.outstanding + s.owed - before.owed } := rfl

/-! ## A request taken (R172, R174, R184) -/

/-- During a reset nothing is taken. -/
theorem State.gatewayTake_reset (tag : Byte) (r : Request) (block : State → Served) (s : State) (h : s.inReset = true) :
    s.gatewayTake tag r block = s := by simp [State.gatewayTake, h]

/-- Outside a reset the owning block takes the request and its response is held. -/
theorem State.gatewayTake_eq (tag : Byte) (r : Request) (block : State → Served) (s : State) (h : s.inReset = false) :
    s.gatewayTake tag r block = (block (s.collect (r.frame tag))).held tag := by simp [State.gatewayTake, h]

/-- A refusal changes nothing but the Gateway Port. -/
theorem State.refuse_held (tag : Byte) (r : Request) (result : Result) (s : State) :
    ((s.collect (r.frame tag)).refuse result).held tag = s.answer tag r result [] := rfl

/-- An acceptance that leaves the state as collected changes nothing but the Gateway Port. -/
theorem State.accept_held (tag : Byte) (r : Request) (body : List Byte) (s : State) :
    ((s.collect (r.frame tag)).accept body).held tag = s.answer tag r .ok body := rfl

/-! ## Holds (R163) -/

/-- The end of a hold: the zone's state and hold start, its place in the set, one HOLD_ENDED; nothing else. -/
theorem State.endHold_eq (z : ZoneNo) (s : State) :
    s.endHold z = { s with
      zones := s.zones.set z.val { s.zone z with hold := .none, holdStart := none, holdFrames := 0 },
      holdSet := s.holdSet.erase z, holdsDue := s.holdsDue.erase z,
      notices := { s.notices with pending := s.notices.pending.add .holdEnded } } := rfl

/-! ## Marking a label (R4, R41) -/

/-- What a mark notes of the change. -/
@[simp] theorem Label.mark_changed (shown staged : Bool) (l : Label) :
    (l.mark shown staged).changed = (l.changed || shown || staged) := by
  cases h : l.state <;> simp [Label.mark, Label.owe, Label.revive, Label.followNeeds, h] <;> split <;> rfl

/-- The flags a mark leaves. -/
@[simp] theorem Label.mark_needs (shown staged : Bool) (l : Label) :
    (l.mark shown staged).needs = l.needs.union ⟨shown, staged, false, false⟩ := by
  cases h : l.state <;> simp [Label.mark, Label.owe, Label.revive, Label.followNeeds, h] <;> split <;> rfl

end Sys2Proof.Machine
end

