-- ==== Sys2Proof/Laws/Frames.lean ====
section
/-! SUPPORT. What settling a frame and passing through its windows do where nothing is due or the next window is named: the cases in
which a window command is one window and no more. -/

namespace Sys2Proof.Machine

/-! ## Frame-start work -/

/-- With no retry frame come, no label is retried. -/
theorem State.takeRetries_of_none (s : State)
    (h : ∀ kl ∈ s.labels, ¬(kl.2.state = .backoff ∧ kl.2.retryFrame = some s.radio.frame)) : s.takeRetries = s := by
  have none_due : (s.labels.filter fun kl => s.retryDue kl.2) = [] := by
    rw [List.filter_eq_nil_iff]
    intro kl member due
    simp only [State.retryDue, Bool.and_eq_true, beq_iff_eq] at due
    exact h kl member due
  simp [State.takeRetries, State.updateLabels, none_due]

/-- With nothing due and the beacons composed, settling the frame changes nothing. -/
theorem State.settleFrame_of_settled (s : State) (h : s.Settled) : s.settleFrame = s := by
  obtain ⟨beacon, expiry, holds, retries⟩ := h
  simp [State.settleFrame, State.takeRetries_of_none s retries, State.takeExpiry, expiry, State.takeDueHolds, holds,
    State.composeBeacons, beacon]

/-! ## Windows -/

/-- A lane whose data slots below a number have opened opens none of them. -/
theorem State.openUpTo_done (lane : Lane) (n : Nat) (s : State) (h : n ≤ s.air.windows[lane.val].opened) : s.openUpTo lane n = s := by
  simp [State.openUpTo, Nat.sub_eq_zero_of_le h, State.openSlots]

/-- A lane that comes to its next data slot opens it alone. -/
theorem State.openUpTo_next (lane : Lane) (slot : SlotNo) (s : State) (h : s.air.windows[lane.val].opened = slot.val) :
    s.openUpTo lane (slot.val + 1)
      = (s.setWindows lane { s.air.windows[lane.val] with opened := slot.val + 1 }).decideSlot lane slot := by
  have : slot.val + 1 - slot.val = 1 := by omega
  simp [State.openUpTo, h, this, State.openSlots, State.openSlot]

/-- The next data slot of a lane named in a settled frame is that one slot. -/
theorem execDataSlotOpening_next (lane : Lane) (slot : SlotNo) (s : State) (onAir : s.laneOnAir lane = true) (settled : s.Settled)
    (next : s.air.windows[lane.val].opened = slot.val) :
    execDataSlotOpening lane slot s
      = .next ((s.setWindows lane { s.air.windows[lane.val] with opened := slot.val + 1 }).decideSlot lane slot) := by
  simp [execDataSlotOpening, onAir, next, State.settleFrame_of_settled s settled, State.openUpTo_next lane slot s next]

/-- The close of an ack slot in a settled frame, all data slots of the lane opened, is that one close. -/
theorem execAckSlotClose_next (lane : Lane) (slot : SlotNo) (s : State) (onAir : s.laneOnAir lane = true) (settled : s.Settled)
    (opened : s.air.windows[lane.val].opened = 6) (still : slot ∉ s.air.windows[lane.val].closed) :
    execAckSlotClose lane slot s = .next (s.closeSlot lane slot) := by
  simp [execAckSlotClose, onAir, still, State.settleFrame_of_settled s settled, State.openUpTo_done lane 6 s (Nat.le_of_eq opened.symm)]

/-- An ACK taken in a settled frame, all data slots of the lane opened. -/
theorem execAckArrival_next (lane : Lane) (slot : SlotNo) (m : List Byte) (s : State) (onAir : s.laneOnAir lane = true)
    (settled : s.Settled) (opened : s.air.windows[lane.val].opened = 6) (still : slot ∉ s.air.windows[lane.val].closed)
    (first : ∀ j ∈ s.air.windows[lane.val].taken, j < slot) :
    execAckArrival lane slot m s = .next ((receiveAck m).elim s fun a => s.takeAck lane slot a) := by
  have earlier : (s.air.windows[lane.val].taken.all fun j => decide (j < slot)) = true := by simpa using first
  simp only [execAckArrival, onAir, earlier, State.settleFrame_of_settled s settled,
    State.openUpTo_done lane 6 s (Nat.le_of_eq opened.symm)]
  cases receiveAck m <;> simp [still]

/-- A frame with no window still to come is finished as it is. -/
theorem State.finishWindows_of_done (s : State) (h : s.WindowsDone) : s.finishWindows = s := by
  simp only [State.finishWindows]
  split
  · rename_i windows
    have active : ∀ w ∈ s.laneSlots, w.1.val < s.radio.config.lanes.count := by
      intro w member
      simp only [State.laneSlots, State.activeLanes, List.mem_flatMap, List.mem_map, List.mem_filter] at member
      obtain ⟨slot, -, lane, ⟨-, on⟩, rfl⟩ := member
      simpa [State.laneActive] using on
    have opens : ∀ work : List (Lane × SlotNo), (∀ w ∈ work, w.1.val < s.radio.config.lanes.count) →
        work.foldl (fun t w => t.openUpTo w.1 (w.2.val + 1)) s = s := by
      intro work
      induction work with
      | nil => intro _; rfl
      | cons w work ih =>
        intro on
        have opened := (h windows w.1 (on w List.mem_cons_self)).1
        rw [List.foldl_cons, State.openUpTo_done w.1 (w.2.val + 1) s (by rw [opened]; omega)]
        exact ih fun v member => on v (List.mem_cons_of_mem _ member)
    have closes : ∀ work : List (Lane × SlotNo), (∀ w ∈ work, w.1.val < s.radio.config.lanes.count) →
        work.foldl (fun t w => t.closeSlot w.1 w.2) s = s := by
      intro work
      induction work with
      | nil => intro _; rfl
      | cons w work ih =>
        intro on
        have closed := (h windows w.1 (on w List.mem_cons_self)).2 w.2
        rw [List.foldl_cons, show s.closeSlot w.1 w.2 = s by simp [State.closeSlot, closed]]
        exact ih fun v member => on v (List.mem_cons_of_mem _ member)
    simp only [opens s.laneSlots active, closes s.laneSlots active]
  · rfl

end Sys2Proof.Machine
end

