-- ==== Sys2Proof/Laws/Records.lean ====
section
/-! SUPPORT. What a change of label records carries with it: the counts of its zone (R7). -/

namespace Sys2Proof.Machine

/-! ## Counting in tables -/

/-- One when a present record meets a test. -/
def countOpt {α : Type} (p : Nat × α → Bool) (n : Nat) : Option α → Nat
  | some x => if p (n, x) then 1 else 0
  | none => 0

/-- Counting after a write: the new record counts in, the old one out. -/
theorem Table.countP_write {α : Type} (p : Nat × α → Bool) (t : Table α) (n : Nat) (new : Option α)
    (h : t.Pairwise fun a b => a.1 < b.1) :
    (t.write n new).countP p + countOpt p n (t.find n) = t.countP p + countOpt p n new := by
  induction t with
  | nil => cases new <;> simp [Table.write, Table.put, Table.erase, Table.find, countOpt, List.countP_cons]
  | cons kv t ih =>
    obtain ⟨k, v⟩ := kv
    rw [List.pairwise_cons] at h
    have ih := ih h.2
    by_cases e : n = k
    · subst e
      cases new <;> simp [Table.write, Table.put, Table.erase, Table.find, countOpt, List.countP_cons]; omega
    · by_cases below : n < k
      · have absent : Table.find t n = none := Table.find_below t n fun kv m => Nat.lt_trans below (h.1 kv m)
        cases new with
        | none =>
          simp only [Table.write, absent, countOpt] at ih
          simp only [Table.write, Table.erase, Table.find, if_neg e, List.countP_cons, absent, countOpt]
          omega
        | some x => simp [Table.write, Table.put, Table.find, e, below, List.countP_cons, absent, countOpt]
      · cases new with
        | none =>
          simp only [Table.write] at ih
          simp only [Table.write, Table.erase, Table.find, if_neg e, List.countP_cons]
          omega
        | some x =>
          simp only [Table.write] at ih
          simp only [Table.write, Table.put, Table.find, if_neg e, if_neg below, List.countP_cons]
          omega

/-- A mapping that does not see a change of a record does not see its write. -/
theorem Table.map_put {α β : Type} (g : Nat × α → β) (t : Table α) (n : Nat) (x y : α)
    (h : t.Pairwise fun a b => a.1 < b.1) (found : t.find n = some y) (same : g (n, x) = g (n, y)) :
    (t.put n x).map g = t.map g := by
  induction t with
  | nil => simp [Table.find] at found
  | cons kv t ih =>
    obtain ⟨k, v⟩ := kv
    rw [List.pairwise_cons] at h
    by_cases e : n = k
    · subst e
      simp [Table.find] at found
      subst found
      simp [Table.put, same]
    · simp only [Table.find, if_neg e] at found
      have member := (Table.mem_iff_find t h.2 n y).mpr found
      have := h.1 _ member
      simp only [Table.put, if_neg e, if_neg (show ¬n < k by omega), List.map_cons, ih h.2 found]

/-- Two strictly rising lists of slots with the same members are the same list. -/
theorem eq_of_rising {l m : List Nat} (hl : l.Pairwise (· < ·)) (hm : m.Pairwise (· < ·)) (h : ∀ k, k ∈ l ↔ k ∈ m) : l = m := by
  have nl : l.Nodup := hl.imp fun h => Nat.ne_of_lt h
  have nm : m.Nodup := hm.imp fun h => Nat.ne_of_lt h
  exact ((List.perm_ext_iff_of_nodup nl nm).mpr h).eq_of_pairwise (fun a b _ _ h k => absurd (Nat.lt_trans h k) (Nat.lt_irrefl a)) hl hm

/-! ## Zone counts (R7) -/

/-- The count of a delivery state. -/
def Counts.at (c : Counts) : Delivery → Nat
  | .current => c.current
  | .queued => c.queued
  | .backoff => c.backoff
  | .inFlight => c.inFlight
  | .failed => c.failed

theorem Counts.add_at (c : Counts) (d e : Delivery) : (c.add d).at e = c.at e + if e = d then 1 else 0 := by
  cases d <;> cases e <;> rfl

theorem Counts.sub_at (c : Counts) (d e : Delivery) : (c.sub d).at e = c.at e - if e = d then 1 else 0 := by
  cases d <;> cases e <;> rfl

theorem Counts.add_members (c : Counts) (d : Delivery) : (c.add d).members = c.members + 1 := by cases d <;> rfl

theorem Counts.sub_members (c : Counts) (d : Delivery) : (c.sub d).members = c.members - 1 := by cases d <;> rfl

/-- The law of R7 for one zone, by delivery state. -/
theorem State.countsLaw_iff (s : State) : s.CountsLaw ↔ ∀ z : ZoneNo, (∀ d, (s.zone z).counts.at d = s.tally z d)
    ∧ (s.zone z).counts.members = s.tally z .current + s.tally z .queued + s.tally z .backoff + s.tally z .inFlight + s.tally z .failed := by
  refine forall_congr' fun z => ⟨fun h => ⟨fun d => by cases d <;> simp only [Counts.at] <;> tauto, by omega⟩, fun h => ?_⟩
  have current : (s.zone z).counts.current = s.tally z .current := h.1 .current
  have queued : (s.zone z).counts.queued = s.tally z .queued := h.1 .queued
  have backoff : (s.zone z).counts.backoff = s.tally z .backoff := h.1 .backoff
  have inFlight : (s.zone z).counts.inFlight = s.tally z .inFlight := h.1 .inFlight
  have failed : (s.zone z).counts.failed = s.tally z .failed := h.1 .failed
  have members := h.2
  exact ⟨current, queued, backoff, inFlight, failed, by omega⟩

/-- A zone record after a label record is counted in or out. -/
theorem State.countRecord_zone (f : Delivery → Counts → Counts) (l : Option Label) (s : State) (z : ZoneNo) :
    (s.countRecord f l).zone z = { s.zone z with
      counts := match l with
        | none => (s.zone z).counts
        | some l => if l.adminZone = z then f l.state (s.zone z).counts else (s.zone z).counts } := by
  cases l with
  | none => rfl
  | some l =>
    simp only [State.countRecord, State.setZone_zone]
    by_cases h : z = l.adminZone
    · subst h; simp
    · rw [if_neg h, if_neg fun e => h (Eq.symm e)]

theorem State.requeue_zones (k : Nat) (old new : Option Label) (s : State) : (s.requeue k old new).zones = s.zones := by
  simp only [State.requeue]
  split
  · split <;> rfl
  · rfl
  · rfl
  · rfl

theorem State.countBinding_zones (f : Nat → Nat) (l : Option Label) (s : State) : (s.countBinding f l).zones = s.zones := by
  simp only [State.countBinding]
  split
  · rfl
  · split <;> rfl

theorem State.zone_congr {s t : State} (h : t.zones = s.zones) (z : ZoneNo) : t.zone z = s.zone z := by simp [State.zone, h]

/-- A zone record after a label record is written: the old record counted out, the new one in. -/
theorem State.writeLabel_zone (k : Nat) (new : Option Label) (s : State) (z : ZoneNo) (differ : s.label k ≠ new) :
    (s.writeLabel k new).zone z = ((s.countRecord Counts.sub (s.label k)).countRecord Counts.add new).zone z := by
  simp only [State.writeLabel, if_neg differ]
  refine (State.zone_congr (t := State.setLabels _ _) (s := State.countRecord Counts.add new
    (State.countRecord Counts.sub (s.label k) (s.requeue k (s.label k) new))) ?_ z).trans ?_
  · simp only [State.setLabels_zones, State.countBinding_zones]
  · simp only [State.countRecord_zone, State.zone_congr (State.requeue_zones k (s.label k) new s)]

/-- Writing a label record moves no part of a zone record but its counts. -/
theorem State.writeLabel_zone_counts (k : Nat) (new : Option Label) (s : State) (z : ZoneNo) :
    (s.writeLabel k new).zone z = { s.zone z with counts := ((s.writeLabel k new).zone z).counts } := by
  by_cases h : s.label k = new
  · simp [State.writeLabel, h]
  · rw [State.writeLabel_zone k new s z h, State.countRecord_zone, State.countRecord_zone]

/-- The tally of a zone after a label record is written. -/
theorem State.writeLabel_tally (k : Nat) (new : Option Label) (s : State) (z : ZoneNo) (d : Delivery)
    (h : s.labels.Pairwise fun a b => a.1 < b.1) :
    (s.writeLabel k new).tally z d + countOpt (fun kl => kl.2.adminZone == z && kl.2.state == d) k (s.label k)
      = s.tally z d + countOpt (fun kl => kl.2.adminZone == z && kl.2.state == d) k new := by
  by_cases e : s.label k = new
  · simp [State.writeLabel, e]
  · simp only [State.writeLabel, if_neg e]
    exact Table.countP_write _ s.labels k new h

/-- What one record weighs in the tally of a zone. -/
def weight (z : ZoneNo) (d : Delivery) : Option Label → Nat
  | some l => if l.adminZone = z then (if d = l.state then 1 else 0) else 0
  | none => 0

/-- What one record weighs in the members of a zone. -/
def weights (z : ZoneNo) : Option Label → Nat
  | some l => if l.adminZone = z then 1 else 0
  | none => 0

theorem weights_eq (z : ZoneNo) (o : Option Label) :
    weights z o = weight z .current o + weight z .queued o + weight z .backoff o + weight z .inFlight o + weight z .failed o := by
  cases o with
  | none => rfl
  | some l => cases hd : l.state <;> by_cases h : l.adminZone = z <;> simp [weights, weight, h, hd]

theorem countOpt_weight (z : ZoneNo) (d : Delivery) (k : Nat) (o : Option Label) :
    countOpt (fun kl : Nat × Label => kl.2.adminZone == z && kl.2.state == d) k o = weight z d o := by
  cases o with
  | none => rfl
  | some l =>
    by_cases h : l.adminZone = z
    · by_cases e : d = l.state
      · simp [countOpt, weight, h, e]
      · have : ¬l.state = d := fun x => e x.symm
        simp [countOpt, weight, h, e, this]
    · simp [countOpt, weight, h]

/-- A present record is in its zone's tally. -/
theorem State.weight_le_tally (s : State) (k : Nat) (z : ZoneNo) (d : Delivery) (h : s.labels.Pairwise fun a b => a.1 < b.1) :
    weight z d (s.label k) ≤ s.tally z d := by
  cases old : s.label k with
  | none => exact Nat.zero_le _
  | some l =>
    have member := (Table.mem_iff_find s.labels h k l).mpr old
    simp only [weight]
    split
    · split
      · rename_i hz hd
        exact List.countP_pos_iff.mpr ⟨_, member, by simp [hz, hd]⟩
      · exact Nat.zero_le _
    · exact Nat.zero_le _

theorem State.countRecord_add (l : Option Label) (s : State) (z : ZoneNo) :
    (∀ d, ((s.countRecord Counts.add l).zone z).counts.at d = (s.zone z).counts.at d + weight z d l)
    ∧ ((s.countRecord Counts.add l).zone z).counts.members = (s.zone z).counts.members + weights z l := by
  rw [State.countRecord_zone]
  cases l with
  | none => exact ⟨fun _ => rfl, rfl⟩
  | some l => by_cases h : l.adminZone = z <;> simp [weight, weights, h, Counts.add_at, Counts.add_members]

theorem State.countRecord_sub (l : Option Label) (s : State) (z : ZoneNo) :
    (∀ d, ((s.countRecord Counts.sub l).zone z).counts.at d = (s.zone z).counts.at d - weight z d l)
    ∧ ((s.countRecord Counts.sub l).zone z).counts.members = (s.zone z).counts.members - weights z l := by
  rw [State.countRecord_zone]
  cases l with
  | none => exact ⟨fun _ => rfl, rfl⟩
  | some l => by_cases h : l.adminZone = z <;> simp [weight, weights, h, Counts.sub_at, Counts.sub_members]

/-- Writing a label record keeps the zone counts right (R7). -/
theorem State.writeLabel_counts (k : Nat) (new : Option Label) (s : State) (h : s.labels.Pairwise fun a b => a.1 < b.1)
    (law : s.CountsLaw) : (s.writeLabel k new).CountsLaw := by
  by_cases e : s.label k = new
  · simpa [State.writeLabel, e] using law
  rw [State.countsLaw_iff] at law ⊢
  intro z
  obtain ⟨each, sum⟩ := law z
  have tally := fun d => State.writeLabel_tally k new s z d h
  have enough := fun d => State.weight_le_tally s k z d h
  have less := State.countRecord_sub (s.label k) s z
  have more := State.countRecord_add new (s.countRecord Counts.sub (s.label k)) z
  simp only [countOpt_weight] at tally
  rw [State.writeLabel_zone k new s z e]
  have at_ : ∀ d, ((s.countRecord Counts.sub (s.label k)).countRecord Counts.add new |>.zone z).counts.at d
      = (s.writeLabel k new).tally z d := by
    intro d
    rw [more.1, less.1, each]
    have := tally d
    have := enough d
    omega
  refine ⟨at_, ?_⟩
  rw [more.2, less.2, sum, weights_eq, weights_eq]
  have := tally .current; have := tally .queued; have := tally .backoff; have := tally .inFlight; have := tally .failed
  have := enough .current; have := enough .queued; have := enough .backoff; have := enough .inFlight; have := enough .failed
  omega

end Sys2Proof.Machine
end

