-- ==== Sys2Proof/Tests/Slice0.lean ====
section
/-! SUPPORT. Tests: ill-formed commands that the well-formedness check refuses, one small step for each command with its result taken from the
manual, and for each statement with premises a witness that meets them. -/

open Sys2Proof Sys2Proof.Machine

namespace Sys2Proof.Tests

/-! ## What the tests share -/

/-- The state after a command. -/
def after (c : Instr) (s : State) : State :=
  match exec c s with
  | .next t => t
  | .fault _ => State.reset
  | .refused _ => State.reset

/-- The response a request leaves, without its tag. -/
def reply (c : Instr) (s : State) : Option (Result × List Byte) := (after c s).gateway.held.map fun r => (r.result, r.body)

/-- A page of one price. -/
def layout : Template := ⟨8, 1, [⟨.price, 0, 6, 3⟩]⟩

/-- The same template as a TEMPLATE_LOAD writes it. -/
def layoutWords (id : Byte) : TemplateWords := ⟨id, 8, 1, [⟨0, 0, 6, 3⟩]⟩

/-- A plain price, stored and written. -/
def money (n : Nat) : PriceSet := ⟨n, none, false, none, .one, .piece⟩

/-- A plain price as a request writes it. -/
def words (n : BitVec 32) : PriceWords := ⟨n, none, false, 0, 1, 0⟩

/-- Zone 0, lane 0, listening in every frame. -/
def home : Settings := ⟨0, 0, 0, 0⟩

/-- A label at home. -/
def label (a : Address) (d : Delivery) (n : Needs) (binding : Option Nat) : Label :=
  { address := a, confirmed := home, requested := none, template := 0, binding := binding, needs := n, state := d, attempts := 0,
    retryFrame := none, shownCheck := none, stagedPage := none, battery := none, lastHeard := none, lowBattery := false,
    overflow := false, mismatch := false, serviceTouched := false, changed := false }

/-- SHOWN alone. -/
def owesShown : Needs := ⟨true, false, false, false⟩

/-- A state with given labels, all at home, its counts and the queue of zone 0 as the labels make them. -/
def world (labels : Table Label) (s : State) : State :=
  let tally := fun d => labels.countP fun (kl : Nat × Label) => kl.2.state == d
  { s with
    labels := labels
    templates := [(0, layout), (31, layout)]
    items := s.items.map fun kx => (kx.1, { kx.2 with bound := labels.countP fun (kl : Nat × Label) => kl.2.binding == some kx.1 })
    queues := s.queues.set 0 ((labels.filter fun kl => kl.2.state == .queued || kl.2.state == .backoff).map Prod.fst)
    zones := s.zones.set 0 { s.zone 0 with
      counts := ⟨labels.length, tally .current, tally .queued, tally .backoff, tally .inFlight, tally .failed⟩ }
    epoch := { s.epoch with
      outstanding := labels.countP (fun kl => kl.2.needs.staged) + s.entries.countP Entry.liveStaged } }

/-- STEADY and STOPPED: label 1 CURRENT on item 1, label 2 QUEUED, label 3 FAILED. -/
def shop : State :=
  world [(0, label 1 .current .none (some 0)), (1, label 2 .queued owesShown none), (2, { label 3 .failed owesShown (some 0) with attempts := 6 })]
    { State.reset with items := [(0, ⟨1, money 100, none, 0⟩), (1, ⟨2, money 200, none, 0⟩)] }

/-- The eight holds of a night, begun in frame 3; zone 1 has a budget of 1 left, zone 2 an idle count of 19. -/
def heldZone (z : ZoneNo) : Zone :=
  { Zone.reset with hold := .held, budget := if z = 1 then 1 else 5, idle := if z = 2 then 19 else 0, holdStart := some 3,
                    holdFrames := 6 }

/-- A staged PAGE and a QUERY, both answered in this frame. -/
def stagedEntry : Entry := ⟨0, 0, 0, 8, 0, 1, .page (.staged .live) 1 7, ⟨false, true, false, false⟩, home⟩

/-- The QUERY in flight. -/
def queryEntry : Entry := ⟨0, 0, 1, 8, 3, 4, .query, ⟨false, false, true, false⟩, home⟩

/-- RUNNING and ARMED in frame 8, the cutover one frame away: labels 1 and 4 IN_FLIGHT, label 2 QUEUED, label 3 in BACKOFF until frame
9, label 5 with a confirmed staged page; eight zones HELD. -/
def night : State :=
  world [(0, label 1 .inFlight .none (some 0)), (1, label 2 .queued owesShown none),
      (2, { label 3 .backoff owesShown none with attempts := 1, retryFrame := some 9 }), (3, label 4 .inFlight .none none),
      (4, { label 5 .current .none (some 0) with stagedPage := some ⟨1, 7⟩ })]
    { State.reset with
      items := [(0, ⟨1, money 100, some (money 90), 0⟩), (1, ⟨2, money 200, none, 0⟩)]
      radio := { Radio.reset with state := .running, frame := 8 }
      epoch := { EpochRecord.reset with state := .armed, lastIssued := 1, pending := some 1, countdown := 1 }
      entries := [stagedEntry, queryEntry]
      air := { Air.silent with windowsOpen := true }
      zones := Vector.ofFn fun z => if 1 ≤ z.val ∧ z.val ≤ 8 then heldZone z else Zone.reset
      holdSet := [1, 2, 3, 4, 5, 6, 7, 8] }

theorem shop_laws : shop.Laws :=
  ⟨by decide, by decide, by decide, by decide, by decide, by decide, by decide, by decide, by decide, by decide, by decide,
    by decide⟩

theorem night_laws : night.Laws :=
  ⟨by decide, by decide, by decide, by decide, by decide, by decide, by decide, by decide, by decide, by decide, by decide,
    by decide⟩

/-- The night once all data slots of lane 0 have opened. -/
def answering : State := { night with air := { night.air with windows := night.air.windows.set 0 ⟨6, [], []⟩ } }

/-- The two messages, sent one frame later. -/
def laterEntries : List Entry := [{ stagedEntry with grantFrame := 1, expected := 9 }, { queryEntry with grantFrame := 1, expected := 9 }]

/-- The night at the end of frame 8, no window still to come. -/
def spent : State :=
  { night with entries := laterEntries,
               air := { night.air with windows := night.air.windows.set 0 ⟨6, [], [0, 1, 2, 3, 4, 5]⟩ } }

/-- The same two frames before the cutover. -/
def early : State := { spent with epoch := { spent.epoch with countdown := 2 } }

/-- The night at frame 9 with its frame-start work left due and its beacons still to be composed. -/
def due : State :=
  { night with radio := { night.radio with frame := 9 }, epoch := { night.epoch with expiryDue := true }, entries := laterEntries,
               air := { night.air with beaconDue := true }, holdsDue := [1, 2],
               zones := Vector.ofFn fun z => if 1 ≤ z.val ∧ z.val ≤ 8 then { heldZone z with holdFrames := 7 } else night.zone z }

/-- The night with zone 1 alone HELD. -/
def roomy : State :=
  { night with zones := Vector.ofFn fun z => if z = 1 then heldZone 1 else if z = 0 then night.zone 0 else Zone.reset, holdSet := [1] }

/-- The night with label 2 already served in this frame. -/
def served : State := { night with air := { night.air with confirmedNow := [1] } }

/-- Four lanes, the 16 entries of lane 0 all taken. -/
def crowded : State :=
  world ((List.range 16).map fun i => (i, label (BitVec.ofNat 24 (i + 1)) .inFlight .none none))
    { State.reset with
      radio := { Radio.reset with state := .running, frame := 8, config := { Radio.reset.config with lanes := .four, channels := #v[0, 1, 2, 3] } }
      entries := (List.range 16).map fun i =>
        ⟨0, 7 - BitVec.ofNat 24 (i / 6), Fin.ofNat 6 i, 15 - BitVec.ofNat 24 (i / 6), i, BitVec.ofNat 24 (i + 1), .query, .none, home⟩
      air := { Air.silent with windowsOpen := true } }

/-- Item k + 1 in slot k, at a price of 0. -/
def slotItem (k : Nat) : Nat × Item := (k, ⟨k + 1, money 0, none, 0⟩)

/-- Every item slot in use. -/
def stocked : State := { State.reset with items := (List.range 16384).map slotItem }

theorem answering_laws : answering.Laws := { night_laws with radio := by decide, air := by decide }

theorem spent_laws : spent.Laws :=
  { night_laws with radio := by decide, delivery := by decide, air := by decide, staged := by decide, layout := by decide }

theorem early_laws : early.Laws := { spent_laws with epoch := by decide, staged := by decide }

theorem due_laws : due.Laws :=
  { spent_laws with epoch := by decide, radio := by decide, hold := by decide, guard := by decide, counts := by decide,
                    delivery := by decide, air := by decide, staged := by decide }

theorem roomy_laws : roomy.Laws :=
  { night_laws with hold := by decide, guard := by decide, counts := by decide }

theorem served_laws : served.Laws := { night_laws with radio := by decide, air := by decide }

theorem crowded_laws : crowded.Laws :=
  ⟨by decide, by decide, by decide, by decide, by decide, by decide, by decide, by decide, by decide, by decide, by decide,
    by decide⟩

theorem find_slotItems (n j i : Nat) (low : j ≤ i) (high : i < j + n) :
    Table.find ((List.range' j n).map slotItem) i = some (slotItem i).2 := by
  induction n generalizing j with
  | zero => omega
  | succ n ih =>
    simp only [List.range'_succ, List.map_cons, slotItem, Table.find]
    by_cases h : i = j
    · simp [h]
    · rw [if_neg h]
      exact ih (j + 1) (by omega) (by omega)

theorem stocked_laws : stocked.Laws where
  tables := by
    refine ⟨by decide, ⟨?_, ?_⟩, by decide, by decide, by decide, ?_, ?_⟩
    · simp [stocked, slotItem, List.pairwise_map, List.pairwise_lt_range]
    · simp [stocked, slotItem, Config.itemCapacity]
    · simp [stocked, slotItem, List.nodup_iff_pairwise_ne, List.pairwise_map]
      exact List.pairwise_lt_range.imp (fun h => by omega)
    · simp [stocked, slotItem]; omega
  epoch := by decide
  radio := by decide
  hold := by decide
  guard := by decide
  counts := by decide
  queue := by decide
  bound := by
    refine ⟨fun kx member => ?_, by decide⟩
    simp only [stocked, List.mem_map] at member
    obtain ⟨k, _, rfl⟩ := member
    rfl
  delivery := by decide
  air := by decide
  staged := by refine ⟨by decide, by decide, fun _ => ⟨?_, ?_, ?_⟩, by decide, by decide⟩ <;> simp [stocked, slotItem, State.reset]
  layout := by decide

theorem stocked_full : ∀ j, j < 16384 → (stocked.item j).isSome = true := by
  intro j h
  have found := find_slotItems 16384 0 j (Nat.zero_le j) (by omega)
  simp only [stocked, State.item, List.range_eq_range', found, Option.isSome_some]

/-! ## Ill-formed commands, one for each check of `Instr.wellFormed` -/

theorem test_load_of_50_fields_ill_formed :
    (Instr.templateLoad 1 ⟨0, 8, 1, List.replicate 50 ⟨0, 0, 6, 3⟩⟩).wellFormed = false
      ∧ (Instr.templateLoad 1 ⟨0, 8, 1, List.replicate 49 ⟨0, 0, 6, 3⟩⟩).wellFormed = true := by decide

theorem test_read_of_no_byte_ill_formed :
    (Instr.readResponse 0).wellFormed = false ∧ (Instr.readResponse 1).wellFormed = true := by decide

/-- A frame that passes the port's checks, a read and a transaction of no byte are no refused frames. -/
theorem test_frame_not_refused_ill_formed :
    (Instr.unknownKindFrame [0x52, 1, 0, 0]).wellFormed = false ∧ (Instr.unknownKindFrame [0x5A, 1]).wellFormed = false
      ∧ (Instr.unknownKindFrame []).wellFormed = false ∧ (Instr.unknownKindFrame [0x52, 1, 0]).wellFormed = true := by decide

theorem test_slot_beyond_directory_ill_formed :
    (Instr.backoffRetryDue 16384).wellFormed = false ∧ (Instr.backoffRetryDue 16383).wellFormed = true := by decide

/-- R201: a battery above 15, a wrong type and a wrong air check are not received. -/
theorem test_message_not_received_ill_formed :
    (Instr.ackArrival 0 0 (sealAir [4, 1, 0, 0, 0, 0, 0, 0, 0, 0, 0, 16])).wellFormed = false
      ∧ (Instr.ackArrival 0 0 (sealAir [3, 1, 0, 0, 0, 0, 0, 0, 0, 0, 0, 15])).wellFormed = false
      ∧ (Instr.ackArrival 0 0 [4, 1, 0, 0, 0, 0, 0, 0, 0, 0, 0, 15, 0, 0]).wellFormed = false
      ∧ (Instr.ackArrival 0 0 (sealAir [4, 1, 0, 0, 0, 0, 0, 0, 0, 0, 0, 15])).wellFormed = true := by decide +kernel

/-! ## One step for each command -/

/-- With no command waiting the block idles (assumption 2). -/
theorem test_idle : (match step shop with | .next t => t | _ => State.reset) = shop := by decide

/-- R67: the nine characters 1 to 9. -/
theorem test_crc_of_check_string :
    crc16 [0x31, 0x32, 0x33, 0x34, 0x35, 0x36, 0x37, 0x38, 0x39] = 0x29B1 := by decide +kernel

/-- R35: the replaced price marks the CURRENT bound label, which joins the tail of its queue; R9: the FAILED one is revived. -/
theorem test_item_put_marks_bound_labels :
    reply (.itemPut 9 1 (words 101)) shop = some (.ok, [0, 0, 0, 1])
      ∧ (after (.itemPut 9 1 (words 101)) shop).queue 0 = [1, 0, 2] := by decide

/-- R30: a basis of 5 is no basis. -/
theorem test_item_put_refuses_basis : reply (.itemPut 9 1 ⟨1, none, false, 0, 5, 0⟩) shop = some (.badValue, []) := by decide

/-- R36 and R80: both bound labels are marked STAGED beside the staged PAGE in flight. -/
theorem test_item_set_next_counts_three : (after (.itemSetNext 9 1 (words 91)) night).epoch.outstanding = 3 := by decide

/-- R41: a change of the item is noted on a label in flight, which stays IN_FLIGHT. -/
theorem test_change_in_flight_is_noted :
    ((after (.itemPut 9 1 (words 101)) night).label 0).map (fun l => (l.state, l.needs.shown, l.changed))
      = some (.inFlight, true, true) := by decide

theorem test_item_set_next_refused_when_steady : reply (.itemSetNext 9 1 (words 91)) shop = some (.wrongEpochState, []) := by decide

/-- R38: label 5 holds a confirmed staged page, so it is owed a staged page of the current set. -/
theorem test_item_clear_next_marks_holder :
    ((after (.itemClearNext 9 1) night).label 4).map (fun l => (l.state, l.needs.staged)) = some (.queued, true) := by decide

/-- R42, R198: slot, number, the 17 bytes of the current set, no next set, bound count. -/
theorem test_item_get_bytes :
    reply (.itemGet 9 2) shop = some (.ok, [1, 0, 2, 0, 0, 0] ++ [200, 0, 0, 0, 0, 0, 0, 0, 0, 0, 0, 0, 0, 0, 1, 0, 0]
      ++ List.replicate 18 0 ++ [0, 0]) := by decide

theorem test_item_retire :
    reply (.itemRetire 9 1) shop = some (.inUse, []) ∧ (after (.itemRetire 9 2) shop).item 1 = none := by decide

/-- R16: phase 9 at exponent 3 is phase 1. -/
theorem test_label_add_reduces_phase : reply (.labelAdd 9 ⟨9, 0, 0, 3, 9, 0, none⟩) shop = some (.ok, [3, 0, 1]) := by decide

theorem test_label_add_exists : reply (.labelAdd 9 ⟨1, 0, 0, 0, 0, 0, none⟩) shop = some (.exists, []) := by decide

/-- R18 and R33: unbinding a label lowers the item's bound count and marks the label. -/
theorem test_label_bind_unbinds :
    ((after (.labelBind 9 1 none) shop).item 0).map Item.bound = some 1 ∧ (after (.labelBind 9 1 none) shop).queue 0 = [1, 0] := by decide

/-- R19 and R6: a move to zone 8 moves the label to that zone's counts and queue. -/
theorem test_label_move_changes_zone :
    (after (.labelMove 9 2 ⟨some 8, none, none, none, none⟩) shop).queue 8 = [1]
      ∧ ((after (.labelMove 9 2 ⟨some 8, none, none, none, none⟩) shop).zone 8).counts = ⟨1, 0, 1, 0, 0, 0⟩ := by decide

/-- R22: SHOWN alone is owed, and the state code of QUEUED is 1. -/
theorem test_label_get_needs_and_state : (reply (.labelGet 9 2) shop).map (fun r => (r.2.drop 21).take 2) = some [1, 1] := by decide

theorem test_label_retire : (after (.labelRetire 9 1) night).entries = [queryEntry] := by decide

/-- R24: the FAILED label joins the tail of its queue. -/
theorem test_label_retry : (after (.labelRetry 9 3) shop).queue 0 = [1, 2] := by decide

theorem test_label_query : ((after (.labelQuery 9 1) shop).label 0).map Label.state = some .queued := by decide

/-- R26: an IN_FLIGHT label stays IN_FLIGHT. -/
theorem test_label_locate : ((after (.labelLocate 9 1) night).label 0).map Label.state = some .inFlight := by decide

/-- R27: the first FAILED label is in slot 2. -/
theorem test_label_scan : reply (.labelScan 9 0 0x10 0) shop = some (.ok, [2, 0, 3, 0, 0, 4]) := by decide

/-- The template of section 3.9. -/
def sheet : TemplateWords :=
  ⟨5, 16, 0x7FFF, [⟨0, 0, 6, 3⟩, ⟨2, 24, 6, 3⟩, ⟨1, 48, 6, 3⟩, ⟨3, 72, 2, 1⟩, ⟨5, 80, 0, 0⟩, ⟨4, 88, 8, 8⟩]⟩

theorem test_template_load_of_section_3_9 : reply (.templateLoad 9 sheet) shop = some (.ok, [1, 0, 0]) := by decide

/-- The promotion page of section 3.9. -/
theorem test_promotion_page_of_section_3_9 :
    ((after (.templateLoad 9 sheet) shop).templates.find 5).map
        (fun t => pageBytes t (some (40210057, ⟨349, some 499, true, some 250, .thousand, .mass⟩)))
      = some [0xFF, 0xF3, 0x49, 0xFF, 0x13, 0x96, 0xFF, 0xF4, 0x99, 0x30, 0xB4, 0x40, 0x21, 0x00, 0x57, 0xFF] := by decide

theorem test_template_get : reply (.templateGet 9 31) shop = some (.ok, [31, 8, 1, 0, 0, 0, 0, 0, 1, 0, 0, 0, 6, 3]) := by decide

/-- R119: a priority of 9 is stored as 7. R120: the reload loads the counter. -/
theorem test_zone_set : reply (.zoneSet 9 3 ⟨some 9, some 4, none⟩) shop = some (.ok, [7, 1, 4, 4, 0, 7]) := by decide

/-- R116: a QUEUED label with SHOWN set raises priority 4 to 5. -/
theorem test_zone_get_boosted : (reply (.zoneGet 9 0) shop).map (fun r => r.2.take 3) = some [0, 4, 5] := by decide

theorem test_zone_hold_full : reply (.zoneHold 9 0 5) night = some (.holdFull, []) := by decide

/-- R160: after the beacons of frame 8 the hold starts in frame 9, second in the set. -/
theorem test_zone_hold_begins : reply (.zoneHold 9 0 5) roomy = some (.ok, [1, 5, 0, 0, 1, 9, 0, 0, 2, 2]) := by decide

theorem test_zone_release : (after (.zoneRelease 9 1) night).notices.pending.holdEnded = true := by decide

theorem test_zone_retry : reply (.zoneRetry 9 0) shop = some (.ok, [1, 0]) := by decide

/-- R73: 32768 does not lie after 0, 32767 does. -/
theorem test_epoch_open_window :
    reply (.epochOpen 9 0x8000) shop = some (.epochNotAfter, []) ∧ reply (.epochOpen 9 0x7FFF) shop = some (.ok, [0xFF, 0x7F]) := by decide

/-- R76, R82, R83: the cutover at once commits 90 and presumes label 5's staged page shown. -/
theorem test_epoch_schedule_now :
    ((after (.epochSchedule 9 0) night).item 0).map Item.current = some (money 90)
      ∧ ((after (.epochSchedule 9 0) night).label 4).map Label.shownCheck = some (some 7) := by decide

/-- R88: the staged PAGE in flight is withdrawn; R87: the last issued epoch stays. -/
theorem test_epoch_abandon :
    (after (.epochAbandon 9) night).entries.map Entry.message = [.page (.staged .withdrawn) 1 7, .query]
      ∧ (after (.epochAbandon 9) night).epoch.lastIssued = 1 := by decide

theorem test_epoch_status :
    reply (.epochStatus 9) night = some (.ok, [2, 0, 0, 1, 0, 1, 1, 0, 1, 0, 0, 0, 1, 0, 8, 0, 0]) := by decide

/-- R92: timing values brought into range, and 3 lanes refused. -/
theorem test_radio_config :
    reply (.radioConfig 9 ⟨2, 1, 2, 3, 3, 0, 0, 16, 0⟩) shop = some (.ok, [2, 1, 2, 3, 3, 2, 1, 15, 1])
      ∧ reply (.radioConfig 9 ⟨3, 1, 2, 3, 4, 8, 8, 8, 8⟩) shop = some (.badValue, []) := by decide

theorem test_radio_start : reply (.radioStart 9) shop = some (.ok, [1, 1, 0, 0]) := by decide

/-- R156: the aborted staged PAGE leaves its label QUEUED with STAGED set again. -/
theorem test_radio_stop :
    ((after (.radioStop 9) night).label 0).map (fun l => (l.state, l.needs.staged)) = some (.queued, true)
      ∧ (after (.radioStop 9) night).queue 0 = [1, 2, 0, 3] := by decide

theorem test_radio_status :
    reply (.radioStatus 9) night
      = some (.ok, [1, 1, 0, 0, 0, 0, 8, 12, 6, 20, 8, 0, 0, 2, 64, 0, 0, 0, 0, 0, 0, 0, 0]) := by decide

theorem test_notice_read : reply (.noticeRead 9) shop = some (.ok, [0, 0, 0, 0]) := by decide

theorem test_notice_clear_refuses_bit_6 : reply (.noticeClear 9 0x40) shop = some (.badValue, []) := by decide

theorem test_notice_mask : reply (.noticeMask 9 0x3F) shop = some (.ok, [0x3F, 0, 0]) := by decide

/-- R188: an inactive line of polarity ACTIVE_HIGH is driven low. -/
theorem test_port_config_polarity : (after (.portConfig 9 none (some 1)) shop).noticePin = .drivenLow := by decide

theorem test_device_info_length : (reply (.deviceInfo 9) shop).map (fun r => r.2.length) = some 21 := by decide

/-- R184: no response is held, and the tables are empty. -/
theorem test_device_reset :
    (after (.deviceReset 9) shop).gateway.held = none ∧ (after (.deviceReset 9) shop).labels = []
      ∧ (after (.deviceReset 9) shop).inReset = true := by decide

theorem test_power_on_reset : (after .powerOnReset night).holdSet = [] := by decide

theorem test_reset_end : (after .resetEnd (after .powerOnReset night)).inReset = false := by decide

/-- R175: a response not clocked out whole stays held. -/
theorem test_read_response_in_part :
    (after (.readResponse 3) (after (.radioStart 9) shop)).gateway.shifted = [0xFF, 9, 0]
      ∧ (after (.readResponse 3) (after (.radioStart 9) shop)).gateway.held.isSome = true := by decide

theorem test_unknown_kind : (after (.unknownKindFrame [0x15, 9, 0, 0]) shop).gateway.held = some ⟨9, .unknownKind, []⟩ := by decide

theorem test_service_line_sync : (after (.serviceLineByte 0xA5 false) shop).service.receiver = .assembling [] := by decide

theorem test_service_line_gap :
    (after .serviceLineGapTimeout (after (.serviceLineByte 0xA5 false) shop)).service.receiver = .hunting := by decide

theorem test_service_response_sent :
    (after .serviceResponseSent (shop.setService ⟨.hunting, .sending [1]⟩)).service.transmitter = .idle := by decide

/-- R77, R164, R14: at the frame start the cutover is taken, the holds of zones 1 and 2 end, and label 3 becomes QUEUED. -/
theorem test_frame_start :
    let t := after (.frameStart ⟨true, true, true, true⟩) spent
    t.epoch.state = .steady ∧ t.holdSet = [3, 4, 5, 6, 7, 8] ∧ (t.label 2).map Label.state = some .queued
      ∧ t.notices.pending.byte = 0x09 := by decide +kernel

theorem test_backoff_retry_due : ((after (.backoffRetryDue 2) due).label 2).map Label.attempts = some 1 := by decide

theorem test_countdown_expiry : (after .countdownExpiry due).epoch.active = 1 := by decide

/-- R163: the budget and idle count stay as the count left them. -/
theorem test_hold_budget_spent : ((after (.holdBudgetSpent 1) due).zone 1).budget = 0 := by decide

theorem test_hold_idle_reached :
    ((after (.holdIdleReached 2) due).zone 2).idle = 20 ∧ ((after (.holdIdleReached 2) due).zone 2).hold = .none := by decide

/-- R98: no window opens before those before it; R147: the next frame finds every ack slot closed, and label 1's attempt failed. -/
theorem test_frame_start_finishes_windows :
    let t := after (.frameStart ⟨false, false, false, false⟩) night
    (t.label 0).map Label.state = some .backoff ∧ (t.label 1).map Label.state = some .inFlight
      ∧ (t.entries.map fun e => (e.label, e.slot, e.expected)) = [(1, 0, 16)] := by decide +kernel

/-- R137: the answer is expected ACK_DELAY frames later, in the ack slot of the data slot's number. R98: slots 0 to 3 open before slot 4,
and label 2 is granted the first. -/
theorem test_data_slot_opening :
    ((after (.dataSlotOpening 0 4) night).entries.map fun e => (e.label, e.slot, e.expected))
      = [(0, 0, 8), (3, 1, 8), (1, 0, 16)] ∧ (after (.dataSlotOpening 0 4) night).pointers[0] = 1 := by decide

/-- R142 and R81: the staged page is confirmed, and the count falls to 0 outside STEADY. -/
theorem test_ack_arrival :
    ((after (.ackArrival 0 0 (Ack.message ⟨1, true, 0, 1, 7, 9⟩)) answering).label 0).map Label.stagedPage = some (some ⟨1, 7⟩)
      ∧ (after (.ackArrival 0 0 (Ack.message ⟨1, true, 0, 1, 7, 9⟩)) answering).notices.pending.stagingComplete = true := by decide +kernel

/-- R148: one attempt, and a retry frame RETRY_GAP later. -/
theorem test_ack_slot_close :
    ((after (.ackSlotClose 0 0) answering).label 0).map (fun l => (l.state, l.attempts, l.retryFrame)) = some (.backoff, 1, some 20) := by
  decide

/-! ## Witnesses: a state and operands that meet the premises of each statement, clause by clause -/

theorem witness_RefusalChangesNothing :
    ((Instr.noticeMask 7 255).request = some (7, .noticeMask 255) ∧ shop.inReset = false ∧ ∃ t p,
      exec (.noticeMask 7 255) shop = .next t ∧ t.gateway.held = some p ∧ p.result = .badValue)
    ∧ (Instr.templateLoad 7 ⟨0, 8, 1, [⟨6, 0, 6, 3⟩]⟩).request = some (7, .templateLoad ⟨0, 8, 1, [⟨6, 0, 6, 3⟩]⟩) ∧ ∃ t p,
      exec (.templateLoad 7 ⟨0, 8, 1, [⟨6, 0, 6, 3⟩]⟩) shop = .next t ∧ t.gateway.held = some p ∧ p.result = .layoutBad :=
  ⟨⟨rfl, rfl, _, _, rfl, rfl, rfl⟩, rfl, _, _, rfl, rfl, rfl⟩

theorem witness_ResetsTaken :
    shop.inReset = false ∧ (shop.setInReset true).inReset = true ∧ (Instr.deviceInfo 1).request.isSome = true
      ∧ (∃ n, Instr.readResponse 5 = .readResponse n) ∧ (∃ bytes, Instr.unknownKindFrame [0] = .unknownKindFrame bytes)
      ∧ (∃ b e, Instr.serviceLineByte 1 false = .serviceLineByte b e)
      ∧ ∃ o, Instr.frameStart ⟨true, true, true, true⟩ = .frameStart o :=
  ⟨rfl, rfl, rfl, ⟨_, rfl⟩, ⟨_, rfl⟩, ⟨_, _, rfl⟩, _, rfl⟩

theorem witness_RequestFrameRoundTrip :
    (Request.templateLoad ⟨31, 48, 1, List.replicate 49 ⟨5, 0, 2, 2⟩⟩).fits = true ∧ Request.epochAbandon.fits = true := by decide

theorem witness_RawFrameDoesWhatItsCommandDoes :
    (Instr.templateLoad 1 (layoutWords 0)).request = some (1, .templateLoad (layoutWords 0))
      ∧ (Request.templateLoad (layoutWords 0)).fits = true := by decide

/-- One frame for each check of R173, and the shortest and the longest that each length check meets. -/
theorem witness_PortRefusesBadFrames :
    shop.inReset = false ∧ ∀ frame ∈ ([([0x10], .badLength), ([0x52, 1, 0], .badLength), ([0x52, 1, 1, 1], .badLength),
        ([0x52, 1, 1, 0], .badLength), ([0x52, 1, 0, 0, 0], .badLength), ([0x15, 1, 0, 0], .unknownKind),
        ([0x52, 1, 1, 0, 0], .badLength)] : List (List Byte × Result)),
      frame.1 ≠ [] ∧ byteAt frame.1 0 ≠ 0x5A ∧ portRefusal frame.1 = some frame.2 := by decide

theorem witness_ReadResponseShiftsOut :
    1 ≤ 1 ∧ shop.inReset = false ∧ ([0x5A] : List Byte).length = 1 ∧ byteAt [0x5A] 0 = 0x5A
      ∧ (after (.deviceInfo 1) shop).gateway.held.isSome = true ∧ shop.gateway.held = none := by decide

theorem witness_ServiceLineTakesPermittedFrame :
    shop.inReset = false ∧ shop.service = ⟨.hunting, .idle⟩ ∧ shop.gateway.serviceEnabled = true
      ∧ serviceKinds.contains (Request.labelGet 1).kind.toNat = true
      ∧ (∀ a item, Request.labelRetry 1 ≠ .labelBind a item) ∧ (∀ a, Request.labelRetry 1 ≠ .labelGet a)
      ∧ (Instr.labelRetry 9 1).request = some (9, .labelRetry 1) :=
  ⟨rfl, rfl, rfl, by decide, nofun, nofun, rfl⟩

/-- A LABEL_RETRY frame with one byte wrong for each check of R177. -/
theorem witness_ServiceLineRefusesInOrder :
    ∀ frame ∈ ([([0x25, 1, 3, 0, 1, 0, 0], 0, true, .badCheck), ([0x25, 1, 3, 0, 1, 0, 0], 0xD6, false, .notPermitted),
        ([0x15, 1, 0, 0], 0xEA, true, .unknownKind), ([0x52, 1, 0, 0], 0xAD, true, .notPermitted),
        ([0x5A, 1, 0, 0], 0xA5, true, .notPermitted), ([0x25, 1, 0, 0], 0xDA, true, .badLength)]
        : List (List Byte × Byte × Bool × Result)),
      let s : State := { shop with service := ⟨.assembling frame.1, .idle⟩,
                                   gateway := { shop.gateway with serviceEnabled := frame.2.2.1 } }
      s.inReset = false ∧ s.service.receiver = .assembling frame.1
        ∧ (byteAt frame.1 2).toNat + 256 * (byteAt frame.1 3).toNat ≤ 256
        ∧ frame.1.length = 4 + ((byteAt frame.1 2).toNat + 256 * (byteAt frame.1 3).toNat)
        ∧ serviceRefusal s.gateway.serviceEnabled (frame.1 ++ [frame.2.1]) = some frame.2.2.2 ∧ s.service.transmitter = .idle
        ∧ (s.setService ⟨.assembling frame.1, .sending [1]⟩).service.transmitter ≠ .idle := by decide

theorem witness_ServiceLineReceiver :
    shop.inReset = false ∧ shop.service.receiver = .hunting ∧ (0x5A : Byte) ≠ 0xA5
      ∧ (shop.setService ⟨.assembling [0x25, 1], .idle⟩).service.receiver = .assembling [0x25, 1] ∧ ([0x25, 1] : List Byte).length < 3
      ∧ 3 ≤ ([0x25, 1, 1] : List Byte).length
      ∧ 256 < (byteAt ([0x25, 1, 1] ++ [1]) 2).toNat + 256 * (byteAt ([0x25, 1, 1] ++ [1]) 3).toNat
      ∧ (byteAt ([0x25, 1, 0] ++ [1]) 2).toNat + 256 * (byteAt ([0x25, 1, 0] ++ [1]) 3).toNat ≤ 256
      ∧ ([0x25, 1, 0] : List Byte).length + 1 < 5 + 256 := by decide

theorem witness_ItemPutCreates :
    shop.inReset = false ∧ shop.Laws ∧ 99999999 ≤ 99999999 ∧ PriceWordsOk (words 99999999) = true ∧ (money 99999999).Holds (words 99999999)
      ∧ (∀ kx ∈ shop.items, kx.2.number ≠ 99999999) ∧ shop.item 2 = none ∧ (∀ j, j < 2 → (shop.item j).isSome = true) :=
  ⟨rfl, shop_laws, by decide, by decide, by decide, by decide, by decide, by decide⟩

theorem witness_ItemPutCreates_full :
    stocked.inReset = false ∧ stocked.Laws ∧ (∀ kx ∈ stocked.items, kx.2.number ≠ 16385)
      ∧ ∀ j, j < 16384 → (stocked.item j).isSome = true := by
  refine ⟨rfl, stocked_laws, fun kx member => ?_, stocked_full⟩
  simp only [stocked, List.mem_map, List.mem_range] at member
  obtain ⟨k, low, rfl⟩ := member
  simp only [slotItem]
  omega

theorem witness_ItemPutReplaces :
    shop.inReset = false ∧ shop.Laws ∧ PriceWordsOk (words 100) = true ∧ (money 100).Holds (words 100) ∧ (money 101).Holds (words 101)
      ∧ ∃ x, shop.item 0 = some x ∧ x.number = (1 : BitVec 32).toNat ∧ x.current = money 100 ∧ x.current ≠ money 101 :=
  ⟨rfl, shop_laws, by decide, by decide, by decide, _, rfl, rfl, rfl, by decide⟩

theorem witness_ItemNextSets :
    (shop.Laws ∧ shop.epoch.state = .steady ∧ ∃ x, shop.item 0 = some x ∧ x.number = (1 : BitVec 32).toNat)
    ∧ night.Laws ∧ night.inReset = false ∧ night.epoch.state ≠ .steady
      ∧ (∃ x, night.item 0 = some x ∧ x.number = (1 : BitVec 32).toNat ∧ x.next = some (money 90) ∧ x.next ≠ some (money 91))
      ∧ ∃ x, night.item 1 = some x ∧ x.number = (2 : BitVec 32).toNat ∧ x.next = none :=
  ⟨⟨shop_laws, rfl, _, rfl, rfl⟩, night_laws, rfl, by decide, ⟨_, rfl, rfl, rfl, by decide⟩, _, rfl, rfl, rfl⟩

theorem witness_ItemRetireAndRefusals :
    shop.inReset = false ∧ shop.Laws ∧ (∃ x, shop.item 1 = some x ∧ x.number = (2 : BitVec 32).toNat ∧ x.bound = 0)
      ∧ (∃ x, shop.item 0 = some x ∧ x.number = (1 : BitVec 32).toNat ∧ 0 < x.bound)
      ∧ (0 : BitVec 32).toNat = 0 ∧ 99999999 < (100000000 : BitVec 32).toNat ∧ PriceWordsOk (words 100000000) = false
      ∧ 1 ≤ (99999999 : BitVec 32).toNat ∧ (99999999 : BitVec 32).toNat ≤ 99999999
      ∧ shop.epoch.state = .steady ∧ night.inReset = false ∧ night.epoch.state ≠ .steady ∧ (∀ kx ∈ night.items, kx.2.number ≠ (99999999 : BitVec 32).toNat)
      ∧ PriceWordsOk (words 99999999) = true :=
  ⟨rfl, shop_laws, ⟨_, rfl, rfl, rfl⟩, ⟨_, rfl, rfl, by decide⟩, by decide⟩

/-- Every value at its largest; the phase 255 is reduced modulo 256. -/
theorem witness_LabelAdd :
    let b : LabelAddWords := ⟨0xFFFFFE, 63, 3, 8, 255, 31, some 1⟩
    let c : Settings := ⟨63, 3, 8, 255⟩
    shop.inReset = false ∧ shop.Laws ∧ b.address ≠ 0 ∧ b.address ≠ 0xFFFFFF ∧ c.zone.val = b.zone.toNat ∧ c.lane.val = b.lane.toNat
      ∧ c.exponent.val = b.exponent.toNat ∧ c.phase = b.phase.toNat % 2 ^ c.exponent.val ∧ (shop.templates.find 31).isSome = true
      ∧ (∀ kl ∈ shop.labels, kl.2.address ≠ b.address)
      ∧ (∃ n i x, b.item = some n ∧ some 0 = some i ∧ shop.item i = some x ∧ x.number = n.toNat)
      ∧ shop.label 3 = none ∧ ∀ j, j < 3 → (shop.label j).isSome = true :=
  ⟨rfl, shop_laws, by decide, by decide, rfl, rfl, rfl, rfl, rfl, by decide, ⟨1, 0, _, rfl, rfl, rfl, rfl⟩, rfl, by decide⟩

theorem witness_LabelBind :
    shop.inReset = false ∧ shop.Laws ∧ ∃ l, shop.label 0 = some l ∧ l.address = 1 ∧ some 0 = l.binding ∧ none ≠ l.binding
      ∧ ∃ n i x, some (2 : BitVec 32) = some n ∧ some 1 = some i ∧ shop.item i = some x ∧ x.number = n.toNat :=
  ⟨rfl, shop_laws, _, rfl, rfl, rfl, by decide, 2, 1, _, rfl, rfl, rfl, rfl⟩

/-- A move to other settings with another template, and a move back to the confirmed settings alone. -/
theorem witness_LabelMove :
    let m : MoveWords := ⟨some 63, some 3, some 8, some 255, some 31⟩
    let target : Settings := ⟨63, 3, 8, 255⟩
    (shop.inReset = false ∧ shop.Laws ∧ ∃ l, shop.label 0 = some l ∧ l.address = 1
      ∧ target.zone.val = (m.zone.map BitVec.toNat).getD (l.requested.getD l.confirmed).zone.val
      ∧ target.lane.val = (m.lane.map BitVec.toNat).getD (l.requested.getD l.confirmed).lane.val
      ∧ target.exponent.val = (m.exponent.map BitVec.toNat).getD (l.requested.getD l.confirmed).exponent.val
      ∧ target.phase = (m.phase.map BitVec.toNat).getD (l.requested.getD l.confirmed).phase % 2 ^ target.exponent.val
      ∧ (31 : Fin 32).val = (m.template.map BitVec.toNat).getD l.template.val ∧ (shop.templates.find 31).isSome = true)
    ∧ night.inReset = false ∧ night.Laws ∧ ∃ l, night.label 0 = some l ∧ l.address = 1 ∧ l.state = .inFlight
      ∧ home.zone.val = ((some (0 : Byte)).map BitVec.toNat).getD (l.requested.getD l.confirmed).zone.val
      ∧ home.lane = (l.requested.getD l.confirmed).lane ∧ home.exponent = (l.requested.getD l.confirmed).exponent
      ∧ home.phase = (l.requested.getD l.confirmed).phase % 2 ^ home.exponent.val ∧ home = l.confirmed
      ∧ ∀ e ∈ night.entries, e.label = 0 → e.settings = home :=
  ⟨⟨rfl, shop_laws, _, rfl, rfl, rfl, rfl, rfl, rfl, rfl, rfl⟩, rfl, night_laws, _, rfl, rfl, rfl, rfl, rfl, rfl, rfl, rfl, by decide⟩

theorem witness_LabelGetAndScan :
    shop.inReset = false ∧ shop.Laws ∧ (∃ l, shop.label 0 = some l ∧ l.address = 1)
      ∧ (∃ l, shop.label 2 = some l ∧ (0 : BitVec 16).toNat ≤ 2 ∧ (0x10 : Byte).getLsbD (deliveryCode l.state) = true)
      ∧ (16383 : BitVec 16).toNat < 16384 ∧ 16384 ≤ (16384 : BitVec 16).toNat
      ∧ ∀ kl ∈ shop.labels, kl.1 < (16383 : BitVec 16).toNat :=
  ⟨rfl, shop_laws, ⟨_, rfl, rfl⟩, ⟨_, rfl, by decide, by decide⟩, by decide, by decide, by decide⟩

theorem witness_LabelRetire :
    night.inReset = false ∧ night.Laws ∧ ∃ l, night.label 0 = some l ∧ l.address = 1 ∧ l.state = .inFlight :=
  ⟨rfl, night_laws, _, rfl, rfl, rfl⟩

theorem witness_LabelRetryQueryLocate :
    shop.inReset = false ∧ shop.Laws ∧ (∃ l, shop.label 2 = some l ∧ l.address = 3 ∧ l.state = .failed)
      ∧ ∃ l, shop.label 0 = some l ∧ l.address = 1 ∧ l.state = .current :=
  ⟨rfl, shop_laws, ⟨_, rfl, rfl, rfl⟩, _, rfl, rfl, rfl⟩

/-- No label has address 9; each check at the value that first fails it. -/
theorem witness_LabelRequestsRefused :
    shop.inReset = false ∧ shop.TablesLaw ∧ (∀ kl ∈ shop.labels, kl.2.address ≠ 9) ∧ (∃ l, shop.label 0 = some l)
      ∧ (1 ≤ (99999999 : BitVec 32).toNat ∧ (99999999 : BitVec 32).toNat ≤ 99999999)
      ∧ ¬(1 ≤ (100000000 : BitVec 32).toNat ∧ (100000000 : BitVec 32).toNat ≤ 99999999)
      ∧ (∀ kx ∈ shop.items, kx.2.number ≠ (99999999 : BitVec 32).toNat)
      ∧ (63 : Byte).toNat ≤ 63 ∧ ¬(64 : Byte).toNat ≤ 63 ∧ shop.templates.find (30 : Byte).toNat = none
      ∧ (∃ kl ∈ shop.labels, kl.2.address = 1) ∧ (shop.templates.find (31 : Byte).toNat).isSome = true :=
  ⟨rfl, shop_laws.tables, by decide, ⟨_, rfl⟩, by decide, by decide, by decide, by decide, by decide, rfl, by decide, rfl⟩

/-- Label k + 1 in slot k. -/
def slotLabel (k : Nat) : Nat × Label := (k, label (BitVec.ofNat 24 (k + 1)) .queued owesShown none)

/-- Every directory slot in use. -/
def peopled : State := { State.reset with templates := [(0, layout)], labels := (List.range 16384).map slotLabel }

theorem find_slotLabels (n j i : Nat) (low : j ≤ i) (high : i < j + n) :
    Table.find ((List.range' j n).map slotLabel) i = some (slotLabel i).2 := by
  induction n generalizing j with
  | zero => omega
  | succ n ih =>
    simp only [List.range'_succ, List.map_cons, slotLabel, Table.find]
    by_cases h : i = j
    · simp [h]
    · rw [if_neg h]
      exact ih (j + 1) (by omega) (by omega)

theorem slotLabel_address (k : Nat) (low : k < 16384) : (slotLabel k).2.address.toNat = k + 1 := by
  simp only [slotLabel, label, BitVec.toNat_ofNat]
  omega

theorem peopled_tables : peopled.TablesLaw := by
  refine ⟨⟨?_, ?_⟩, by decide, by decide, ?_, ?_, by decide, by decide⟩
  · simp [peopled, slotLabel, List.pairwise_map, List.pairwise_lt_range]
  · simp [peopled, slotLabel, Config.labelCapacity]
  · simp only [peopled, List.map_map]
    refine (List.nodup_range).map_on fun a low b high same => ?_
    have := congrArg BitVec.toNat same
    simp only [Function.comp, List.mem_range] at this low high
    rw [slotLabel_address a low, slotLabel_address b high] at this
    omega
  · intro kl member
    simp only [peopled, List.mem_map, List.mem_range] at member
    obtain ⟨k, low, rfl⟩ := member
    have := slotLabel_address k low
    refine ⟨fun same => ?_, fun same => ?_⟩
    · rw [same] at this
      simp at this
    · rw [same] at this
      simp at this
      omega

theorem witness_LabelRequestsRefused_full :
    peopled.inReset = false ∧ peopled.TablesLaw ∧ (¬∃ kl ∈ peopled.labels, kl.2.address = 0x800000)
      ∧ (peopled.templates.find (0 : Byte).toNat).isSome = true ∧ ∀ j, j < 16384 → (peopled.label j).isSome = true := by
  refine ⟨rfl, peopled_tables, ?_, rfl, fun j h => ?_⟩
  · rintro ⟨kl, member, same⟩
    simp only [peopled, List.mem_map, List.mem_range] at member
    obtain ⟨k, low, rfl⟩ := member
    have := slotLabel_address k low
    rw [same] at this
    simp at this
    omega
  · have found := find_slotLabels 16384 0 j (Nat.zero_le j) (by omega)
    simp only [peopled, State.label, List.range_eq_range', found, Option.isSome_some]

/-- A template not loaded yet, the one stored, and another in its place. -/
theorem witness_TemplateLoadStores :
    shop.inReset = false ∧ shop.Laws ∧ TemplateWordsOk (layoutWords 0) ∧ TemplateWordsOk (layoutWords 1)
      ∧ List.Forall₂ Field.Holds layout.fields (layoutWords 0).fields ∧ FieldsFit 8 layout.fields
      ∧ shop.templates.find 1 = none ∧ shop.templates.find 0 = some layout ∧ layout ≠ ⟨48, 1, layout.fields⟩
      ∧ FieldsFit 48 layout.fields :=
  ⟨rfl, shop_laws, by decide, by decide, .cons (by decide) .nil, by decide, rfl, rfl, by decide, by decide⟩

theorem witness_TemplateFieldsCheckedInOrder :
    shop.inReset = false ∧ ¬TemplateWordsOk ⟨32, 8, 1, [⟨0, 0, 6, 3⟩]⟩ ∧ ¬TemplateWordsOk ⟨0, 8, 0x100, [⟨0, 0, 6, 3⟩]⟩
      ∧ TemplateWordsOk ⟨31, 48, 1, [⟨0, 0, 6, 3⟩, ⟨0, 20, 6, 3⟩]⟩ := by decide

theorem witness_NumericFieldsSpellTheirValues :
    1 ≤ 1 ∧ 1 ≤ 10 ∧ 10 ≤ 10 ∧ 10 ^ 10 ≤ 10000000000 ∧ 9999999999 < 10 ^ 10 := by decide

/-- R62's own example of a half rounded up, and R63's of a saving of 100 and of one that is not shown. -/
theorem witness_RenderedValues :
    let half : PriceSet := ⟨125, none, false, some 2, .one, .piece⟩
    let free : PriceSet := ⟨0, some 499, true, none, .one, .piece⟩
    let slight : PriceSet := ⟨996, some 1000, true, none, .one, .piece⟩
    half.quantity = some 2 ∧ 0 < 2 ∧ free.promo = true ∧ free.old = some 499 ∧ free.price < 499 ∧ 0 < 100
      ∧ 100 * 499 ≤ (499 - free.price) * 100 ∧ (499 - free.price) * 100 < (100 + 1) * 499
      ∧ (1000 - slight.price) * 100 < 1000 ∧ half.promo = false ∧ half.quantity ≠ none ∧ free.quantity = none := by decide

theorem witness_PagePlacesHoldTheirFields :
    layout.Valid ∧ (⟨.price, 0, 6, 3⟩ : Field) ∈ layout.fields ∧ 5 < 6 ∧ 15 < 2 * layout.length
      ∧ (∀ f ∈ layout.fields, 15 < f.offset / 4 ∨ f.offset / 4 + f.digits ≤ 15) ∧ 7 < layout.length := by decide

theorem witness_EpochOpenAndSchedule :
    shop.inReset = false ∧ 1048575 < (1048576 : BitVec 32).toNat ∧ (1048575 : BitVec 32).toNat ≤ 1048575
      ∧ 1 ≤ (1 : BitVec 32).toNat ∧ shop.epoch.state = .steady ∧ night.epoch.state ≠ .steady ∧ night.inReset = false := by decide

theorem witness_CutoverConvertsEverything :
    shop.epoch.expiryDue = false ∧ night.Laws ∧ night.epoch.state ≠ .steady ∧ night.inReset = false ∧ due.Laws
      ∧ due.epoch.state ≠ .steady ∧ due.epoch.expiryDue = true :=
  ⟨rfl, night_laws, by decide, rfl, due_laws, by decide, rfl⟩

theorem witness_EpochAbandon :
    shop.inReset = false ∧ shop.Laws ∧ shop.epoch.state = .steady ∧ night.inReset = false ∧ night.Laws
      ∧ night.epoch.state ≠ .steady := ⟨rfl, shop_laws, rfl, rfl, night_laws, by decide⟩

theorem witness_RadioConfigChecksAndClamps : shop.inReset = false ∧ night.inReset = false := by decide

theorem witness_RadioStartAndStop :
    shop.inReset = false ∧ shop.Laws ∧ shop.radio.state = .stopped ∧ night.inReset = false ∧ night.Laws
      ∧ night.radio.state = .running := ⟨rfl, shop_laws, rfl, rfl, night_laws, rfl⟩

theorem witness_ZoneSet :
    shop.inReset = false ∧ 63 < (64 : Byte).toNat ∧ (∃ b ∈ some (2 : Byte), 1 < b.toNat) ∧ (63 : ZoneNo).val = (63 : Byte).toNat
      ∧ ∀ b ∈ some (1 : Byte), b.toNat ≤ 1 := ⟨rfl, by decide, ⟨2, rfl, by decide⟩, rfl, by decide⟩

theorem witness_ZoneRetry :
    shop.inReset = false ∧ shop.Laws ∧ 63 < (64 : Byte).toNat ∧ (0 : ZoneNo).val = (0 : Byte).toNat :=
  ⟨rfl, shop_laws, by decide, rfl⟩

/-- The clauses in order: refused; not HELD while STOPPED, with the set full, with room in it; HELD. -/
theorem witness_HoldRequests :
    63 < (64 : Byte).toNat ∧ (63 : ZoneNo).val = (63 : Byte).toNat ∧ (1 : BitVec 16) ≠ 0
      ∧ (shop.inReset = false ∧ shop.Laws ∧ (shop.zone 63).hold = .none ∧ shop.radio.state = .stopped)
      ∧ (night.inReset = false ∧ night.Laws ∧ (night.zone 63).hold = .none ∧ night.radio.state = .running
          ∧ night.holdSet.length = 8)
      ∧ (roomy.inReset = false ∧ roomy.Laws ∧ (roomy.zone 63).hold = .none ∧ roomy.radio.state = .running
          ∧ roomy.holdSet.length < 8)
      ∧ (night.zone 1).hold = .held :=
  ⟨by decide, rfl, by decide, ⟨rfl, shop_laws, by decide, rfl⟩, ⟨rfl, night_laws, by decide, rfl, rfl⟩,
    ⟨rfl, roomy_laws, by decide, rfl, by decide⟩, by decide⟩

/-- Zone 2's count due reaches HOLD_IDLE and not its budget, zone 1's its budget and not HOLD_IDLE. -/
theorem witness_HoldEndsAtItsLimits :
    let idle := fun z : ZoneNo =>
      if (due.zone z).counts.queued = 0 ∧ (due.zone z).counts.backoff = 0 then (due.zone z).idle + 1 else 0
    due.Laws ∧ (1 : ZoneNo) ∈ due.holdsDue ∧ (due.zone 1).budget = 1 ∧ (2 : ZoneNo) ∈ due.holdsDue
      ∧ idle 2 = due.radio.config.holdIdle ∧ (1 : ZoneNo) ∉ shop.holdsDue ∧ 1 < (due.zone 2).budget
      ∧ idle 1 ≠ due.radio.config.holdIdle :=
  ⟨due_laws, by decide, by decide, by decide, by decide, by decide, by decide, by decide⟩

/-- STEADY and STOPPED; ARMED at 2; ARMED at 1 with holds that end, a hold that goes on and a zone not HELD. -/
theorem witness_FrameStartDoesItsWork :
    (shop.inReset = false ∧ shop.Laws ∧ shop.Settled ∧ shop.WindowsDone)
    ∧ (early.inReset = false ∧ early.Laws ∧ early.Settled ∧ early.WindowsDone ∧ early.epoch.countdown = 2)
    ∧ spent.inReset = false ∧ spent.Laws ∧ spent.Settled ∧ spent.WindowsDone ∧ spent.epoch.state = .armed ∧ spent.epoch.countdown = 1
      ∧ (spent.zone 1).hold = .held ∧ spent.CountEnds 1 ∧ (spent.zone 3).hold = .held ∧ ¬spent.CountEnds 3
      ∧ (spent.zone 0).hold = .none ∧ spent.radio.state = .running ∧ (0 : Lane).val < spent.radio.config.lanes.count :=
  ⟨⟨rfl, shop_laws, by decide, by decide⟩, ⟨rfl, early_laws, by decide, by decide, rfl⟩, rfl, spent_laws, by decide, by decide, rfl, rfl,
    by decide, by decide, by decide, by decide, by decide, rfl, by decide⟩

theorem witness_BackoffRetryDue :
    due.Laws ∧ (∃ l, due.label 2 = some l ∧ l.state = .backoff ∧ l.retryFrame = some due.radio.frame)
      ∧ ∀ l, due.label 9 = some l → l.state ≠ .backoff ∨ l.retryFrame ≠ some due.radio.frame :=
  ⟨due_laws, ⟨_, rfl, rfl, rfl⟩, fun l found => by cases (show none = some l from found)⟩

/-- A hold in its sixth frame, and one that starts in the next. -/
theorem witness_EligibilityIsTheSpecs :
    (⟨1, 0, 8, 255⟩ : Settings).Reduced ∧ night.HoldLaw ∧ (night.zone 1).holdStart = some 3 ∧ 1 ≤ (night.zone 1).holdFrames
      ∧ (night.zone 1).holdFrames ≤ 16777216 ∧ (after (.zoneHold 9 0 5) roomy).HoldLaw
      ∧ ((after (.zoneHold 9 0 5) roomy).zone 0).holdStart = some 9 ∧ ((after (.zoneHold 9 0 5) roomy).zone 0).holdFrames = 0 :=
  ⟨by decide, night_laws.hold, by decide, by decide, by decide, by decide +kernel, by decide, by decide⟩

theorem witness_SlotLeftUnused :
    (crowded.inReset = false ∧ crowded.Laws ∧ crowded.Settled ∧ crowded.air.windowsOpen = true
      ∧ (0 : Lane).val < crowded.radio.config.lanes.count ∧ crowded.air.windows[0].opened = (0 : SlotNo).val
      ∧ (crowded.entries.countP fun e => e.lane == 0) = 64 / crowded.radio.config.lanes.count)
    ∧ served.inReset = false ∧ served.Laws ∧ served.Settled ∧ served.air.windowsOpen = true
      ∧ (0 : Lane).val < served.radio.config.lanes.count ∧ served.air.windows[0].opened = (0 : SlotNo).val
      ∧ ∀ kl ∈ served.labels, kl.2.state = .queued → (served.zone kl.2.adminZone).priority ≠ 0 →
          served.eligible 0 kl.1 kl.2 = false :=
  ⟨⟨rfl, crowded_laws, by decide, rfl, by decide, by decide, by decide⟩, rfl, served_laws, by decide, rfl, by decide, by decide,
    by decide⟩

theorem witness_SlotGrant :
    night.inReset = false ∧ night.Laws ∧ night.Settled ∧ night.air.windowsOpen = true ∧ (0 : Lane).val < night.radio.config.lanes.count
      ∧ night.air.windows[0].opened = (0 : SlotNo).val ∧ (night.entries.countP fun e => e.lane == 0) < 64 / night.radio.config.lanes.count
      ∧ night.winner night.pointers[0] ((List.finRange 64).filter fun y => (night.zone y).priority != 0 && (night.queue y).any fun j =>
          (night.label j).any fun l' => l'.state == .queued && night.eligible 0 j l') = some 0
      ∧ night.queue 0 = [] ++ 1 :: [2]
      ∧ (∃ l, night.label 1 = some l ∧ l.state = .queued ∧ night.eligible 0 1 l = true
          ∧ night.templates.find l.template.val = some layout) :=
  ⟨rfl, night_laws, by decide, rfl, by decide, by decide, by decide, by decide, by decide, _, rfl, rfl, by decide, rfl⟩

/-- The staged PAGE answered in full, and the QUERY. -/
theorem witness_ArrivalSucceeds :
    answering.inReset = false ∧ answering.Laws ∧ answering.Settled ∧ answering.air.windowsOpen = true
      ∧ answering.air.windows[0].opened = 6 ∧ (0 : SlotNo) ∉ answering.air.windows[0].closed
      ∧ (∀ j ∈ answering.air.windows[0].taken, j < (0 : SlotNo))
      ∧ answering.entries.filter (fun e => e.lane == 0 && e.expected == answering.radio.frame && e.slot == 0 && e.address == 1)
        = [stagedEntry]
      ∧ answering.entries.filter (fun e => e.lane == 0 && e.expected == answering.radio.frame && e.slot == 1 && e.address == 4)
        = [queryEntry]
      ∧ (answering.label stagedEntry.label).isSome = true ∧ (answering.label queryEntry.label).isSome = true
      ∧ stagedEntry.message = .page (.staged .live) 1 7 ∧ (⟨1, true, 0, 1, 7, 15⟩ : Ack).accepted = true
      ∧ (⟨1, true, 0, 1, 7, 15⟩ : Ack).stagedEpoch = 1 ∧ (⟨1, true, 0, 1, 7, 15⟩ : Ack).stagedCheck = 7
      ∧ queryEntry.message = .query ∧ (⟨4, true, 0, 0, 0, 0⟩ : Ack).accepted = true :=
  ⟨rfl, answering_laws, by decide, rfl, rfl, by decide, by decide, by decide, by decide, by decide, by decide, rfl, rfl, rfl, rfl, rfl,
    rfl⟩

/-- A staged check of 8 in place of 7, and the close of the slot. -/
theorem witness_AttemptFails :
    answering.inReset = false ∧ answering.Laws ∧ answering.Settled ∧ answering.air.windowsOpen = true
      ∧ answering.air.windows[0].opened = 6 ∧ (0 : SlotNo) ∉ answering.air.windows[0].closed
      ∧ (∀ j ∈ answering.air.windows[0].taken, j < (0 : SlotNo)) ∧ (answering.label stagedEntry.label).isSome = true
      ∧ answering.entries.filter (fun e => e.lane == 0 && e.expected == answering.radio.frame && e.slot == 0) = [stagedEntry]
      ∧ (⟨1, true, 0, 1, 8, 15⟩ : Ack).stagedCheck ≠ 7 :=
  ⟨rfl, answering_laws, by decide, rfl, rfl, by decide, by decide, by decide, by decide, by decide⟩

theorem witness_UnmatchedArrivalIgnored :
    answering.inReset = false ∧ answering.Settled ∧ answering.air.windowsOpen = true
      ∧ (0 : Lane).val < answering.radio.config.lanes.count ∧ answering.air.windows[0].opened = 6
      ∧ (5 : SlotNo) ∉ answering.air.windows[0].closed ∧ (∀ j ∈ answering.air.windows[0].taken, j < (5 : SlotNo))
      ∧ (∀ e ∈ answering.entries, ¬(e.lane = 0 ∧ e.expected = answering.radio.frame ∧ e.slot = 5)) ∧ ([] : List Byte).length ≠ 14 := by
  decide

/-- A reset, a frame without windows, an inactive lane, and a slot that has had its window. -/
theorem witness_NoWindowNoEffect :
    (night.setInReset true).inReset = true ∧ shop.air.windowsOpen = false ∧ night.radio.config.lanes.count ≤ (1 : Lane).val
      ∧ (5 : SlotNo).val < answering.air.windows[0].opened ∧ (0 : SlotNo) ∈ spent.air.windows[0].closed
      ∧ (1 : SlotNo) ∈ (after (.ackArrival 0 1 (Ack.message ⟨4, true, 0, 0, 0, 0⟩)) answering).air.windows[0].taken := by decide +kernel

/-- Work due, one data slot opened and the others passed over, all of them opened; and a state in which the holds due no longer end. -/
theorem witness_DueWorkPrecedesWindows :
    due.Laws ∧ ¬due.Settled ∧ due.inReset = false ∧ due.air.windowsOpen = true ∧ (0 : Lane).val < due.radio.config.lanes.count
      ∧ due.air.windows[0].opened ≤ (5 : SlotNo).val ∧ (5 : SlotNo) ∉ due.air.windows[0].closed
      ∧ (∀ j ∈ due.air.windows[0].taken, j < (5 : SlotNo)) ∧ answering.Laws ∧ answering.air.windows[0].opened = 6 :=
  ⟨due_laws, by decide, rfl, rfl, by decide, by decide, by decide, by decide, answering_laws, rfl⟩

/-- A label at home on channel 0. -/
def tag5 : ShelfLabel := ⟨5, home, #v[0, 1, 2, 3], 9, [(0, 0xFFFFFFFFFFFF)], ⟨[], 0⟩, none, false, 0, true, 8, [], false, []⟩

/-- The largest page, a mask held for its template, an entry for each message; a label asleep, on another lane, on another channel; a
message too short; a beacon heard. -/
theorem witness_LabelAnswersWithSuccess :
    tag5.awake = true ∧ tag5.plan[tag5.settings.lane.val] = 0 ∧ tag5.due = [] ∧ 2 ≤ tag5.ackDelay ∧ tag5.ackDelay ≤ 15
      ∧ home.phase < 256 ∧ (List.replicate 48 (0 : Byte)).length ≤ 48
      ∧ tag5.masks.find? (fun km => km.1 == (0 : Fin 32).val) = some (0, 0xFFFFFFFFFFFF)
      ∧ (∃ e : Entry, e.message = .page .shown 0 (crc16 (includedBytes 0xFFFFFFFFFFFF 0 (List.replicate 48 0))))
      ∧ queryEntry.message = .query
      ∧ ({ tag5 with awake := false } : ShelfLabel).awake = false ∧ (⟨1, 0, []⟩ : OnAir).lane ≠ tag5.settings.lane
      ∧ tag5.plan[(⟨0, 9, []⟩ : OnAir).lane.val] ≠ (⟨0, 9, []⟩ : OnAir).channel ∧ ¬takesMessage 5 []
      ∧ tag5.hears ⟨0, 0, night.beacon⟩ = true :=
  ⟨rfl, rfl, rfl, by decide, by decide, by decide, by decide, rfl, ⟨⟨0, 0, 0, 8, 0, 5, .page .shown 0 _, owesShown, home⟩, rfl⟩, rfl, rfl,
    by decide, by decide, by decide, by decide⟩

theorem witness_LabelAnswersWithSuccess_beacon :
    readBeacon night.beacon = some ⟨8, 0, 8, [1, 2, 3, 4, 5, 6, 7, 8]⟩ := by decide +kernel

/-- R101, R104: the beacon composed at a frame start is on the air on the lane's channel, and the label takes its frame number. -/
theorem test_label_hears_beacon :
    (((after (.frameStart ⟨true, true, true, true⟩) spent).onAir 0).map fun m => ((tag5.hearBeacon m).count, (tag5.hearBeacon m).holding))
      = some (9, false) := by decide +kernel

/-- R104: a label whose plan gives its lane another channel hears nothing. -/
theorem test_label_on_another_channel_hears_nothing :
    (((after (.frameStart ⟨true, true, true, true⟩) spent).onAir 0).map fun m =>
      (({ tag5 with plan := #v[7, 1, 2, 3] } : ShelfLabel).hearBeacon m).count) = some 0 := by decide +kernel

theorem witness_NoticeRequests : shop.inReset = false ∧ 63 < (64 : Byte).toNat ∧ (63 : Byte).toNat ≤ 63 := by decide

theorem witness_PortConfigAndDeviceInfo :
    shop.inReset = false ∧ (∃ b ∈ some (2 : Byte), 1 < b.toNat) ∧ ∀ b ∈ some (1 : Byte), b.toNat ≤ 1 :=
  ⟨rfl, ⟨2, rfl, by decide⟩, by decide⟩

theorem witness_StatusRequestsReport :
    night.inReset = false ∧ night.Laws ∧ (∃ x, night.item 0 = some x ∧ x.number = (1 : BitVec 32).toNat)
      ∧ (31 : Byte).toNat ≤ 31 ∧ night.templates.find (31 : Byte).toNat = some layout ∧ (63 : ZoneNo).val = (63 : Byte).toNat
      ∧ 31 < (32 : Byte).toNat ∧ night.templates.find (30 : Byte).toNat = none ∧ 63 < (64 : Byte).toNat :=
  ⟨rfl, night_laws, ⟨_, rfl, rfl⟩, by decide, rfl, rfl, by decide, rfl, by decide⟩

/-- The night with a retry, a cutover and an answer waiting. -/
def waiting : State :=
  night.setPending [.frameStart ⟨true, true, true, true⟩, .ackSlotClose 0 0]

theorem waiting_laws : waiting.Laws := { night_laws with }

theorem waiting_steps : ∃ t, step waiting = .next t := ⟨_, rfl⟩

theorem witness_StepKeepsTables : waiting.TablesLaw ∧ ∃ t, step waiting = .next t := ⟨waiting_laws.tables, waiting_steps⟩

theorem witness_StepKeepsEpochRadioHoldAndGuardLaws :
    waiting.EpochLaw ∧ waiting.RadioLaw ∧ waiting.HoldLaw ∧ waiting.GuardLaw ∧ ∃ t, step waiting = .next t :=
  ⟨waiting_laws.epoch, waiting_laws.radio, waiting_laws.hold, waiting_laws.guard, waiting_steps⟩

theorem witness_StepKeepsQueuesAndCounts :
    waiting.TablesLaw ∧ waiting.QueueLaw ∧ waiting.CountsLaw ∧ waiting.BoundLaw ∧ ∃ t, step waiting = .next t :=
  ⟨waiting_laws.tables, waiting_laws.queue, waiting_laws.counts, waiting_laws.bound, waiting_steps⟩

theorem witness_StepKeepsDeliveryLaw : waiting.Laws ∧ ∃ t, step waiting = .next t := ⟨waiting_laws, waiting_steps⟩

theorem witness_StepKeepsStagedLaw : waiting.Laws ∧ ∃ t, step waiting = .next t := ⟨waiting_laws, waiting_steps⟩

theorem witness_StepKeepsLayoutLaw : waiting.Laws ∧ ∃ t, step waiting = .next t := ⟨waiting_laws, waiting_steps⟩

end Sys2Proof.Tests
end

