-- ==== Sys2Proof/Proofs/Tables.lean ====
section
/-! What the tables hold, said by slot, and what the lookups answer (R1, R29, R46). -/

namespace Sys2Proof.Machine

/-! ## Tables by slot -/

section
variable {α β : Type}

/-- A record that a slot reads as stands in the table. -/
theorem Table.mem_of_find (t : Table α) (k : Nat) (x : α) (h : t.find k = some x) : (k, x) ∈ t := by
  induction t with
  | nil => simp [Table.find] at h
  | cons kv t ih =>
    obtain ⟨j, v⟩ := kv
    simp only [Table.find] at h
    split at h
    · simp_all
    · exact List.mem_cons_of_mem _ (ih h)

/-- What holds of every record of a table holds of every slot that reads as one. -/
theorem Table.forall_mem_iff (t : Table α) (h : t.Pairwise fun a b => a.1 < b.1) (P : Nat × α → Prop) :
    (∀ kv ∈ t, P kv) ↔ ∀ k x, t.find k = some x → P (k, x) :=
  ⟨fun all k x found => all _ (t.mem_of_find k x found),
   fun all kv member => all kv.1 kv.2 ((t.mem_iff_find h kv.1 kv.2).1 member)⟩

/-- Two slots are never listed twice. -/
theorem Table.nodup (t : Table α) (h : t.Pairwise fun a b => a.1 < b.1) : t.Nodup :=
  h.imp fun below same => absurd below (by simp [same])

/-- A value of the records never repeats exactly when no two slots share it. -/
theorem Table.nodup_map_iff (t : Table α) (h : t.Pairwise fun a b => a.1 < b.1) (f : α → β) :
    (t.map fun kv => f kv.2).Nodup ↔ ∀ j x k y, t.find j = some x → t.find k = some y → f x = f y → j = k := by
  rw [List.nodup_map_iff_inj_on (t.nodup h)]
  constructor
  · intro inj j x k y hx hy same
    exact congrArg Prod.fst (inj _ (t.mem_of_find j x hx) _ (t.mem_of_find k y hy) same)
  · rintro inj ⟨j, x⟩ hx ⟨k, y⟩ hy same
    rw [t.mem_iff_find h] at hx hy
    obtain rfl := inj j x k y hx hy same
    rw [Option.some.inj (hx.symm.trans hy)]

/-- A put of the record the slot holds changes nothing. -/
theorem Table.put_self (t : Table α) (n : Nat) (x : α) (h : t.Pairwise fun a b => a.1 < b.1) (found : t.find n = some x) :
    t.put n x = t := by
  simpa using t.map_put id n x x h found rfl

/-- Freeing a free slot changes nothing. -/
theorem Table.erase_absent (t : Table α) (n : Nat) (free : t.find n = none) : t.erase n = t := by
  induction t with
  | nil => rfl
  | cons kv t ih =>
    obtain ⟨k, v⟩ := kv
    simp only [Table.find] at free
    split at free
    · contradiction
    · rename_i other
      rw [Table.erase, if_neg other, ih free]

/-- Writing what a slot reads as changes nothing. -/
theorem Table.write_self (t : Table α) (n : Nat) (h : t.Pairwise fun a b => a.1 < b.1) : t.write n (t.find n) = t := by
  cases found : t.find n with
  | none => exact t.erase_absent n found
  | some x => exact t.put_self n x h found

/-- Mapping the records of a table maps what its slots read as. -/
theorem Table.find_map (t : Table α) (f : α → β) (n : Nat) :
    Table.find (t.map fun kv => (kv.1, f kv.2)) n = (t.find n).map f := by
  induction t with
  | nil => rfl
  | cons kv t ih =>
    obtain ⟨k, v⟩ := kv
    simp only [List.map_cons, Table.find, ih]
    split <;> rfl

/-- Mapping the records of a table keeps its canonical form. -/
theorem Table.map_wf (t : Table α) (f : α → β) (c : Nat) (h : t.wf c) :
    Table.wf (t.map fun kv => (kv.1, f kv.2)) c := by
  refine ⟨List.pairwise_map.2 h.1, fun kv member => ?_⟩
  obtain ⟨jw, old, rfl⟩ := List.mem_map.1 member
  exact h.2 jw old

/-- A slot in use lies below the capacity. -/
theorem Table.find_lt (t : Table α) (c k : Nat) (x : α) (h : t.wf c) (found : t.find k = some x) : k < c :=
  h.2 _ (t.mem_of_find k x found)

/-- The lowest free slot is the free one below the capacity with every slot below it in use. -/
theorem Table.lowestFree_eq (t : Table α) (c n : Nat) (h : t.wf c) (below : n < c) (free : t.find n = none)
    (used : ∀ j, j < n → (t.find j).isSome = true) : t.lowestFree c = some n := by
  obtain ⟨-, gap, filled⟩ := t.freeFrom_spec 0 h.1 fun kv _ => Nat.zero_le kv.1
  have first : Table.freeFrom 0 t = n := by
    rcases Nat.lt_trichotomy (Table.freeFrom 0 t) n with less | same | more
    · simpa [gap] using used _ less
    · exact same
    · simpa [free] using filled n (Nat.zero_le n) more
  simp [Table.lowestFree, first, below]

/-- No slot is free when all below the capacity are in use. -/
theorem Table.lowestFree_none (t : Table α) (c : Nat) (h : t.wf c) (used : ∀ j, j < c → (t.find j).isSome = true) :
    t.lowestFree c = none := by
  obtain ⟨-, gap, -⟩ := t.freeFrom_spec 0 h.1 fun kv _ => Nat.zero_le kv.1
  have full : ¬Table.freeFrom 0 t < c := fun below => by simpa [gap] using used _ below
  simp [Table.lowestFree, full]

end

/-! ## The lookups (R1, R29) -/

/-- The law of the tables by slot. -/
theorem State.tablesLaw_iff (s : State) : s.TablesLaw ↔
    s.labels.wf Config.labelCapacity ∧ s.items.wf Config.itemCapacity ∧ s.templates.wf 32
      ∧ (∀ j l k m, s.label j = some l → s.label k = some m → l.address = m.address → j = k)
      ∧ (∀ k l, s.label k = some l → l.address ≠ 0 ∧ l.address ≠ 0xFFFFFF)
      ∧ (∀ j x k y, s.item j = some x → s.item k = some y → x.number = y.number → j = k)
      ∧ ∀ k x, s.item k = some x → 1 ≤ x.number ∧ x.number ≤ 99999999 := by
  refine and_congr_right fun labels => and_congr_right fun items => and_congr_right fun _ => ?_
  rw [Table.nodup_map_iff s.labels labels.1 Label.address, Table.nodup_map_iff s.items items.1 Item.number,
    Table.forall_mem_iff s.labels labels.1, Table.forall_mem_iff s.items items.1]
  rfl

section
variable {s : State}

theorem State.TablesLaw.labels_wf (h : s.TablesLaw) : s.labels.wf Config.labelCapacity := h.1

theorem State.TablesLaw.items_wf (h : s.TablesLaw) : s.items.wf Config.itemCapacity := h.2.1

/-- The directory's slots rise. -/
theorem State.TablesLaw.rising (h : s.TablesLaw) : s.labels.Pairwise fun a b => a.1 < b.1 := h.1.1

/-- A directory slot in use lies below the capacity. -/
theorem State.TablesLaw.label_lt (h : s.TablesLaw) {k : Nat} {l : Label} (found : s.label k = some l) :
    k < Config.labelCapacity := s.labels.find_lt _ k l h.1 found

/-- A record stands in the directory exactly when its slot reads as it. -/
theorem State.TablesLaw.mem_labels (h : s.TablesLaw) (k : Nat) (l : Label) : (k, l) ∈ s.labels ↔ s.label k = some l :=
  s.labels.mem_iff_find h.rising k l

/-- A record stands in the Item Table exactly when its slot reads as it. -/
theorem State.TablesLaw.mem_items (h : s.TablesLaw) (k : Nat) (x : Item) : (k, x) ∈ s.items ↔ s.item k = some x :=
  s.items.mem_iff_find h.items_wf.1 k x

/-- The lookup of an address answers a record that has it. -/
theorem State.TablesLaw.of_lookup (h : s.TablesLaw) {a : Address} {k : Nat} {l : Label} (found : s.lookup a = some (k, l)) :
    s.label k = some l ∧ l.address = a :=
  ⟨(h.mem_labels k l).1 (List.mem_of_find?_eq_some found), by simpa using List.find?_some found⟩

/-- The lookup of a record's address answers its slot. -/
theorem State.TablesLaw.lookup_eq (h : s.TablesLaw) {a : Address} {k : Nat} {l : Label} (here : s.label k = some l)
    (named : l.address = a) : s.lookup a = some (k, l) := by
  obtain ⟨-, -, -, unique, -⟩ := s.tablesLaw_iff.1 h
  cases found : s.lookup a with
  | none =>
    have := List.find?_eq_none.1 found _ ((h.mem_labels k l).2 here)
    simp [named] at this
  | some jm =>
    obtain ⟨j, m⟩ := jm
    obtain ⟨there, other⟩ := h.of_lookup found
    obtain rfl := unique j m k l there here (other.trans named.symm)
    rw [Option.some.inj (there.symm.trans here)]

/-- The lookup of an address that no record has finds nothing. -/
theorem State.lookup_eq_none (s : State) (a : Address) : s.lookup a = none ↔ ∀ kl ∈ s.labels, kl.2.address ≠ a := by
  simp [State.lookup]

/-- The lookup of an item number answers a record that has it. -/
theorem State.TablesLaw.of_itemLookup (h : s.TablesLaw) {n k : Nat} {x : Item} (found : s.itemLookup n = some (k, x)) :
    s.item k = some x ∧ x.number = n :=
  ⟨(h.mem_items k x).1 (List.mem_of_find?_eq_some found), by simpa using List.find?_some found⟩

/-- The lookup of a record's number answers its slot. -/
theorem State.TablesLaw.itemLookup_eq (h : s.TablesLaw) {n k : Nat} {x : Item} (here : s.item k = some x) (named : x.number = n) :
    s.itemLookup n = some (k, x) := by
  obtain ⟨-, -, -, -, -, unique, -⟩ := s.tablesLaw_iff.1 h
  cases found : s.itemLookup n with
  | none =>
    have := List.find?_eq_none.1 found _ ((h.mem_items k x).2 here)
    simp [named] at this
  | some jy =>
    obtain ⟨j, y⟩ := jy
    obtain ⟨there, other⟩ := h.of_itemLookup found
    obtain rfl := unique j y k x there here (other.trans named.symm)
    rw [Option.some.inj (there.symm.trans here)]

/-- The lookup of a number that no item has finds nothing. -/
theorem State.itemLookup_eq_none (s : State) (n : Nat) : s.itemLookup n = none ↔ ∀ kx ∈ s.items, kx.2.number ≠ n := by
  simp [State.itemLookup]

end

end Sys2Proof.Machine
end

