-- ==== Sys2Proof/Proofs/Writing.lean ====
section
/-! What writing a label record carries with it: the directory, the zone queues (R6), the items and their bound counts (R33). -/

namespace Sys2Proof.Machine

/-! ## The directory -/

/-- The directory after a record is written. -/
theorem State.writeLabel_labels (k : Nat) (new : Option Label) (s : State) (h : s.labels.Pairwise fun a b => a.1 < b.1) :
    (s.writeLabel k new).labels = s.labels.write k new := by
  by_cases same : s.label k = new
  · subst same
    rw [State.writeLabel_self]
    exact (Table.write_self s.labels k h).symm
  · simp [State.writeLabel, same]

/-! ## The zone queues (R6) -/

/-- A record stands in a zone's queue by R6: it is QUEUED or BACKOFF, and the zone is its administrative one. -/
theorem queueOf_eq_some (o : Option Label) (z : ZoneNo) :
    queueOf o = some z ↔ ∃ l, o = some l ∧ l.adminZone = z ∧ (l.state = .queued ∨ l.state = .backoff) := by
  cases o with
  | none => simp [queueOf]
  | some l => simp [queueOf, Label.inQueue, and_comm]

/-- The same as the test that the laws make of a slot. -/
theorem any_waitsIn_iff (o : Option Label) (z : ZoneNo) : o.any (fun l => l.waitsIn z) = true ↔ queueOf o = some z := by
  rw [queueOf_eq_some]
  cases o <;> simp [Label.waitsIn]

/-- The zones of the queues that hold a slot are the one its record stands in (R6), and no queue repeats a slot. -/
theorem State.queueLaw_iff (s : State) (h : s.labels.Pairwise fun a b => a.1 < b.1) :
    s.QueueLaw ↔ ∀ z, (s.queue z).Nodup ∧ ∀ k, k ∈ s.queue z ↔ queueOf (s.label k) = some z := by
  refine forall_congr' fun z => and_congr_right fun _ => ?_
  rw [Table.forall_mem_iff s.labels h]
  constructor
  · rintro ⟨holds, stands⟩ k
    refine ⟨fun member => (any_waitsIn_iff _ z).1 (holds k member), fun queued => ?_⟩
    obtain ⟨l, found, zone, state⟩ := (queueOf_eq_some _ z).1 queued
    exact stands k l found zone state
  · exact fun both => ⟨fun k member => (any_waitsIn_iff _ z).2 ((both k).1 member),
      fun k l found zone state => (both k).2 ((queueOf_eq_some _ z).2 ⟨l, found, zone, state⟩)⟩

/-- R6 for one queue: a slot that stays keeps its place, one that leaves is taken out, one that joins comes last. -/
theorem State.requeue_queue (k : Nat) (old new : Option Label) (s : State) (z : ZoneNo) :
    (s.requeue k old new).queue z =
      if queueOf old = queueOf new then s.queue z
      else if queueOf new = some z then s.queue z ++ [k]
      else if queueOf old = some z then (s.queue z).erase k
      else s.queue z := by
  cases leaves : queueOf old <;> cases joins : queueOf new <;>
    simp only [State.requeue, leaves, joins, State.leave, State.join, Option.some.injEq, reduceCtorEq, if_true, if_false]
  · simp only [State.setQueue_queue, eq_comm (a := z)]; split <;> simp_all
  · simp only [State.setQueue_queue, eq_comm (a := z)]; split <;> simp_all
  · rename_i a b
    by_cases same : a = b
    · simp [same]
    · simp only [if_neg same, State.setQueue_queue, eq_comm (a := z)]
      by_cases here : b = z
      · subst here; simp [Ne.symm same]
      · simp [here]; split <;> simp_all

theorem State.countRecord_queues (f : Delivery → Counts → Counts) (l : Option Label) (s : State) :
    (s.countRecord f l).queues = s.queues := by
  cases l <;> rfl

theorem State.countBinding_queues (f : Nat → Nat) (l : Option Label) (s : State) : (s.countBinding f l).queues = s.queues := by
  simp only [State.countBinding]
  split
  · rfl
  · split <;> rfl

/-- A zone's queue after a label record is written (R6). -/
theorem State.writeLabel_queue (k : Nat) (new : Option Label) (s : State) (z : ZoneNo) :
    (s.writeLabel k new).queue z =
      if queueOf (s.label k) = queueOf new then s.queue z
      else if queueOf new = some z then s.queue z ++ [k]
      else if queueOf (s.label k) = some z then (s.queue z).erase k
      else s.queue z := by
  by_cases same : s.label k = new
  · simp [State.writeLabel, same]
  · rw [← State.requeue_queue]
    simp [State.queue, State.writeLabel, same, State.countBinding_queues, State.countRecord_queues]

/-- Writing a label record keeps the zone queues right (R6). -/
theorem State.writeLabel_queueLaw (k : Nat) (new : Option Label) (s : State) (tables : s.labels.wf Config.labelCapacity)
    (hk : k < Config.labelCapacity) (law : s.QueueLaw) : (s.writeLabel k new).QueueLaw := by
  rw [State.queueLaw_iff _ tables.1] at law
  rw [State.queueLaw_iff _ (State.writeLabel_wf k _ new s tables hk).1]
  intro z
  obtain ⟨nodup, holds⟩ := law z
  rw [State.writeLabel_queue]
  simp only [State.writeLabel_label k _ new s tables.1]
  split
  · rename_i same
    refine ⟨nodup, fun j => ?_⟩
    by_cases e : j = k <;> simp [e, holds, same]
  · rename_i differ
    split
    · rename_i joins
      have outside : k ∉ s.queue z := fun member => differ (by rw [joins]; exact (holds k).1 member)
      refine ⟨List.nodup_append.2 ⟨nodup, List.nodup_singleton k, fun a member b last => ?_⟩, fun j => ?_⟩
      · rintro rfl; exact outside (List.mem_singleton.1 last ▸ member)
      by_cases e : j = k <;> simp [e, holds, joins]
    · rename_i away
      split
      · refine ⟨nodup.erase k, fun j => ?_⟩
        rw [nodup.mem_erase_iff]
        by_cases e : j = k <;> simp [e, holds, away]
      · rename_i elsewhere
        refine ⟨nodup, fun j => ?_⟩
        by_cases e : j = k <;> simp [e, holds, away, elsewhere]

/-! ## Items and bound counts (R33) -/

theorem State.requeue_items (k : Nat) (old new : Option Label) (s : State) : (s.requeue k old new).items = s.items := by
  simp only [State.requeue]
  split
  · split <;> rfl
  · rfl
  · rfl
  · rfl

theorem State.countRecord_items (f : Delivery → Counts → Counts) (l : Option Label) (s : State) :
    (s.countRecord f l).items = s.items := by
  cases l <;> rfl

/-- The item table after a label record is written. -/
theorem State.writeLabel_items (k : Nat) (new : Option Label) (s : State) (differ : s.label k ≠ new) :
    (s.writeLabel k new).items = ((s.countBinding (· - 1) (s.label k)).countBinding (· + 1) new).items := by
  have congr : ∀ (f : Nat → Nat) (l : Option Label) (t u : State), t.items = u.items →
      (t.countBinding f l).items = (u.countBinding f l).items := by
    intro f l t u same
    simp only [State.countBinding, State.item, same]
    split
    · exact same
    · split <;> simp [same]
  simp only [State.writeLabel, if_neg differ, State.setLabels_items]
  exact congr _ _ _ _ (congr _ _ _ _ (by simp only [State.countRecord_items, State.requeue_items]))

/-- An item after a label record's binding is counted in or out. -/
theorem State.countBinding_item (f : Nat → Nat) (l : Option Label) (s : State) (i : Nat) :
    (s.countBinding f l).item i = (s.item i).map fun x =>
      if l.bind Label.binding = some i then { x with bound := f x.bound } else x := by
  cases bound : l.bind Label.binding with
  | none => simp [State.countBinding, bound]
  | some j =>
    cases found : s.item j with
    | none =>
      by_cases e : i = j
      · simp [State.countBinding, bound, found, e]
      · simp [State.countBinding, bound, found, Ne.symm e]
    | some x =>
      have put : (s.countBinding f l).item i = if i = j then some { x with bound := f x.bound } else s.item i := by
        simp only [State.countBinding, bound, found]
        exact Table.find_put s.items j i _
      by_cases e : i = j
      · subst e; simp [put, found]
      · simp [put, e, Ne.symm e]

/-- An item without its bound count. -/
def Item.unbound (x : Item) : Item := { x with bound := 0 }

/-- The item table without its bound counts. -/
def State.unboundItems (s : State) : Table Item := s.items.map fun kx => (kx.1, kx.2.unbound)

/-- Counting a binding moves no part of an item but its bound count. -/
theorem State.countBinding_unbound (f : Nat → Nat) (l : Option Label) (s : State)
    (h : s.items.Pairwise fun a b => a.1 < b.1) : (s.countBinding f l).unboundItems = s.unboundItems := by
  cases bound : l.bind Label.binding with
  | none => simp [State.countBinding, bound]
  | some i =>
    cases found : s.item i with
    | none => simp [State.countBinding, bound, found]
    | some x =>
      simp only [State.countBinding, bound, found]
      exact Table.map_put (fun kx : Nat × Item => (kx.1, kx.2.unbound)) s.items i _ x h found rfl

/-- The slots of an item table are those of the table without its bound counts. -/
theorem State.items_rising_of_unbound {s t : State} (same : t.unboundItems = s.unboundItems)
    (h : s.items.Pairwise fun a b => a.1 < b.1) : t.items.Pairwise fun a b => a.1 < b.1 := by
  have image : s.unboundItems.Pairwise fun a b => a.1 < b.1 := List.pairwise_map.2 h
  rw [← same, State.unboundItems, List.pairwise_map] at image
  exact image

/-- Writing a label record moves no part of an item but its bound count (R33). -/
theorem State.writeLabel_unbound (k : Nat) (new : Option Label) (s : State)
    (h : s.items.Pairwise fun a b => a.1 < b.1) : (s.writeLabel k new).unboundItems = s.unboundItems := by
  by_cases same : s.label k = new
  · simp [State.writeLabel, same]
  · have first := State.countBinding_unbound (· - 1) (s.label k) s h
    have second := State.countBinding_unbound (· + 1) new _ (State.items_rising_of_unbound first h)
    rw [State.unboundItems, State.writeLabel_items k new s same]
    exact second.trans first

/-- An item keeps everything but its bound count when a label record is written. -/
theorem State.writeLabel_item (k : Nat) (new : Option Label) (s : State) (h : s.items.Pairwise fun a b => a.1 < b.1) (i : Nat) :
    ((s.writeLabel k new).item i).map Item.unbound = (s.item i).map Item.unbound := by
  have slot : ∀ t : State, t.unboundItems.find i = (t.item i).map Item.unbound := fun t => Table.find_map t.items Item.unbound i
  rw [← slot, ← slot, State.writeLabel_unbound k new s h]

/-- Writing a label record keeps the items there are. -/
theorem State.writeLabel_item_isSome (k : Nat) (new : Option Label) (s : State) (h : s.items.Pairwise fun a b => a.1 < b.1)
    (i : Nat) : ((s.writeLabel k new).item i).isSome = (s.item i).isSome := by
  simpa using congrArg Option.isSome (State.writeLabel_item k new s h i)

/-- Writing a label record keeps the item table in canonical form. -/
theorem State.writeLabel_items_wf (k c : Nat) (new : Option Label) (s : State) (h : s.items.wf c) :
    (s.writeLabel k new).items.wf c := by
  have same := State.writeLabel_unbound k new s h.1
  refine ⟨State.items_rising_of_unbound same h.1, fun kv member => ?_⟩
  have image : (kv.1, kv.2.unbound) ∈ s.unboundItems := same ▸ List.mem_map_of_mem member
  obtain ⟨jw, old, e⟩ := List.mem_map.1 image
  exact (Prod.mk.inj e).1 ▸ h.2 jw old

/-- The number of labels bound to an item. -/
def State.boundTo (s : State) (i : Nat) : Nat := s.labels.countP fun kl => kl.2.binding == some i

/-- The law of bound counts by slot. -/
theorem State.boundLaw_iff (s : State) (items : s.items.Pairwise fun a b => a.1 < b.1)
    (labels : s.labels.Pairwise fun a b => a.1 < b.1) :
    s.BoundLaw ↔ (∀ i x, s.item i = some x → x.bound = s.boundTo i)
      ∧ ∀ k l, s.label k = some l → ∀ i ∈ l.binding, (s.item i).isSome = true := by
  unfold State.BoundLaw
  rw [Table.forall_mem_iff s.items items, Table.forall_mem_iff s.labels labels]
  refine and_congr_right fun _ => forall_congr' fun k => forall_congr' fun l => imp_congr_right fun _ => ?_
  cases l.binding <;> simp

/-- Writing a label record bound to no item, or to one of the table, keeps the bound counts right (R33). -/
theorem State.writeLabel_bound (k : Nat) (new : Option Label) (s : State) (items : s.items.wf Config.itemCapacity)
    (labels : s.labels.wf Config.labelCapacity) (hk : k < Config.labelCapacity)
    (named : ∀ l ∈ new, ∀ i ∈ l.binding, (s.item i).isSome = true) (law : s.BoundLaw) : (s.writeLabel k new).BoundLaw := by
  by_cases same : s.label k = new
  · simpa [State.writeLabel, same] using law
  rw [State.boundLaw_iff s items.1 labels.1] at law
  rw [State.boundLaw_iff _ (State.writeLabel_items_wf k _ new s items).1 (State.writeLabel_wf k _ new s labels hk).1]
  refine ⟨fun i x found => ?_, fun j l found i bound => ?_⟩
  · have count : (s.writeLabel k new).boundTo i + countOpt (fun kl => kl.2.binding == some i) k (s.label k)
        = s.boundTo i + countOpt (fun kl => kl.2.binding == some i) k new := by
      rw [State.boundTo, State.writeLabel_labels k new s labels.1]
      exact Table.countP_write _ s.labels k new labels.1
    have counted : ∀ o : Option Label, countOpt (fun kl : Nat × Label => kl.2.binding == some i) k o
        = if o.bind Label.binding = some i then 1 else 0 := by
      intro o; cases o <;> simp [countOpt]
    have isBound : (s.label k).bind Label.binding = some i → 0 < s.boundTo i := fun bound => by
      obtain ⟨l, here, name⟩ := Option.bind_eq_some_iff.1 bound
      exact List.countP_pos_iff.2 ⟨(k, l), (Table.mem_iff_find s.labels labels.1 k l).2 here, by simp [name]⟩
    rw [State.item, State.writeLabel_items k new s same, ← State.item, State.countBinding_item, State.countBinding_item,
      Option.map_map] at found
    obtain ⟨y, old, rfl⟩ := Option.map_eq_some_iff.1 found
    have right := law.1 i y old
    rw [counted, counted] at count
    by_cases out : (s.label k).bind Label.binding = some i <;> by_cases into : new.bind Label.binding = some i <;>
      simp only [out, into, if_true, if_false, Function.comp, forall_const] at count isBound ⊢ <;> omega
  · rw [State.writeLabel_item_isSome k new s items.1]
    rw [State.writeLabel_label k j new s labels.1] at found
    split at found
    · exact named l found i bound
    · exact law.2 j l found i bound

end Sys2Proof.Machine
end

