-- ==== Sys2Proof/Proofs/Transitions.lean ====
section
/-! What the transitions of a label record leave unchanged, and that each of them leaves the record settled (section 1.3, R8 to R15). -/

namespace Sys2Proof.Machine

/-! ## Records of one setup -/

/-- Two records of one label that no bind, move, grant or return lies between: their address, settings, template and binding agree. -/
structure Label.SameSetup (l l' : Label) : Prop where
  address : l'.address = l.address
  confirmed : l'.confirmed = l.confirmed
  requested : l'.requested = l.requested
  template : l'.template = l.template
  binding : l'.binding = l.binding

theorem Label.SameSetup.trans {l m n : Label} (h : l.SameSetup m) (k : m.SameSetup n) : l.SameSetup n where
  address := k.address.trans h.address
  confirmed := k.confirmed.trans h.confirmed
  requested := k.requested.trans h.requested
  template := k.template.trans h.template
  binding := k.binding.trans h.binding

/-- Following the needs moves the delivery state, the attempts and the retry frame alone (R8, R15). -/
theorem Label.followNeeds_eq (l : Label) : l.followNeeds = { l with
    state := l.followNeeds.state, attempts := l.followNeeds.attempts, retryFrame := l.followNeeds.retryFrame } := by
  unfold Label.followNeeds
  cases l.state <;> dsimp only <;> split <;> rfl

theorem Label.followNeeds_setup (l : Label) : l.SameSetup l.followNeeds := by
  rw [Label.followNeeds_eq]
  constructor <;> rfl

theorem Label.revive_setup (l : Label) : l.SameSetup l.revive := by
  unfold Label.revive
  split <;> constructor <;> rfl

theorem Label.owe_setup (n : Needs) (l : Label) : l.SameSetup (l.owe n) := by
  have flagged : l.SameSetup { l with needs := l.needs.union n } := by constructor <;> rfl
  exact flagged.trans (Label.followNeeds_setup _)

theorem Label.mark_setup (shown staged : Bool) (l : Label) : l.SameSetup (l.mark shown staged) := by
  have noted : l.SameSetup { l with changed := l.changed || shown || staged } := by constructor <;> rfl
  exact (noted.trans (Label.revive_setup _)).trans (Label.owe_setup _ _)

theorem Label.cutOver_setup (pending : Option Epoch) (l : Label) : l.SameSetup (l.cutOver pending) := by
  simp only [Label.cutOver]
  split <;> repeat' split
  all_goals constructor <;> rfl

theorem Label.abandon_setup (l : Label) : l.SameSetup l.abandon := by
  refine Label.SameSetup.trans ?_ (Label.followNeeds_setup _)
  constructor <;> rfl

theorem Label.retry_setup (l : Label) : l.SameSetup l.retry := by constructor <;> rfl

/-! ## IN_FLIGHT is entered by a grant and left by a return alone (R10) -/

@[simp] theorem Label.followNeeds_inFlight (l : Label) : l.followNeeds.state = .inFlight ↔ l.state = .inFlight := by
  cases state : l.state <;> by_cases need : l.hasNeed = true <;> simp [Label.followNeeds, state, need]

@[simp] theorem Label.revive_inFlight (l : Label) : l.revive.state = .inFlight ↔ l.state = .inFlight := by
  by_cases state : l.state = .failed <;> simp [Label.revive, state]

@[simp] theorem Label.owe_inFlight (n : Needs) (l : Label) : (l.owe n).state = .inFlight ↔ l.state = .inFlight := by
  simp [Label.owe]

@[simp] theorem Label.mark_inFlight (shown staged : Bool) (l : Label) :
    (l.mark shown staged).state = .inFlight ↔ l.state = .inFlight := by
  simp [Label.mark]

@[simp] theorem Label.abandon_inFlight (l : Label) : l.abandon.state = .inFlight ↔ l.state = .inFlight := by
  simp [Label.abandon]

/-- The cutover leaves every delivery state (R83). -/
@[simp] theorem Label.cutOver_state (pending : Option Epoch) (l : Label) : (l.cutOver pending).state = l.state := by
  simp only [Label.cutOver]
  split <;> repeat' split
  all_goals rfl

@[simp] theorem Label.cutOver_retryFrame (pending : Option Epoch) (l : Label) : (l.cutOver pending).retryFrame = l.retryFrame := by
  simp only [Label.cutOver]
  split <;> repeat' split
  all_goals rfl

/-! ## Settled records -/

/-- What a record settled but for its needs is: following the needs settles it. -/
abbrev Label.Tidy (l : Label) : Prop :=
  (l.state = .current → l.attempts = 0) ∧ (l.retryFrame.isSome = true ↔ l.state = .backoff) ∧ l.attempts ≤ 15
    ∧ (l.state = .backoff ∨ l.state = .failed → 1 ≤ l.attempts) ∧ (l.changed = true → l.needs.shown = true ∨ l.needs.staged = true)

theorem Label.Settled.tidy {l : Label} (h : l.Settled) : l.Tidy := by
  obtain ⟨current, -, retry, few, counted, noted⟩ := h
  exact ⟨fun state => (current state).2, retry, few, counted, noted⟩

theorem Label.Tidy.followNeeds {l : Label} (h : l.Tidy) : l.followNeeds.Settled := by
  obtain ⟨fresh, retry, few, counted, noted⟩ := h
  by_cases need : l.hasNeed = true <;>
    cases state : l.state <;> simp_all [Label.followNeeds, Label.Settled, Label.hasNeed]

/-- More flags leave a tidy record tidy. -/
theorem Label.Tidy.flag {l : Label} (h : l.Tidy) (n : Needs) : Label.Tidy { l with needs := l.needs.union n } := by
  obtain ⟨fresh, retry, few, counted, noted⟩ := h
  exact ⟨fresh, retry, few, counted, fun changed => (noted changed).imp (by simp +contextual [Needs.union])
    (by simp +contextual [Needs.union])⟩

theorem Label.Tidy.owe {l : Label} (h : l.Tidy) (n : Needs) : (l.owe n).Settled := (h.flag n).followNeeds

theorem Label.Tidy.mark {l : Label} (h : l.Tidy) (shown staged : Bool) : (l.mark shown staged).Settled := by
  apply Label.Tidy.followNeeds
  obtain ⟨fresh, retry, few, counted, noted⟩ := h
  by_cases state : l.state = .failed
  · simp_all [Label.Tidy, Label.revive, Needs.union]
    tauto
  · simp_all [Label.Tidy, Label.revive, Needs.union]
    tauto

theorem Label.Settled.revive {l : Label} (h : l.Settled) : l.revive.Settled := by
  by_cases state : l.state = .failed <;> simp_all [Label.Settled, Label.revive, Label.hasNeed]

theorem Label.Settled.retry {l : Label} (h : l.Settled) (waits : l.state = .backoff) : l.retry.Settled := by
  simp_all [Label.Settled, Label.retry, Label.hasNeed]

theorem Label.Settled.cutOver {l : Label} (h : l.Settled) (pending : Option Epoch) : (l.cutOver pending).Settled := by
  obtain ⟨current, waits, retry, few, counted, noted⟩ := h
  simp only [Label.cutOver]
  split <;> repeat' split
  all_goals simp_all [Label.Settled, Label.hasNeed, Needs.any]

theorem Label.Settled.abandon {l : Label} (h : l.Settled) : l.abandon.Settled := by
  apply Label.Tidy.followNeeds
  obtain ⟨fresh, retry, few, counted, -⟩ := h.tidy
  exact ⟨fresh, retry, few, counted, by simp⟩

/-! ## The record a grant takes and a return gives back (R10 to R13, R136) -/

theorem State.grantedLabel_settled (s : State) {l : Label} (h : l.Settled) (queued : l.state = .queued) :
    (s.grantedLabel l).Settled := by
  simp_all [Label.Settled, State.grantedLabel]

/-- A record as its delivery returns it: not IN_FLIGHT, its settings those it had or those the message carried, its requested settings
kept or removed. -/
structure Label.Returned (e : Entry) (l l' : Label) : Prop where
  address : l'.address = l.address
  confirmed : l'.confirmed = l.confirmed ∨ l'.confirmed = e.settings
  requested : l'.requested = l.requested ∨ l'.requested = none
  template : l'.template = l.template
  binding : l'.binding = l.binding
  away : l'.state ≠ .inFlight
  settled : l.Settled → l.state = .inFlight → l'.Settled

/-- What an arrival observes concerns no delivery (R5). -/
theorem Label.Returned.of_observe {e : Entry} {f : Frame} {a : Ack} {l l' : Label} (h : Label.Returned e (l.observe f a) l') :
    Label.Returned e l l' :=
  ⟨h.address, h.confirmed, h.requested, h.template, h.binding, h.away, h.settled⟩

/-- A record as a return has it before the delivery state is decided: no flag cleared, requested settings kept or removed. -/
structure Label.HandedBack (e : Entry) (l m : Label) : Prop where
  address : m.address = l.address
  confirmed : m.confirmed = l.confirmed ∨ m.confirmed = e.settings
  requested : m.requested = l.requested ∨ m.requested = none
  template : m.template = l.template
  binding : m.binding = l.binding
  retryFrame : m.retryFrame = l.retryFrame
  attempts : m.attempts = l.attempts
  changed : m.changed = l.changed
  shown : l.needs.shown = true → m.needs.shown = true
  staged : l.needs.staged = true → m.needs.staged = true

/-- A return decides a delivery state other than IN_FLIGHT that fits the needs, attempts and retry frame. -/
theorem Label.HandedBack.returned {e : Entry} {l m : Label} (h : Label.HandedBack e l m) (d : Delivery) (n : Nat)
    (r : Option Frame) (away : d ≠ .inFlight)
    (fits : l.Settled → l.state = .inFlight → (d = .current → m.hasNeed = false ∧ n = 0)
      ∧ (d = .queued ∨ d = .backoff ∨ d = .failed → m.hasNeed = true) ∧ (r.isSome = true ↔ d = .backoff) ∧ n ≤ 15
      ∧ (d = .backoff ∨ d = .failed → 1 ≤ n)) :
    Label.Returned e l { m with state := d, attempts := n, retryFrame := r } where
  address := h.address
  confirmed := h.confirmed
  requested := h.requested
  template := h.template
  binding := h.binding
  away := away
  settled settled flying := by
    obtain ⟨current, waits, retry, few, counted⟩ := fits settled flying
    obtain ⟨-, -, -, -, -, noted⟩ := settled
    exact ⟨current, waits, retry, few, counted, fun changed => (noted (h.changed ▸ changed)).imp h.shown h.staged⟩

/-- Dropping requested settings moves them alone. -/
theorem Label.dropRequested_eq (c : Settings) (l : Label) :
    l.dropRequested c = { l with requested := if l.requested = some c then none else l.requested } := by
  unfold Label.dropRequested
  split <;> rfl

theorem Label.takeBack_handed (e : Entry) (l : Label) : Label.HandedBack e l (l.takeBack e) := by
  rw [Label.takeBack, Label.dropRequested_eq]
  refine ⟨rfl, .inl rfl, ?_, rfl, rfl, rfl, rfl, rfl, by simp +contextual [Needs.union], by simp +contextual [Needs.union]⟩
  dsimp only
  split
  · exact .inr rfl
  · exact .inl rfl

theorem Label.failAttempt_returned (c : RadioConfig) (f : Frame) (e : Entry) (l : Label) :
    Label.Returned e l (l.failAttempt c f e) := by
  have back := Label.takeBack_handed e l
  simp only [Label.failAttempt]
  split
  · exact back.returned _ _ _ (by decide) (by simp_all)
  · rename_i need
    have need : (l.takeBack e).hasNeed = true := by simpa using need
    repeat' split
    all_goals exact back.returned _ _ _ (by decide) (by simp [need])

theorem Label.abort_returned (e : Entry) (l : Label) : Label.Returned e l (l.abort e) := by
  have back := Label.takeBack_handed e l
  have few : l.Settled → (l.takeBack e).attempts ≤ 15 := fun settled => back.attempts ▸ settled.tidy.2.2.1
  simp only [Label.abort]
  split
  · rename_i need
    exact back.returned _ _ _ (by decide) fun settled _ => by simp [need, few settled]
  · exact back.returned _ _ _ (by decide) (by simp_all)

theorem Label.compareShown_handed (e : Entry) (a : Ack) (l : Label) : Label.HandedBack e l (l.compareShown a) := by
  simp only [Label.compareShown]
  repeat' split
  all_goals exact ⟨rfl, .inl rfl, .inl rfl, rfl, rfl, rfl, rfl, rfl, by simp, by simp⟩

theorem Label.compareStaged_handed (e : Entry) (p : Option Epoch) (a : Ack) (l : Label) :
    Label.HandedBack e l (l.compareStaged p a) := by
  simp only [Label.compareStaged]
  repeat' split
  all_goals exact ⟨rfl, .inl rfl, .inl rfl, rfl, rfl, rfl, rfl, rfl, by simp, by simp⟩

theorem Label.confirm_handed (e : Entry) (l : Label) : Label.HandedBack e l (l.confirm e.settings) := by
  rw [Label.confirm, Label.dropRequested_eq]
  refine ⟨rfl, .inr rfl, ?_, rfl, rfl, rfl, rfl, rfl, by simp, by simp⟩
  dsimp only
  split
  · exact .inr rfl
  · exact .inl rfl

theorem Label.HandedBack.trans {e : Entry} {l m n : Label} (h : Label.HandedBack e l m) (k : Label.HandedBack e m n) :
    Label.HandedBack e l n where
  address := k.address.trans h.address
  confirmed := k.confirmed.elim (fun same => h.confirmed.imp same.trans same.trans) .inr
  requested := k.requested.elim (fun same => h.requested.imp same.trans same.trans) .inr
  template := k.template.trans h.template
  binding := k.binding.trans h.binding
  retryFrame := k.retryFrame.trans h.retryFrame
  attempts := k.attempts.trans h.attempts
  changed := k.changed.trans h.changed
  shown := k.shown ∘ h.shown
  staged := k.staged ∘ h.staged

theorem State.confirmMessage_handed (s : State) (e : Entry) (a : Ack) (l : Label) :
    Label.HandedBack e l (s.confirmMessage e a l) := by
  simp only [State.confirmMessage]
  split
  · exact ⟨rfl, .inl rfl, .inl rfl, rfl, rfl, rfl, rfl, rfl, id, id⟩
  · exact ⟨rfl, .inl rfl, .inl rfl, rfl, rfl, rfl, rfl, rfl, id, id⟩
  · exact ⟨rfl, .inl rfl, .inl rfl, rfl, rfl, rfl, rfl, rfl, id, id⟩
  · split
    · exact (Label.compareShown_handed e a l).trans (Label.compareStaged_handed e _ a _)
    · exact Label.compareShown_handed e a l

theorem State.successLabel_returned (s : State) (e : Entry) (a : Ack) (l : Label) :
    Label.Returned e l (s.successLabel e a l) := by
  have back := (Label.confirm_handed e l).trans (s.confirmMessage_handed e a (l.confirm e.settings))
  unfold State.successLabel
  refine back.returned _ _ _ (by split <;> decide) fun settled flying => ?_
  have unset : l.retryFrame = none := by
    have retry := settled.tidy.2.1
    simpa [flying] using retry
  rw [back.retryFrame, unset]
  split <;> simp_all

end Sys2Proof.Machine
end

