-- ==== Sys2Proof/Proofs/Edits.lean ====
section
/-! What a command can do to the records, said once: the edits of the label records, items, templates and in-flight entries, each with
what the command has made sure of. Every law of the records is kept by every edit. -/

namespace Sys2Proof.Machine

/-! ## The edits -/

/-- The parts of the state that the laws of the records speak of agree. -/
structure State.SameRecords (s t : State) : Prop where
  labels : t.labels = s.labels
  queues : t.queues = s.queues
  items : t.items = s.items
  templates : t.templates = s.templates
  entries : t.entries = s.entries
  counts : ∀ z, (t.zone z).counts = (s.zone z).counts

/-- Where an entry stands on the air: the parts that the law of the air speaks of. -/
def Entry.place (e : Entry) : Lane × Frame × SlotNo × Frame := (e.lane, e.grantFrame, e.slot, e.expected)

/-- The air has not moved: the radio and the frame's windows are the same, and entries have at most been freed. -/
structure State.SameAir (s t : State) : Prop where
  radio : t.radio = s.radio
  windows : t.air.windows = s.air.windows
  windowsOpen : t.air.windowsOpen = s.air.windowsOpen
  places : (t.entries.map Entry.place).Sublist (s.entries.map Entry.place)

/-- A record rewritten in its slot: the address and the confirmed settings stay; what is new of the requested settings, the template
and the binding is in range; IN_FLIGHT is neither entered nor left. -/
structure Label.KeptIn (s : State) (l l' : Label) : Prop where
  address : l'.address = l.address
  confirmed : l'.confirmed = l.confirmed
  requested : ∀ c ∈ l'.requested, l.requested = some c ∨ c.Reduced
  template : l'.template = l.template ∨ (s.templates.find l'.template.val).isSome = true
  binding : l'.binding = l.binding ∨ ∀ i ∈ l'.binding, (s.item i).isSome = true
  inFlight : l'.state = .inFlight ↔ l.state = .inFlight
  settled : l.Settled → l'.Settled

/-- A record that a LABEL_ADD may store: its address is in range and new, its template is defined, its item is there (R16, R17). -/
structure Label.AddedIn (s : State) (l : Label) : Prop where
  address : l.address ≠ 0 ∧ l.address ≠ 0xFFFFFF
  fresh : ∀ kl ∈ s.labels, kl.2.address ≠ l.address
  confirmed : l.confirmed.Reduced
  requested : l.requested = none
  template : (s.templates.find l.template.val).isSome = true
  binding : ∀ i ∈ l.binding, (s.item i).isSome = true
  away : l.state ≠ .inFlight
  settled : l.Settled

/-- One edit of the records that leaves the air as it is. -/
inductive Edit : State → State → Prop
  /-- everything else: no record moves -/
  | beside {s t : State} : s.SameRecords t → s.SameAir t → Edit s t
  /-- a record rewritten in its slot -/
  | rewrite {s : State} {k : Nat} {l l' : Label} : s.label k = some l → l.KeptIn s l' → Edit s (s.writeLabel k (some l'))
  /-- the note of a Service Line change read and cleared (R22, R179) -/
  | note {s : State} {k : Nat} {l : Label} : s.label k = some l → Edit s (s.noteLabel k { l with serviceTouched := false })
  /-- a record added in the lowest free slot (R16, R17) -/
  | add {s : State} {k : Nat} {l : Label} :
      s.labels.lowestFree Config.labelCapacity = some k → l.AddedIn s → Edit s (s.writeLabel k (some l))
  /-- a record removed with its entry (R23, R152) -/
  | retire {s : State} {k : Nat} {l : Label} : s.label k = some l →
      Edit s ((s.setEntries (s.entries.filter fun e => e.label != k)).writeLabel k none)
  /-- a delivery ended: its entry freed, the record returned (R11 to R13) -/
  | giveBack {s : State} {e : Entry} {l l' : Label} : e ∈ s.entries → s.label e.label = some l → Label.Returned e l l' →
      Edit s ((s.freeEntry e).writeLabel e.label (some l'))
  /-- an entry freed whose label is gone -/
  | orphan {s : State} {e : Entry} : s.label e.label = none → Edit s (s.freeEntry e)
  /-- what the entries record of their messages rewritten (R84, R88) -/
  | relabel {s : State} {f : Entry → Entry} :
      (∀ e, (f e).place = e.place ∧ (f e).label = e.label ∧ (f e).address = e.address ∧ (f e).settings = e.settings) →
      Edit s (s.setEntries (s.entries.map f))
  /-- an item created in the lowest free slot (R34) -/
  | itemNew {s : State} {k : Nat} {x : Item} : s.items.lowestFree Config.itemCapacity = some k →
      (∀ ky ∈ s.items, ky.2.number ≠ x.number) → 1 ≤ x.number ∧ x.number ≤ 99999999 → x.bound = 0 →
      Edit s (s.setItems (s.items.put k x))
  /-- the price sets of an item rewritten (R35 to R38) -/
  | itemPut {s : State} {k : Nat} {x y : Item} : s.item k = some x → y.number = x.number → y.bound = x.bound →
      Edit s (s.setItems (s.items.put k y))
  /-- the price sets of all items rewritten (R82, R87) -/
  | itemMap {s : State} {f : Item → Item} : (∀ x, (f x).number = x.number ∧ (f x).bound = x.bound) →
      Edit s (s.setItems (s.items.map fun kx => (kx.1, f kx.2)))
  /-- an item removed that no label is bound to (R43) -/
  | itemErase {s : State} {k : Nat} {x : Item} : s.item k = some x → x.bound = 0 → Edit s (s.setItems (s.items.erase k))
  /-- a valid template stored (R50, R51) -/
  | template {s : State} {i : Nat} {t : Template} : i < 32 → t.Valid → Edit s (s.setTemplates (s.templates.put i t))

/-- One change of the records: an edit, a step of the air that moves no record, a grant, or a reset. -/
inductive Change : State → State → Prop
  | edit {s t : State} : Edit s t → Change s t
  /-- the radio, the windows or the frame number move, and no record -/
  | air {s t : State} : s.SameRecords t → Change s t
  /-- a grant: the entry filled, the record IN_FLIGHT (R10, R135 to R137) -/
  | grant {s : State} {lane : Lane} {slot : SlotNo} {k : Nat} {l : Label} :
      s.label k = some l → l.state = .queued → l.confirmed.lane = lane →
      Change s ((s.setEntries (s.entries ++ [s.grantEntry lane slot k l])).writeLabel k (some (s.grantedLabel l)))
  | reset {s : State} : Change s State.reset

/-! ## What writing a label record keeps -/

section
variable {s : State}

/-- A record written in a slot of the directory keeps the law of the tables when its address is in range and no other slot's. -/
theorem State.TablesLaw.writeLabel (h : s.TablesLaw) {k : Nat} (below : k < Config.labelCapacity) (new : Option Label)
    (fits : ∀ l ∈ new, (l.address ≠ 0 ∧ l.address ≠ 0xFFFFFF) ∧ ∀ j m, s.label j = some m → m.address = l.address → j = k) :
    (s.writeLabel k new).TablesLaw := by
  have items : ∀ i, ((s.writeLabel k new).item i).map Item.number = (s.item i).map Item.number := fun i => by
    have same := congrArg (Option.map Item.number) (s.writeLabel_item k new h.items_wf.1 i)
    simpa [Option.map_map, Function.comp_def, Item.unbound] using same
  have old : ∀ i x, (s.writeLabel k new).item i = some x → ∃ y, s.item i = some y ∧ y.number = x.number := fun i x found => by
    have same := items i
    rw [found] at same
    simpa using same.symm
  obtain ⟨labels, itemsWf, templates, unique, range, numbers, inRange⟩ := s.tablesLaw_iff.1 h
  rw [State.tablesLaw_iff]
  simp only [State.writeLabel_label k _ new s labels.1]
  refine ⟨State.writeLabel_wf k _ new s labels below, State.writeLabel_items_wf k _ new s itemsWf, ?_, ?_, ?_, ?_, ?_⟩
  · rw [(State.writeLabel_same k new s).templates]
    exact templates
  · intro i l j m hl hm same
    split at hl <;> split at hm
    · omega
    · exact absurd ((fits l hl).2 j m hm same.symm) (by assumption)
    · exact absurd ((fits m hm).2 i l hl same) (by assumption)
    · exact unique i l j m hl hm same
  · intro j l found
    split at found
    · exact (fits l found).1
    · exact range j l found
  · intro i x j y hx hy same
    obtain ⟨x', hx', ex⟩ := old i x hx
    obtain ⟨y', hy', ey⟩ := old j y hy
    exact numbers i x' j y' hx' hy' (ex.trans (same.trans ey.symm))
  · intro i x found
    obtain ⟨y, here, e⟩ := old i x found
    exact e ▸ inRange i y here

/-- A record rewritten with the address its slot has keeps the law of the tables. -/
theorem State.TablesLaw.rewrite (h : s.TablesLaw) {k : Nat} {l l' : Label} (here : s.label k = some l)
    (same : l'.address = l.address) : (s.writeLabel k (some l')).TablesLaw := by
  obtain ⟨-, -, -, unique, range, -⟩ := s.tablesLaw_iff.1 h
  refine h.writeLabel (h.label_lt here) _ fun m hm => ?_
  obtain rfl := Option.some.inj hm
  rw [same]
  exact ⟨range k l here, fun j m found e => unique j m k l found here e⟩

/-- The law of settings and templates by slot. -/
theorem State.layoutLaw_iff (s : State) (h : s.labels.Pairwise fun a b => a.1 < b.1) : s.LayoutLaw ↔
    (∀ k l, s.label k = some l → l.confirmed.Reduced ∧ (∀ c ∈ l.requested, c.Reduced)
      ∧ (s.templates.find l.template.val).isSome = true)
    ∧ (∀ e ∈ s.entries, e.settings.Reduced) ∧ ∀ kt ∈ s.templates, kt.2.Valid := by
  rw [State.LayoutLaw, Table.forall_mem_iff s.labels h]
  rfl

/-- A record written with reduced settings and a defined template keeps the law of settings and templates. -/
theorem State.LayoutLaw.writeLabel (tables : s.TablesLaw) (h : s.LayoutLaw) {k : Nat} (below : k < Config.labelCapacity)
    (new : Option Label) (fits : ∀ l ∈ new, l.confirmed.Reduced ∧ (∀ c ∈ l.requested, c.Reduced)
      ∧ (s.templates.find l.template.val).isSome = true) : (s.writeLabel k new).LayoutLaw := by
  rw [State.layoutLaw_iff s tables.rising] at h
  rw [State.layoutLaw_iff _ (State.writeLabel_wf k _ new s tables.labels_wf below).1]
  have same := State.writeLabel_same k new s
  rw [same.templates, same.entries]
  refine ⟨fun j l found => ?_, h.2⟩
  rw [State.writeLabel_label k j new s tables.rising] at found
  split at found
  · exact fits l found
  · exact h.1 j l found

/-- Every label is settled, and a label is IN_FLIGHT exactly when the in-flight table holds its one entry, which bears its address and
its confirmed lane: the part of the law of deliveries that concerns the records. -/
structure State.Agrees (s : State) : Prop where
  settled : ∀ k l, s.label k = some l → l.Settled
  single : (s.entries.map Entry.label).Nodup
  flying : ∀ e ∈ s.entries, ∃ l, s.label e.label = some l ∧ l.state = .inFlight ∧ l.address = e.address ∧ l.confirmed.lane = e.lane
  entered : ∀ k l, s.label k = some l → l.state = .inFlight → k ∈ s.entries.map Entry.label

/-- The law of deliveries in two parts: the records, and where the entries stand. -/
theorem State.deliveryLaw_iff (s : State) (h : s.labels.Pairwise fun a b => a.1 < b.1) : s.DeliveryLaw ↔ s.Agrees
    ∧ (∀ e ∈ s.entries, e.lane.val < s.radio.config.lanes.count)
    ∧ (∀ lane : Lane, s.laneEntries lane ≤ 64 / s.radio.config.lanes.count)
    ∧ (s.radio.state = .stopped → s.entries = []) := by
  have bears : ∀ e : Entry, (s.label e.label).any (fun l => l.state == .inFlight && l.address == e.address
      && l.confirmed.lane == e.lane) = true
      ↔ ∃ l, s.label e.label = some l ∧ l.state = .inFlight ∧ l.address = e.address ∧ l.confirmed.lane = e.lane := fun e => by
    cases s.label e.label <;> simp [and_assoc]
  rw [State.DeliveryLaw, Table.forall_mem_iff s.labels h, Table.forall_mem_iff s.labels h]
  simp only [bears]
  exact ⟨fun ⟨settled, single, flying, entered, lanes, partition, stopped⟩ =>
      ⟨⟨settled, single, flying, entered⟩, lanes, partition, stopped⟩,
    fun ⟨agrees, lanes, partition, stopped⟩ =>
      ⟨agrees.settled, agrees.single, agrees.flying, agrees.entered, lanes, partition, stopped⟩⟩

/-- An entry freed leaves the entries of the other labels. -/
theorem State.Agrees.mem_freed (h : s.Agrees) {e : Entry} (member : e ∈ s.entries) (d : Entry) :
    d ∈ s.entries.erase e ↔ d ∈ s.entries ∧ d.label ≠ e.label := by
  rw [(List.Nodup.of_map _ h.single).mem_erase_iff]
  constructor
  · exact fun ⟨other, there⟩ => ⟨there, fun same => other (List.inj_on_of_nodup_map h.single there member same)⟩
  · exact fun ⟨there, other⟩ => ⟨fun same => other (by rw [same]), there⟩

end

/-! ## Every edit keeps the laws -/

section
variable {s t : State}

theorem State.SameRecords.tables (e : s.SameRecords t) (h : s.TablesLaw) : t.TablesLaw := by
  simpa only [State.TablesLaw, e.labels, e.items, e.templates] using h

theorem State.SameRecords.label (e : s.SameRecords t) (k : Nat) : t.label k = s.label k := by simp [State.label, e.labels]

theorem State.SameRecords.item (e : s.SameRecords t) (k : Nat) : t.item k = s.item k := by simp [State.item, e.items]

theorem State.SameRecords.queueLaw (e : s.SameRecords t) (h : s.QueueLaw) : t.QueueLaw := by
  simpa only [State.QueueLaw, State.queue, e.label, e.labels, e.queues] using h

theorem State.SameRecords.countsLaw (e : s.SameRecords t) (h : s.CountsLaw) : t.CountsLaw := by
  simpa only [State.CountsLaw, State.tally, e.counts, e.labels] using h

theorem State.SameRecords.bound (e : s.SameRecords t) (h : s.BoundLaw) : t.BoundLaw := by
  simpa only [State.BoundLaw, e.item, e.items, e.labels] using h

theorem State.SameRecords.layout (e : s.SameRecords t) (h : s.LayoutLaw) : t.LayoutLaw := by
  simpa only [State.LayoutLaw, e.labels, e.entries, e.templates] using h

theorem State.SameRecords.agrees (e : s.SameRecords t) (h : s.Agrees) : t.Agrees where
  settled := by simpa only [e.label] using h.settled
  single := by simpa only [e.entries] using h.single
  flying := by simpa only [e.label, e.entries] using h.flying
  entered := by simpa only [e.label, e.entries] using h.entered

end

end Sys2Proof.Machine
end

