-- ==== Sys2Proof/Proofs/Kept.lean ====
section
/-! Every change of the records keeps the laws of the records: the tables (R1, R29, R46), the queues and counts (R6, R7), the bound
counts (R33), settings and templates (R2, R16, R19, R49), and the agreement of labels and entries (section 1.3, R133). -/

namespace Sys2Proof.Machine

section
variable {s t : State}

/-! ## A note of the record alone (R5, R22) -/

theorem State.noteLabel_label (k j : Nat) (l : Label) (s : State) :
    (s.noteLabel k l).label j = if j = k then some l else s.label j := Table.find_put s.labels k j l

/-- A count of records that does not see the note is the same after it. -/
theorem State.noteLabel_countP (p : Nat × Label → Bool) {k : Nat} {l l' : Label} (h : s.TablesLaw) (here : s.label k = some l)
    (same : p (k, l') = p (k, l)) : (s.noteLabel k l').labels.countP p = s.labels.countP p := by
  have count := Table.countP_write p s.labels k (some l') h.rising
  rw [show s.labels.find k = some l from here] at count
  simp only [countOpt, same] at count
  exact Nat.add_right_cancel count

theorem State.TablesLaw.note (h : s.TablesLaw) {k : Nat} {l l' : Label} (here : s.label k = some l)
    (same : l'.address = l.address) : (s.noteLabel k l').TablesLaw := by
  obtain ⟨labels, items, templates, unique, range, numbers⟩ := s.tablesLaw_iff.1 h
  have address : ∀ i m, (s.noteLabel k l').label i = some m → ∃ m', s.label i = some m' ∧ m'.address = m.address := by
    intro i m found
    rw [State.noteLabel_label] at found
    split at found
    · subst i
      obtain rfl := Option.some.inj found
      exact ⟨l, here, same.symm⟩
    · exact ⟨m, found, rfl⟩
  rw [State.tablesLaw_iff]
  refine ⟨s.labels.put_wf k _ l' labels (h.label_lt here), items, templates, fun i m j n hm hn e => ?_, fun i m hm => ?_, numbers⟩
  · obtain ⟨m', hm', em⟩ := address i m hm
    obtain ⟨n', hn', en⟩ := address j n hn
    exact unique i m' j n' hm' hn' (em.trans (e.trans en.symm))
  · obtain ⟨m', hm', em⟩ := address i m hm
    exact em ▸ range i m' hm'

/-! ## The tables (R1, R29, R46) -/

/-- An item written keeps the law of the tables when its number is in range and no other slot's. -/
theorem State.TablesLaw.setItem (h : s.TablesLaw) {k : Nat} {x : Item} (below : k < Config.itemCapacity)
    (range : 1 ≤ x.number ∧ x.number ≤ 99999999) (fresh : ∀ j y, s.item j = some y → y.number = x.number → j = k) :
    (s.setItems (s.items.put k x)).TablesLaw := by
  obtain ⟨labels, items, templates, unique, addresses, numbers, inRange⟩ := s.tablesLaw_iff.1 h
  rw [State.tablesLaw_iff]
  simp only [State.item, State.setItems_items, Table.find_put] at *
  refine ⟨labels, s.items.put_wf k _ x items below, templates, unique, addresses, fun i y j z hy hz same => ?_, fun i y hy => ?_⟩
  · split at hy <;> split at hz
    · omega
    · exact absurd (fresh j z hz (same ▸ by simp_all)) (by assumption)
    · exact absurd (fresh i y hy (same.trans (by simp_all))) (by assumption)
    · exact numbers i y j z hy hz same
  · split at hy
    · exact Option.some.inj hy ▸ range
    · exact inRange i y hy

theorem Edit.tables (e : Edit s t) (h : s.TablesLaw) : t.TablesLaw := by
  obtain ⟨labels, items, templates, unique, addresses, numbers, inRange⟩ := s.tablesLaw_iff.1 h
  cases e with
  | beside same _ => exact same.tables h
  | rewrite here kept => exact h.rewrite here kept.address
  | note here => exact h.note here rfl
  | @add k l free added =>
    obtain ⟨below, -, -⟩ := s.labels.lowestFree_spec _ k labels free
    refine h.writeLabel below _ fun m hm => ?_
    obtain rfl := Option.some.inj hm
    exact ⟨added.address, fun j m found same => absurd same (added.fresh _ ((h.mem_labels j m).2 found))⟩
  | @retire k l here =>
    exact State.TablesLaw.writeLabel (s := s.setEntries (s.entries.filter fun e => e.label != k))
      h (h.label_lt here) none (by simp)
  | giveBack _ here back => exact State.TablesLaw.rewrite (s := s.freeEntry _) h here back.address
  | orphan _ => exact h
  | relabel _ => exact h
  | @itemNew k x free fresh range _ =>
    obtain ⟨below, -, -⟩ := s.items.lowestFree_spec _ k items free
    exact h.setItem below range fun j y found same => absurd same (fresh _ ((h.mem_items j y).2 found))
  | @itemPut k x y here number _ =>
    refine h.setItem (s.items.find_lt _ k x items here) (number ▸ inRange k x here) fun j z found same => ?_
    exact numbers j z k x found here (same.trans number)
  | @itemMap f same =>
    rw [State.tablesLaw_iff]
    simp only [State.item, State.setItems_items, Table.find_map, Option.map_eq_some_iff]
    refine ⟨labels, s.items.map_wf f _ items, templates, unique, addresses, ?_, ?_⟩
    · rintro i _ j _ ⟨x, hx, rfl⟩ ⟨y, hy, rfl⟩ number
      rw [(same x).1, (same y).1] at number
      exact numbers i x j y hx hy number
    · rintro i _ ⟨x, hx, rfl⟩
      rw [(same x).1]
      exact inRange i x hx
  | @itemErase k x here _ =>
    have left : ∀ i y, (s.setItems (s.items.erase k)).item i = some y → s.item i = some y := by
      intro i y found
      rw [State.item, State.setItems_items, Table.find_erase s.items k i items.1] at found
      split at found
      · contradiction
      · exact found
    rw [State.tablesLaw_iff]
    exact ⟨labels, s.items.erase_wf k _ items, templates, unique, addresses,
      fun i x j y hx hy => numbers i x j y (left i x hx) (left j y hy), fun i x hx => inRange i x (left i x hx)⟩
  | @template i u below _ =>
    rw [State.tablesLaw_iff]
    exact ⟨labels, items, s.templates.put_wf i 32 u templates below, unique, addresses, numbers, inRange⟩

theorem State.reset_tablesLaw : State.reset.TablesLaw := by decide

theorem Change.tables (c : Change s t) (h : s.TablesLaw) : t.TablesLaw := by
  cases c with
  | edit e => exact e.tables h
  | air same => exact same.tables h
  | @grant lane slot k l here _ _ =>
    exact State.TablesLaw.rewrite (s := s.setEntries (s.entries ++ [s.grantEntry lane slot k l])) (l' := s.grantedLabel l) h here rfl
  | reset => exact State.reset_tablesLaw

/-! ## Queues and counts (R6, R7) -/

/-- Writing a label record in a slot of the directory keeps queues and counts. -/
theorem State.writeLabel_queue_counts {k : Nat} (new : Option Label) (tables : s.TablesLaw) (below : k < Config.labelCapacity)
    (h : s.QueueLaw ∧ s.CountsLaw) : (s.writeLabel k new).QueueLaw ∧ (s.writeLabel k new).CountsLaw :=
  ⟨State.writeLabel_queueLaw k new s tables.labels_wf below h.1, State.writeLabel_counts k new s tables.rising h.2⟩

theorem Edit.queue_counts (e : Edit s t) (tables : s.TablesLaw) (h : s.QueueLaw ∧ s.CountsLaw) : t.QueueLaw ∧ t.CountsLaw := by
  cases e with
  | beside same _ => exact ⟨same.queueLaw h.1, same.countsLaw h.2⟩
  | rewrite here _ => exact State.writeLabel_queue_counts _ tables (tables.label_lt here) h
  | @note k l here =>
    have tables' := tables.note here (l' := { l with serviceTouched := false }) rfl
    constructor
    · rw [State.queueLaw_iff _ tables'.rising]
      intro z
      obtain ⟨nodup, stands⟩ := (s.queueLaw_iff tables.rising).1 h.1 z
      refine ⟨nodup, fun j => (stands j).trans ?_⟩
      rw [State.noteLabel_label]
      split
      · subst j; rw [here]; rfl
      · rfl
    · have tally : ∀ z d, (s.noteLabel k { l with serviceTouched := false }).tally z d = s.tally z d := fun z d =>
        State.noteLabel_countP _ tables here rfl
      have counts := h.2
      simp only [State.CountsLaw, tally]
      exact counts
  | add free _ => exact State.writeLabel_queue_counts _ tables (s.labels.lowestFree_spec _ _ tables.labels_wf free).1 h
  | retire here => exact State.writeLabel_queue_counts (s := s.setEntries _) _ tables (tables.label_lt here) h
  | giveBack _ here _ => exact State.writeLabel_queue_counts (s := s.freeEntry _) _ tables (tables.label_lt here) h
  | orphan _ => exact h
  | relabel _ => exact h
  | itemNew _ _ _ _ => exact h
  | itemPut _ _ _ => exact h
  | itemMap _ => exact h
  | itemErase _ _ => exact h
  | template _ _ => exact h

theorem State.reset_queue_counts : State.reset.QueueLaw ∧ State.reset.CountsLaw := by
  constructor
  · intro z
    simp [State.queue, State.reset]
  · intro z
    simp [State.tally, State.zone, State.reset, Zone.reset]

theorem Change.queue_counts (c : Change s t) (tables : s.TablesLaw) (h : s.QueueLaw ∧ s.CountsLaw) :
    t.QueueLaw ∧ t.CountsLaw := by
  cases c with
  | edit e => exact e.queue_counts tables h
  | air same => exact ⟨same.queueLaw h.1, same.countsLaw h.2⟩
  | grant here _ _ => exact State.writeLabel_queue_counts (s := s.setEntries _) _ tables (tables.label_lt here) h
  | reset => exact State.reset_queue_counts

/-! ## Bound counts (R33) -/

/-- A record rewritten with the binding it has, or with one to an item of the table, keeps the bound counts. -/
theorem State.BoundLaw.rewrite (h : s.BoundLaw) (tables : s.TablesLaw) {k : Nat} {l l' : Label} (here : s.label k = some l)
    (named : l'.binding = l.binding ∨ ∀ i ∈ l'.binding, (s.item i).isSome = true) : (s.writeLabel k (some l')).BoundLaw := by
  refine State.writeLabel_bound k _ s tables.items_wf tables.labels_wf (tables.label_lt here) (fun m hm => ?_) h
  obtain rfl := Option.some.inj hm
  rcases named with same | named
  · rw [same]
    exact ((s.boundLaw_iff tables.items_wf.1 tables.rising).1 h).2 k l here
  · exact named

/-- The bound counts after items have been written, by slot: each is the number of labels bound to it, and no bound item is gone. -/
theorem State.BoundLaw.setItems (h : s.BoundLaw) (tables : s.TablesLaw) {items : Table Item}
    (tables' : (s.setItems items).TablesLaw)
    (counts : ∀ i x, items.find i = some x → x.bound = s.boundTo i)
    (stay : ∀ i, 0 < s.boundTo i → (s.item i).isSome = true → (items.find i).isSome = true) : (s.setItems items).BoundLaw := by
  rw [State.boundLaw_iff _ tables'.items_wf.1 tables'.rising]
  refine ⟨counts, fun k l here i bound => stay i ?_ ?_⟩
  · exact List.countP_pos_iff.2 ⟨(k, l), (tables.mem_labels k l).2 here, by simpa using bound⟩
  · exact ((s.boundLaw_iff tables.items_wf.1 tables.rising).1 h).2 k l here i bound

theorem Edit.bound (e : Edit s t) (tables : s.TablesLaw) (h : s.BoundLaw) : t.BoundLaw := by
  have tables' := e.tables tables
  obtain ⟨counts, named⟩ := (s.boundLaw_iff tables.items_wf.1 tables.rising).1 h
  cases e with
  | beside same _ => exact same.bound h
  | rewrite here kept => exact h.rewrite tables here kept.binding
  | @note k l here =>
    rw [State.boundLaw_iff _ tables'.items_wf.1 tables'.rising]
    constructor
    · intro i x found
      rw [counts i x found]
      exact (State.noteLabel_countP (l' := { l with serviceTouched := false }) (fun kl => kl.2.binding == some i) tables here
        rfl).symm
    · intro j m found
      rw [State.noteLabel_label] at found
      split at found
      · obtain rfl := Option.some.inj found
        exact named k l here
      · exact named j m found
  | @add k l free added =>
    refine State.writeLabel_bound k _ s tables.items_wf tables.labels_wf
      (s.labels.lowestFree_spec _ k tables.labels_wf free).1 (fun m hm => ?_) h
    obtain rfl := Option.some.inj hm
    exact added.binding
  | retire here =>
    exact State.writeLabel_bound _ none (s.setEntries _) tables.items_wf tables.labels_wf (tables.label_lt here) (by simp) h
  | giveBack _ here back => exact State.BoundLaw.rewrite (s := s.freeEntry _) h tables here (.inl back.binding)
  | orphan _ => exact h
  | relabel _ => exact h
  | @itemNew k x free _ _ unbound =>
    obtain ⟨-, empty, -⟩ := s.items.lowestFree_spec _ k tables.items_wf free
    have none_bound : s.boundTo k = 0 := by
      refine List.countP_eq_zero.2 fun kl member bound => ?_
      have there := named kl.1 kl.2 ((tables.mem_labels _ _).1 member) k (by simpa using bound)
      simp [State.item, empty] at there
    refine h.setItems tables tables' (fun i y found => ?_) (fun i _ there => ?_)
    · rw [Table.find_put] at found
      split at found
      · subst i
        rw [← Option.some.inj found, unbound, none_bound]
      · exact counts i y found
    · rw [Table.find_put]
      split
      · rfl
      · exact there
  | @itemPut k x y here _ bound =>
    refine h.setItems tables tables' (fun i z found => ?_) (fun i _ there => ?_)
    · rw [Table.find_put] at found
      split at found
      · subst i
        rw [← Option.some.inj found, bound, counts k x here]
      · exact counts i z found
    · rw [Table.find_put]
      split
      · rfl
      · exact there
  | @itemMap f same =>
    refine h.setItems tables tables' (fun i y found => ?_) (fun i _ there => ?_)
    · rw [Table.find_map] at found
      obtain ⟨x, here, rfl⟩ := Option.map_eq_some_iff.1 found
      rw [(same x).2, counts i x here]
    · rwa [Table.find_map, Option.isSome_map]
  | @itemErase k x here unbound =>
    refine h.setItems tables tables' (fun i y found => ?_) (fun i some_bound there => ?_)
    · rw [Table.find_erase s.items k i tables.items_wf.1] at found
      split at found
      · contradiction
      · exact counts i y found
    · rw [Table.find_erase s.items k i tables.items_wf.1, if_neg]
      · exact there
      · rintro rfl
        have := counts i x here
        omega
  | template _ _ => exact h

theorem State.reset_boundLaw : State.reset.BoundLaw := by decide

theorem Change.bound (c : Change s t) (tables : s.TablesLaw) (h : s.BoundLaw) : t.BoundLaw := by
  cases c with
  | edit e => exact e.bound tables h
  | air same => exact same.bound h
  | @grant lane slot k l here _ _ =>
    exact State.BoundLaw.rewrite (s := s.setEntries (s.entries ++ [s.grantEntry lane slot k l]))
      (l' := s.grantedLabel l) h tables here (.inl rfl)
  | reset => exact State.reset_boundLaw

/-! ## Settings and templates (R2, R16, R19, R46, R47, R49) -/

theorem Edit.layout (e : Edit s t) (tables : s.TablesLaw) (h : s.LayoutLaw) : t.LayoutLaw := by
  obtain ⟨records, entries, valid⟩ := (s.layoutLaw_iff tables.rising).1 h
  cases e with
  | beside same _ => exact same.layout h
  | @rewrite k l l' here kept =>
    refine h.writeLabel tables (tables.label_lt here) _ fun m hm => ?_
    obtain rfl := Option.some.inj hm
    obtain ⟨confirmed, requested, template⟩ := records k l here
    exact ⟨kept.confirmed ▸ confirmed, fun c given => (kept.requested c given).elim (requested c) id,
      kept.template.elim (fun same => same ▸ template) id⟩
  | @note k l here =>
    rw [State.layoutLaw_iff _ (tables.note here (l' := { l with serviceTouched := false }) rfl).rising]
    refine ⟨fun j m found => ?_, entries, valid⟩
    rw [State.noteLabel_label] at found
    split at found
    · obtain rfl := Option.some.inj found
      exact records k l here
    · exact records j m found
  | @add k l free added =>
    refine h.writeLabel tables (s.labels.lowestFree_spec _ k tables.labels_wf free).1 _ fun m hm => ?_
    obtain rfl := Option.some.inj hm
    exact ⟨added.confirmed, by simp [added.requested], added.template⟩
  | @retire k l here =>
    refine State.LayoutLaw.writeLabel (s := s.setEntries (s.entries.filter fun e => e.label != k))
      tables ?_ (tables.label_lt here) none (by simp)
    exact ⟨h.1, fun e member => entries e (List.mem_filter.1 member).1, valid⟩
  | @giveBack e l l' member here back =>
    obtain ⟨confirmed, requested, template⟩ := records _ l here
    refine State.LayoutLaw.writeLabel (s := s.freeEntry e) tables ?_ (tables.label_lt here) _ fun m hm => ?_
    · exact ⟨h.1, fun d freed => entries d (List.mem_of_mem_erase freed), valid⟩
    · obtain rfl := Option.some.inj hm
      refine ⟨back.confirmed.elim (fun same => same ▸ confirmed) (fun same => same ▸ entries e member), ?_, back.template ▸ template⟩
      exact back.requested.elim (fun same => same ▸ requested) (fun gone => by simp [gone])
  | orphan _ => exact ⟨h.1, fun d freed => entries d (List.mem_of_mem_erase freed), valid⟩
  | @relabel f same =>
    refine ⟨h.1, fun d member => ?_, valid⟩
    obtain ⟨e, there, rfl⟩ := List.mem_map.1 member
    obtain ⟨-, -, -, settings⟩ := same e
    exact settings ▸ entries e there
  | itemNew _ _ _ _ => exact h
  | itemPut _ _ _ => exact h
  | itemMap _ => exact h
  | itemErase _ _ => exact h
  | @template i u below fits =>
    refine ⟨fun kl member => ?_, entries, fun kt member => ?_⟩
    · obtain ⟨confirmed, requested, template⟩ := h.1 kl member
      refine ⟨confirmed, requested, ?_⟩
      rw [State.setTemplates_templates, Table.find_put]
      split
      · rfl
      · exact template
    · rcases s.templates.mem_put i u kt member with rfl | there
      · exact fits
      · exact valid kt there

theorem State.reset_layoutLaw : State.reset.LayoutLaw :=
  ⟨fun _ member => absurd member List.not_mem_nil, fun _ member => absurd member List.not_mem_nil,
    fun _ member => absurd member List.not_mem_nil⟩

theorem Change.layout (c : Change s t) (tables : s.TablesLaw) (h : s.LayoutLaw) : t.LayoutLaw := by
  cases c with
  | edit e => exact e.layout tables h
  | air same => exact same.layout h
  | @grant lane slot k l here _ _ =>
    obtain ⟨records, entries, valid⟩ := (s.layoutLaw_iff tables.rising).1 h
    obtain ⟨confirmed, requested, template⟩ := records k l here
    refine State.LayoutLaw.writeLabel (s := s.setEntries (s.entries ++ [s.grantEntry lane slot k l]))
      tables ?_ (tables.label_lt here) _ fun m hm => ?_
    · refine ⟨h.1, fun e member => ?_, valid⟩
      rcases List.mem_append.1 member with there | last
      · exact entries e there
      · obtain rfl := List.mem_singleton.1 last
        cases asked : l.requested with
        | none => simpa [State.grantEntry, Label.settingsToSend, asked] using confirmed
        | some c => simpa [State.grantEntry, Label.settingsToSend, asked] using requested c asked
    · obtain rfl := Option.some.inj hm
      exact ⟨confirmed, requested, template⟩
  | reset => exact State.reset_layoutLaw

/-! ## Labels and entries (section 1.3, R133) -/

/-- A record rewritten in its slot, IN_FLIGHT neither entered nor left, keeps labels and entries in step. -/
theorem State.Agrees.rewrite (h : s.Agrees) {k : Nat} {l l' : Label} (here : s.label k = some l)
    (read : ∀ j, t.label j = if j = k then some l' else s.label j) (entries : t.entries = s.entries)
    (address : l'.address = l.address) (confirmed : l'.confirmed = l.confirmed)
    (inFlight : l'.state = .inFlight ↔ l.state = .inFlight) (settled : l'.Settled) : t.Agrees where
  settled j m found := by
    rw [read] at found
    split at found
    · exact Option.some.inj found ▸ settled
    · exact h.settled j m found
  single := entries ▸ h.single
  flying e member := by
    rw [entries] at member
    obtain ⟨m, there, flies, named, lane⟩ := h.flying e member
    rw [read]
    split
    · rename_i same
      obtain rfl := Option.some.inj (here.symm.trans (same ▸ there))
      exact ⟨l', rfl, inFlight.2 flies, address.trans named, (congrArg Settings.lane confirmed).trans lane⟩
    · exact ⟨m, there, flies, named, lane⟩
  entered j m found flies := by
    rw [entries]
    rw [read] at found
    split at found
    · obtain rfl := Option.some.inj found
      exact ‹j = k› ▸ h.entered k l here (inFlight.1 flies)
    · exact h.entered j m found flies

/-- A record that is not IN_FLIGHT, or none, written in a slot that no entry is left for keeps labels and entries in step. -/
theorem State.Agrees.settle (h : s.Agrees) {k : Nat} {new : Option Label}
    (read : ∀ j, t.label j = if j = k then new else s.label j)
    (entries : t.entries.Sublist s.entries) (left : ∀ e, e ∈ t.entries ↔ e ∈ s.entries ∧ e.label ≠ k)
    (settled : ∀ l ∈ new, l.state ≠ .inFlight ∧ l.Settled) : t.Agrees where
  settled j m found := by
    rw [read] at found
    split at found
    · exact (settled m found).2
    · exact h.settled j m found
  single := h.single.sublist (entries.map _)
  flying e member := by
    obtain ⟨there, other⟩ := (left e).1 member
    rw [read, if_neg other]
    exact h.flying e there
  entered j m found flies := by
    rw [read] at found
    split at found
    · exact absurd flies (settled m found).1
    · rename_i other
      obtain ⟨e, member, rfl⟩ := List.mem_map.1 (h.entered j m found flies)
      exact List.mem_map_of_mem ((left e).2 ⟨member, other⟩)

theorem Edit.agrees (e : Edit s t) (tables : s.TablesLaw) (h : s.Agrees) : t.Agrees := by
  cases e with
  | beside same _ => exact same.agrees h
  | @rewrite k l l' here kept =>
    exact h.rewrite here (fun j => State.writeLabel_find k j l' s) (State.writeLabel_same k _ s).entries kept.address
      kept.confirmed kept.inFlight (kept.settled (h.settled k l here))
  | @note k l here =>
    exact h.rewrite here (fun j => State.noteLabel_label k j _ s) rfl rfl rfl Iff.rfl (h.settled k l here)
  | @add k l free added =>
    obtain ⟨-, empty, -⟩ := s.labels.lowestFree_spec _ k tables.labels_wf free
    have same := (State.writeLabel_same k (some l) s).entries
    refine h.settle (fun j => State.writeLabel_find k j l s) (same ▸ List.Sublist.refl _) (fun e => ?_) fun m hm => ?_
    · rw [same]
      refine ⟨fun member => ⟨member, ?_⟩, fun both => both.1⟩
      rintro rfl
      obtain ⟨m, there, -⟩ := h.flying e member
      simp [State.label, empty] at there
    · obtain rfl := Option.some.inj hm
      exact ⟨added.away, added.settled⟩
  | @retire k l here =>
    have same := (State.writeLabel_same k none (s.setEntries (s.entries.filter fun e => e.label != k))).entries
    refine h.settle (fun j => State.writeLabel_label k j none _ tables.rising) ?_ (fun e => ?_) (by simp)
    · exact same ▸ List.filter_sublist
    · rw [same]
      simp
  | @giveBack e l l' member here back =>
    obtain ⟨m, there, flies, -⟩ := h.flying e member
    obtain rfl := Option.some.inj (here.symm.trans there)
    have same := (State.writeLabel_same e.label (some l') (s.freeEntry e)).entries
    refine h.settle (fun j => State.writeLabel_find e.label j l' (s.freeEntry e)) ?_ (fun d => ?_) fun m hm => ?_
    · exact same ▸ List.erase_sublist
    · rw [same]
      exact h.mem_freed member d
    · obtain rfl := Option.some.inj hm
      exact ⟨back.away, back.settled (h.settled _ l here) flies⟩
  | @orphan e gone =>
    have absent : e ∉ s.entries := fun member => by
      obtain ⟨m, there, -⟩ := h.flying e member
      rw [gone] at there
      contradiction
    rw [State.freeEntry, List.erase_of_not_mem absent]
    exact h
  | @relabel f same =>
    have labels : (s.entries.map f).map Entry.label = s.entries.map Entry.label := by
      rw [List.map_map]
      exact List.map_congr_left fun e _ => (same e).2.1
    refine ⟨h.settled, labels ▸ h.single, fun d member => ?_, fun k l here flies => labels ▸ h.entered k l here flies⟩
    obtain ⟨e, there, rfl⟩ := List.mem_map.1 member
    obtain ⟨place, label, address, -⟩ := same e
    rw [label, address, show (f e).lane = e.lane from congrArg Prod.fst place]
    exact h.flying e there
  | itemNew _ _ _ _ => exact ⟨h.settled, h.single, h.flying, h.entered⟩
  | itemPut _ _ _ => exact ⟨h.settled, h.single, h.flying, h.entered⟩
  | itemMap _ => exact ⟨h.settled, h.single, h.flying, h.entered⟩
  | itemErase _ _ => exact ⟨h.settled, h.single, h.flying, h.entered⟩
  | template _ _ => exact ⟨h.settled, h.single, h.flying, h.entered⟩

theorem State.reset_agrees : State.reset.Agrees where
  settled k l here := by simp [State.label, State.reset, Table.find] at here
  single := List.nodup_nil
  flying e member := absurd member List.not_mem_nil
  entered k l here := by simp [State.label, State.reset, Table.find] at here

theorem Change.agrees (c : Change s t) (tables : s.TablesLaw) (h : s.Agrees) : t.Agrees := by
  cases c with
  | edit e => exact e.agrees tables h
  | air same => exact same.agrees h
  | @grant lane slot k l here queued onLane =>
    have entries := (State.writeLabel_same k (some (s.grantedLabel l))
      (s.setEntries (s.entries ++ [s.grantEntry lane slot k l]))).entries
    have read : ∀ j, ((s.setEntries (s.entries ++ [s.grantEntry lane slot k l])).writeLabel k (some (s.grantedLabel l))).label j
        = if j = k then some (s.grantedLabel l) else s.label j := fun j => State.writeLabel_find k j _ _
    have apart : ∀ e ∈ s.entries, e.label ≠ k := by
      rintro e member rfl
      obtain ⟨m, there, flies, -⟩ := h.flying e member
      obtain rfl := Option.some.inj (here.symm.trans there)
      simp [queued] at flies
    refine ⟨fun j m found => ?_, ?_, fun e member => ?_, fun j m found flies => ?_⟩
    · rw [read] at found
      split at found
      · exact Option.some.inj found ▸ s.grantedLabel_settled (h.settled k l here) queued
      · exact h.settled j m found
    · rw [entries, State.setEntries_entries, List.map_append, List.map_singleton]
      refine List.nodup_append.2 ⟨h.single, List.nodup_singleton _, fun a old b new => ?_⟩
      obtain ⟨e, member, rfl⟩ := List.mem_map.1 old
      obtain rfl := List.mem_singleton.1 new
      exact apart e member
    · rw [entries, State.setEntries_entries] at member
      rw [read]
      rcases List.mem_append.1 member with old | new
      · rw [if_neg (apart e old)]
        exact h.flying e old
      · obtain rfl := List.mem_singleton.1 new
        exact ⟨s.grantedLabel l, if_pos rfl, rfl, rfl, onLane⟩
    · rw [entries, State.setEntries_entries, List.map_append]
      rw [read] at found
      split at found
      · subst j
        exact List.mem_append_right _ (List.mem_singleton.2 rfl)
      · exact List.mem_append_left _ (h.entered j m found flies)
  | reset => exact State.reset_agrees

end

end Sys2Proof.Machine
end

