-- ==== Sys2Proof/Proofs/Chains.lean ====
section
/-! Chains of edits: what the shared operations of the blocks come to (chapters 1, 4, 7, 8). -/

namespace Sys2Proof.Machine

/-- Edits one after another. -/
abbrev Edits : State → State → Prop := Relation.ReflTransGen Edit

/-- Changes one after another. -/
abbrev Changes : State → State → Prop := Relation.ReflTransGen Change

section
variable {s t u : State}

/-- What every change keeps on top of the law of the tables, a chain of changes keeps. -/
theorem Changes.keep {P : State → Prop} (step : ∀ {u v}, Change u v → u.TablesLaw → P u → P v) (c : Changes s t)
    (tables : s.TablesLaw) (h : P s) : t.TablesLaw ∧ P t := by
  induction c with
  | refl => exact ⟨tables, h⟩
  | tail _ one ih => exact ⟨one.tables ih.1, step one ih.1 ih.2⟩

theorem Changes.tables (c : Changes s t) (tables : s.TablesLaw) : t.TablesLaw :=
  (c.keep (P := fun _ => True) (fun _ _ _ => trivial) tables trivial).1

theorem Edits.changes (e : Edits s t) : Changes s t := Relation.ReflTransGen.mono (fun _ _ => Change.edit) s t e

theorem Edits.tables (e : Edits s t) (tables : s.TablesLaw) : t.TablesLaw := e.changes.tables tables

/-! ## The air under edits -/

theorem State.SameAir.refl (s : State) : s.SameAir s := ⟨rfl, rfl, rfl, List.Sublist.refl _⟩

theorem State.SameAir.trans (h : s.SameAir t) (k : t.SameAir u) : s.SameAir u :=
  ⟨k.radio.trans h.radio, k.windows.trans h.windows, k.windowsOpen.trans h.windowsOpen, k.places.trans h.places⟩

/-- Entries dropped and label records written leave the air. -/
theorem State.writeLabel_sameAir (k : Nat) (new : Option Label) {entries : List Entry} (fewer : entries.Sublist s.entries) :
    s.SameAir ((s.setEntries entries).writeLabel k new) := by
  have same := State.writeLabel_same k new (s.setEntries entries)
  exact ⟨same.radio, congrArg Air.windows same.air, congrArg Air.windowsOpen same.air,
    (congrArg (List.map Entry.place) same.entries) ▸ fewer.map _⟩

theorem Edit.sameAir (e : Edit s t) : s.SameAir t := by
  have none_freed : ∀ k new, s.SameAir (s.writeLabel k new) := fun k new => State.writeLabel_sameAir k new (List.Sublist.refl _)
  cases e with
  | beside _ air => exact air
  | rewrite _ _ => exact none_freed _ _
  | note _ => exact ⟨rfl, rfl, rfl, .refl _⟩
  | add _ _ => exact none_freed _ _
  | retire _ => exact State.writeLabel_sameAir _ _ List.filter_sublist
  | giveBack _ _ _ => exact State.writeLabel_sameAir _ _ List.erase_sublist
  | orphan _ => exact ⟨rfl, rfl, rfl, List.erase_sublist.map _⟩
  | @relabel f same =>
    refine ⟨rfl, rfl, rfl, ?_⟩
    have places : (s.entries.map f).map Entry.place = s.entries.map Entry.place := by
      rw [List.map_map]
      exact List.map_congr_left fun e _ => (same e).1
    rw [State.setEntries_entries, places]
  | itemNew _ _ _ _ => exact ⟨rfl, rfl, rfl, .refl _⟩
  | itemPut _ _ _ => exact ⟨rfl, rfl, rfl, .refl _⟩
  | itemMap _ => exact ⟨rfl, rfl, rfl, .refl _⟩
  | itemErase _ _ => exact ⟨rfl, rfl, rfl, .refl _⟩
  | template _ _ => exact ⟨rfl, rfl, rfl, .refl _⟩

theorem Edits.sameAir (e : Edits s t) : s.SameAir t := by
  induction e with
  | refl => exact .refl s
  | tail _ one ih => exact ih.trans one.sameAir

/-! ## Beside the records -/

/-- Whatever moves no record and leaves the air is an edit. -/
theorem Edits.beside (records : s.SameRecords t) (air : s.SameAir t) : Edits s t := .single (.beside records air)

theorem State.setGateway_edits (x : Gateway) (s : State) : Edits s (s.setGateway x) :=
  .beside ⟨rfl, rfl, rfl, rfl, rfl, fun _ => rfl⟩ ⟨rfl, rfl, rfl, .refl _⟩

theorem State.setService_edits (x : ServiceLine) (s : State) : Edits s (s.setService x) :=
  .beside ⟨rfl, rfl, rfl, rfl, rfl, fun _ => rfl⟩ ⟨rfl, rfl, rfl, .refl _⟩

theorem State.setNotices_edits (x : Notices) (s : State) : Edits s (s.setNotices x) :=
  .beside ⟨rfl, rfl, rfl, rfl, rfl, fun _ => rfl⟩ ⟨rfl, rfl, rfl, .refl _⟩

theorem State.setEpoch_edits (x : EpochRecord) (s : State) : Edits s (s.setEpoch x) :=
  .beside ⟨rfl, rfl, rfl, rfl, rfl, fun _ => rfl⟩ ⟨rfl, rfl, rfl, .refl _⟩

theorem State.setPending_edits (x : List Instr) (s : State) : Edits s (s.setPending x) :=
  .beside ⟨rfl, rfl, rfl, rfl, rfl, fun _ => rfl⟩ ⟨rfl, rfl, rfl, .refl _⟩

theorem State.setInReset_edits (x : Bool) (s : State) : Edits s (s.setInReset x) :=
  .beside ⟨rfl, rfl, rfl, rfl, rfl, fun _ => rfl⟩ ⟨rfl, rfl, rfl, .refl _⟩

theorem State.setHoldSet_edits (x : List ZoneNo) (s : State) : Edits s (s.setHoldSet x) :=
  .beside ⟨rfl, rfl, rfl, rfl, rfl, fun _ => rfl⟩ ⟨rfl, rfl, rfl, .refl _⟩

theorem State.setHoldsDue_edits (x : List ZoneNo) (s : State) : Edits s (s.setHoldsDue x) :=
  .beside ⟨rfl, rfl, rfl, rfl, rfl, fun _ => rfl⟩ ⟨rfl, rfl, rfl, .refl _⟩

theorem State.setAir_edits (x : Air) (s : State) (windows : x.windows = s.air.windows)
    (windowsOpen : x.windowsOpen = s.air.windowsOpen) : Edits s (s.setAir x) :=
  .beside ⟨rfl, rfl, rfl, rfl, rfl, fun _ => rfl⟩ ⟨rfl, windows, windowsOpen, .refl _⟩

/-- A zone record written with the counts it has. -/
theorem State.setZone_edits (z : ZoneNo) (x : Zone) (s : State) (counts : x.counts = (s.zone z).counts) :
    Edits s (s.setZone z x) := by
  refine .beside ⟨rfl, rfl, rfl, rfl, rfl, fun w => ?_⟩ ⟨rfl, rfl, rfl, .refl _⟩
  rw [State.setZone_zone]
  split
  · subst w; exact counts
  · rfl

theorem State.raise_edits (x : Source) (s : State) : Edits s (s.raise x) := s.setNotices_edits _

theorem State.reportStaged_edits (s before : State) : Edits s (s.reportStaged before) := by
  rw [State.reportStaged_eq]
  split
  · exact (s.setEpoch_edits _).trans (State.raise_edits _ _)
  · exact s.setEpoch_edits _

/-- Edits repeated over a list. -/
theorem Edits.foldl {α : Type} (f : State → α → State) (one : ∀ s a, Edits s (f s a)) (work : List α) (s : State) :
    Edits s (work.foldl f s) := by
  induction work generalizing s with
  | nil => exact .refl
  | cons a work ih => exact (one s a).trans (ih (f s a))

/-! ## Label records rewritten (R40, R51, R83, R151) -/

/-- A record of one setup is kept, whatever it was rewritten in. -/
theorem Label.SameSetup.kept {l l' : Label} (h : l.SameSetup l') (inFlight : l'.state = .inFlight ↔ l.state = .inFlight)
    (settled : l.Settled → l'.Settled) (s : State) : l.KeptIn s l' :=
  ⟨h.address, h.confirmed, fun _ given => .inl (h.requested ▸ given), .inl h.template, .inl h.binding, inFlight, settled⟩

/-- Records written one after another in different slots: what each slot reads as. -/
theorem State.foldl_writeLabel_label (change : Nat → Label → Label) (work : Table Label) (s : State) (j : Nat)
    (h : work.Pairwise fun a b => a.1 < b.1) :
    (work.foldl (fun t kv => t.writeLabel kv.1 (some (change kv.1 kv.2))) s).label j
      = ((work.find j).map (change j)).or (s.label j) := by
  induction work generalizing s with
  | nil => simp [Table.find]
  | cons kv work ih =>
    rw [List.pairwise_cons] at h
    rw [List.foldl_cons, ih _ h.2, State.writeLabel_find]
    simp only [Table.find]
    split
    · subst j
      rw [Table.find_below work kv.1 h.1]
      rfl
    · rfl

/-- A record of a part of a table, by slot. -/
theorem Table.find_filter {α : Type} (t : Table α) (p : Nat × α → Bool) (k : Nat) (h : t.Pairwise fun a b => a.1 < b.1) :
    Table.find (t.filter p) k = (t.find k).filter fun x => p (k, x) := by
  have filtered : (t.filter p).Pairwise fun a b => a.1 < b.1 := h.filter p
  apply Option.ext
  intro x
  rw [← Table.mem_iff_find _ filtered, List.mem_filter, Table.mem_iff_find t h, Option.filter_eq_some_iff]

/-- What each slot reads as after the records that meet a test are rewritten. -/
theorem State.updateLabels_label (test : Nat → Label → Bool) (change : Nat → Label → Label) (s : State) (j : Nat)
    (h : s.labels.Pairwise fun a b => a.1 < b.1) :
    (s.updateLabels test change).label j = (s.label j).map fun l => if test j l then change j l else l := by
  rw [State.updateLabels, State.foldl_writeLabel_label _ _ _ _ (h.filter _), Table.find_filter _ _ _ h]
  cases found : s.label j with
  | none => simp [show s.labels.find j = none from found]
  | some l =>
    rw [show s.labels.find j = some l from found]
    by_cases meets : test j l = true <;> simp [Option.filter, meets]

/-- Rewriting records, each kept in its setup, is a chain of edits. -/
theorem State.updateLabels_edits (test : Nat → Label → Bool) (change : Nat → Label → Label) (s : State) (tables : s.TablesLaw)
    (kept : ∀ k l, test k l = true → ∀ u, l.KeptIn u (change k l)) : Edits s (s.updateLabels test change) := by
  have chain : ∀ (work : Table Label) (u : State), work.Pairwise (fun a b => a.1 < b.1) →
      (∀ kv ∈ work, u.label kv.1 = some kv.2 ∧ test kv.1 kv.2 = true) →
      Edits u (work.foldl (fun t kv => t.writeLabel kv.1 (some (change kv.1 kv.2))) u) := by
    intro work
    induction work with
    | nil => intro u _ _; exact .refl
    | cons kv work ih =>
      intro u rising holds
      rw [List.pairwise_cons] at rising
      obtain ⟨here, meets⟩ := holds kv List.mem_cons_self
      refine .trans (.single (.rewrite here (kept kv.1 kv.2 meets u))) (ih _ rising.2 fun jw member => ?_)
      rw [State.writeLabel_find, if_neg (Nat.ne_of_gt (rising.1 jw member))]
      exact holds jw (List.mem_cons_of_mem _ member)
  refine chain _ s (tables.rising.filter _) fun kv member => ?_
  obtain ⟨there, meets⟩ := List.mem_filter.1 member
  exact ⟨(tables.mem_labels _ _).1 there, meets⟩

theorem Label.mark_kept (shown staged : Bool) (l : Label) (s : State) : l.KeptIn s (l.mark shown staged) :=
  (l.mark_setup shown staged).kept (l.mark_inFlight shown staged) (fun settled => settled.tidy.mark shown staged) s

theorem Label.owe_kept (n : Needs) (l : Label) (s : State) : l.KeptIn s (l.owe n) :=
  (l.owe_setup n).kept (l.owe_inFlight n) (fun settled => settled.tidy.owe n) s

theorem Label.revive_kept (l : Label) (s : State) : l.KeptIn s l.revive :=
  l.revive_setup.kept l.revive_inFlight (fun settled => settled.revive) s

theorem Label.retry_kept (l : Label) (waits : l.state = .backoff) (s : State) : l.KeptIn s l.retry :=
  l.retry_setup.kept (by simp [Label.retry, waits]) (fun settled => settled.retry waits) s

theorem State.markBound_edits (slot : Nat) (shown : Bool) (marks : Nat → Label → Bool) (s : State) (tables : s.TablesLaw) :
    Edits s (s.markBound slot shown marks) :=
  s.updateLabels_edits _ _ tables fun _ l _ u => l.mark_kept shown _ u

theorem State.markTemplate_edits (i : Fin 32) (s : State) (tables : s.TablesLaw) : Edits s (s.markTemplate i) :=
  s.updateLabels_edits _ _ tables fun _ l _ u => l.mark_kept true _ u

theorem State.takeRetries_edits (s : State) (tables : s.TablesLaw) : Edits s s.takeRetries :=
  s.updateLabels_edits _ _ tables fun _ l due u => l.retry_kept (by simp_all [State.retryDue]) u

/-! ## Changeovers (R82 to R88) -/

theorem Entry.relabelled_same (e : Entry) : e.relabelled.place = e.place ∧ e.relabelled.label = e.label
    ∧ e.relabelled.address = e.address ∧ e.relabelled.settings = e.settings := by
  unfold Entry.relabelled
  split <;> exact ⟨rfl, rfl, rfl, rfl⟩

theorem Entry.withdrawn_same (e : Entry) : e.withdrawn.place = e.place ∧ e.withdrawn.label = e.label
    ∧ e.withdrawn.address = e.address ∧ e.withdrawn.settings = e.settings := by
  unfold Entry.withdrawn
  split <;> exact ⟨rfl, rfl, rfl, rfl⟩

theorem State.cutover_edits (s : State) (tables : s.TablesLaw) : Edits s s.cutover := by
  have items : Edits s (s.setItems (s.items.map fun kx => (kx.1, kx.2.committed))) :=
    .single (.itemMap fun _ => ⟨rfl, rfl⟩)
  have labels := State.updateLabels_edits (fun _ _ => true) (fun _ l => l.cutOver s.epoch.pending) _ (items.tables tables)
    fun _ l _ u => (l.cutOver_setup _).kept (by simp) (fun settled => settled.cutOver _) u
  refine (items.trans labels).trans (.trans (.single (.relabel (f := Entry.relabelled) Entry.relabelled_same)) ?_)
  exact (State.setEpoch_edits _ _).trans (State.raise_edits _ _)

theorem State.takeExpiry_edits (s : State) (tables : s.TablesLaw) : Edits s s.takeExpiry := by
  unfold State.takeExpiry
  split
  · exact s.cutover_edits tables
  · exact .refl

/-! ## Holds (chapter 8) -/

theorem State.endHold_edits (z : ZoneNo) (s : State) : Edits s (s.endHold z) :=
  (((s.setZone_edits z { s.zone z with hold := .none, holdStart := none, holdFrames := 0 } rfl).trans
    (State.setHoldSet_edits _ _)).trans (State.setHoldsDue_edits _ _)).trans (State.raise_edits _ _)

theorem State.takeHoldCount_edits (z : ZoneNo) (s : State) : Edits s (s.takeHoldCount z) := by
  simp only [State.takeHoldCount]
  split
  · have counted := (s.setZone_edits z (s.zone z).counted rfl).trans (State.setHoldsDue_edits (s.holdsDue.erase z) _)
    split
    · exact counted.trans (State.endHold_edits z _)
    · exact counted
  · exact .refl

theorem State.takeDueHolds_edits (s : State) : Edits s s.takeDueHolds :=
  Edits.foldl _ (fun u z => u.takeHoldCount_edits z) _ s

theorem State.endAllHolds_edits (s : State) : Edits s s.endAllHolds := Edits.foldl _ (fun u z => u.endHold_edits z) _ s

theorem State.ageHolds_edits (s : State) : Edits s s.ageHolds :=
  Edits.foldl _ (fun u z => u.setZone_edits z { u.zone z with holdFrames := (u.zone z).holdFrames + 1 } rfl) _ s

theorem State.countHolds_edits (s : State) : Edits s s.countHolds := by
  refine Edits.foldl _ (fun u z => ?_) _ s
  split
  · exact u.setHoldsDue_edits _
  · exact u.setZone_edits z (u.zone z).counted rfl

theorem State.countDown_edits (s : State) : Edits s s.countDown := by
  unfold State.countDown
  split
  · split <;> exact s.setEpoch_edits _
  · exact .refl

/-! ## Deliveries ended (R11 to R13, R146, R156) -/

theorem State.failEntry_edits {e : Entry} {l : Label} (old : Label) (s : State) (member : e ∈ s.entries)
    (here : s.label e.label = some old) (back : ∀ l', Label.Returned e l l' → Label.Returned e old l') :
    Edits s (s.failEntry e l) := by
  have returned : Edits s ((s.freeEntry e).writeLabel e.label (some (l.failAttempt s.radio.config s.radio.frame e))) :=
    .single (.giveBack member here (back _ (l.failAttempt_returned _ _ e)))
  simp only [State.failEntry]
  split
  · exact returned.trans (State.raise_edits _ _)
  · exact returned

theorem State.succeedEntry_edits {e : Entry} {l : Label} (a : Ack) (old : Label) (s : State) (member : e ∈ s.entries)
    (here : s.label e.label = some old) (back : ∀ l', Label.Returned e l l' → Label.Returned e old l') :
    Edits s (s.succeedEntry e a l) :=
  .trans (.single (.giveBack member here (back _ (s.successLabel_returned e a l)))) (State.setAir_edits _ _ rfl rfl)

theorem State.resolveArrival_edits (e : Entry) (a : Ack) (s : State) (member : e ∈ s.entries) : Edits s (s.resolveArrival e a) := by
  simp only [State.resolveArrival]
  split
  · rename_i gone
    exact .trans (.single (.orphan gone)) (State.reportStaged_edits _ _)
  · rename_i l here
    refine .trans ?_ (State.reportStaged_edits _ _)
    split
    · exact s.succeedEntry_edits a l member here fun _ => Label.Returned.of_observe
    · exact s.failEntry_edits l member here fun _ => Label.Returned.of_observe

theorem State.resolveClose_edits (e : Entry) (s : State) (member : e ∈ s.entries) : Edits s (s.resolveClose e) := by
  simp only [State.resolveClose]
  split
  · rename_i gone
    exact .trans (.single (.orphan gone)) (State.reportStaged_edits _ _)
  · rename_i l here
    exact (s.failEntry_edits l member here fun _ => id).trans (State.reportStaged_edits _ _)

theorem State.abortEntry_edits (e : Entry) (s : State) (member : e ∈ s.entries) : Edits s (s.abortEntry e) := by
  simp only [State.abortEntry]
  split
  · exact .single (.orphan ‹_›)
  · exact .single (.giveBack member ‹_› (Label.abort_returned e _))

theorem State.abortEntry_entries (e : Entry) (s : State) : (s.abortEntry e).entries = s.entries.erase e := by
  simp only [State.abortEntry]
  split
  · rfl
  · exact (State.writeLabel_same _ _ _).entries

theorem insertEntry_perm (now : Frame) (e : Entry) (es : List Entry) : (insertEntry now e es).Perm (e :: es) := by
  induction es with
  | nil => exact .refl _
  | cons x xs ih =>
    simp only [insertEntry]
    split
    · exact .refl _
    · exact (ih.cons x).trans (.swap e x xs)

/-- The abort order names every entry once (R95). -/
theorem State.abortOrder_perm (s : State) : s.abortOrder.Perm s.entries := by
  unfold State.abortOrder
  generalize s.radio.frame = now
  induction s.entries with
  | nil => exact .refl _
  | cons e es ih => exact (insertEntry_perm now e _).trans (ih.cons e)

/-- Aborting the entries of a list that names every entry is a chain of edits that leaves none. -/
theorem State.foldl_abortEntry (work : List Entry) (s : State) (all : work.Perm s.entries) :
    Edits s (work.foldl (fun t e => t.abortEntry e) s) ∧ (work.foldl (fun t e => t.abortEntry e) s).entries = [] := by
  induction work generalizing s with
  | nil => exact ⟨.refl, List.nil_perm.1 all⟩
  | cons e work ih =>
    obtain ⟨member, rest⟩ := List.cons_perm_iff_perm_erase.1 all
    obtain ⟨edits, gone⟩ := ih (s.abortEntry e) ((s.abortEntry_entries e).symm ▸ rest)
    exact ⟨(s.abortEntry_edits e member).trans edits, gone⟩

end

end Sys2Proof.Machine
end

