-- ==== Sys2Proof/Proofs/Requests.lean ====
section
/-! What each request comes to, as a chain of edits (chapters 1 to 10), and the template that a TEMPLATE_LOAD stores (R48, R49). -/

namespace Sys2Proof.Machine

/-! ## Stored templates (R48, R49) -/

/-- A stored field as R47 and R49 want it on a page of a length. -/
abbrev Field.Fits (length : Nat) (f : Field) : Prop :=
  1 ≤ f.minimum ∧ f.minimum ≤ f.digits ∧ f.digits ≤ 10 ∧ (f.kind = .indicator → f.digits = 2 ∧ f.minimum = 2)
    ∧ f.offset % 4 = 0 ∧ f.offset + 4 * f.digits ≤ 8 * length

/-- Two stored fields share no bit (R49). -/
abbrev Field.Apart (f g : Field) : Prop :=
  f.offset + 4 * f.digits ≤ g.offset ∨ g.offset + 4 * g.digits ≤ f.offset

/-- A field spans four bits a place; an INDICATOR has two places (R47). -/
theorem fieldWidth_eq (kind : FieldKind) (digits : Nat) (h : kind = .indicator → digits = 2) :
    fieldWidth kind digits = 4 * digits := by
  unfold fieldWidth
  split
  · rw [h ‹_›]
  · rfl

/-- A field that passes R49's checks fits the page and shares no bit with the fields before it. -/
theorem checkField_fits (length : Nat) (before : List Field) (w : FieldWords) (f : Field)
    (fits : ∀ g ∈ before, g.Fits length) (passed : checkField length before w = some f) :
    f.Fits length ∧ ∀ g ∈ before, g.Apart f := by
  unfold checkField at passed
  split at passed
  · contradiction
  rename_i kind _
  simp only [List.any_eq_true, spansMeet, Bool.and_eq_true, decide_eq_true_eq] at passed
  generalize hd : (if kind = .indicator then 2 else w.digits.toNat) = d at passed
  generalize hm : (if kind = .indicator then 2 else w.minimum.toNat) = m at passed
  have two : kind = .indicator → d = 2 ∧ m = 2 := fun is => by simp_all
  rw [fieldWidth_eq kind d fun is => (two is).1] at passed
  split at passed
  · contradiction
  split at passed
  · contradiction
  split at passed
  · contradiction
  split at passed
  · contradiction
  split at passed
  · contradiction
  obtain rfl := Option.some.inj passed
  rename_i apart
  dsimp only [Field.Fits, Field.Apart]
  refine ⟨⟨by omega, by omega, by omega, two, by omega, by omega⟩, fun g member => ?_⟩
  obtain ⟨-, -, -, indicator, -⟩ := fits g member
  have meet : ¬(w.offset.toNat < g.offset + fieldWidth g.kind g.digits ∧ g.offset < w.offset.toNat + 4 * d) :=
    fun meet => apart ⟨g, member, meet⟩
  rw [fieldWidth_eq g.kind g.digits fun is => (indicator is).1] at meet
  omega

/-- The fields that pass R49's checks fit the page and share no bit with one another. -/
theorem checkFields_fits (length : Nat) (before : List Field) (words : List FieldWords) (fields : List Field)
    (fits : ∀ g ∈ before, g.Fits length) (apart : before.Pairwise Field.Apart)
    (passed : checkFields length before words = .ok fields) :
    (∀ g ∈ fields, g.Fits length) ∧ fields.Pairwise Field.Apart ∧ fields.length = before.length + words.length := by
  induction words generalizing before with
  | nil =>
    obtain rfl : before = fields := by simpa [checkFields] using passed
    exact ⟨fits, apart, rfl⟩
  | cons w words ih =>
    simp only [checkFields] at passed
    split at passed
    · contradiction
    rename_i f one
    obtain ⟨fitsLast, apartLast⟩ := checkField_fits length before w f fits one
    obtain ⟨all, pairs, count⟩ := ih (before ++ [f])
      (fun g member => (List.mem_append.1 member).elim (fits g) fun last => List.mem_singleton.1 last ▸ fitsLast)
      (List.pairwise_append.2 ⟨apart, List.pairwise_singleton _ f, fun g member h last => List.mem_singleton.1 last ▸ apartLast g member⟩)
      passed
    exact ⟨all, pairs, by simp_all; omega⟩

/-- A load that passes the checks of R48 and R49 stores a valid template. -/
theorem stored_valid (b : TemplateWords) (fields : List Field) (record : recordOk b = true)
    (passed : checkFields b.length.toNat [] b.fields = .ok fields) :
    b.id.toNat < 32 ∧ Template.Valid ⟨b.length.toNat, b.mask, fields⟩ := by
  simp only [recordOk, Bool.and_eq_true, decide_eq_true_eq, bne_iff_ne, beq_iff_eq] at record
  obtain ⟨⟨⟨⟨id, length⟩, count⟩, mask⟩, beyond⟩ := record
  obtain ⟨fits, apart, same⟩ := checkFields_fits _ [] b.fields fields (by simp) List.Pairwise.nil passed
  refine ⟨by omega, length, mask, fun k above => ?_, by simp_all, fits, apart⟩
  have bit := congrArg (fun m => m.getLsbD (k.val - b.length.toNat)) beyond
  simpa [BitVec.getLsbD_ushiftRight, Nat.add_sub_cancel' above] using bit

/-! ## Items (chapter 2) -/

section
variable {s : State}

theorem itemNumberOf_range (w : BitVec 32) (n : Nat) (h : itemNumberOf w = some n) : 1 ≤ n ∧ n ≤ 99999999 := by
  unfold itemNumberOf Config.moneyLimit at h
  split at h
  · contradiction
  · obtain rfl := Option.some.inj h
    omega

/-- An item's price sets rewritten and its labels marked. -/
theorem State.putItem_mark_edits (tables : s.TablesLaw) {k : Nat} {x y : Item} (here : s.item k = some x)
    (number : y.number = x.number) (bound : y.bound = x.bound) (shown : Bool) (marks : Nat → Label → Bool) :
    Edits s (((s.setItems (s.items.put k y)).markBound k shown marks).reportStaged s) := by
  have put : Edits s (s.setItems (s.items.put k y)) := .single (.itemPut here number bound)
  exact (put.trans (State.markBound_edits k shown marks _ (put.tables tables))).trans (State.reportStaged_edits _ _)

theorem serveItemPut_edits (w : BitVec 32) (p : PriceWords) (s : State) (tables : s.TablesLaw) :
    Edits s (serveItemPut w p s).state := by
  unfold serveItemPut
  split
  · rename_i n q number _
    split
    · rename_i k x found
      split
      · exact .refl
      · exact State.putItem_mark_edits tables (y := { x with current := q }) (tables.of_itemLookup found).1 rfl rfl _ _
    · rename_i absent
      split
      · exact .refl
      · exact .single (.itemNew ‹_› ((s.itemLookup_eq_none n).1 absent) (itemNumberOf_range w n number) rfl)
  · exact .refl

theorem State.stagingItem_here (tables : s.TablesLaw) {n k : Nat} {x : Item} (found : s.stagingItem n = .ok (k, x)) :
    s.item k = some x := by
  unfold State.stagingItem at found
  split at found
  · split at found
    · rename_i kx there
      obtain rfl : kx = (k, x) := by simpa using found
      exact (tables.of_itemLookup there).1
    · contradiction
  · contradiction

theorem serveItemSetNext_edits (w : BitVec 32) (p : PriceWords) (s : State) (tables : s.TablesLaw) :
    Edits s (serveItemSetNext w p s).state := by
  unfold serveItemSetNext
  split
  · rename_i n q _ _
    split
    · exact .refl
    · rename_i k x found
      split
      · exact .refl
      · exact State.putItem_mark_edits tables (y := { x with next := some q }) (s.stagingItem_here tables found) rfl rfl _ _
  · exact .refl

theorem serveItemClearNext_edits (w : BitVec 32) (s : State) (tables : s.TablesLaw) :
    Edits s (serveItemClearNext w s).state := by
  unfold serveItemClearNext
  split
  · exact .refl
  · split
    · exact .refl
    · rename_i k x found
      split
      · exact .refl
      · exact State.putItem_mark_edits tables (y := { x with next := none }) (s.stagingItem_here tables found) rfl rfl _ _

theorem serveItemGet_edits (w : BitVec 32) (s : State) : Edits s (serveItemGet w s).state := by
  unfold serveItemGet
  split
  · exact .refl
  · split <;> exact .refl

theorem serveItemRetire_edits (w : BitVec 32) (s : State) (tables : s.TablesLaw) : Edits s (serveItemRetire w s).state := by
  unfold serveItemRetire
  split
  · exact .refl
  · split
    · exact .refl
    · rename_i k x found
      split
      · exact .refl
      · exact .single (.itemErase (tables.of_itemLookup found).1 (by omega))

/-! ## Labels (chapter 1) -/

/-- What a request's label is resolved to stands in the directory (R1). -/
theorem State.resolve_here (tables : s.TablesLaw) {a : Address} {ok : Bool} {k : Nat} {l : Label}
    (found : s.resolve a ok = .ok (k, l)) : s.label k = some l ∧ l.address = a ∧ ok = true := by
  unfold State.resolve at found
  split at found
  · rename_i kl there
    split at found
    · obtain rfl : kl = (k, l) := by simpa using found
      obtain ⟨here, named⟩ := tables.of_lookup there
      exact ⟨here, named, ‹_›⟩
    · contradiction
  · contradiction

/-- A binding that a request asks for names an item of the table (R16, R18). -/
theorem State.bindingOf_here (tables : s.TablesLaw) {w : Option (BitVec 32)} {binding : Option Nat}
    (found : s.bindingOf w = some binding) : ∀ i ∈ binding, (s.item i).isSome = true := by
  intro i named
  cases w with
  | none => simp_all [State.bindingOf]
  | some n =>
    obtain ⟨kx, there, rfl⟩ := Option.map_eq_some_iff.1 found
    obtain rfl := Option.some.inj named
    simp [(tables.of_itemLookup there).1]

theorem addRecord_added (b : LabelAddWords) (binding : Option Nat) (staged : Bool) (inRange : addInRange b = true)
    (fresh : s.lookup b.address = none) (template : (s.templates.find b.template.toNat).isSome = true)
    (named : ∀ i ∈ binding, (s.item i).isSome = true) : (addRecord b binding staged).AddedIn s := by
  simp only [addInRange, Bool.and_eq_true, bne_iff_ne, decide_eq_true_eq] at inRange
  obtain ⟨⟨⟨⟨⟨⟨low, high⟩, zone⟩, lane⟩, exponent⟩, slot⟩, item⟩ := inRange
  have slot' : (addRecord b binding staged).template.val = b.template.toNat := Nat.mod_eq_of_lt (by omega)
  refine ⟨⟨low, high⟩, (s.lookup_eq_none _).1 fresh, ?_, rfl, slot' ▸ template, named, by simp [addRecord], ?_⟩
  · have period : (addSettings b).exponent.val = b.exponent.toNat := Nat.mod_eq_of_lt (by omega)
    rw [show (addRecord b binding staged).confirmed = addSettings b from rfl, Settings.Reduced, period]
    exact Nat.mod_lt _ (Nat.two_pow_pos _)
  · simp [Label.Settled, addRecord, Label.hasNeed, Needs.any]

theorem serveLabelAdd_edits (b : LabelAddWords) (s : State) (tables : s.TablesLaw) : Edits s (serveLabelAdd b s).state := by
  unfold serveLabelAdd
  split
  · exact .refl
  rename_i inRange
  split
  · exact .refl
  rename_i absent
  split
  · rename_i t binding template found
    split
    · exact .refl
    · rename_i k free
      refine .trans (.single (.add free ?_)) (State.reportStaged_edits _ _)
      exact addRecord_added b binding _ (by simpa using inRange) (by simpa using absent) (by simp [template])
        (s.bindingOf_here tables found)
  · exact .refl

theorem serveLabelBind_edits (port : Port) (a : Address) (w : Option (BitVec 32)) (s : State) (tables : s.TablesLaw) :
    Edits s (serveLabelBind port a w s).state := by
  unfold serveLabelBind
  split
  · exact .refl
  rename_i k l found
  split
  · exact .refl
  rename_i binding named
  split
  · exact .refl
  obtain ⟨here, -⟩ := s.resolve_here tables found
  dsimp only
  generalize bound : ({ l with binding := binding, serviceTouched := l.serviceTouched || port == Port.service } : Label) = m
  have kept : l.KeptIn s (m.mark true (s.meetsStagedRule k m)) := by
    have setup := m.mark_setup true (s.meetsStagedRule k m)
    have tidy : l.Settled → m.Tidy := fun settled => bound ▸ settled.tidy
    have flies : m.state = l.state := bound ▸ rfl
    subst bound
    exact ⟨setup.address, setup.confirmed, fun c given => .inl (setup.requested ▸ given), .inl setup.template,
      .inr (setup.binding ▸ s.bindingOf_here tables named), (Label.mark_inFlight _ _ _).trans (by rw [flies]),
      fun settled => (tidy settled).mark _ _⟩
  have written := Relation.ReflTransGen.trans (.single (.rewrite here kept)) (State.reportStaged_edits _ s)
  split
  · exact written.trans (State.raise_edits _ _)
  · exact written

theorem moveTarget_reduced (m : MoveWords) (base : Settings) : (moveTarget m base).Reduced :=
  Nat.mod_lt _ (Nat.two_pow_pos _)

/-- The record a LABEL_MOVE leaves is kept: its new requested settings are reduced, its new template is defined (R19, R20). -/
theorem State.movedLabel_kept (k : Nat) (l : Label) (m : MoveWords) (inRange : moveInRange m = true)
    (defined : ¬m.template.any (fun b => (s.templates.find b.toNat).isNone) = true) : l.KeptIn s (s.movedLabel k l m) := by
  have requested : ∀ c ∈ s.requestedAfter k l m, l.requested = some c ∨ c.Reduced := by
    intro c given
    simp only [State.requestedAfter] at given
    split at given
    · split at given
      · contradiction
      · exact .inr (Option.some.inj given ▸ moveTarget_reduced m _)
    · exact .inl given
  have template : (m.template.elim l.template fun b => Fin.ofNat 32 b.toNat) = l.template
      ∨ (s.templates.find (m.template.elim l.template fun b => Fin.ofNat 32 b.toNat).val).isSome = true := by
    cases given : m.template with
    | none => exact .inl rfl
    | some b =>
      simp only [moveInRange, given, Option.all_some, Bool.and_eq_true, decide_eq_true_eq] at inRange
      have slot : (Fin.ofNat 32 b.toNat).val = b.toNat := Nat.mod_eq_of_lt (by omega)
      refine .inr ?_
      simp only [Option.elim_some, slot]
      simpa [given, Option.isSome_iff_ne_none] using defined
  simp only [State.movedLabel]
  generalize (m.template.elim l.template fun b => Fin.ofNat 32 b.toNat) = i at *
  generalize s.requestedAfter k l m = r at *
  have kept : ∀ l' : Label, Label.SameSetup { l with requested := r, template := i } l' →
      (l'.state = .inFlight ↔ l.state = .inFlight) → (l.Settled → l'.Settled) → l.KeptIn s l' := fun l' setup inFlight settled =>
    ⟨setup.address, setup.confirmed, fun c given => requested c (setup.requested.symm.trans given),
      setup.template ▸ template, .inl setup.binding, inFlight, settled⟩
  have tidy : l.Settled → Label.Tidy { l with requested := r, template := i } := fun settled => settled.tidy
  split
  · exact kept _ (Label.followNeeds_setup _) (Label.followNeeds_inFlight _) fun settled =>
      (tidy settled).followNeeds
  · exact kept _ (Label.mark_setup _ _ _) (Label.mark_inFlight _ _ _) fun settled => (tidy settled).mark _ _

theorem serveLabelMove_edits (a : Address) (m : MoveWords) (s : State) (tables : s.TablesLaw) :
    Edits s (serveLabelMove a m s).state := by
  unfold serveLabelMove
  split
  · exact .refl
  rename_i k l found
  split
  · exact .refl
  rename_i defined
  split
  · exact .refl
  obtain ⟨here, -, inRange⟩ := s.resolve_here tables found
  exact .trans (.single (.rewrite here (s.movedLabel_kept k l m inRange defined))) (State.reportStaged_edits _ _)

theorem serveLabelGet_edits (port : Port) (a : Address) (s : State) (tables : s.TablesLaw) :
    Edits s (serveLabelGet port a s).state := by
  unfold serveLabelGet
  split
  · exact .refl
  rename_i k l found
  split
  · exact .single (.note (s.resolve_here tables found).1)
  · exact .refl

theorem State.retireLabel_edits {k : Nat} {l : Label} (here : s.label k = some l) : Edits s (s.retireLabel k) := by
  have noted := State.setAir_edits { s.air with confirmedNow := s.air.confirmedNow.filter (· != k) } s rfl rfl
  exact noted.tail (.retire (s := s.setAir _) (show State.label _ k = some l from here))

theorem serveLabelRetire_edits (a : Address) (s : State) (tables : s.TablesLaw) : Edits s (serveLabelRetire a s).state := by
  unfold serveLabelRetire
  split
  · exact .refl
  rename_i k l found
  exact (State.retireLabel_edits (s.resolve_here tables found).1).trans (State.reportStaged_edits _ _)

theorem serveLabelRetry_edits (a : Address) (s : State) (tables : s.TablesLaw) : Edits s (serveLabelRetry a s).state := by
  unfold serveLabelRetry
  split
  · exact .refl
  rename_i k l found
  exact .single (.rewrite (s.resolve_here tables found).1 (l.revive_kept s))

theorem serveLabelQuery_edits (a : Address) (s : State) (tables : s.TablesLaw) : Edits s (serveLabelQuery a s).state := by
  unfold serveLabelQuery
  split
  · exact .refl
  rename_i k l found
  exact .single (.rewrite (s.resolve_here tables found).1 (l.owe_kept _ s))

theorem serveLabelLocate_edits (a : Address) (s : State) (tables : s.TablesLaw) : Edits s (serveLabelLocate a s).state := by
  unfold serveLabelLocate
  split
  · exact .refl
  rename_i k l found
  exact .single (.rewrite (s.resolve_here tables found).1 (l.owe_kept _ s))

theorem serveLabelScan_edits (start : BitVec 16) (states flags : Byte) (s : State) :
    Edits s (serveLabelScan start states flags s).state := by
  unfold serveLabelScan
  split
  · exact .refl
  · split <;> exact .refl

/-! ## Templates (chapter 3) -/

theorem serveTemplateLoad_edits (b : TemplateWords) (s : State) (tables : s.TablesLaw) :
    Edits s (serveTemplateLoad b s).state := by
  unfold serveTemplateLoad
  split
  · exact .refl
  rename_i record
  split
  · exact .refl
  rename_i fields passed
  obtain ⟨below, valid⟩ := stored_valid b fields (by simpa using record) passed
  have stored : Edits s (s.setTemplates (s.templates.put b.id.toNat ⟨b.length.toNat, b.mask, fields⟩)) :=
    .single (.template below valid)
  dsimp only
  split
  · exact stored
  · split
    · exact .refl
    · exact (stored.trans (State.markTemplate_edits _ _ (stored.tables tables))).trans (State.reportStaged_edits _ _)

theorem serveTemplateGet_edits (i : Byte) (s : State) : Edits s (serveTemplateGet i s).state := by
  unfold serveTemplateGet
  split
  · exact .refl
  · split <;> exact .refl

/-! ## Zones and holds (chapters 6 and 8) -/

/-- A ZONE_SET leaves the counts (R119, R120). -/
theorem zoneWith_counts (v : ZoneWords) (boost : Option Bool) (x : Zone) : (zoneWith v boost x).counts = x.counts := by
  unfold zoneWith
  cases v.reload <;> rfl

theorem serveZoneSet_edits (z : Byte) (v : ZoneWords) (s : State) : Edits s (serveZoneSet z v s).state := by
  unfold serveZoneSet
  split
  · exact .refl
  · split
    · exact .refl
    · exact s.setZone_edits _ _ (zoneWith_counts _ _ _)

theorem serveZoneGet_edits (z : Byte) (s : State) : Edits s (serveZoneGet z s).state := by
  unfold serveZoneGet
  split <;> exact .refl

theorem State.beginHold_edits (z : ZoneNo) (budget : Nat) (s : State) : Edits s (s.beginHold z budget) := by
  exact (s.setZone_edits z { s.zone z with
      hold := .held, budget := budget, idle := 0,
      holdStart := some (if s.air.beaconDue then s.radio.frame else framePlus s.radio.frame 1),
      holdFrames := if s.air.beaconDue then 1 else 0 } rfl).trans (State.setHoldSet_edits _ _)

theorem serveZoneHold_edits (zone : Byte) (budget : BitVec 16) (s : State) : Edits s (serveZoneHold zone budget s).state := by
  unfold serveZoneHold
  split
  · exact .refl
  rename_i z _
  dsimp only
  split
  · split
    · exact s.endHold_edits z
    · exact s.setZone_edits z { s.zone z with budget := budget.toNat, idle := 0 } rfl
  · split
    · exact .refl
    · split
      · exact .refl
      · split
        · exact .refl
        · exact s.beginHold_edits z _

theorem serveZoneRelease_edits (zone : Byte) (s : State) : Edits s (serveZoneRelease zone s).state := by
  unfold serveZoneRelease
  split
  · exact .refl
  rename_i z _
  show Edits s (if (s.zone z).isHeld then s.endHold z else s)
  split
  · exact s.endHold_edits z
  · exact .refl

theorem serveZoneRetry_edits (zone : Byte) (s : State) (tables : s.TablesLaw) : Edits s (serveZoneRetry zone s).state := by
  unfold serveZoneRetry
  split
  · exact .refl
  · rename_i z _
    exact s.updateLabels_edits (fun _ l => l.failedIn z) (fun _ l => l.revive) tables fun _ l _ u => l.revive_kept u

/-! ## Epochs (chapter 4) -/

theorem serveEpochOpen_edits (e : Epoch) (s : State) : Edits s (serveEpochOpen e s).state := by
  unfold serveEpochOpen
  split
  · exact .refl
  · split
    · exact .refl
    · split
      · exact .refl
      · exact s.setEpoch_edits _

theorem serveEpochSchedule_edits (count : BitVec 32) (s : State) (tables : s.TablesLaw) :
    Edits s (serveEpochSchedule count s).state := by
  unfold serveEpochSchedule
  dsimp only
  split
  · exact .refl
  · split
    · exact .refl
    · split
      · exact s.cutover_edits tables
      · exact s.setEpoch_edits _

theorem serveEpochAbandon_edits (s : State) (tables : s.TablesLaw) : Edits s (serveEpochAbandon s).state := by
  unfold serveEpochAbandon
  split
  · exact .refl
  · have items : Edits s (s.setItems (s.items.map fun kx => (kx.1, { kx.2 with next := none }))) :=
      .single (.itemMap (f := fun x => { x with next := none }) fun _ => ⟨rfl, rfl⟩)
    have labels := State.updateLabels_edits (fun _ l => l.needs.staged || l.stagedPage.isSome) (fun _ l => l.abandon) _
      (items.tables tables) fun _ l _ u => l.abandon_setup.kept l.abandon_inFlight (fun settled => settled.abandon) u
    refine (items.trans labels).trans (.trans (.single (.relabel (f := Entry.withdrawn) Entry.withdrawn_same)) ?_)
    exact State.setEpoch_edits _ _

/-! ## Notices and ports (chapters 9 and 10) -/

theorem serveNoticeClear_edits (sources : Byte) (s : State) : Edits s (serveNoticeClear sources s).state := by
  unfold serveNoticeClear
  split
  · exact .refl
  · exact s.setNotices_edits _

theorem serveNoticeMask_edits (sources : Byte) (s : State) : Edits s (serveNoticeMask sources s).state := by
  unfold serveNoticeMask
  split
  · exact .refl
  · exact s.setNotices_edits _

theorem servePortConfig_edits (enable polarity : Option Byte) (s : State) : Edits s (servePortConfig enable polarity s).state := by
  unfold servePortConfig
  split
  · exact .refl
  · exact (s.setGateway_edits _).trans (State.setNotices_edits _ _)

/-! ## Every request -/

/-- The requests that move the air itself: the radio's own, and the reset. -/
def movesAir : Request → Bool
  | .radioConfig _ | .radioStart | .radioStop | .deviceReset => true
  | _ => false

/-- A request that does not move the air comes to a chain of edits, from either port. -/
theorem serve_edits (port : Port) (r : Request) (s : State) (tables : s.TablesLaw) (still : movesAir r = false) :
    Edits s (serve port r s).state := by
  cases r with
  | itemPut n p => exact serveItemPut_edits n p s tables
  | itemSetNext n p => exact serveItemSetNext_edits n p s tables
  | itemClearNext n => exact serveItemClearNext_edits n s tables
  | itemGet n => exact serveItemGet_edits n s
  | itemRetire n => exact serveItemRetire_edits n s tables
  | labelAdd b => exact serveLabelAdd_edits b s tables
  | labelBind a n => exact serveLabelBind_edits port a n s tables
  | labelMove a m => exact serveLabelMove_edits a m s tables
  | labelGet a => exact serveLabelGet_edits port a s tables
  | labelRetire a => exact serveLabelRetire_edits a s tables
  | labelRetry a => exact serveLabelRetry_edits a s tables
  | labelQuery a => exact serveLabelQuery_edits a s tables
  | labelLocate a => exact serveLabelLocate_edits a s tables
  | labelScan start states flags => exact serveLabelScan_edits start states flags s
  | templateLoad b => exact serveTemplateLoad_edits b s tables
  | templateGet i => exact serveTemplateGet_edits i s
  | zoneSet z v => exact serveZoneSet_edits z v s
  | zoneGet z => exact serveZoneGet_edits z s
  | zoneHold z b => exact serveZoneHold_edits z b s
  | zoneRelease z => exact serveZoneRelease_edits z s
  | zoneRetry z => exact serveZoneRetry_edits z s tables
  | epochOpen e => exact serveEpochOpen_edits e s
  | epochSchedule n => exact serveEpochSchedule_edits n s tables
  | epochAbandon => exact serveEpochAbandon_edits s tables
  | epochStatus => exact .refl
  | radioConfig _ => contradiction
  | radioStart => contradiction
  | radioStop => contradiction
  | radioStatus => exact .refl
  | noticeRead => exact .refl
  | noticeClear set => exact serveNoticeClear_edits set s
  | noticeMask set => exact serveNoticeMask_edits set s
  | portConfig e p => exact servePortConfig_edits e p s
  | deviceInfo => exact .refl
  | deviceReset => contradiction

/-- The state in which RADIO_STOP has stopped the radio and closed the frame's windows (R95). -/
def State.stopped (s : State) : State :=
  (s.setRadio { s.radio with state := .stopped }).setAir { s.air with windowsOpen := false, beaconDue := false }

/-- RADIO_STOP while RUNNING: the radio stops, every entry is aborted, every hold ends (R95, R156, R165). -/
theorem serveRadioStop_running (s : State) (running : s.running = true) :
    Edits s.stopped (serveRadioStop s).state ∧ (serveRadioStop s).state.entries = [] := by
  obtain ⟨aborts, gone⟩ := State.foldl_abortEntry s.stopped.abortOrder s.stopped s.stopped.abortOrder_perm
  have rest := (State.reportStaged_edits s.stopped.abortAll s).trans (State.endAllHolds_edits _)
  have none_left := (Edits.sameAir rest).places
  rw [show s.stopped.abortAll.entries = [] from gone, List.map_nil, List.sublist_nil, List.map_eq_nil_iff] at none_left
  have state : (serveRadioStop s).state = (s.stopped.abortAll.reportStaged s).endAllHolds := by
    simp [serveRadioStop, running, State.accept, State.stopped]
  rw [state]
  exact ⟨Relation.ReflTransGen.trans aborts rest, none_left⟩

/-- Every request comes to a chain of changes, from either port. -/
theorem serve_changes (port : Port) (r : Request) (s : State) (tables : s.TablesLaw) : Changes s (serve port r s).state := by
  by_cases still : movesAir r = false
  · exact (serve_edits port r s tables still).changes
  cases r with
  | radioConfig b =>
    simp only [serve, serveRadioConfig]
    split
    · exact .refl
    · split
      · exact .refl
      · split
        · exact .refl
        · exact .single (.air ⟨rfl, rfl, rfl, rfl, rfl, fun _ => rfl⟩)
  | radioStart =>
    simp only [serve, serveRadioStart, State.accept]
    split
    · exact .refl
    · exact .single (.air ⟨rfl, rfl, rfl, rfl, rfl, fun _ => rfl⟩)
  | radioStop =>
    by_cases running : s.running = true
    · have stop : Changes s s.stopped := .single (.air ⟨rfl, rfl, rfl, rfl, rfl, fun _ => rfl⟩)
      exact stop.trans (serveRadioStop_running s running).1.changes
    · simp only [serve, serveRadioStop, if_neg running]
      exact .refl
  | deviceReset =>
    have reset : Edits State.reset s.takeReset :=
      .trans (State.setInReset_edits true State.reset) (State.setPending_edits s.pending _)
    exact .trans (.single .reset) reset.changes
  | _ => exact absurd rfl still

end

end Sys2Proof.Machine
end

