-- ==== Sys2Proof/Proofs/Commands.lean ====
section
/-! What every command comes to, as a chain of changes: the ports, the frame-start work, the windows and the grants in them. -/

namespace Sys2Proof.Machine

section
variable {s t : State}

/-! ## The ports (chapter 9) -/

/-- A row that carries a request hands it to the owning block through the Gateway Port. -/
theorem exec_request {c : Instr} {tag : Byte} {r : Request} (h : c.request = some (tag, r)) (s : State) :
    exec c s = .next (s.gatewayTake tag r (serve .gateway r)) := by
  cases c <;> simp only [Instr.request, Option.some.injEq, Prod.mk.injEq, reduceCtorEq] at h <;>
    obtain ⟨rfl, rfl⟩ := h <;> rfl

theorem Served.held_edits (v : Served) (tag : Byte) : Edits v.state (v.held tag) := by
  unfold Served.held
  split
  · exact .refl
  · exact State.setGateway_edits _ _

theorem State.gatewayTake_changes (tag : Byte) (r : Request) (s : State) (tables : s.TablesLaw) :
    Changes s (s.gatewayTake tag r (serve .gateway r)) := by
  unfold State.gatewayTake
  split
  · exact .refl
  · have collected : Edits s (s.collect (r.frame tag)) := s.setGateway_edits _
    exact (collected.changes.trans (serve_changes _ _ _ (collected.tables tables))).trans (Served.held_edits _ _).changes

theorem State.readResponse_edits (n : Nat) (s : State) : Edits s (s.readResponse n) := by
  unfold State.readResponse
  split <;> exact s.setGateway_edits _

theorem State.gatewayTransaction_changes (bytes : List Byte) (s : State) (tables : s.TablesLaw) :
    Changes s (s.gatewayTransaction bytes) := by
  unfold State.gatewayTransaction
  have collected : Edits s (s.collect bytes) := s.setGateway_edits _
  split
  · exact .refl
  · split
    · exact (s.readResponse_edits _).changes
    · split
      · exact Edits.changes (collected.trans (State.setGateway_edits _ _))
      · exact (collected.changes.trans (serve_changes _ _ _ (collected.tables tables))).trans (Served.held_edits _ _).changes

theorem State.serviceFrame_changes (frame : List Byte) (s : State) (tables : s.TablesLaw) : Changes s (s.serviceFrame frame) := by
  unfold State.serviceFrame
  split
  · exact .refl
  · split
    · exact (s.setService_edits _).changes
    · rename_i r _
      have served := serve_changes .service r s tables
      dsimp only
      split
      · exact served
      · exact served.trans (State.setService_edits _ _).changes

theorem State.assemble_changes (buffer : List Byte) (b : Byte) (s : State) (tables : s.TablesLaw) :
    Changes s (s.assemble buffer b) := by
  unfold State.assemble
  have hunts : Edits s (s.receive .hunting) := s.setService_edits _
  dsimp only
  split
  · exact (s.setService_edits _).changes
  · split
    · unfold State.serviceTooLong
      split
      · exact hunts.changes
      · exact Edits.changes (hunts.trans (State.setService_edits _ _))
    · split
      · exact (s.setService_edits _).changes
      · exact hunts.changes.trans (State.serviceFrame_changes _ _ (hunts.tables tables))

/-! ## The frame-start work (R14, R77, R101, R164) -/

theorem State.composeBeacons_edits (s : State) : Edits s s.composeBeacons := by
  unfold State.composeBeacons
  split
  · exact s.setAir_edits _ rfl rfl
  · exact .refl

theorem State.settleFrame_edits (s : State) (tables : s.TablesLaw) : Edits s s.settleFrame := by
  have retries := s.takeRetries_edits tables
  exact ((retries.trans (State.takeExpiry_edits _ (retries.tables tables))).trans (State.takeDueHolds_edits _)).trans
    (State.composeBeacons_edits _)

theorem State.transmit_edits (lane : Lane) (m : Option (List Byte)) (s : State) : Edits s (s.transmit lane m) :=
  s.setAir_edits _ rfl rfl

/-! ## The grant (R10, R123 to R137) -/

/-- Zone records written one after another, the counts of each kept. -/
theorem State.foldl_setZone (f : Zone → ZoneNo → Zone) (counts : ∀ x z, (f x z).counts = x.counts) (work : List ZoneNo) (s : State) :
    ∃ zones, work.foldl (fun t z => t.setZone z (f (t.zone z) z)) s = s.setZones zones
      ∧ ∀ z, ((s.setZones zones).zone z).counts = (s.zone z).counts := by
  induction work generalizing s with
  | nil => exact ⟨s.zones, rfl, fun _ => rfl⟩
  | cons w work ih =>
    obtain ⟨zones, same, kept⟩ := ih (s.setZone w (f (s.zone w) w))
    refine ⟨zones, same, fun z => (kept z).trans ?_⟩
    rw [State.setZone_zone]
    split
    · subst z; exact counts _ _
    · rfl

theorem Zone.passedOver_counts (x : Zone) : x.passedOver.counts = x.counts := by
  unfold Zone.passedOver
  split <;> rfl

/-- A grant's guard update touches zone records alone, and not their counts (R129). -/
theorem State.updateGuards_zones (zones : List ZoneNo) (winner : ZoneNo) (s : State) :
    ∃ after, s.updateGuards zones winner = s.setZones after ∧ ∀ z, ((s.setZones after).zone z).counts = (s.zone z).counts :=
  State.foldl_setZone (fun x z => if z = winner then x.won else x.passedOver)
    (fun x z => by
      split
      · rfl
      · exact x.passedOver_counts) zones s

/-- What a data slot's decision can do: leave the slot silent, or, in a lane with room, grant it to a QUEUED label that is eligible
for the lane, pointers and guards moved (R123 to R130). -/
theorem State.decideSlot_cases (lane : Lane) (slot : SlotNo) (s : State) :
    s.decideSlot lane slot = s.transmit lane none
    ∨ ∃ pointers zones k l, s.laneEntries lane < s.partition ∧ s.label k = some l ∧ l.state = .queued ∧ s.eligible lane k l = true
        ∧ (∀ z, ((s.setZones zones).zone z).counts = (s.zone z).counts)
        ∧ s.decideSlot lane slot = ((s.setPointers pointers).setZones zones).grant lane slot k := by
  simp only [State.decideSlot]
  split
  · exact .inl rfl
  rename_i room
  split
  · exact .inl rfl
  rename_i z _
  split
  · exact .inl rfl
  rename_i k found
  have candidate : s.candidate lane k = true := List.find?_some found
  obtain ⟨l, here, fits⟩ := (Option.any_eq_true _ _).1 candidate
  obtain ⟨zones, same, counts⟩ := State.updateGuards_zones (s.candidateZones lane) z (s.setPointers (s.pointers.set lane.val (z + 1)))
  simp only [Bool.and_eq_true, beq_iff_eq] at fits
  exact .inr ⟨_, zones, k, l, Nat.lt_of_not_le room, here, fits.1, fits.2, counts, by rw [same]⟩

/-- A grant as one change of the records and what is beside it (R10, R130, R136). -/
theorem State.grant_eq {lane : Lane} {slot : SlotNo} {k : Nat} {l : Label} (here : s.label k = some l) :
    ∃ granted, granted = (s.setEntries (s.entries ++ [s.grantEntry lane slot k l])).writeLabel k (some (s.grantedLabel l))
      ∧ Edits granted (s.grant lane slot k) := by
  refine ⟨_, rfl, ?_⟩
  simp only [State.grant, here]
  have reported := Relation.ReflTransGen.trans (State.transmit_edits lane (some (s.chooseMessage l).2.1)
    ((s.setEntries (s.entries ++ [s.grantEntry lane slot k l])).writeLabel k (some (s.grantedLabel l)))) (State.reportStaged_edits _ s)
  split
  · exact reported.trans (State.raise_edits _ _)
  · exact reported

theorem State.grant_changes {lane : Lane} {slot : SlotNo} {k : Nat} {l : Label} (here : s.label k = some l)
    (queued : l.state = .queued) (onLane : l.confirmed.lane = lane) : Changes s (s.grant lane slot k) := by
  obtain ⟨granted, rfl, rest⟩ := State.grant_eq (lane := lane) (slot := slot) here
  exact .trans (.single (.grant here queued onLane)) rest.changes

/-- The lane of a label eligible for a lane (R110). -/
theorem State.eligible_lane {lane : Lane} {k : Nat} {l : Label} (h : s.eligible lane k l = true) :
    l.confirmed.lane = lane ∧ s.laneActive lane = true := by
  simp only [State.eligible, Bool.and_eq_true, beq_iff_eq] at h
  exact ⟨h.1.1.1, h.1.1.2⟩

theorem State.decideSlot_changes (lane : Lane) (slot : SlotNo) (s : State) : Changes s (s.decideSlot lane slot) := by
  rcases s.decideSlot_cases lane slot with silent | ⟨pointers, zones, k, l, -, here, queued, fits, counts, granted⟩
  · exact silent ▸ (s.transmit_edits lane none).changes
  · rw [granted]
    have moved : Edits s ((s.setPointers pointers).setZones zones) :=
      .beside ⟨rfl, rfl, rfl, rfl, rfl, counts⟩ ⟨rfl, rfl, rfl, .refl _⟩
    exact moved.changes.trans (State.grant_changes (s := (s.setPointers pointers).setZones zones) here queued (s.eligible_lane fits).1)

/-! ## The windows (R98 to R100, R138, R147) -/

theorem State.setWindows_changes (lane : Lane) (w : LaneWindows) (s : State) : Changes s (s.setWindows lane w) :=
  .single (.air ⟨rfl, rfl, rfl, rfl, rfl, fun _ => rfl⟩)

theorem State.openSlots_changes (lane : Lane) (n : Nat) (s : State) : Changes s (s.openSlots lane n) := by
  induction n generalizing s with
  | zero => exact .refl
  | succ n ih => exact ((s.setWindows_changes lane _).trans (State.decideSlot_changes _ _ _)).trans (ih _)

theorem State.openUpTo_changes (lane : Lane) (n : Nat) (s : State) : Changes s (s.openUpTo lane n) := s.openSlots_changes lane _

theorem State.closeSlot_changes (lane : Lane) (slot : SlotNo) (s : State) : Changes s (s.closeSlot lane slot) := by
  simp only [State.closeSlot]
  split
  · exact .refl
  · split
    · exact s.setWindows_changes lane _
    · rename_i e found
      exact (s.setWindows_changes lane _).trans (State.resolveClose_edits e _ (List.mem_of_find?_eq_some found)).changes

theorem State.takeAck_changes (lane : Lane) (slot : SlotNo) (a : Ack) (s : State) : Changes s (s.takeAck lane slot a) := by
  simp only [State.takeAck]
  split
  · exact s.setWindows_changes lane _
  · rename_i e found
    exact (s.setWindows_changes lane _).trans (State.resolveArrival_edits e a _ (List.mem_of_find?_eq_some found)).changes

/-- Changes repeated over a list. -/
theorem Changes.foldl {α : Type} (f : State → α → State) (one : ∀ s a, Changes s (f s a)) (work : List α) (s : State) :
    Changes s (work.foldl f s) := by
  induction work generalizing s with
  | nil => exact .refl
  | cons a work ih => exact (one s a).trans (ih (f s a))

theorem State.finishWindows_changes (s : State) : Changes s s.finishWindows := by
  simp only [State.finishWindows]
  split
  · exact (Changes.foldl _ (fun u (w : Lane × SlotNo) => u.openUpTo_changes w.1 _) _ s).trans
      (Changes.foldl _ (fun u (w : Lane × SlotNo) => u.closeSlot_changes w.1 w.2) _ _)
  · exact .refl

theorem State.advanceFrame_changes (s : State) : Changes s s.advanceFrame :=
  Relation.ReflTransGen.head
    (.air (t := (s.setRadio { s.radio with frame := framePlus s.radio.frame 1 }).setAir { s.air with
      windowsOpen := s.running, beaconDue := s.running, windows := Vector.replicate 4 .none, confirmedNow := [] })
      ⟨rfl, rfl, rfl, rfl, rfl, fun _ => rfl⟩)
    (Edits.changes (State.ageHolds_edits _))

/-- The work a FRAME_START is told to take, after the counts (assumption 3). -/
def State.orderedWork (o : FrameOrder) (s : State) : State :=
  let s := if o.retries then s.takeRetries else s
  let s := if o.expiry then s.takeExpiry else s
  let s := if o.holds then s.takeDueHolds else s
  if o.beacon then s.composeBeacons else s

theorem execFrameStart_eq (o : FrameOrder) (s : State) (on : s.inReset = false) :
    execFrameStart o s = .next (s.settleFrame.finishWindows.advanceFrame.countDown.countHolds.orderedWork o) := by
  simp [execFrameStart, on, State.orderedWork]

theorem State.orderedWork_edits (o : FrameOrder) (s : State) (tables : s.TablesLaw) : Edits s (s.orderedWork o) := by
  have retries : Edits s (if o.retries then s.takeRetries else s) := by
    split
    · exact s.takeRetries_edits tables
    · exact .refl
  have expiry : ∀ u : State, u.TablesLaw → Edits u (if o.expiry then u.takeExpiry else u) := fun u h => by
    split
    · exact u.takeExpiry_edits h
    · exact .refl
  have holds : ∀ u : State, Edits u (if o.holds then u.takeDueHolds else u) := fun u => by
    split
    · exact u.takeDueHolds_edits
    · exact .refl
  have beacon : ∀ u : State, Edits u (if o.beacon then u.composeBeacons else u) := fun u => by
    split
    · exact u.composeBeacons_edits
    · exact .refl
  exact ((retries.trans (expiry _ (retries.tables tables))).trans (holds _)).trans (beacon _)

/-! ## Every command -/

theorem State.takeDue_changes (s : State) (k : Nat) :
    Edits s (match s.label k with
      | none => s
      | some l => if s.retryDue l then s.writeLabel k (some l.retry) else s) := by
  split
  · exact .refl
  · rename_i l here
    split
    · exact .single (.rewrite here (l.retry_kept (by simp_all [State.retryDue]) s))
    · exact .refl

/-- Every command comes to a chain of changes. -/
theorem exec_changes (c : Instr) (s t : State) (tables : s.TablesLaw) (h : exec c s = .next t) : Changes s t := by
  cases row : c.request with
  | some tr =>
    rw [exec_request (tag := tr.1) (r := tr.2) row] at h
    obtain rfl := Host.Outcome.next.inj h
    exact s.gatewayTake_changes _ _ tables
  | none =>
    have settled := s.settleFrame_edits tables
    cases c with
    | powerOnReset =>
      obtain rfl := Host.Outcome.next.inj h
      exact serve_changes .gateway .deviceReset s tables
    | resetEnd =>
      obtain rfl := Host.Outcome.next.inj h
      exact (s.setInReset_edits false).changes
    | readResponse n =>
      obtain rfl := Host.Outcome.next.inj h
      split
      · exact .refl
      · exact (s.readResponse_edits n).changes
    | unknownKindFrame bytes =>
      obtain rfl := Host.Outcome.next.inj h
      exact s.gatewayTransaction_changes bytes tables
    | serviceLineByte b stopBitError =>
      obtain rfl := Host.Outcome.next.inj h
      split
      · exact .refl
      · split
        · split
          · exact (s.setService_edits _).changes
          · exact .refl
        · split
          · exact (s.setService_edits _).changes
          · exact s.assemble_changes _ b tables
    | serviceLineGapTimeout =>
      obtain rfl := Host.Outcome.next.inj h
      exact (s.setService_edits _).changes
    | serviceResponseSent =>
      obtain rfl := Host.Outcome.next.inj h
      exact (s.setService_edits _).changes
    | frameStart o =>
      by_cases on : s.inReset = false
      · rw [show exec (.frameStart o) s = _ from execFrameStart_eq o s on] at h
        obtain rfl := Host.Outcome.next.inj h
        have counted := (((settled.changes.trans (State.finishWindows_changes _)).trans (State.advanceFrame_changes _)).trans
          (State.countDown_edits _).changes).trans (State.countHolds_edits _).changes
        exact counted.trans (State.orderedWork_edits o _ (Changes.tables counted tables)).changes
      · have off : s.inReset = true := by simpa using on
        obtain rfl : s = t := by simpa [exec, execFrameStart, off] using h
        exact .refl
    | backoffRetryDue k =>
      obtain rfl := Host.Outcome.next.inj h
      exact (s.takeDue_changes k).changes
    | countdownExpiry =>
      obtain rfl := Host.Outcome.next.inj h
      exact (s.takeExpiry_edits tables).changes
    | holdBudgetSpent z =>
      obtain rfl := Host.Outcome.next.inj h
      split
      · exact (s.takeHoldCount_edits z).changes
      · exact .refl
    | holdIdleReached z =>
      obtain rfl := Host.Outcome.next.inj h
      split
      · exact (s.takeHoldCount_edits z).changes
      · exact .refl
    | dataSlotOpening lane slot =>
      obtain rfl := Host.Outcome.next.inj h
      split
      · exact settled.changes.trans (State.openUpTo_changes lane _ _)
      · exact .refl
    | ackArrival lane slot m =>
      obtain rfl := Host.Outcome.next.inj h
      dsimp only
      split
      · have opened := settled.changes.trans (State.openUpTo_changes lane 6 _)
        split
        · exact opened
        · exact opened.trans (State.takeAck_changes lane slot _ _)
      · exact .refl
    | ackSlotClose lane slot =>
      obtain rfl := Host.Outcome.next.inj h
      split
      · exact (settled.changes.trans (State.openUpTo_changes lane 6 _)).trans (State.closeSlot_changes lane slot _)
      · exact .refl
    | _ => contradiction

/-- Every step comes to a chain of changes. -/
theorem step_changes (s t : State) (tables : s.TablesLaw) (h : step s = .next t) : Changes s t := by
  unfold step at h
  split at h
  · obtain rfl := Host.Outcome.next.inj h
    exact .refl
  · rename_i c rest _
    exact (s.setPending_edits rest).changes.trans (exec_changes c _ t tables h)

end

end Sys2Proof.Machine
end

