-- ==== Sys2Proof/Proofs/Steps.lean ====
section
/-! The laws of the records under every step, and the state after a reset. -/

namespace Sys2Proof.Machine

/-! ## The state after a reset (R28, R45, R54, R90, R113, R132, R158, R171, R185, R196) -/

theorem State.reset_zone (z : ZoneNo) : State.reset.zone z = .reset := by simp [State.zone, State.reset]

theorem State.reset_windows (lane : Lane) : State.reset.air.windows[lane.val] = .none := by simp [State.reset, Air.silent]

theorem State.reset_holdLaw : State.reset.HoldLaw := by
  refine ⟨List.nodup_nil, by decide, fun some => absurd rfl some, fun z => ?_, List.nodup_nil, fun z member => absurd member List.not_mem_nil⟩
  rw [State.reset_zone]
  simp [State.reset, Zone.reset]

theorem State.reset_guardLaw : State.reset.GuardLaw := fun z => by
  rw [State.reset_zone]
  decide

theorem State.reset_deliveryLaw : State.reset.DeliveryLaw :=
  (State.deliveryLaw_iff _ State.reset_tablesLaw.rising).2
    ⟨State.reset_agrees, fun _ member => absurd member List.not_mem_nil, fun _ => Nat.zero_le _, fun _ => rfl⟩

theorem State.reset_airLaw : State.reset.AirLaw := by
  refine ⟨fun lane => ?_, fun some => absurd rfl some, fun _ member => absurd member List.not_mem_nil, List.Pairwise.nil⟩
  rw [State.reset_windows]
  simp [LaneWindows.none]

theorem State.reset_stagedLaw : State.reset.StagedLaw :=
  ⟨rfl, fun _ member => absurd member List.not_mem_nil,
    fun _ => ⟨fun _ member => absurd member List.not_mem_nil, fun _ member => absurd member List.not_mem_nil,
      fun _ member => absurd member List.not_mem_nil⟩,
    fun _ member => absurd member List.not_mem_nil, fun _ member => absurd member List.not_mem_nil⟩

/-- Settles O54: each law of the state after a reset. -/
theorem resetMeetsTheLaws : Obligations.ResetMeetsTheLaws where
  tables := State.reset_tablesLaw
  epoch := by decide
  radio := by decide
  hold := State.reset_holdLaw
  guard := State.reset_guardLaw
  counts := State.reset_queue_counts.2
  queue := State.reset_queue_counts.1
  bound := State.reset_boundLaw
  delivery := State.reset_deliveryLaw
  air := State.reset_airLaw
  staged := State.reset_stagedLaw
  layout := State.reset_layoutLaw

/-- Settles O5: the queues and the zone records are read off their vectors, the rest is written in the reset state. -/
theorem resetLeavesTheStatedValues : Obligations.ResetLeavesTheStatedValues := by
  have queues : ∀ z, State.reset.queue z = [] := fun z => by simp [State.queue, State.reset]
  have zones : ∀ z, State.reset.zone z = .reset := State.reset_zone
  unfold Obligations.ResetLeavesTheStatedValues
  simp only [queues, zones]
  exact ⟨rfl, fun _ => trivial, rfl, rfl, rfl, rfl, rfl, rfl, rfl, rfl, rfl, rfl, rfl, rfl, rfl, rfl, rfl, rfl, rfl, rfl,
    fun _ => ⟨rfl, rfl, rfl, rfl, rfl, rfl, rfl, rfl, rfl, rfl⟩, rfl, rfl, rfl, rfl, rfl, rfl, rfl, rfl, rfl, rfl, rfl⟩

/-! ## Every step -/

/-- Settles O55: a step is a chain of changes, and each keeps the law of the tables. -/
theorem stepKeepsTables : Obligations.StepKeepsTables := fun s t tables stepped =>
  (step_changes s t tables stepped).tables tables

/-- Settles O57: each change keeps queues and counts (R6, R7), and the bound counts (R33). -/
theorem stepKeepsQueuesAndCounts : Obligations.StepKeepsQueuesAndCounts :=
  ⟨fun s t tables queues counts stepped =>
    ((step_changes s t tables stepped).keep (P := fun u => u.QueueLaw ∧ u.CountsLaw) Change.queue_counts tables
      ⟨queues, counts⟩).2,
   fun s t tables bound stepped =>
    ((step_changes s t tables stepped).keep (P := State.BoundLaw) Change.bound tables bound).2⟩

/-- Settles O60: each change keeps phases reduced, every label's template defined and every template valid. -/
theorem stepKeepsLayoutLaw : Obligations.StepKeepsLayoutLaw := fun s t laws stepped =>
  ((step_changes s t laws.tables stepped).keep (P := State.LayoutLaw) Change.layout laws.tables laws.layout).2

end Sys2Proof.Machine
end

