-- ==== Sys2Proof/Proofs/Air.lean ====
section
/-! The law of the air (R98 to R100, R133, R134, R137): where entries stand, and what moves it. -/

namespace Sys2Proof.Machine

section
variable {s t u : State}

/-! ## Where entries stand -/

/-- What the laws of deliveries and of the air say of the entries' places, with the facts of the radio record they rest on: all of it is
about radio, windows and places alone. -/
structure State.OnAir (s : State) : Prop where
  air : s.AirLaw
  lanes : ∀ e ∈ s.entries, e.lane.val < s.radio.config.lanes.count
  partition : ∀ lane : Lane, s.laneEntries lane ≤ 64 / s.radio.config.lanes.count
  stopped : s.radio.state = .stopped → s.entries = []
  running : s.air.windowsOpen = true → s.radio.state = .running
  delay : 1 ≤ s.radio.config.ackDelay ∧ s.radio.config.ackDelay ≤ 15

theorem State.Laws.onAir (laws : s.Laws) : s.OnAir := by
  obtain ⟨-, lanes, partition, stopped⟩ := (s.deliveryLaw_iff laws.tables.rising).1 laws.delivery
  obtain ⟨delay, -, -, -, -, running, -⟩ := laws.radio
  exact ⟨laws.air, lanes, partition, stopped, running, by omega, delay.2⟩

/-- Entries of the same places are as many on each lane. -/
theorem State.laneEntries_eq (s : State) (lane : Lane) :
    s.laneEntries lane = (s.entries.map Entry.place).countP fun p => p.1 == lane := by
  rw [List.countP_map]
  rfl

/-- An entry that is left stands where one stood. -/
theorem State.SameAir.place_mem (h : s.SameAir t) {e : Entry} (member : e ∈ t.entries) :
    ∃ d ∈ s.entries, d.lane = e.lane ∧ d.grantFrame = e.grantFrame ∧ d.slot = e.slot ∧ d.expected = e.expected := by
  obtain ⟨d, there, same⟩ := List.mem_map.1 (h.places.subset (List.mem_map_of_mem member))
  simp only [Entry.place, Prod.mk.injEq] at same
  exact ⟨d, there, same⟩

/-- Two entries of one lane are never expected in one ack slot (R137). -/
def Entry.Clash (a b : Entry) : Prop := a.lane = b.lane ∧ a.expected = b.expected ∧ a.slot = b.slot

theorem places_apart {es ds : List Entry} (fewer : (es.map Entry.place).Sublist (ds.map Entry.place))
    (apart : ds.Pairwise fun a b => ¬a.Clash b) : es.Pairwise fun a b => ¬a.Clash b := by
  have places : ∀ l : List Entry, (l.map Entry.place).Pairwise
      (fun p q => ¬(p.1 = q.1 ∧ p.2.2.2 = q.2.2.2 ∧ p.2.2.1 = q.2.2.1)) ↔ l.Pairwise fun a b => ¬a.Clash b :=
    fun l => List.pairwise_map
  exact (places es).1 (((places ds).2 apart).sublist fewer)

/-- While the air has not moved, the places stay lawful. -/
theorem State.SameAir.onAir (same : s.SameAir t) (h : s.OnAir) : t.OnAir := by
  obtain ⟨lanes, windows, entries, apart⟩ := h.air
  have gone : s.entries = [] → t.entries = [] := fun none => by simpa [none] using same.places
  refine ⟨⟨?_, ?_, ?_, places_apart same.places apart⟩, ?_, ?_, ?_, ?_, ?_⟩
  · rw [same.windows]
    exact lanes
  · rw [same.windowsOpen]
    exact fun some => windows fun none => some (gone none)
  · intro e member
    obtain ⟨d, there, lane, granted, slot, expected⟩ := same.place_mem member
    simpa only [same.radio, same.windows, lane, granted, slot, expected] using entries d there
  · intro e member
    obtain ⟨d, there, lane, -⟩ := same.place_mem member
    rw [same.radio, ← lane]
    exact h.lanes d there
  · intro lane
    rw [same.radio, State.laneEntries_eq]
    exact (same.places.countP_le (p := fun p => p.1 == lane)).trans ((State.laneEntries_eq s lane) ▸ h.partition lane)
  · rw [same.radio]
    exact fun stopped => gone (h.stopped stopped)
  · rw [same.radio, same.windowsOpen]
    exact h.running
  · rw [same.radio]
    exact h.delay

theorem Edits.onAir (e : Edits s t) (h : s.OnAir) : t.OnAir := e.sameAir.onAir h

theorem State.reset_onAir : State.reset.OnAir := resetMeetsTheLaws.onAir

/-- With no entry and no window open, the places are lawful whatever the lanes' windows were. -/
theorem State.OnAir.empty (h : s.OnAir) (windows : t.air.windows = s.air.windows) (entries : t.entries = [])
    (running : t.air.windowsOpen = true → t.radio.state = .running)
    (delay : 1 ≤ t.radio.config.ackDelay ∧ t.radio.config.ackDelay ≤ 15) : t.OnAir := by
  obtain ⟨lanes, -⟩ := h.air
  refine ⟨⟨windows ▸ lanes, fun some => absurd entries some, ?_, ?_⟩, ?_, ?_, fun _ => entries, running, delay⟩
  · simp [entries]
  · simp [entries]
  · simp [entries]
  · simp [State.laneEntries, entries]

/-! ## The frame in progress goes on -/

/-- The frame in progress has gone on from one state to another: the same radio record, the same frame with windows, outside or inside
the same reset, and no window of it undone. -/
structure State.GoesOn (s t : State) : Prop where
  radio : t.radio = s.radio
  windowsOpen : t.air.windowsOpen = s.air.windowsOpen
  inReset : t.inReset = s.inReset
  opened : ∀ lane : Lane, s.air.windows[lane.val].opened ≤ t.air.windows[lane.val].opened
  closed : ∀ lane : Lane, ∀ j ∈ s.air.windows[lane.val].closed, j ∈ t.air.windows[lane.val].closed

theorem State.GoesOn.refl (s : State) : s.GoesOn s := ⟨rfl, rfl, rfl, fun _ => Nat.le_refl _, fun _ _ => id⟩

theorem State.GoesOn.trans (h : s.GoesOn t) (k : t.GoesOn u) : s.GoesOn u :=
  ⟨k.radio.trans h.radio, k.windowsOpen.trans h.windowsOpen, k.inReset.trans h.inReset,
    fun lane => (h.opened lane).trans (k.opened lane), fun lane j member => k.closed lane j (h.closed lane j member)⟩

/-- A lane's windows after one lane's have been replaced. -/
theorem State.setWindows_windows (lane other : Lane) (w : LaneWindows) (s : State) :
    (s.setWindows lane w).air.windows[other.val] = if other = lane then w else s.air.windows[other.val] := by
  simp only [State.setWindows, State.setAir_air, Vector.getElem_set, Fin.ext_iff, eq_comm (a := other.val)]

/-- A lane that opens or closes more goes on. -/
theorem State.setWindows_goesOn (lane : Lane) (w : LaneWindows) (s : State) (opened : s.air.windows[lane.val].opened ≤ w.opened)
    (closed : ∀ j ∈ s.air.windows[lane.val].closed, j ∈ w.closed) : s.GoesOn (s.setWindows lane w) := by
  refine ⟨rfl, rfl, rfl, fun other => ?_, fun other => ?_⟩
  · rw [State.setWindows_windows]
    split
    · subst other; exact opened
    · exact Nat.le_refl _
  · rw [State.setWindows_windows]
    split
    · subst other; exact closed
    · exact fun _ => id

/-- Where neither radio nor windows move, the frame goes on. -/
theorem State.GoesOn.of_same (radio : t.radio = s.radio) (windows : t.air.windows = s.air.windows)
    (windowsOpen : t.air.windowsOpen = s.air.windowsOpen) (inReset : t.inReset = s.inReset) : s.GoesOn t :=
  ⟨radio, windowsOpen, inReset, fun _ => by rw [windows], fun _ _ => by rw [windows]; exact id⟩

/-! ## Deliveries ended -/

/-- A report moves the epoch record's count and the pending notices alone (R80, R81). -/
theorem State.reportStaged_same (s before : State) : (s.reportStaged before).entries = s.entries
    ∧ (s.reportStaged before).radio = s.radio ∧ (s.reportStaged before).air = s.air
    ∧ (s.reportStaged before).inReset = s.inReset := by
  rw [State.reportStaged_eq]
  split <;> exact ⟨rfl, rfl, rfl, rfl⟩

/-- A delivery ended frees its one entry and leaves the radio and the windows. -/
structure State.Frees (e : Entry) (s t : State) : Prop where
  entries : t.entries = s.entries.erase e
  radio : t.radio = s.radio
  windows : t.air.windows = s.air.windows
  windowsOpen : t.air.windowsOpen = s.air.windowsOpen
  beaconDue : t.air.beaconDue = s.air.beaconDue
  inReset : t.inReset = s.inReset

/-- The entry freed and the record written. -/
theorem State.writeLabel_frees (e : Entry) (k : Nat) (new : Option Label) (s : State) :
    s.Frees e ((s.freeEntry e).writeLabel k new) := by
  have same := State.writeLabel_same k new (s.freeEntry e)
  exact ⟨same.entries, same.radio, congrArg Air.windows same.air, congrArg Air.windowsOpen same.air,
    congrArg Air.beaconDue same.air, same.inReset⟩

theorem State.Frees.reportStaged {e : Entry} (h : s.Frees e t) (before : State) : s.Frees e (t.reportStaged before) := by
  obtain ⟨entries, radio, air, inReset⟩ := t.reportStaged_same before
  exact ⟨entries.trans h.entries, radio.trans h.radio, air ▸ h.windows, air ▸ h.windowsOpen, air ▸ h.beaconDue,
    inReset.trans h.inReset⟩

theorem State.failEntry_frees (e : Entry) (l : Label) (s : State) : s.Frees e (s.failEntry e l) := by
  have written := State.writeLabel_frees e e.label (some (l.failAttempt s.radio.config s.radio.frame e)) s
  simp only [State.failEntry]
  split
  · exact ⟨written.entries, written.radio, written.windows, written.windowsOpen, written.beaconDue, written.inReset⟩
  · exact written

theorem State.resolveClose_frees (e : Entry) (s : State) : s.Frees e (s.resolveClose e) := by
  simp only [State.resolveClose]
  split
  · exact State.Frees.reportStaged (t := s.freeEntry e) ⟨rfl, rfl, rfl, rfl, rfl, rfl⟩ s
  · exact (s.failEntry_frees e _).reportStaged s

theorem State.resolveArrival_frees (e : Entry) (a : Ack) (s : State) : s.Frees e (s.resolveArrival e a) := by
  simp only [State.resolveArrival]
  split
  · exact State.Frees.reportStaged (t := s.freeEntry e) ⟨rfl, rfl, rfl, rfl, rfl, rfl⟩ s
  · rename_i l _
    refine State.Frees.reportStaged ?_ s
    split
    · have written := State.writeLabel_frees e e.label (some (s.successLabel e a (l.observe s.radio.frame a))) s
      exact ⟨written.entries, written.radio, written.windows, written.windowsOpen, written.beaconDue, written.inReset⟩
    · exact s.failEntry_frees e _

theorem State.Frees.sameAir {e : Entry} (h : s.Frees e t) : s.SameAir t :=
  ⟨h.radio, h.windows, h.windowsOpen, h.entries ▸ List.erase_sublist.map _⟩

theorem State.Frees.goesOn {e : Entry} (h : s.Frees e t) : s.GoesOn t := .of_same h.radio h.windows h.windowsOpen h.inReset

/-! ## Ack slots (R100, R138, R147) -/

/-- A lane may go on: open more data slots, and, when all have opened, take and close ack slots that no entry still expects. -/
theorem State.OnAir.setWindows (h : s.OnAir) (lane : Lane) (w : LaneWindows) (more : s.air.windows[lane.val].opened ≤ w.opened)
    (fits : w.opened ≤ 6 ∧ (w.opened < 6 → w.taken = [] ∧ w.closed = []))
    (closed : ∀ e ∈ s.entries, e.lane = lane → e.expected = s.radio.frame → e.slot ∉ w.closed) :
    (s.setWindows lane w).OnAir := by
  obtain ⟨lanes, windows, entries, apart⟩ := h.air
  refine ⟨⟨fun other => ?_, windows, fun e member => ?_, apart⟩, h.lanes, h.partition, h.stopped, h.running, h.delay⟩
  · rw [State.setWindows_windows]
    split
    · exact fits
    · exact lanes other
  · obtain ⟨expected, age, slot, still⟩ := entries e member
    refine ⟨expected, age, fun now => ?_, fun now => ?_⟩
    · rw [State.setWindows_windows]
      split
      · rename_i onLane
        subst onLane
        exact (slot now).trans_le more
      · exact slot now
    · rw [State.setWindows_windows]
      split
      · exact closed e member ‹_› now
      · exact still now

/-- A lane with all data slots opened takes and closes what no entry still expects. -/
theorem State.OnAir.setAckSlots (h : s.OnAir) (lane : Lane) (w : LaneWindows) (same : w.opened = 6)
    (closed : ∀ e ∈ s.entries, e.lane = lane → e.expected = s.radio.frame → e.slot ∉ w.closed) :
    (s.setWindows lane w).OnAir :=
  h.setWindows lane w (same ▸ (h.air.1 lane).1) ⟨Nat.le_of_eq same, fun less => absurd same (Nat.ne_of_lt less)⟩ closed

/-- What the close of an ack slot does: nothing when it has closed; otherwise it closes, and the entry that expects it, if there is one,
is resolved (R147). -/
theorem State.closeSlot_cases (lane : Lane) (slot : SlotNo) (s : State) :
    (slot ∈ s.air.windows[lane.val].closed ∧ s.closeSlot lane slot = s)
    ∨ (slot ∉ s.air.windows[lane.val].closed ∧ ∃ w : LaneWindows,
        w = { s.air.windows[lane.val] with closed := slot :: s.air.windows[lane.val].closed }
        ∧ (((∀ e ∈ s.entries, ¬(e.lane = lane ∧ e.expected = s.radio.frame ∧ e.slot = slot))
            ∧ s.closeSlot lane slot = s.setWindows lane w)
          ∨ ∃ e ∈ s.entries, (e.lane = lane ∧ e.expected = s.radio.frame ∧ e.slot = slot)
            ∧ s.closeSlot lane slot = (s.setWindows lane w).resolveClose e)) := by
  by_cases already : slot ∈ s.air.windows[lane.val].closed
  · exact .inl ⟨already, by simp [State.closeSlot, already]⟩
  · refine .inr ⟨already, _, rfl, ?_⟩
    have shut : s.air.windows[lane.val].closed.contains slot = false := by simpa using already
    simp only [State.closeSlot, shut, Bool.false_eq_true, if_false]
    split
    · rename_i none
      exact .inl ⟨fun e member => by simpa [and_assoc, State.setWindows] using List.find?_eq_none.1 none e member, rfl⟩
    · rename_i e found
      exact .inr ⟨e, List.mem_of_find?_eq_some found, by simpa [and_assoc, State.setWindows] using List.find?_some found, rfl⟩

/-- The close of an ack slot, all data slots of its lane opened, leaves the places lawful, and the slot closed (R147). -/
theorem State.OnAir.closeSlot (h : s.OnAir) (lane : Lane) (slot : SlotNo) (opened : s.air.windows[lane.val].opened = 6) :
    (s.closeSlot lane slot).OnAir ∧ s.GoesOn (s.closeSlot lane slot)
      ∧ slot ∈ (s.closeSlot lane slot).air.windows[lane.val].closed := by
  obtain ⟨lanes, windows, entries, apart⟩ := h.air
  rcases s.closeSlot_cases lane slot with ⟨already, same⟩ | ⟨-, w, hw, rest⟩
  · rw [same]
    exact ⟨h, .refl s, already⟩
  have wOpened : w.opened = 6 := hw ▸ opened
  have wClosed : w.closed = slot :: s.air.windows[lane.val].closed := hw ▸ rfl
  have goes : s.GoesOn (s.setWindows lane w) := s.setWindows_goesOn lane w (by omega)
    fun j member => wClosed ▸ List.mem_cons_of_mem _ member
  have shut : slot ∈ (s.setWindows lane w).air.windows[lane.val].closed := by
    rw [State.setWindows_windows, if_pos rfl, wClosed]
    exact List.mem_cons_self
  have still : ∀ e ∈ s.entries, ¬(e.lane = lane ∧ e.expected = s.radio.frame ∧ e.slot = slot) →
      e.lane = lane → e.expected = s.radio.frame → e.slot ∉ w.closed := by
    rintro e member other rfl now
    rw [wClosed, List.mem_cons, not_or]
    exact ⟨fun same => other ⟨rfl, now, same⟩, (entries e member).2.2.2 now⟩
  rcases rest with ⟨none, same⟩ | ⟨e, member, expects, same⟩
  · rw [same]
    exact ⟨h.setAckSlots lane w wOpened fun e member => still e member (none e member), goes, shut⟩
  · rw [same]
    have freed := State.resolveClose_frees e (s.setWindows lane w)
    have before : (s.freeEntry e).OnAir := State.SameAir.onAir (s := s) ⟨rfl, rfl, rfl, List.erase_sublist.map _⟩ h
    have distinct : s.entries.Nodup := apart.imp fun {a b} differ (same : a = b) => differ (by simp [same])
    have differ : Std.Symm fun a b : Entry => ¬(a.lane = b.lane ∧ a.expected = b.expected ∧ a.slot = b.slot) :=
      ⟨fun a b differ ⟨lane, expected, slot⟩ => differ ⟨lane.symm, expected.symm, slot.symm⟩⟩
    have after : ((s.freeEntry e).setWindows lane w).OnAir := by
      refine before.setAckSlots lane w wOpened fun d left => ?_
      obtain ⟨other, there⟩ := distinct.mem_erase_iff.1 left
      refine still d there fun ⟨onLane, now, inSlot⟩ => apart.forall there member other ?_
      exact ⟨onLane.trans expects.1.symm, now.trans expects.2.1.symm, inSlot.trans expects.2.2.symm⟩
    have air : ((s.freeEntry e).setWindows lane w).SameAir ((s.setWindows lane w).resolveClose e) :=
      ⟨freed.radio, freed.windows, freed.windowsOpen, freed.entries ▸ .refl _⟩
    refine ⟨air.onAir after, goes.trans freed.goesOn, ?_⟩
    simp only [freed.windows]
    exact shut

/-- An ACK taken, all data slots of its lane opened, leaves the places lawful (R138). -/
theorem State.OnAir.takeAck (h : s.OnAir) (lane : Lane) (slot : SlotNo) (a : Ack) (opened : s.air.windows[lane.val].opened = 6) :
    (s.takeAck lane slot a).OnAir ∧ s.GoesOn (s.takeAck lane slot a) := by
  obtain ⟨-, -, entries, -⟩ := h.air
  obtain ⟨w, hw⟩ : ∃ w : LaneWindows, w = { s.air.windows[lane.val] with taken := slot :: s.air.windows[lane.val].taken } := ⟨_, rfl⟩
  have wClosed : w.closed = s.air.windows[lane.val].closed := hw ▸ rfl
  have taken : (s.setWindows lane w).OnAir := h.setAckSlots lane w (hw ▸ opened) fun e member onLane now => by
    subst onLane
    exact wClosed ▸ (entries e member).2.2.2 now
  have goes : s.GoesOn (s.setWindows lane w) := s.setWindows_goesOn lane w (hw ▸ Nat.le_refl _) fun j => wClosed ▸ id
  simp only [State.takeAck, ← hw]
  split
  · exact ⟨taken, goes⟩
  · rename_i e _
    have freed := State.resolveArrival_frees e a (s.setWindows lane w)
    exact ⟨freed.sameAir.onAir taken, goes.trans freed.goesOn⟩

end

end Sys2Proof.Machine
end

