-- ==== Sys2Proof/Proofs/AirSteps.lean ====
section
/-! The air under every command: data slots opened one after another, the windows finished, the frame advanced, the radio's requests. -/

namespace Sys2Proof.Machine

section
variable {s t u : State}

/-! ## Data slots (R98, R99, R123 to R137) -/

/-- The same frame, with the same windows and the same work due. -/
structure State.SameFrame (s t : State) : Prop where
  radio : t.radio = s.radio
  windows : t.air.windows = s.air.windows
  windowsOpen : t.air.windowsOpen = s.air.windowsOpen
  beaconDue : t.air.beaconDue = s.air.beaconDue
  inReset : t.inReset = s.inReset
  expiryDue : t.epoch.expiryDue = s.epoch.expiryDue
  holdsDue : t.holdsDue = s.holdsDue

theorem State.SameFrame.trans (h : s.SameFrame t) (k : t.SameFrame u) : s.SameFrame u :=
  ⟨k.radio.trans h.radio, k.windows.trans h.windows, k.windowsOpen.trans h.windowsOpen, k.beaconDue.trans h.beaconDue,
    k.inReset.trans h.inReset, k.expiryDue.trans h.expiryDue, k.holdsDue.trans h.holdsDue⟩

theorem State.SameFrame.goesOn (h : s.SameFrame t) : s.GoesOn t := .of_same h.radio h.windows h.windowsOpen h.inReset

theorem State.SameBesideLabels.frame (h : s.SameBesideLabels t) : s.SameFrame t :=
  ⟨h.radio, congrArg Air.windows h.air, congrArg Air.windowsOpen h.air, congrArg Air.beaconDue h.air, h.inReset,
    congrArg EpochRecord.expiryDue h.epoch, h.holdsDue⟩

theorem State.reportStaged_frame (s before : State) : s.SameFrame (s.reportStaged before) := by
  rw [State.reportStaged_eq]
  split <;> exact ⟨rfl, rfl, rfl, rfl, rfl, rfl, rfl⟩

theorem State.grant_frame (lane : Lane) (slot : SlotNo) (k : Nat) (s : State) : s.SameFrame (s.grant lane slot k) := by
  simp only [State.grant]
  split
  · exact ⟨rfl, rfl, rfl, rfl, rfl, rfl, rfl⟩
  · rename_i l _
    have written := (State.writeLabel_same k (some (s.grantedLabel l)) (s.setEntries (s.entries ++ [s.grantEntry lane slot k l]))).frame
    have sent : s.SameFrame (((s.setEntries (s.entries ++ [s.grantEntry lane slot k l])).writeLabel k
        (some (s.grantedLabel l))).transmit lane (some (s.chooseMessage l).2.1)) :=
      ⟨written.radio, written.windows, written.windowsOpen, written.beaconDue, written.inReset, written.expiryDue, written.holdsDue⟩
    have reported := sent.trans (State.reportStaged_frame _ s)
    split
    · exact ⟨reported.radio, reported.windows, reported.windowsOpen, reported.beaconDue, reported.inReset, reported.expiryDue,
        reported.holdsDue⟩
    · exact reported

/-- A decision moves no window and leaves all due work (R99). -/
theorem State.decideSlot_frame (lane : Lane) (slot : SlotNo) (s : State) : s.SameFrame (s.decideSlot lane slot) := by
  rcases s.decideSlot_cases lane slot with silent | ⟨pointers, zones, k, l, -, -, -, -, -, granted⟩
  · exact silent ▸ ⟨rfl, rfl, rfl, rfl, rfl, rfl, rfl⟩
  · rw [granted]
    have same := State.grant_frame lane slot k ((s.setPointers pointers).setZones zones)
    exact ⟨same.radio, same.windows, same.windowsOpen, same.beaconDue, same.inReset, same.expiryDue, same.holdsDue⟩

/-- A lane's windows after its next data slot has opened: the count alone has moved. -/
theorem State.openSlot_windows (lane other : Lane) (s : State) : (s.openSlot lane).air.windows[other.val]
    = if other = lane then { s.air.windows[lane.val] with opened := s.air.windows[lane.val].opened + 1 }
      else s.air.windows[other.val] := by
  rw [← State.setWindows_windows]
  simp only [State.openSlot, (State.decideSlot_frame _ _ _).windows]

theorem State.openSlot_goesOn (lane : Lane) (s : State) : s.GoesOn (s.openSlot lane) :=
  (s.setWindows_goesOn lane { s.air.windows[lane.val] with opened := s.air.windows[lane.val].opened + 1 } (Nat.le_succ _)
    fun _ => id).trans (State.decideSlot_frame _ _ _).goesOn

/-- A grant in a data slot that has just opened, in a lane with room, leaves the places lawful (R134, R137). -/
theorem State.OnAir.grant (h : s.OnAir) {lane : Lane} {slot : SlotNo} {k : Nat} {l : Label} (here : s.label k = some l)
    (windowsOpen : s.air.windowsOpen = true) (active : lane.val < s.radio.config.lanes.count)
    (room : s.laneEntries lane < s.partition) (opened : slot.val < s.air.windows[lane.val].opened)
    (first : ∀ e ∈ s.entries, e.lane = lane → e.grantFrame = s.radio.frame → e.slot ≠ slot) : (s.grant lane slot k).OnAir := by
  obtain ⟨lanes, -, entries, apart⟩ := h.air
  obtain ⟨granted, rfl, rest⟩ := State.grant_eq (lane := lane) (slot := slot) here
  refine Edits.onAir rest (State.SameAir.onAir (s := s.setEntries (s.entries ++ [s.grantEntry lane slot k l]))
    (State.writeLabel_sameAir k _ (List.Sublist.refl _)) ?_)
  have onLane : (s.grantEntry lane slot k l).lane = lane := rfl
  have now : (s.grantEntry lane slot k l).grantFrame = s.radio.frame := rfl
  have inSlot : (s.grantEntry lane slot k l).slot = slot := rfl
  have expected : (s.grantEntry lane slot k l).expected = s.radio.frame + BitVec.ofNat 24 s.radio.config.ackDelay := rfl
  generalize s.grantEntry lane slot k l = e at onLane now inSlot expected
  have delay := h.delay
  refine ⟨⟨lanes, fun _ => windowsOpen, fun d member => ?_, ?_⟩, fun d member => ?_, fun other => ?_, fun stopped => ?_, h.running, delay⟩
  · rcases List.mem_append.1 member with old | new
    · exact entries d old
    · obtain rfl := List.mem_singleton.1 new
      refine ⟨now ▸ expected, ?_, fun _ => ?_, fun due => ?_⟩
      · simp [now]
      · subst onLane; exact inSlot ▸ opened
      · rw [expected] at due
        have : s.radio.config.ackDelay < 16 := by omega
        exfalso
        simp only [State.setEntries_radio] at due
        bv_omega
  · refine List.pairwise_append.2 ⟨apart, List.pairwise_singleton _ _, fun d old a new => ?_⟩
    obtain rfl := List.mem_singleton.1 new
    rintro ⟨sameLane, sameFrame, sameSlot⟩
    refine first d old (sameLane.trans onLane) ?_ (sameSlot.trans inSlot)
    rw [(entries d old).1, expected] at sameFrame
    exact (BitVec.add_left_inj _).1 sameFrame
  · rcases List.mem_append.1 member with old | new
    · exact h.lanes d old
    · rw [List.mem_singleton.1 new, onLane]
      exact active
  · have each := h.partition other
    simp only [State.laneEntries, State.setEntries_entries, List.countP_append, List.countP_singleton, State.setEntries_radio] at each ⊢
    by_cases same : lane = other
    · subst same
      simp only [State.laneEntries, State.partition, Config.inFlightCapacity] at room
      split <;> omega
    · simpa [onLane, same] using each
  · have := h.running windowsOpen
    simp_all

/-- The next data slot of an active lane, opened in a frame with windows, leaves the places lawful. -/
theorem State.OnAir.openSlot (h : s.OnAir) (lane : Lane) (windowsOpen : s.air.windowsOpen = true)
    (active : lane.val < s.radio.config.lanes.count) (next : s.air.windows[lane.val].opened < 6) : (s.openSlot lane).OnAir := by
  obtain ⟨lanes, -, entries, -⟩ := h.air
  obtain ⟨w, hw⟩ : ∃ w : LaneWindows,
      w = { s.air.windows[lane.val] with opened := s.air.windows[lane.val].opened + 1 } := ⟨_, rfl⟩
  have opened : (s.setWindows lane w).OnAir := by
    refine h.setWindows lane w (hw ▸ Nat.le_succ _) ⟨hw ▸ next, fun _ => hw ▸ (lanes lane).2 next⟩ fun e member onLane now => ?_
    subst onLane
    exact hw ▸ (entries e member).2.2.2 now
  have slot : (Fin.ofNat 6 s.air.windows[lane.val].opened).val = s.air.windows[lane.val].opened := Nat.mod_eq_of_lt next
  simp only [State.openSlot, ← hw]
  generalize Fin.ofNat 6 s.air.windows[lane.val].opened = j at slot
  rcases (s.setWindows lane w).decideSlot_cases lane j with silent | ⟨pointers, zones, k, l, room, here, -, -, -, granted⟩
  · exact silent ▸ State.SameAir.onAir (s := s.setWindows lane w) ⟨rfl, rfl, rfl, .refl _⟩ opened
  · rw [granted]
    have moved : (((s.setWindows lane w).setPointers pointers).setZones zones).OnAir :=
      State.SameAir.onAir (s := s.setWindows lane w) ⟨rfl, rfl, rfl, .refl _⟩ opened
    refine moved.grant here windowsOpen active room ?_ fun e member onLane now same => ?_
    · have count : (s.setWindows lane w).air.windows[lane.val] = w := by rw [State.setWindows_windows, if_pos rfl]
      simp only [State.setZones_air, State.setPointers_air, count]
      rw [hw]
      exact slot ▸ Nat.lt_succ_self _
    · have before := (entries e member).2.2.1 now
      subst onLane
      rw [same] at before
      omega

/-- A number of data slots opened, no more than the frame has. -/
theorem State.OnAir.openSlots (h : s.OnAir) (lane : Lane) (n : Nat) (windowsOpen : s.air.windowsOpen = true)
    (active : lane.val < s.radio.config.lanes.count) (few : s.air.windows[lane.val].opened + n ≤ 6) :
    (s.openSlots lane n).OnAir ∧ s.GoesOn (s.openSlots lane n)
      ∧ (s.openSlots lane n).air.windows[lane.val].opened = s.air.windows[lane.val].opened + n := by
  induction n generalizing s with
  | zero => exact ⟨h, .refl s, rfl⟩
  | succ n ih =>
    have goes := s.openSlot_goesOn lane
    have one : (s.openSlot lane).air.windows[lane.val].opened = s.air.windows[lane.val].opened + 1 := by
      rw [State.openSlot_windows, if_pos rfl]
    obtain ⟨rest, goes', count⟩ := ih (h.openSlot lane windowsOpen active (by omega)) (goes.windowsOpen.trans windowsOpen)
      (by rwa [goes.radio]) (by omega)
    exact ⟨rest, goes.trans goes', by rw [State.openSlots, count, one]; omega⟩

/-- The data slots of an active lane below a number opened, in a frame with windows (R98). -/
theorem State.OnAir.openUpTo (h : s.OnAir) (lane : Lane) (n : Nat) (windowsOpen : s.air.windowsOpen = true)
    (active : lane.val < s.radio.config.lanes.count) (few : n ≤ 6) :
    (s.openUpTo lane n).OnAir ∧ s.GoesOn (s.openUpTo lane n) ∧ n ≤ (s.openUpTo lane n).air.windows[lane.val].opened := by
  have most := (h.air.1 lane).1
  obtain ⟨lawful, goes, count⟩ := h.openSlots lane (n - s.air.windows[lane.val].opened) windowsOpen active (by omega)
  exact ⟨lawful, goes, by rw [State.openUpTo, count]; omega⟩

/-- With all data slots of a lane opened. -/
theorem State.OnAir.opened_eq (h : s.OnAir) (lane : Lane) (all : 6 ≤ s.air.windows[lane.val].opened) :
    s.air.windows[lane.val].opened = 6 := Nat.le_antisymm (h.air.1 lane).1 all

/-! ## The windows finished (R98, R147) -/

/-- Data slots of active lanes opened up to given ones, one after another. -/
theorem State.OnAir.foldl_openUpTo (work : List (Lane × SlotNo)) (h : s.OnAir) (windowsOpen : s.air.windowsOpen = true)
    (active : ∀ w ∈ work, w.1.val < s.radio.config.lanes.count) :
    (work.foldl (fun t w => t.openUpTo w.1 (w.2.val + 1)) s).OnAir
      ∧ s.GoesOn (work.foldl (fun t w => t.openUpTo w.1 (w.2.val + 1)) s)
      ∧ ∀ w ∈ work, w.2.val + 1 ≤ (work.foldl (fun t w => t.openUpTo w.1 (w.2.val + 1)) s).air.windows[w.1.val].opened := by
  induction work generalizing s with
  | nil => exact ⟨h, .refl s, by simp⟩
  | cons w work ih =>
    obtain ⟨one, goes, reached⟩ := h.openUpTo w.1 (w.2.val + 1) windowsOpen (active w List.mem_cons_self) (by omega)
    obtain ⟨rest, goes', reached'⟩ := ih one (goes.windowsOpen.trans windowsOpen) fun v member => by
      rw [goes.radio]
      exact active v (List.mem_cons_of_mem _ member)
    refine ⟨rest, goes.trans goes', fun v member => ?_⟩
    rcases List.mem_cons.1 member with rfl | later
    · exact reached.trans (goes'.opened v.1)
    · exact reached' v later

/-- Ack slots of lanes with all data slots opened closed, one after another. -/
theorem State.OnAir.foldl_closeSlot (work : List (Lane × SlotNo)) (h : s.OnAir)
    (opened : ∀ w ∈ work, s.air.windows[w.1.val].opened = 6) :
    (work.foldl (fun t w => t.closeSlot w.1 w.2) s).OnAir ∧ s.GoesOn (work.foldl (fun t w => t.closeSlot w.1 w.2) s)
      ∧ ∀ w ∈ work, w.2 ∈ (work.foldl (fun t w => t.closeSlot w.1 w.2) s).air.windows[w.1.val].closed := by
  induction work generalizing s with
  | nil => exact ⟨h, .refl s, by simp⟩
  | cons w work ih =>
    obtain ⟨one, goes, shut⟩ := h.closeSlot w.1 w.2 (opened w List.mem_cons_self)
    obtain ⟨rest, goes', shut'⟩ := ih one fun v member => one.opened_eq v.1
      ((opened v (List.mem_cons_of_mem _ member)).symm.trans_le (goes.opened v.1))
    refine ⟨rest, goes.trans goes', fun v member => ?_⟩
    rcases List.mem_cons.1 member with rfl | later
    · exact goes'.closed v.1 v.2 shut
    · exact shut' v later

/-- The pairs of active lanes and slots. -/
theorem State.mem_laneSlots (s : State) (w : Lane × SlotNo) : w ∈ s.laneSlots ↔ w.1.val < s.radio.config.lanes.count := by
  obtain ⟨lane, slot⟩ := w
  simp [State.laneSlots, State.activeLanes, State.laneActive]

/-- The windows finished leave the places lawful and no window to come. -/
theorem State.OnAir.finishWindows (h : s.OnAir) :
    s.finishWindows.OnAir ∧ s.GoesOn s.finishWindows ∧ s.finishWindows.WindowsDone := by
  simp only [State.finishWindows]
  split
  · rename_i windowsOpen
    obtain ⟨opens, goes, reached⟩ := h.foldl_openUpTo s.laneSlots windowsOpen fun w member => (s.mem_laneSlots w).1 member
    have all : ∀ lane : Lane, lane.val < s.radio.config.lanes.count →
        (s.laneSlots.foldl (fun t w => t.openUpTo w.1 (w.2.val + 1)) s).air.windows[lane.val].opened = 6 := fun lane active =>
      opens.opened_eq lane (reached (lane, 5) ((s.mem_laneSlots _).2 active))
    obtain ⟨closes, goes', shut⟩ := opens.foldl_closeSlot s.laneSlots fun w member => all w.1 ((s.mem_laneSlots w).1 member)
    have overall := goes.trans goes'
    refine ⟨closes, overall, fun _ lane active => ?_⟩
    rw [overall.radio] at active
    exact ⟨closes.opened_eq lane ((all lane active).symm.trans_le (goes'.opened lane)), fun slot => shut (lane, slot) ((s.mem_laneSlots _).2 active)⟩
  · rename_i silent
    exact ⟨h, .refl s, fun open_ => absurd open_ silent⟩

/-! ## The frame advanced (R97) -/

/-- The frame number advances with the places lawful when no window is still to come: every entry of the frame before that was expected
in it has been resolved. -/
theorem State.OnAir.advanceFrame (h : s.OnAir) (done : s.WindowsDone) : s.advanceFrame.OnAir := by
  obtain ⟨-, windows, entries, apart⟩ := h.air
  have delay := h.delay
  refine Edits.onAir (State.ageHolds_edits _) ⟨⟨fun lane => ?_, fun some => ?_, fun e member => ?_, apart⟩, h.lanes, h.partition,
    h.stopped, by simp [State.running], delay⟩
  · simp [LaneWindows.none]
  · cases state : s.radio.state with
    | stopped => exact absurd (h.stopped state) some
    | running => simp [State.running, state]
  · obtain ⟨expected, age, -, still⟩ := entries e member
    have some : s.entries ≠ [] := fun none => by simp [none] at member
    have late : e.expected ≠ s.radio.frame := fun now =>
      still now ((done (windows some) e.lane (h.lanes e member)).2 e.slot)
    rw [expected] at late
    simp only [State.setAir_radio, State.setRadio_radio, framePlus]
    have next : (s.radio.frame + 1 - e.grantFrame).toNat ≤ s.radio.config.ackDelay ∧ e.grantFrame ≠ s.radio.frame + 1 := by
      constructor <;> bv_omega
    exact ⟨expected, next.1, fun now => absurd now next.2, fun _ => by simp [LaneWindows.none]⟩

/-! ## The requests that move the air (R92 to R95, R184) -/

theorem storedConfig_delay (lanes : LaneCount) (b : RadioWords) :
    1 ≤ (storedConfig lanes b).ackDelay ∧ (storedConfig lanes b).ackDelay ≤ 15 := by
  simp only [storedConfig, clamp]
  omega

theorem serveRadioConfig_onAir (b : RadioWords) (h : s.OnAir) : (serveRadioConfig b s).state.OnAir := by
  unfold serveRadioConfig
  split
  · exact h
  · split
    · exact h
    · split
      · exact h
      · rename_i off
        have stopped : s.radio.state = .stopped := by
          cases state : s.radio.state with
          | stopped => rfl
          | running => simp [State.running, state] at off
        exact h.empty rfl (h.stopped stopped) h.running (storedConfig_delay _ b)

theorem serveRadioStart_onAir (h : s.OnAir) : (serveRadioStart s).state.OnAir := by
  simp only [serveRadioStart, State.accept]
  split
  · exact h
  · exact ⟨h.air, h.lanes, h.partition, fun stopped => by simp at stopped, fun _ => rfl, h.delay⟩

theorem serveRadioStop_onAir (h : s.OnAir) : (serveRadioStop s).state.OnAir := by
  by_cases running : s.running = true
  · obtain ⟨edits, gone⟩ := serveRadioStop_running s running
    have same := edits.sameAir
    refine h.empty same.windows gone (fun open_ => ?_) ?_
    · simp [same.windowsOpen, State.stopped] at open_
    · simpa [same.radio, State.stopped] using h.delay
  · simpa only [serveRadioStop, if_neg running, State.accept] using h

theorem State.takeReset_onAir (s : State) : s.takeReset.OnAir :=
  State.SameAir.onAir (s := State.reset) ⟨rfl, rfl, rfl, .refl _⟩ State.reset_onAir

/-- Every request leaves the places lawful, from either port. -/
theorem serve_onAir (port : Port) (r : Request) (tables : s.TablesLaw) (h : s.OnAir) : (serve port r s).state.OnAir := by
  by_cases still : movesAir r = false
  · exact (serve_edits port r s tables still).onAir h
  cases r with
  | radioConfig b => exact serveRadioConfig_onAir b h
  | radioStart => exact serveRadioStart_onAir h
  | radioStop => exact serveRadioStop_onAir h
  | deviceReset => exact s.takeReset_onAir
  | _ => exact absurd rfl still

/-! ## Every command -/

theorem State.gatewayTake_onAir (tag : Byte) (r : Request) (tables : s.TablesLaw) (h : s.OnAir) :
    (s.gatewayTake tag r (serve .gateway r)).OnAir := by
  unfold State.gatewayTake
  split
  · exact h
  · have collected : Edits s (s.collect (r.frame tag)) := s.setGateway_edits _
    exact (Served.held_edits _ tag).onAir (serve_onAir _ _ (collected.tables tables) (collected.onAir h))

theorem State.gatewayTransaction_onAir (bytes : List Byte) (tables : s.TablesLaw) (h : s.OnAir) :
    (s.gatewayTransaction bytes).OnAir := by
  unfold State.gatewayTransaction
  have collected : Edits s (s.collect bytes) := s.setGateway_edits _
  split
  · exact h
  · split
    · exact (s.readResponse_edits _).onAir h
    · split
      · exact Edits.onAir (collected.trans (State.setGateway_edits _ _)) h
      · exact (Served.held_edits _ _).onAir (serve_onAir _ _ (collected.tables tables) (collected.onAir h))

theorem State.serviceFrame_onAir (frame : List Byte) (tables : s.TablesLaw) (h : s.OnAir) : (s.serviceFrame frame).OnAir := by
  unfold State.serviceFrame
  split
  · exact h
  · split
    · exact (s.setService_edits _).onAir h
    · rename_i r _
      have served := serve_onAir .service r tables h
      dsimp only
      split
      · exact served
      · exact (State.setService_edits _ _).onAir served

theorem State.assemble_onAir (buffer : List Byte) (b : Byte) (tables : s.TablesLaw) (h : s.OnAir) : (s.assemble buffer b).OnAir := by
  unfold State.assemble
  have hunts : Edits s (s.receive .hunting) := s.setService_edits _
  dsimp only
  split
  · exact (s.setService_edits _).onAir h
  · split
    · unfold State.serviceTooLong
      split
      · exact hunts.onAir h
      · exact Edits.onAir (hunts.trans (State.setService_edits _ _)) h
    · split
      · exact (s.setService_edits _).onAir h
      · exact State.serviceFrame_onAir _ (hunts.tables tables) (hunts.onAir h)

/-- A lane on the air: windows in this frame, and active (R95, R98). -/
theorem State.laneOnAir_iff (s : State) (lane : Lane) : s.laneOnAir lane = true ↔
    s.inReset = false ∧ s.air.windowsOpen = true ∧ lane.val < s.radio.config.lanes.count := by
  simp [State.laneOnAir, State.laneActive, and_assoc]

/-- The frame settled, its windows go on from where they stood. -/
theorem State.settleFrame_lane (tables : s.TablesLaw) (h : s.OnAir) {lane : Lane} (on : s.laneOnAir lane = true) :
    s.settleFrame.OnAir ∧ s.settleFrame.air.windowsOpen = true ∧ lane.val < s.settleFrame.radio.config.lanes.count := by
  have settled := s.settleFrame_edits tables
  obtain ⟨-, windowsOpen, active⟩ := (s.laneOnAir_iff lane).1 on
  exact ⟨settled.onAir h, settled.sameAir.windowsOpen.trans windowsOpen, by rwa [settled.sameAir.radio]⟩

/-- Every command leaves the places lawful. -/
theorem exec_onAir (c : Instr) (s t : State) (tables : s.TablesLaw) (h : s.OnAir) (ran : exec c s = .next t) : t.OnAir := by
  cases row : c.request with
  | some tr =>
    rw [exec_request (tag := tr.1) (r := tr.2) row] at ran
    obtain rfl := Host.Outcome.next.inj ran
    exact State.gatewayTake_onAir _ _ tables h
  | none =>
    cases c with
    | powerOnReset =>
      obtain rfl := Host.Outcome.next.inj ran
      exact s.takeReset_onAir
    | resetEnd =>
      obtain rfl := Host.Outcome.next.inj ran
      exact (s.setInReset_edits false).onAir h
    | readResponse n =>
      obtain rfl := Host.Outcome.next.inj ran
      split
      · exact h
      · exact (s.readResponse_edits n).onAir h
    | unknownKindFrame bytes =>
      obtain rfl := Host.Outcome.next.inj ran
      exact State.gatewayTransaction_onAir bytes tables h
    | serviceLineByte b stopBitError =>
      obtain rfl := Host.Outcome.next.inj ran
      split
      · exact h
      · split
        · split
          · exact (s.setService_edits _).onAir h
          · exact h
        · split
          · exact (s.setService_edits _).onAir h
          · exact State.assemble_onAir _ b tables h
    | serviceLineGapTimeout =>
      obtain rfl := Host.Outcome.next.inj ran
      exact (s.setService_edits _).onAir h
    | serviceResponseSent =>
      obtain rfl := Host.Outcome.next.inj ran
      exact (s.setService_edits _).onAir h
    | frameStart o =>
      by_cases on : s.inReset = false
      · rw [show exec (.frameStart o) s = _ from execFrameStart_eq o s on] at ran
        obtain rfl := Host.Outcome.next.inj ran
        have settled := s.settleFrame_edits tables
        obtain ⟨finished, -, done⟩ := (settled.onAir h).finishWindows
        have advanced := finished.advanceFrame done
        have tables' := Changes.tables ((State.finishWindows_changes s.settleFrame).trans (State.advanceFrame_changes _))
          (settled.tables tables)
        have counts : Edits _ s.settleFrame.finishWindows.advanceFrame.countDown.countHolds :=
          (State.countDown_edits _).trans (State.countHolds_edits _)
        exact (State.orderedWork_edits o _ (counts.tables tables')).onAir (counts.onAir advanced)
      · have off : s.inReset = true := by simpa using on
        obtain rfl : s = t := by simpa [exec, execFrameStart, off] using ran
        exact h
    | backoffRetryDue k =>
      obtain rfl := Host.Outcome.next.inj ran
      exact (s.takeDue_changes k).onAir h
    | countdownExpiry =>
      obtain rfl := Host.Outcome.next.inj ran
      exact (s.takeExpiry_edits tables).onAir h
    | holdBudgetSpent z =>
      obtain rfl := Host.Outcome.next.inj ran
      split
      · exact (s.takeHoldCount_edits z).onAir h
      · exact h
    | holdIdleReached z =>
      obtain rfl := Host.Outcome.next.inj ran
      split
      · exact (s.takeHoldCount_edits z).onAir h
      · exact h
    | dataSlotOpening lane slot =>
      obtain rfl := Host.Outcome.next.inj ran
      split
      · rename_i on
        obtain ⟨settled, windowsOpen, active⟩ := State.settleFrame_lane tables h (lane := lane) (by simp_all)
        exact (settled.openUpTo lane (slot.val + 1) windowsOpen active slot.isLt).1
      · exact h
    | ackArrival lane slot m =>
      obtain rfl := Host.Outcome.next.inj ran
      dsimp only
      split
      · rename_i on
        obtain ⟨settled, windowsOpen, active⟩ := State.settleFrame_lane tables h (lane := lane) (by simp_all)
        obtain ⟨opened, -, all⟩ := settled.openUpTo lane 6 windowsOpen active (Nat.le_refl 6)
        split
        · exact opened
        · exact (opened.takeAck lane slot _ (opened.opened_eq lane all)).1
      · exact h
    | ackSlotClose lane slot =>
      obtain rfl := Host.Outcome.next.inj ran
      split
      · rename_i on
        obtain ⟨settled, windowsOpen, active⟩ := State.settleFrame_lane tables h (lane := lane) (by simp_all)
        obtain ⟨opened, -, all⟩ := settled.openUpTo lane 6 windowsOpen active (Nat.le_refl 6)
        exact (opened.closeSlot lane slot (opened.opened_eq lane all)).1
      · exact h
    | _ => contradiction

/-- Settles O58: each change keeps labels and entries in step, and every command leaves the entries' places lawful. -/
theorem stepKeepsDeliveryLaw : Obligations.StepKeepsDeliveryLaw := fun s t laws stepped => by
  have agrees := ((s.deliveryLaw_iff laws.tables.rising).1 laws.delivery).1
  obtain ⟨tables, agrees⟩ := (step_changes s t laws.tables stepped).keep (P := State.Agrees) Change.agrees laws.tables agrees
  have onAir : t.OnAir := by
    unfold step at stepped
    split at stepped
    · obtain rfl := Host.Outcome.next.inj stepped
      exact laws.onAir
    · rename_i c rest _
      exact exec_onAir c (s.setPending rest) t laws.tables ((s.setPending_edits rest).onAir laws.onAir) stepped
  exact ⟨(t.deliveryLaw_iff tables.rising).2 ⟨agrees, onAir.lanes, onAir.partition, onAir.stopped⟩, onAir.air⟩

end

end Sys2Proof.Machine
end

