-- ==== Sys2Proof/Proofs/Follows.lean ====
section
/-! What follows one label record written: queues, counts, bound counts, the staged-outstanding count, and nothing else. -/

namespace Sys2Proof.Machine

section
variable {s t : State}

/-! ## Queues after one write (R6) -/

/-- The records of a table that one slot alone can meet a test with. -/
theorem Table.filter_single {α : Type} (t : Table α) (p : Nat × α → Bool) (k : Nat) (h : t.Pairwise fun a b => a.1 < b.1)
    (only : ∀ kv ∈ t, p kv = true → kv.1 = k) :
    (t.filter p).map Prod.fst = if (t.find k).any (fun x => p (k, x)) = true then [k] else [] := by
  have member : ∀ j, j ∈ (t.filter p).map Prod.fst ↔ j = k ∧ (t.find k).any (fun x => p (k, x)) = true := by
    intro j
    constructor
    · intro there
      obtain ⟨⟨i, x⟩, found, rfl⟩ := List.mem_map.1 there
      obtain ⟨here, meets⟩ := List.mem_filter.1 found
      obtain rfl : i = k := only _ here meets
      exact ⟨rfl, by rw [(t.mem_iff_find h i x).1 here]; exact meets⟩
    · rintro ⟨rfl, meets⟩
      obtain ⟨x, found, meets⟩ := (Option.any_eq_true _ _).1 meets
      exact List.mem_map.2 ⟨(j, x), List.mem_filter.2 ⟨(t.mem_iff_find h j x).2 found, meets⟩, rfl⟩
  refine eq_of_rising (List.pairwise_map.2 (h.filter p)) ?_ fun j => ?_
  · split <;> simp
  · rw [member]
    split <;> simp_all

/-- The queues after one label record is written, as R6 gives them: those that leave are taken out, one that joins comes last. -/
theorem State.writeLabel_queue_follows (k : Nat) (new : Option Label) (s : State) (tables : s.TablesLaw)
    (below : k < Config.labelCapacity) (law : s.QueueLaw) (z : ZoneNo) :
    (s.writeLabel k new).queue z
      = ((s.queue z).filter fun j => ((s.writeLabel k new).label j).any fun l => l.waitsIn z)
        ++ (((s.writeLabel k new).labels.filter fun jl => jl.2.waitsIn z
              && !(s.label jl.1).any fun l => l.waitsIn z).map Prod.fst) := by
  obtain ⟨nodup, holds⟩ := (s.queueLaw_iff tables.rising).1 law z
  have read := fun j => State.writeLabel_label k j new s tables.rising
  have rising := (State.writeLabel_wf k _ new s tables.labels_wf below).1
  have stays : ∀ j ∈ s.queue z, j ≠ k → ((s.writeLabel k new).label j).any (fun l => l.waitsIn z) = true := fun j member other => by
    rw [read, if_neg other, any_waitsIn_iff]
    exact (holds j).1 member
  have kept : ((s.queue z).filter fun j => ((s.writeLabel k new).label j).any fun l => l.waitsIn z)
      = if queueOf new = some z then s.queue z else (s.queue z).erase k := by
    split
    · rename_i waits
      refine List.filter_eq_self.2 fun j member => ?_
      by_cases same : j = k
      · rw [read, if_pos same, any_waitsIn_iff]
        exact waits
      · exact stays j member same
    · rename_i away
      rw [nodup.erase_eq_filter]
      refine List.filter_congr fun j member => ?_
      by_cases same : j = k
      · have leaves : ((s.writeLabel k new).label j).any (fun l => l.waitsIn z) = false := by
          rw [read, if_pos same, Bool.eq_false_iff, ne_eq, any_waitsIn_iff]
          exact away
        simp [same] at leaves ⊢
        exact leaves
      · simp [stays j member same, same]
  have joined : (((s.writeLabel k new).labels.filter fun jl => jl.2.waitsIn z
      && !(s.label jl.1).any fun l => l.waitsIn z).map Prod.fst)
      = if queueOf new = some z ∧ queueOf (s.label k) ≠ some z then [k] else [] := by
    rw [Table.filter_single _ _ k rising]
    · have slot : (s.writeLabel k new).labels.find k = new := (read k).trans (if_pos rfl)
      have both : (new.any fun l => l.waitsIn z && !(s.label k).any fun l => l.waitsIn z) = true
          ↔ queueOf new = some z ∧ queueOf (s.label k) ≠ some z := by
        rw [← any_waitsIn_iff, ne_eq, ← any_waitsIn_iff, Bool.not_eq_true]
        cases new <;> simp
      rw [slot]
      simp only [both]
    · rintro ⟨j, l⟩ member meets
      by_contra other
      have here : (s.writeLabel k new).label j = some l := (Table.mem_iff_find _ rising j l).1 member
      rw [read, if_neg other] at here
      simp [here] at meets
  rw [kept, joined, State.writeLabel_queue]
  by_cases old : queueOf (s.label k) = some z <;> by_cases fresh : queueOf new = some z
  · simp [old, fresh]
  · have differ : queueOf (s.label k) ≠ queueOf new := fun same => fresh (same ▸ old)
    rw [if_neg differ, if_neg fresh, if_pos old, if_neg fresh, if_neg fun both => fresh both.1, List.append_nil]
  · have differ : queueOf (s.label k) ≠ queueOf new := fun same => old (same ▸ fresh)
    rw [if_neg differ, if_pos fresh, if_pos fresh, if_pos ⟨fresh, old⟩]
  · have absent : k ∉ s.queue z := fun member => old ((holds k).1 member)
    simp [old, fresh, List.erase_of_not_mem absent]

/-! ## The staged-outstanding count (R80, R81) -/

/-- One record's share in the number of labels with STAGED set (R80). -/
def stagedShare (l : Option Label) : Nat := if l.any (fun l => l.needs.staged) = true then 1 else 0

/-- The sum of R80 after one label record is written. -/
theorem State.writeLabel_owed (k : Nat) (new : Option Label) (s : State) (h : s.labels.Pairwise fun a b => a.1 < b.1) :
    (s.writeLabel k new).owed + stagedShare (s.label k) = s.owed + stagedShare new := by
  have count := Table.countP_write (fun kl => kl.2.needs.staged) s.labels k new h
  have share : ∀ o : Option Label, countOpt (fun kl : Nat × Label => kl.2.needs.staged) k o = stagedShare o := fun o => by
    cases o <;> simp [countOpt, stagedShare]
  rw [share, share, show s.labels.find k = s.label k from rfl] at count
  simp only [State.owed, State.writeLabel_labels k new s h, (State.writeLabel_same k new s).entries]
  omega

/-- Two states that agree on everything but the staged-outstanding count and the notices. -/
structure State.SameBesideCount (s t : State) : Prop where
  inReset : t.inReset = s.inReset
  gateway : t.gateway = s.gateway
  service : t.service = s.service
  labels : t.labels = s.labels
  queues : t.queues = s.queues
  items : t.items = s.items
  templates : t.templates = s.templates
  epoch : t.epoch = { s.epoch with outstanding := t.epoch.outstanding }
  radio : t.radio = s.radio
  air : t.air = s.air
  zones : t.zones = s.zones
  pointers : t.pointers = s.pointers
  entries : t.entries = s.entries
  holdSet : t.holdSet = s.holdSet
  holdsDue : t.holdsDue = s.holdsDue
  pending : t.pending = s.pending

/-- A report where the count was right before the event: it is right again, and STAGING_COMPLETE is raised at a fall to 0. -/
theorem State.reportStaged_right (w before : State) (right : w.epoch.outstanding = before.owed) :
    w.SameBesideCount (w.reportStaged before) ∧ (w.reportStaged before).epoch.outstanding = w.owed
      ∧ (w.reportStaged before).notices = w.noticesAfterCount (w.reportStaged before) := by
  have sum : w.epoch.outstanding + w.owed - before.owed = w.owed := by omega
  have outside : w.epochOpen = true ↔ w.epoch.state ≠ .steady := by simp [State.epochOpen]
  rw [State.reportStaged_eq, sum]
  split
  · rename_i falls
    refine ⟨by constructor <;> rfl, rfl, ?_⟩
    simp [State.noticesAfterCount, State.raise_eq, SourceSet.add, falls, outside.1 falls.2.2]
  · rename_i stays
    refine ⟨by constructor <;> rfl, rfl, ?_⟩
    simp only [State.noticesAfterCount, State.setEpoch_epoch, State.setEpoch_notices]
    exact (if_neg fun ⟨before, zero, away⟩ => stays ⟨zero, before, outside.2 away⟩).symm

/-! ## One record written -/

/-- From `s` to `t` slot `k` is written `new`, with what follows from that, and the rest is as `r` has it. -/
abbrev State.Writes (s : State) (k : Nat) (new : Option Label) (r t : State) : Prop :=
  (∀ j, t.label j = if j = k then new else s.label j) ∧ s.Follows t ∧ t = t.withRecords r

/-- What writing the record of a slot of the directory needs: the laws of the records, and a binding that names an item. -/
structure State.Writable (s : State) (k : Nat) (new : Option Label) : Prop where
  tables : s.TablesLaw
  below : k < Config.labelCapacity
  queue : s.QueueLaw
  counts : s.CountsLaw
  bound : s.BoundLaw
  named : ∀ l ∈ new, ∀ i ∈ l.binding, (s.item i).isSome = true

/-- What follows one label record written, the count right. -/
theorem State.Writable.follows {k : Nat} {new : Option Label} (h : s.Writable k new)
    (labels : t.labels = (s.writeLabel k new).labels) (queues : t.queues = (s.writeLabel k new).queues)
    (zones : t.zones = (s.writeLabel k new).zones) (items : t.items = (s.writeLabel k new).items)
    (right : t.epoch.outstanding = t.owed) : s.Follows t := by
  have label : ∀ j, t.label j = (s.writeLabel k new).label j := fun j => by simp [State.label, labels]
  have item : ∀ j, t.item j = (s.writeLabel k new).item j := fun j => by simp [State.item, items]
  have zone : ∀ z, t.zone z = (s.writeLabel k new).zone z := fun z => by simp [State.zone, zones]
  refine ⟨fun z => ?_, ?_, fun z => ?_, ?_, ?_, right⟩
  · simp only [label, labels, show t.queue z = (s.writeLabel k new).queue z by simp [State.queue, queues]]
    exact State.writeLabel_queue_follows k new s h.tables h.below h.queue z
  · have counts := State.writeLabel_counts k new s h.tables.rising h.counts
    simpa only [State.CountsLaw, zone, State.tally, labels] using counts
  · rw [zone]
    exact State.writeLabel_zone_counts k new s z
  · have bound := State.writeLabel_bound k new s h.tables.items_wf h.tables.labels_wf h.below h.named h.bound
    simpa only [State.BoundLaw, item, items, labels] using bound
  · rw [items]
    exact State.writeLabel_unbound k new s h.tables.items_wf.1

/-- A state that differs in label records, and in what follows them, alone. -/
structure State.BesideRecords (r t : State) : Prop where
  inReset : t.inReset = r.inReset
  gateway : t.gateway = r.gateway
  service : t.service = r.service
  templates : t.templates = r.templates
  epoch : t.epoch = { r.epoch with outstanding := t.epoch.outstanding }
  radio : t.radio = r.radio
  air : t.air = r.air
  pointers : t.pointers = r.pointers
  entries : t.entries = r.entries
  holdSet : t.holdSet = r.holdSet
  holdsDue : t.holdsDue = r.holdsDue
  notices : t.notices = r.notices
  pending : t.pending = r.pending

theorem State.BesideRecords.eq {r : State} (h : r.BesideRecords t) : t = t.withRecords r := by
  obtain ⟨inReset, gateway, service, templates, epoch, radio, air, pointers, entries, holdSet, holdsDue, notices, pending⟩ := h
  cases t
  simp only at *
  subst_vars
  simp only [State.withRecords]
  rw [← epoch]

/-- One record written, the sum of R80 unchanged: what each slot reads as, what follows, and nothing else. -/
theorem State.Writable.plain {k : Nat} {new : Option Label} (h : s.Writable k new) (right : s.epoch.outstanding = s.owed)
    (share : stagedShare new = stagedShare (s.label k)) :
    s.Writes k new s (s.writeLabel k new) := by
  have same := State.writeLabel_same k new s
  have owed := State.writeLabel_owed k new s h.tables.rising
  refine ⟨fun j => State.writeLabel_label k j new s h.tables.rising, h.follows rfl rfl rfl rfl ?_, ?_⟩
  · rw [same.epoch]
    omega
  · exact State.BesideRecords.eq ⟨same.inReset, same.gateway, same.service, same.templates, by rw [same.epoch], same.radio, same.air,
      same.pointers, same.entries, same.holdSet, same.holdsDue, same.notices, same.pending⟩

/-- One record written and the change of the sum of R80 reported: what each slot reads as, what follows, and STAGING_COMPLETE where
the count fell to 0. -/
theorem State.Writable.reported {k : Nat} {new : Option Label} (h : s.Writable k new) (before : State)
    (right : s.epoch.outstanding = before.owed) :
    s.Writes k new { s with notices := s.noticesAfterCount ((s.writeLabel k new).reportStaged before) }
      ((s.writeLabel k new).reportStaged before) := by
  have same := State.writeLabel_same k new s
  obtain ⟨count, owed, notices⟩ := State.reportStaged_right (s.writeLabel k new) before (by rw [same.epoch]; exact right)
  have fell : (s.writeLabel k new).noticesAfterCount ((s.writeLabel k new).reportStaged before)
      = s.noticesAfterCount ((s.writeLabel k new).reportStaged before) := by
    simp only [State.noticesAfterCount, same.epoch, same.notices]
  have read : ∀ j, ((s.writeLabel k new).reportStaged before).label j = (s.writeLabel k new).label j := fun j => by
    simp [State.label, count.labels]
  refine ⟨fun j => (read j).trans (State.writeLabel_label k j new s h.tables.rising),
    h.follows count.labels count.queues count.zones count.items ?_, State.BesideRecords.eq ?_⟩
  · simp only [owed, State.owed, count.labels, count.entries]
  · exact ⟨count.inReset.trans same.inReset, count.gateway.trans same.gateway, count.service.trans same.service,
      count.templates.trans same.templates, same.epoch ▸ count.epoch, count.radio.trans same.radio, count.air.trans same.air,
      count.pointers.trans same.pointers, count.entries.trans same.entries, count.holdSet.trans same.holdSet,
      count.holdsDue.trans same.holdsDue, notices.trans fell, count.pending.trans same.pending⟩

/-- The same where the record written has STAGED set if the old one had: the count does not fall, and no notice is raised. -/
theorem State.Writable.marked {k : Nat} {new : Option Label} (h : s.Writable k new) (right : s.epoch.outstanding = s.owed)
    (more : stagedShare (s.label k) ≤ stagedShare new) :
    s.Writes k new s ((s.writeLabel k new).reportStaged s) := by
  obtain ⟨label, follows, beside⟩ := h.reported s right
  have same := State.writeLabel_same k new s
  obtain ⟨-, count, -⟩ := State.reportStaged_right (s.writeLabel k new) s (by rw [same.epoch]; exact right)
  have owed := State.writeLabel_owed k new s h.tables.rising
  have quiet : s.noticesAfterCount ((s.writeLabel k new).reportStaged s) = s.notices := by
    simp only [State.noticesAfterCount, count]
    exact if_neg fun falls => by omega
  rw [quiet] at beside
  exact ⟨label, follows, beside⟩

/-- A held response is a part of its own. -/
theorem State.withRecords_hold {r : State} (h : t = t.withRecords r) (tag : Byte) (x : Result × List Byte) :
    t.holdResponse tag x = (t.holdResponse tag x).withRecords (r.holdResponse tag x) :=
  calc t.holdResponse tag x = (t.withRecords r).holdResponse tag x := congrArg (State.holdResponse tag x) h
    _ = (t.holdResponse tag x).withRecords (r.holdResponse tag x) := rfl

/-- A notice raised is a part of its own. -/
theorem State.withRecords_raise {r : State} (h : t = t.withRecords r) (x : Source) :
    t.raise x = (t.raise x).withRecords (r.raise x) :=
  calc t.raise x = (t.withRecords r).raise x := congrArg (State.raise x) h
    _ = (t.raise x).withRecords (r.raise x) := rfl

/-! ## From the laws -/

/-- A record rewritten in its slot, its binding kept or naming an item. -/
theorem State.Laws.writable (laws : s.Laws) {k : Nat} {l : Label} (here : s.label k = some l) (l' : Label)
    (named : l'.binding = l.binding ∨ ∀ i ∈ l'.binding, (s.item i).isSome = true) : s.Writable k (some l') where
  tables := laws.tables
  below := laws.tables.label_lt here
  queue := laws.queue
  counts := laws.counts
  bound := laws.bound
  named m hm := by
    obtain rfl := Option.some.inj hm
    rcases named with same | named
    · rw [same]
      exact ((s.boundLaw_iff laws.tables.items_wf.1 laws.tables.rising).1 laws.bound).2 k l here
    · exact named

/-- The count is the sum of R80. -/
theorem State.Laws.owed (laws : s.Laws) : s.epoch.outstanding = s.owed := laws.staged.1

/-- Every record is settled. -/
theorem State.Laws.settled (laws : s.Laws) {k : Nat} {l : Label} (here : s.label k = some l) : l.Settled :=
  laws.delivery.1 _ ((laws.tables.mem_labels k l).2 here)

/-- Labels and entries agree. -/
theorem State.Laws.agrees (laws : s.Laws) : s.Agrees := ((s.deliveryLaw_iff laws.tables.rising).1 laws.delivery).1

/-- Bytes collected at the Gateway Port leave every law. -/
theorem State.Laws.collect (laws : s.Laws) (bytes : List Byte) : (s.collect bytes).Laws := { laws with }

end

end Sys2Proof.Machine
end

