-- ==== Sys2Proof/Proofs/LabelRequests.lean ====
section
/-! The label requests that are accepted (section 1.4): what each leaves in the directory, and that nothing else moves. -/

namespace Sys2Proof.Machine

section
variable {s : State} {k : Nat} {l : Label}

/-! ## What a request names -/

/-- An address that a record bears names it; the request's own values decide whether it is taken (R1). -/
theorem State.resolve_eq (tables : s.TablesLaw) (here : s.label k = some l) (ok : Bool) :
    s.resolve l.address ok = if ok = true then .ok (k, l) else .error .badValue := by
  simp only [State.resolve, tables.lookup_eq here rfl]

/-- An item number is taken from 1 to 99,999,999 (R29). -/
theorem itemNumberOf_isSome (n : BitVec 32) : (itemNumberOf n).isSome = true ↔ 1 ≤ n.toNat ∧ n.toNat ≤ 99999999 := by
  unfold itemNumberOf Config.moneyLimit
  split <;> simp <;> omega

/-- The number of an item of the table is in range (R29). -/
theorem State.TablesLaw.item_range (tables : s.TablesLaw) {i : Nat} {x : Item} (here : s.item i = some x) :
    1 ≤ x.number ∧ x.number ≤ 99999999 := by
  have member := (tables.mem_items i x).2 here
  obtain ⟨-, -, -, -, -, -, range⟩ := tables
  exact range _ member

/-- An optional item number that names an item of the table, or none: in range, and the binding is the item's slot (R16, R18). -/
theorem State.bindingOf_eq (tables : s.TablesLaw) {item : Option (BitVec 32)} {binding : Option Nat}
    (names : (item = none ∧ binding = none)
      ∨ ∃ n i x, item = some n ∧ binding = some i ∧ s.item i = some x ∧ x.number = n.toNat) :
    itemGivenOk item = true ∧ s.bindingOf item = some binding := by
  rcases names with ⟨rfl, rfl⟩ | ⟨n, i, x, rfl, rfl, here, number⟩
  · exact ⟨rfl, rfl⟩
  · have range := tables.item_range here
    refine ⟨(itemNumberOf_isSome n).2 (number ▸ range), ?_⟩
    simp only [State.bindingOf, tables.itemLookup_eq here number, Option.map_some]

/-! ## What a request does to a record -/

/-- A settled record's needs ask for no other delivery state. -/
theorem Label.Settled.followNeeds_self (h : l.Settled) : l.followNeeds = l := by
  obtain ⟨current, waits, -⟩ := h
  cases state : l.state <;> simp_all [Label.followNeeds]

/-- A mark with SHOWN is the mark of R40's table. -/
theorem Label.mark_eq_marked (staged : Bool) (l : Label) : l.mark true staged = l.marked true staged := by
  cases state : l.state <;>
    simp [Label.mark, Label.marked, Label.revive, Label.owe, Label.followNeeds, Label.hasNeed, Needs.any, Needs.union, state]

/-- A flag owed by a settled record: CURRENT becomes QUEUED, every other delivery state stays (R8). -/
theorem Label.Settled.owe_eq (h : l.Settled) (n : Needs) (some : n.any = true) :
    l.owe n = { l with needs := l.needs.union n, state := if l.state = .current then .queued else l.state } := by
  obtain ⟨current, -⟩ := h
  have need : (l.needs.union n).any = true := by
    simp only [Needs.any, Needs.union, Bool.or_eq_true] at some ⊢
    tauto
  cases state : l.state <;> simp_all [Label.owe, Label.followNeeds, Label.hasNeed]

/-- The staged rule as R78 states it is the one the directory applies: a LIVE staged PAGE in flight is for the pending epoch, and a
label with an entry is IN_FLIGHT. -/
theorem State.Laws.meetsStagedRule_eq (laws : s.Laws) (here : s.label k = some l) {m : Label} (same : m.state = l.state) :
    s.meetsStagedRule k m = s.needsStagedSide k m := by
  obtain ⟨-, -, -, -, pending⟩ := laws.staged
  have flying : s.stagedInFlight k m = s.entries.any fun e => e.label == k && e.liveStaged := by
    rw [Bool.eq_iff_iff]
    simp only [State.stagedInFlight, Bool.and_eq_true, beq_iff_eq, List.any_eq_true]
    refine ⟨fun ⟨_, e, member, at_, sent⟩ => ⟨e, member, at_, ?_⟩, fun ⟨e, member, at_, live⟩ => ?_⟩
    · unfold Entry.liveStaged
      split at sent <;> simp_all
    · obtain ⟨l', here', flies, -⟩ := laws.agrees.flying e member
      obtain rfl : l' = l := by simp_all
      refine ⟨same.trans flies, e, member, at_, ?_⟩
      have epoch := pending e member
      unfold Entry.liveStaged at live
      split at live
      · simp_all
      · contradiction
  simp only [State.meetsStagedRule, State.needsStagedSide, State.epochOpen, flying, State.itemHasNext, Option.any]
  congr 3
  cases m.binding.bind s.item <;> rfl

/-- A change of a record that keeps STAGED weighs the same in the sum of R80. -/
theorem stagedShare_le {m : Label} (more : l.needs.staged = true → m.needs.staged = true) :
    stagedShare (some l) ≤ stagedShare (some m) := by
  unfold stagedShare
  split <;> simp_all

/-! ## Requests taken -/

/-- A request whose block answers OK with one record written: the record and what follows it, and the Gateway Port. -/
theorem State.request_writes {c : Instr} {tag : Byte} {r : Request} (row : c.request = some (tag, r)) (awake : s.inReset = false)
    {new : Option Label} {body : List Byte} {u t : State} (served : serve .gateway r (s.collect (r.frame tag)) = t.accept body)
    (written : (s.collect (r.frame tag)).Writes k new u t) :
    exec c s = .next (t.holdResponse tag (.ok, body)) ∧ s.Writes k new (u.holdResponse tag (.ok, body)) (t.holdResponse tag (.ok, body)) := by
  obtain ⟨label, follows, beside⟩ := written
  refine ⟨?_, label, follows, State.withRecords_hold beside tag _⟩
  rw [exec_request row, State.gatewayTake_eq _ _ _ _ awake, served]
  rfl

/-- A request that is refused. -/
theorem State.request_refused {c : Instr} {tag : Byte} {r : Request} (row : c.request = some (tag, r)) (awake : s.inReset = false)
    {result : Result} (served : serve .gateway r (s.collect (r.frame tag)) = (s.collect (r.frame tag)).refuse result) :
    exec c s = .next (s.answer tag r result []) := by
  rw [exec_request row, State.gatewayTake_eq _ _ _ _ awake, served, State.refuse_held]

/-- A request that is answered OK and changes nothing. -/
theorem State.request_answered {c : Instr} {tag : Byte} {r : Request} (row : c.request = some (tag, r)) (awake : s.inReset = false)
    {body : List Byte} (served : serve .gateway r (s.collect (r.frame tag)) = (s.collect (r.frame tag)).accept body) :
    exec c s = .next (s.answer tag r .ok body) := by
  rw [exec_request row, State.gatewayTake_eq _ _ _ _ awake, served, State.accept_held]

end

/-! ## LABEL_RETRY, LABEL_QUERY, LABEL_LOCATE (R24 to R26) -/

/-- A record rewritten with its binding and its STAGED flag kept. -/
theorem State.Laws.rewrites {s : State} (laws : s.Laws) {k : Nat} {l l' : Label} (here : s.label k = some l)
    (binding : l'.binding = l.binding) (staged : l'.needs.staged = l.needs.staged) :
    s.Writes k (some l') s (s.writeLabel k (some l')) :=
  (laws.writable here l' (.inl binding)).plain laws.owed (by simp [here, stagedShare, staged])

/-- Settles O22, each request by the one record it rewrites. -/
theorem labelRetryQueryLocate : Obligations.LabelRetryQueryLocate := by
  rintro tag a k l s awake laws here rfl
  have resolved : ∀ r : Request, (s.collect (r.frame tag)).resolve l.address true = .ok (k, l) := fun r =>
    State.resolve_eq (laws.collect _).tables here true
  have settled := laws.settled here
  refine ⟨?_, ?_, ?_⟩
  · have written := (laws.collect ((Request.labelRetry l.address).frame tag)).rewrites (l' := l.revive) here
      (Label.revive_setup l).binding (by unfold Label.revive; split <;> rfl)
    exact ⟨_, State.request_writes rfl awake (by simp only [serve, serveLabelRetry, resolved]) written⟩
  · have owed : l.owe ⟨false, false, true, false⟩ = { l with
        needs := { l.needs with query := true }, state := if l.state = .current then .queued else l.state } := by
      simpa [Needs.union] using settled.owe_eq ⟨false, false, true, false⟩ rfl
    have written := (laws.collect ((Request.labelQuery l.address).frame tag)).rewrites here (Label.owe_setup _ l).binding
      (by rw [owed])
    rw [← owed]
    exact ⟨_, State.request_writes rfl awake (by simp only [serve, serveLabelQuery, resolved]) written⟩
  · have owed : l.owe ⟨false, false, false, true⟩ = { l with
        needs := { l.needs with locate := true }, state := if l.state = .current then .queued else l.state } := by
      simpa [Needs.union] using settled.owe_eq ⟨false, false, false, true⟩ rfl
    have written := (laws.collect ((Request.labelLocate l.address).frame tag)).rewrites here (Label.owe_setup _ l).binding
      (by rw [owed])
    rw [← owed]
    exact ⟨_, State.request_writes rfl awake (by simp only [serve, serveLabelLocate, resolved]) written⟩

/-! ## LABEL_RETIRE (R23, R152) -/

/-- A record removed with its entry: what follows, STAGING_COMPLETE where the count fell to 0. -/
theorem State.Laws.retires {s : State} (laws : s.Laws) {k : Nat} {l : Label} (here : s.label k = some l) :
    s.Writes k none
      { s with
        entries := s.entries.filter fun e => e.label != k
        air := { s.air with confirmedNow := s.air.confirmedNow.filter fun j => j != k }
        notices := s.noticesAfterCount ((s.retireLabel k).reportStaged s) }
      ((s.retireLabel k).reportStaged s) := by
  have freed : State.Writable ((s.setEntries (s.entries.filter fun e => e.label != k)).setAir
      { s.air with confirmedNow := s.air.confirmedNow.filter (· != k) }) k none :=
    { tables := laws.tables
      below := laws.tables.label_lt here
      queue := laws.queue
      counts := laws.counts
      bound := laws.bound
      named := by simp }
  exact freed.reported s laws.owed

/-- Settles O21: the record and its entry go in one report. -/
theorem labelRetire : Obligations.LabelRetire := by
  rintro tag a k l s awake laws here rfl
  have written := (laws.collect ((Request.labelRetire l.address).frame tag)).retires here
  have resolved : (s.collect ((Request.labelRetire l.address).frame tag)).resolve l.address true = .ok (k, l) :=
    State.resolve_eq (laws.collect _).tables here true
  exact ⟨_, State.request_writes (body := leBytes 2 k) rfl awake (by simp only [serve, serveLabelRetire, resolved]) written⟩

/-! ## LABEL_BIND (R18, R179) -/

/-- A record rewritten that names an item, STAGED not lost, and the count reported. -/
theorem State.Laws.reports {s : State} (laws : s.Laws) {k : Nat} {l l' : Label} (here : s.label k = some l)
    (binding : l'.binding = l.binding ∨ ∀ i ∈ l'.binding, (s.item i).isSome = true)
    (staged : l.needs.staged = true → l'.needs.staged = true) :
    s.Writes k (some l') s ((s.writeLabel k (some l')).reportStaged s) :=
  (laws.writable here l' binding).marked laws.owed (by rw [here]; exact stagedShare_le staged)

/-- A mark with SHOWN sets STAGED at most. -/
theorem Label.marked_staged (staged : Bool) (l : Label) (h : l.needs.staged = true) : (l.marked true staged).needs.staged = true := by
  simp [Label.marked, h]

/-- Another binding, from either port. -/
theorem State.Laws.rebinds {s : State} (laws : s.Laws) {k : Nat} {l : Label} (here : s.label k = some l) (port : Port)
    {item : Option (BitVec 32)} {binding : Option Nat} (given : itemGivenOk item = true) (found : s.bindingOf item = some binding)
    (other : binding ≠ l.binding) :
    let bound := { l with binding := binding, serviceTouched := l.serviceTouched || port == Port.service }
    let new := bound.marked true (s.needsStagedSide k { l with binding := binding })
    let t := (s.writeLabel k (some new)).reportStaged s
    serve port (.labelBind l.address item) s = (if port = .service then t.raise .serviceChange else t).accept []
      ∧ s.Writes k (some new) s t := by
  intro bound new t
  refine ⟨?_, laws.reports here (.inr (s.bindingOf_here laws.tables found)) (Label.marked_staged _ bound)⟩
  have marked : bound.mark true (s.meetsStagedRule k bound) = new := by
    rw [Label.mark_eq_marked, laws.meetsStagedRule_eq here (m := bound) rfl]
    rfl
  simp only [serve, serveLabelBind, State.resolve_eq laws.tables here, given, found, if_true, if_neg other]
  rw [marked]

/-- Settles O18: the same binding changes nothing, another is a mark reported. -/
theorem labelBind : Obligations.LabelBind := by
  rintro tag a item binding k l s awake laws here rfl names
  obtain ⟨given, found⟩ := State.bindingOf_eq laws.tables names
  refine ⟨fun same => ?_, fun other => ?_⟩
  · have served : ∀ (port : Port) (t : State), t.TablesLaw → t.label k = some l → t.bindingOf item = some binding →
        serve port (.labelBind l.address item) t = t.accept [] := fun port t tables here found => by
      simp only [serve, serveLabelBind, State.resolve_eq tables here, given, found, same, if_true]
    exact ⟨State.request_answered rfl awake (served .gateway _ (laws.collect _).tables here found),
      served .service s laws.tables here found⟩
  · refine ⟨?_, ?_⟩
    · obtain ⟨served, written⟩ :=
        (laws.collect ((Request.labelBind l.address item).frame tag)).rebinds here .gateway given found other
      have untouched : (l.serviceTouched || Port.gateway == Port.service) = l.serviceTouched := Bool.or_false _
      simp only [untouched] at served written
      exact ⟨_, State.request_writes rfl awake served written⟩
    · obtain ⟨served, label, follows, beside⟩ := laws.rebinds here .service given found other
      have touched : (l.serviceTouched || Port.service == Port.service) = true := Bool.or_true _
      simp only [touched] at served label follows beside
      exact ⟨_, served, label, follows, State.withRecords_raise beside .serviceChange⟩

/-! ## LABEL_ADD (R16, R17) -/

/-- A value within a range is its own residue. -/
theorem Fin.ofNat_eq_of_val {n m : Nat} [NeZero n] {i : Fin n} (h : i.val = m) : Fin.ofNat n m = i :=
  Fin.ext ((Nat.mod_eq_of_lt (h ▸ i.isLt)).trans h.symm)

/-- The settings LABEL_ADD stores are those whose values it was given, the phase reduced. -/
theorem addSettings_eq {b : LabelAddWords} {c : Settings} (zone : c.zone.val = b.zone.toNat) (lane : c.lane.val = b.lane.toNat)
    (exponent : c.exponent.val = b.exponent.toNat) (phase : c.phase = b.phase.toNat % 2 ^ c.exponent.val) : addSettings b = c := by
  unfold addSettings
  rw [Fin.ofNat_eq_of_val zone, Fin.ofNat_eq_of_val lane, Fin.ofNat_eq_of_val exponent, ← exponent, ← phase]

/-- The item a binding names has a next set. -/
theorem State.itemHasNext_eq (s : State) (l : Label) : s.itemHasNext l = (l.binding.bind s.item).any fun x => x.next.isSome := by
  unfold State.itemHasNext
  cases l.binding.bind s.item <;> rfl

/-- A LABEL_ADD that passes every check of R16. -/
theorem serveLabelAdd_eq {b : LabelAddWords} {s : State} {binding : Option Nat} {k : Nat} (inRange : addInRange b = true)
    (fresh : s.lookup b.address = none) (template : (s.templates.find b.template.toNat).isSome = true)
    (found : s.bindingOf b.item = some binding) (free : s.labels.lowestFree Config.labelCapacity = some k) :
    serveLabelAdd b s = ((s.writeLabel k (some (addRecord b binding (s.epochOpen && s.itemHasNext (addRecord b binding false)))))
      |>.reportStaged s).accept (leBytes 2 k ++ leBytes 1 (addSettings b).phase) := by
  obtain ⟨t, defined⟩ := Option.isSome_iff_exists.1 template
  simp only [serveLabelAdd, inRange, fresh, defined, found, free]
  rfl

/-- Settles O17: the checks of R16 pass, and the record is written to the lowest free slot. -/
theorem labelAdd : Obligations.LabelAdd := by
  intro tag b k c template binding s awake laws low high zone lane exponent phase slot defined fresh names below free taken
  obtain ⟨given, found⟩ := State.bindingOf_eq laws.tables names
  obtain rfl : addSettings b = c := addSettings_eq zone lane exponent phase
  have inRange : addInRange b = true := by
    simp only [addInRange, given, Bool.and_eq_true, bne_iff_ne, decide_eq_true_eq]
    exact ⟨⟨⟨⟨⟨⟨low, high⟩, by omega⟩, by omega⟩, by omega⟩, by omega⟩, trivial⟩
  have served := serveLabelAdd_eq (s := s.collect ((Request.labelAdd b).frame tag)) (k := k) inRange
    ((State.lookup_eq_none _ _).2 fresh) (slot ▸ defined) found (Table.lowestFree_eq _ _ _ laws.tables.labels_wf below free taken)
  have writable : (s.collect ((Request.labelAdd b).frame tag)).Writable k
      (some (addRecord b binding (s.epochOpen && s.itemHasNext (addRecord b binding false)))) :=
    { tables := laws.tables
      below := below
      queue := laws.queue
      counts := laws.counts
      bound := laws.bound
      named := fun l' new => Option.some.inj new ▸ s.bindingOf_here laws.tables found }
  have written := writable.marked laws.owed (by rw [show (s.collect _).label k = none from free]; exact Nat.zero_le _)
  obtain ⟨next, label, rest⟩ := State.request_writes (c := .labelAdd tag b) rfl awake served written
  refine ⟨_, next, fun j => (label j).trans ?_, rest⟩
  simp only [State.itemHasNext_eq, addRecord, Fin.ofNat_eq_of_val slot]
  rfl

/-! ## LABEL_MOVE (R19 to R21) -/

/-- The entry of an IN_FLIGHT label is the one entry that names its slot (R133). -/
theorem State.Agrees.entryOf_inFlight {s : State} (agrees : s.Agrees) {k : Nat} {l : Label} (here : s.label k = some l)
    (flies : l.state = .inFlight) : ∃ e, s.entryOf k = some e ∧ ∀ d, d ∈ s.entries ∧ d.label = k ↔ d = e := by
  obtain ⟨e, member, rfl⟩ := List.mem_map.1 (agrees.entered k l here flies)
  have only : ∀ d, d ∈ s.entries ∧ d.label = e.label ↔ d = e := fun d =>
    ⟨fun ⟨there, same⟩ => List.inj_on_of_nodup_map agrees.single there member same, by rintro rfl; exact ⟨member, rfl⟩⟩
  cases found : s.entryOf e.label with
  | none => simpa using List.find?_eq_none.1 found e member
  | some d =>
    obtain rfl : d = e := (only d).1 ⟨List.mem_of_find?_eq_some found, by simpa using List.find?_some found⟩
    exact ⟨d, rfl, only⟩

/-- A value of a LABEL_MOVE in its range, or the base's where none is given (R19). -/
theorem moveValue_eq {n w : Nat} [NeZero n] {given : Option (BitVec w)} {base i : Fin n}
    (h : i.val = (given.map BitVec.toNat).getD base.val) :
    (given.elim base fun b => Fin.ofNat n b.toNat) = i ∧ (given.all fun b => decide (b.toNat ≤ n - 1)) = true := by
  cases given with
  | none => exact ⟨Fin.ext h.symm, rfl⟩
  | some b =>
    refine ⟨Fin.ofNat_eq_of_val h, ?_⟩
    have value : i.val = b.toNat := h
    simp only [Option.all_some, decide_eq_true_eq]
    omega

/-- The target of a LABEL_MOVE: each given value in place of the base's, the phase reduced (R19). -/
theorem moveTarget_eq {m : MoveWords} {base target : Settings}
    (zone : target.zone.val = (m.zone.map BitVec.toNat).getD base.zone.val)
    (lane : target.lane.val = (m.lane.map BitVec.toNat).getD base.lane.val)
    (exponent : target.exponent.val = (m.exponent.map BitVec.toNat).getD base.exponent.val)
    (phase : target.phase = (m.phase.map BitVec.toNat).getD base.phase % 2 ^ target.exponent.val) : moveTarget m base = target := by
  have given : (m.phase.elim base.phase BitVec.toNat) = (m.phase.map BitVec.toNat).getD base.phase := by cases m.phase <;> rfl
  unfold moveTarget
  dsimp only
  rw [(moveValue_eq zone).1, (moveValue_eq lane).1, (moveValue_eq exponent).1, given, ← phase]

/-- The requested settings of R19, the settings a message carries read off every entry that names the label. -/
theorem State.Agrees.requestedAfter_eq {s : State} (agrees : s.Agrees) {k : Nat} {l : Label} (here : s.label k = some l)
    (m : MoveWords) : s.requestedAfter k l m = if givesSettings m = false then l.requested
      else if moveTarget m l.settingsToSend = l.confirmed
        ∧ (l.state = .inFlight → ∀ e ∈ s.entries, e.label = k → e.settings = moveTarget m l.settingsToSend) then none
      else some (moveTarget m l.settingsToSend) := by
  have carried : (l.state = .inFlight → ((s.entryOf k).any fun e => e.settings == moveTarget m l.settingsToSend) = true)
      ↔ (l.state = .inFlight → ∀ e ∈ s.entries, e.label = k → e.settings = moveTarget m l.settingsToSend) := by
    refine imp_congr_right fun flies => ?_
    obtain ⟨e, found, only⟩ := agrees.entryOf_inFlight here flies
    rw [found]
    exact ⟨fun same d member at_ => by simpa [(only d).1 ⟨member, at_⟩] using same,
      fun every => by simpa using every e ((only e).2 rfl).1 ((only e).2 rfl).2⟩
  simp only [State.requestedAfter, carried]
  cases givesSettings m <;> rfl

/-- A settled record given other requested settings or another template follows its needs to one delivery state (R20). -/
theorem Label.Settled.moved_followNeeds {l : Label} (h : l.Settled) (requested : Option Settings) (template : Fin 32) :
    let moved := { l with requested := requested, template := template }
    moved.followNeeds = if l.state = .inFlight then moved
      else if moved.hasNeed = true then { moved with state := if l.state = .current then .queued else l.state }
      else { moved with state := .current, attempts := 0, retryFrame := none } := by
  intro moved
  obtain ⟨current, -, retry, -⟩ := h
  have away : l.state ≠ .backoff → l.retryFrame = none := fun away => by simpa [away] using retry
  by_cases need : moved.hasNeed = true <;> cases state : l.state <;>
    simp_all [Label.followNeeds, moved]

/-- The record a LABEL_MOVE leaves (R19, R20). -/
theorem State.Laws.movedLabel_eq {s : State} (laws : s.Laws) {k : Nat} {l : Label} (here : s.label k = some l) (m : MoveWords)
    {template : Fin 32} (slot : (m.template.elim l.template fun b => Fin.ofNat 32 b.toNat) = template) :
    let moved := { l with requested := s.requestedAfter k l m, template := template }
    s.movedLabel k l m = if template ≠ l.template then moved.marked true (s.needsStagedSide k moved)
      else if l.state = .inFlight then moved
      else if moved.hasNeed = true then { moved with state := if l.state = .current then .queued else l.state }
      else { moved with state := .current, attempts := 0, retryFrame := none } := by
  intro moved
  rw [← (laws.settled here).moved_followNeeds, ite_not]
  simp only [State.movedLabel, slot]
  rw [Label.mark_eq_marked, laws.meetsStagedRule_eq here (m := moved) rfl]

/-- A LABEL_MOVE within its ranges, its template defined, leaves the record of R19 and R20 and answers with it; one that gives
nothing leaves the record it finds. -/
theorem State.Laws.moves {s : State} (laws : s.Laws) {k : Nat} {l : Label} (here : s.label k = some l) (m : MoveWords)
    (inRange : moveInRange m = true) (defined : (m.template.any fun b => (s.templates.find b.toNat).isNone) = false) :
    ∃ t, serve .gateway (.labelMove l.address m) s = t.accept (s.movedLabel k l m).moveBody
      ∧ s.Writes k (some (s.movedLabel k l m)) s t := by
  have kept := s.movedLabel_kept k l m inRange (by simp [defined])
  have staged : l.needs.staged = true → (s.movedLabel k l m).needs.staged = true := by
    simp only [State.movedLabel]
    split
    · rw [Label.followNeeds_eq]
      exact id
    · rw [Label.mark_eq_marked]
      exact Label.marked_staged _ _
  simp only [serve, serveLabelMove, State.resolve_eq laws.tables here, inRange, defined, if_true, Bool.false_eq_true, if_false]
  by_cases nothing : (!givesSettings m && m.template.isNone) = true
  · have same : s.movedLabel k l m = l := by
      simp only [Bool.and_eq_true, Bool.not_eq_true', Option.isNone_iff_eq_none] at nothing
      obtain ⟨silent, none⟩ := nothing
      simp only [State.movedLabel, State.requestedAfter, silent, none, Option.elim_none, if_true, Bool.false_eq_true, if_false]
      exact (laws.settled here).followNeeds_self
    rw [if_pos nothing, same]
    have written := laws.rewrites here (l' := l) rfl rfl
    rw [← here, State.writeLabel_self, here] at written
    exact ⟨s, rfl, written⟩
  · rw [if_neg nothing]
    exact ⟨_, rfl, laws.reports here kept.binding staged⟩

/-- Settles O19: the record of R19 and R20 is the one the directory writes, and the response is read off it. -/
theorem labelMove : Obligations.LabelMove := by
  rintro tag a m k l target template s awake laws here rfl zone lane exponent phase slot defined gives requested moved l'
  obtain ⟨slot_eq, slotOk⟩ := moveValue_eq slot
  have inRange : moveInRange m = true := by
    simp only [moveInRange, Bool.and_eq_true]
    exact ⟨⟨⟨(moveValue_eq zone).2, (moveValue_eq lane).2⟩, (moveValue_eq exponent).2⟩, slotOk⟩
  have here' : (s.collect ((Request.labelMove l.address m).frame tag)).label k = some l := here
  have laws' := laws.collect ((Request.labelMove l.address m).frame tag)
  have target_eq : moveTarget m l.settingsToSend = target := moveTarget_eq zone lane exponent phase
  have record : (s.collect ((Request.labelMove l.address m).frame tag)).movedLabel k l m = l' := by
    rw [laws'.movedLabel_eq here' m slot_eq, laws'.agrees.requestedAfter_eq here', target_eq]
    rfl
  have stored : (m.template.any fun b => (s.templates.find b.toNat).isNone) = false := by
    cases given : m.template with
    | none => rfl
    | some b =>
      rw [given] at slot
      simpa [← show template.val = b.toNat from slot, Option.isNone_eq_false_iff] using defined
  obtain ⟨t, served, written⟩ := laws'.moves here' m inRange stored
  rw [record] at served written
  have reported : l'.requested = requested ∧ l'.template = template := by
    dsimp only [l']
    split
    · exact ⟨rfl, rfl⟩
    · split
      · exact ⟨rfl, rfl⟩
      · split <;> exact ⟨rfl, rfl⟩
  rw [Label.moveBody, reported.1, reported.2] at served
  exact ⟨_, State.request_writes rfl awake served written⟩

/-! ## LABEL_GET (R22, R179) -/

/-- SETTINGS as LABEL_GET reports it, the settings a message carries read off every entry that names the label (R3, R22). -/
theorem State.Agrees.settingsHeld_eq {s : State} (agrees : s.Agrees) {k : Nat} {l : Label} (here : s.label k = some l)
    {c : Settings} (given : l.requested = some c) :
    s.settingsHeld k l = (l.state != .inFlight || s.entries.all fun e => e.label != k || e.settings != c) := by
  simp only [State.settingsHeld, given]
  by_cases flies : l.state = .inFlight
  · obtain ⟨e, found, only⟩ := agrees.entryOf_inFlight here flies
    rw [if_pos flies, found, flies, Bool.eq_iff_iff]
    simp only [Option.all_some, bne_self_eq_false, Bool.false_or, List.all_eq_true, Bool.or_eq_true, bne_iff_ne, ne_eq]
    constructor
    · intro differ d member
      by_cases at_ : d.label = k
      · exact .inr fun same => differ (by rw [← same, (only d).1 ⟨member, at_⟩])
      · exact .inl at_
    · intro every
      obtain ⟨member, at_⟩ := (only e).2 rfl
      exact (every e member).elim (absurd at_) fun differ same => differ same.symm
  · simp [flies]

/-- What LABEL_GET answers to either port for an address that a record bears. -/
theorem State.TablesLaw.serveLabelGet_eq {s : State} (tables : s.TablesLaw) {k : Nat} {l : Label} (here : s.label k = some l) (port : Port) :
    serveLabelGet port l.address s
      = (if port = .gateway then s.noteLabel k { l with serviceTouched := false } else s).accept (s.labelBody k l) := by
  simp only [serveLabelGet, State.resolve_eq tables here, if_true]

/-! ## LABEL_SCAN (R27) -/

/-- The first record of a rising table that meets a test. -/
theorem Table.find?_eq_first {α : Type} (t : Table α) (p : Nat × α → Bool) {k : Nat} {x : α} (rising : t.Pairwise fun a b => a.1 < b.1)
    (here : t.find k = some x) (meets : p (k, x) = true)
    (first : ∀ j y, t.find j = some y → j < k → p (j, y) = false) : List.find? p t = some (k, x) := by
  have member := (t.mem_iff_find rising k x).2 here
  cases found : List.find? p t with
  | none => exact absurd meets (List.find?_eq_none.1 found _ member)
  | some jy =>
    obtain ⟨j, y⟩ := jy
    obtain ⟨matched, before, after, split, fails⟩ := List.find?_eq_some_iff_append.1 found
    have slot : t.find j = some y := (t.mem_iff_find rising j y).1 (List.mem_of_find?_eq_some found)
    have late : ¬j < k := fun less => by simp [first j y slot less] at matched
    have early : (k, x) = (j, y) ∨ j < k := by
      rw [split] at member rising
      rcases List.mem_append.1 member with inBefore | inRest
      · exact absurd (fails _ inBefore) (by simp [meets])
      · exact (List.mem_cons.1 inRest).imp_right fun inAfter => List.rel_of_pairwise_cons (List.pairwise_append.1 rising).2.1 inAfter
    rw [early.resolve_right late]

/-- The bits of a byte of four flags. -/
theorem byteOfBits_four_getLsbD (a b c d : Bool) :
    ∀ i : Fin 8, (byteOfBits [a, b, c, d]).getLsbD i.val = [a, b, c, d, false, false, false, false].getD i.val false := by
  revert a b c d
  decide

/-- Every flag of a flag set is among four, bits 4 to 7 ignored (R198). -/
theorem flagSet_covered (flags : Byte) (a b c d : Bool) : ((flags &&& 0x0F &&& ~~~byteOfBits [a, b, c, d]) == 0)
    = ((!flags.getLsbD 0 || a) && (!flags.getLsbD 1 || b) && (!flags.getLsbD 2 || c) && (!flags.getLsbD 3 || d)) := by
  have bits := byteOfBits_four_getLsbD a b c d
  have zero : ∀ x : Byte, x = 0 ↔ ∀ i : Fin 8, x.getLsbD i.val = false := fun x =>
    ⟨fun none i => by simp [none], fun none => BitVec.eq_of_getLsbD_eq fun i below => by simpa using none ⟨i, below⟩⟩
  rw [Bool.eq_iff_iff, beq_iff_eq, zero]
  simp only [BitVec.getLsbD_and, BitVec.getLsbD_not, bits]
  simp only [Fin.forall_fin_succ]
  simp [imp_iff_not_or, and_assoc]

/-- A record matches a LABEL_SCAN as R27 says. -/
theorem Label.matchesScan_eq (states flags : Byte) (l : Label) : l.matchesScan states flags
    = ((states &&& 0x1F == 0 || states.getLsbD (deliveryCode l.state)) && (!flags.getLsbD 0 || l.lowBattery)
        && (!flags.getLsbD 1 || l.overflow) && (!flags.getLsbD 2 || l.mismatch) && (!flags.getLsbD 3 || l.serviceTouched)) := by
  simp only [Label.matchesScan, Label.flagsByte, flagSet_covered, Bool.and_assoc]

/-- LABEL_SCAN answers the first record that matches at or after its start slot. -/
theorem serveLabelScan_found {s : State} {start : BitVec 16} {states flags : Byte} {k : Nat} {l : Label}
    (below : ¬start.toNat ≥ Config.labelCapacity)
    (scan : List.find? (fun kv => start.toNat ≤ kv.1 && kv.2.matchesScan states flags) s.labels = some (k, l)) :
    serveLabelScan start states flags s
      = s.accept (leBytes 2 k ++ leBytes 3 l.address.toNat ++ leBytes 1 (deliveryCode l.state)) := by
  simp only [serveLabelScan, if_neg below, scan]

/-- LABEL_SCAN finds no record that matches at or after its start slot. -/
theorem serveLabelScan_none {s : State} {start : BitVec 16} {states flags : Byte} (below : ¬start.toNat ≥ Config.labelCapacity)
    (scan : List.find? (fun kv => start.toNat ≤ kv.1 && kv.2.matchesScan states flags) s.labels = none) :
    serveLabelScan start states flags s = s.refuse .notFound := by
  simp only [serveLabelScan, if_neg below, scan]

/-- Settles O20: LABEL_GET by the one record it reads, LABEL_SCAN by the first match in a rising table. -/
theorem labelGetAndScan : Obligations.LabelGetAndScan := by
  refine ⟨?_, ?_⟩
  · rintro tag a k l s awake laws here rfl settingsHeld body
    have held : s.settingsHeld k l = settingsHeld := by
      cases given : l.requested with
      | none => simp only [State.settingsHeld, settingsHeld, given]
      | some c => simpa only [settingsHeld, given] using laws.agrees.settingsHeld_eq here given
    have reported : s.labelBody k l = body := by
      simp only [State.labelBody, State.needsByte, held]
      rfl
    refine ⟨?_, ?_⟩
    · rw [exec_request rfl, State.gatewayTake_eq _ _ _ _ awake]
      simp only [serve, (laws.collect _).tables.serveLabelGet_eq here, if_true]
      rw [← reported]
      rfl
    · simp only [serve, laws.tables.serveLabelGet_eq here, reported]
      rfl
  · intro tag start states flags s awake laws found
    have matched : ∀ l : Label, l.matchesScan states flags = found l := Label.matchesScan_eq states flags
    refine ⟨fun beyond => ?_, fun k l here from_ meets first => ?_, fun below none => ?_⟩
    · refine State.request_refused rfl awake ?_
      simp only [serve, serveLabelScan]
      exact if_pos beyond
    · have below : ¬start.toNat ≥ Config.labelCapacity := by
        have := laws.tables.label_lt here
        omega
      have scan := s.labels.find?_eq_first (fun kv => start.toNat ≤ kv.1 && kv.2.matchesScan states flags) laws.tables.rising here
        (by simp [matched, meets, from_]) fun j l' there less => by
          by_cases reached : start.toNat ≤ j
          · simp [matched, first j l' there reached less]
          · simp [reached]
      refine State.request_answered rfl awake ?_
      exact serveLabelScan_found (s := s.collect _) below scan
    · refine State.request_refused rfl awake ?_
      refine serveLabelScan_none (s := s.collect _) (Nat.not_le.2 below) (List.find?_eq_none.2 fun kl member => ?_)
      by_cases reached : start.toNat ≤ kl.1
      · simp [matched, none kl.1 kl.2 ((laws.tables.mem_labels _ _).1 member) reached]
      · simp [reached]

end Sys2Proof.Machine
end

