-- ==== Sys2Proof/Proofs/Refusals.lean ====
section
/-! The refusals of the label requests, in the order of their checks (R1, R16, R18, R19). -/

namespace Sys2Proof.Machine

section
variable {s : State}

/-! ## The checks of written values -/

/-- An optional item number given in range (R16, R18). -/
theorem itemGivenOk_iff (item : Option (BitVec 32)) :
    itemGivenOk item = true ↔ ∀ n ∈ item, 1 ≤ n.toNat ∧ n.toNat ≤ 99999999 := by
  cases item <;> simp [itemGivenOk, itemNumberOf_isSome]

/-- The ranges of a LABEL_MOVE (R19). -/
theorem moveInRange_iff (m : MoveWords) : moveInRange m = true ↔ (∀ b ∈ m.zone, b.toNat ≤ 63) ∧ (∀ b ∈ m.lane, b.toNat ≤ 3)
    ∧ (∀ b ∈ m.exponent, b.toNat ≤ 8) ∧ ∀ b ∈ m.template, b.toNat ≤ 31 := by
  simp [moveInRange, Option.all_eq_true, and_assoc]

/-- The ranges of a LABEL_ADD (R16). -/
theorem addInRange_iff (b : LabelAddWords) : addInRange b = true ↔ b.address ≠ 0 ∧ b.address ≠ 0xFFFFFF ∧ b.zone.toNat ≤ 63
    ∧ b.lane.toNat ≤ 3 ∧ b.exponent.toNat ≤ 8 ∧ b.template.toNat ≤ 31 ∧ ∀ n ∈ b.item, 1 ≤ n.toNat ∧ n.toNat ≤ 99999999 := by
  simp only [addInRange, Bool.and_eq_true, bne_iff_ne, ne_eq, decide_eq_true_eq, itemGivenOk_iff, and_assoc]

/-! ## What a request fails to find -/

/-- An address that no record bears, every value in range (R1). -/
theorem State.resolve_absent {a : Address} (absent : ∀ kl ∈ s.labels, kl.2.address ≠ a) : s.resolve a true = .error .notFound := by
  simp only [State.resolve, (s.lookup_eq_none a).2 absent, if_true]

/-- A binding that a request asks for is missing exactly when no item has the number (R16, R18). -/
theorem State.bindingOf_eq_none {item : Option (BitVec 32)} :
    s.bindingOf item = none ↔ ∃ n ∈ item, ∀ kx ∈ s.items, kx.2.number ≠ n.toNat := by
  cases item with
  | none => simp [State.bindingOf]
  | some n => simp [State.bindingOf, State.itemLookup_eq_none]

/-! ## The requests -/

/-- A LABEL_BIND of a label that is there: the item number out of range, or no item with it (R18). -/
theorem labelBind_refused (tag : Byte) (awake : s.inReset = false) (tables : s.TablesLaw) {k : Nat} {l : Label}
    (here : s.label k = some l) (item : Option (BitVec 32)) :
    (itemGivenOk item = false → exec (.labelBind tag l.address item) s = .next (s.answer tag (.labelBind l.address item) .badValue []))
    ∧ (itemGivenOk item = true → s.bindingOf item = none →
      exec (.labelBind tag l.address item) s = .next (s.answer tag (.labelBind l.address item) .notFound [])) := by
  have resolved := State.resolve_eq (s := s.collect ((Request.labelBind l.address item).frame tag)) tables here
  refine ⟨fun wrong => ?_, fun given missing => ?_⟩
  · exact State.request_refused rfl awake (by simp only [serve, serveLabelBind, resolved, wrong, Bool.false_eq_true, if_false])
  · have missing' : (s.collect ((Request.labelBind l.address item).frame tag)).bindingOf item = none := missing
    exact State.request_refused rfl awake (by simp only [serve, serveLabelBind, resolved, given, if_true, missing'])

/-- A LABEL_MOVE of a label that is there: a value out of range, or a template not defined (R19). -/
theorem labelMove_refused (tag : Byte) (awake : s.inReset = false) (tables : s.TablesLaw) {k : Nat} {l : Label}
    (here : s.label k = some l) (m : MoveWords) :
    (moveInRange m = false → exec (.labelMove tag l.address m) s = .next (s.answer tag (.labelMove l.address m) .badValue []))
    ∧ (moveInRange m = true → (∃ b ∈ m.template, s.templates.find b.toNat = none) →
      exec (.labelMove tag l.address m) s = .next (s.answer tag (.labelMove l.address m) .notFound [])) := by
  have resolved := State.resolve_eq (s := s.collect ((Request.labelMove l.address m).frame tag)) tables here
  refine ⟨fun wrong => ?_, fun inRange ⟨b, given, missing⟩ => ?_⟩
  · exact State.request_refused rfl awake (by simp only [serve, serveLabelMove, resolved, wrong, Bool.false_eq_true, if_false])
  · have undefined_ : (m.template.any fun b =>
        ((s.collect ((Request.labelMove l.address m).frame tag)).templates.find b.toNat).isNone) = true :=
      (Option.any_eq_true _ _).2 ⟨b, given, Option.isNone_iff_eq_none.2 missing⟩
    exact State.request_refused rfl awake (by simp only [serve, serveLabelMove, resolved, inRange, if_true, undefined_])

/-- The checks of LABEL_ADD in their order (R16). -/
theorem serveLabelAdd_refused (b : LabelAddWords) (s : State) :
    (¬addInRange b = true → serveLabelAdd b s = s.refuse .badValue)
    ∧ (addInRange b = true → s.lookup b.address ≠ none → serveLabelAdd b s = s.refuse .exists)
    ∧ (addInRange b = true → s.lookup b.address = none → (s.templates.find b.template.toNat = none ∨ s.bindingOf b.item = none) →
      serveLabelAdd b s = s.refuse .notFound)
    ∧ (addInRange b = true → s.lookup b.address = none → ¬(s.templates.find b.template.toNat = none ∨ s.bindingOf b.item = none) →
      s.labels.lowestFree Config.labelCapacity = none → serveLabelAdd b s = s.refuse .full) := by
  refine ⟨fun wrong => ?_, fun inRange present => ?_, fun inRange fresh missing => ?_, fun inRange fresh there full => ?_⟩
  · simp only [serveLabelAdd, wrong, Bool.not_false, if_true]
  · have taken : (s.lookup b.address).isSome = true := Option.isSome_iff_ne_none.2 present
    simp only [serveLabelAdd, inRange, taken, Bool.not_true, Bool.false_eq_true, if_false, if_true]
  · simp only [serveLabelAdd, inRange, fresh, Option.isSome_none, Bool.not_true, Bool.false_eq_true, if_false]
    split
    · simp_all
    · rfl
  · obtain ⟨defined, given⟩ := not_or.1 there
    obtain ⟨t, defined⟩ := Option.ne_none_iff_exists'.1 defined
    obtain ⟨binding, given⟩ := Option.ne_none_iff_exists'.1 given
    simp only [serveLabelAdd, inRange, fresh, defined, given, full, Option.isSome_none, Bool.not_true, Bool.false_eq_true, if_false]

end

/-- Settles O23, each check by the lemma of its request. -/
theorem labelRequestsRefused : Obligations.LabelRequestsRefused := by
  intro tag s awake tables numberOk moveOk
  refine ⟨fun a absent => ?_, fun k l here => ⟨fun n => ?_, fun m => ?_⟩, fun b => ?_⟩
  · have resolved : ∀ r : Request, (s.collect (r.frame tag)).resolve a true = .error .notFound := fun r =>
      State.resolve_absent (s := s.collect _) absent
    refine ⟨?_, ?_, ?_, ?_, ?_, fun item given => ?_, fun m inRange => ?_⟩
    · exact State.request_refused rfl awake (by simp only [serve, serveLabelGet, resolved])
    · exact State.request_refused rfl awake (by simp only [serve, serveLabelRetire, resolved])
    · exact State.request_refused rfl awake (by simp only [serve, serveLabelRetry, resolved])
    · exact State.request_refused rfl awake (by simp only [serve, serveLabelQuery, resolved])
    · exact State.request_refused rfl awake (by simp only [serve, serveLabelLocate, resolved])
    · exact State.request_refused rfl awake (by simp only [serve, serveLabelBind, (itemGivenOk_iff item).2 given, resolved])
    · exact State.request_refused rfl awake (by simp only [serve, serveLabelMove, (moveInRange_iff m).2 inRange, resolved])
  · obtain ⟨badValue, notFound⟩ := labelBind_refused tag awake tables here (some n)
    have given : itemGivenOk (some n) = true ↔ numberOk n := by simp [itemGivenOk_iff, numberOk]
    refine ⟨fun wrong => badValue (Bool.eq_false_iff.2 fun ok => wrong (given.1 ok)), fun ok missing => ?_⟩
    exact notFound (given.2 ok) (State.bindingOf_eq_none.2 ⟨n, rfl, missing⟩)
  · obtain ⟨badValue, notFound⟩ := labelMove_refused tag awake tables here m
    exact ⟨fun wrong => badValue (Bool.eq_false_iff.2 fun ok => wrong ((moveInRange_iff m).1 ok)),
      fun ok => notFound ((moveInRange_iff m).2 ok)⟩
  · intro inRange present missing
    obtain ⟨badValue, exists_, notFound, full⟩ := serveLabelAdd_refused b (s.collect ((Request.labelAdd b).frame tag))
    have ranges : addInRange b = true ↔ inRange := addInRange_iff b
    have fresh : s.lookup b.address = none ↔ ¬present := by
      simp only [State.lookup_eq_none, present, not_exists, not_and, ne_eq]
    have absent : (s.templates.find b.template.toNat = none ∨ s.bindingOf b.item = none) ↔ missing :=
      or_congr_right State.bindingOf_eq_none
    refine ⟨fun wrong => ?_, fun ok there => ?_, fun ok new lacks => ?_, fun ok new has used => ?_⟩
    · exact State.request_refused rfl awake (badValue fun ok => wrong (ranges.1 ok))
    · exact State.request_refused rfl awake (exists_ (ranges.2 ok) fun gone => fresh.1 gone there)
    · exact State.request_refused rfl awake (notFound (ranges.2 ok) (fresh.2 new) (absent.2 lacks))
    · exact State.request_refused rfl awake
        (full (ranges.2 ok) (fresh.2 new) (fun lacks => has (absent.1 lacks)) (s.labels.lowestFree_none _ tables.labels_wf used))

end Sys2Proof.Machine
end

