-- ==== Sys2Proof/Proofs/Attempts.lean ====
section
/-! The retry of a label in BACKOFF (R14) and the failed attempt (R12, R139, R146 to R149). -/

namespace Sys2Proof

/-! ## The ACK message read back (R201) -/

/-- The number that the bytes of a value spell is the value within their range. -/
theorem leNat_leBytes (n v : Nat) : leNat (leBytes n v) = v % 256 ^ n := by
  induction n generalizing v with
  | zero => simp [leBytes, leNat, Nat.mod_one]
  | succ n ih =>
    rw [leBytes, leNat, ih, BitVec.toNat_ofNat, show 256 ^ (n + 1) = 256 * 256 ^ n from Nat.pow_succ', Nat.mod_mul]

/-- The bytes of a word spell the word. -/
theorem ofNat_leNat_leBytes {w : Nat} (n : Nat) (x : BitVec w) (wide : w = 8 * n) : BitVec.ofNat w (leNat (leBytes n x.toNat)) = x := by
  subst wide
  have bound : x.toNat < 256 ^ n := by simpa [Nat.pow_mul] using x.isLt
  rw [leNat_leBytes, Nat.mod_eq_of_lt bound, BitVec.ofNat_toNat, BitVec.setWidth_eq]

/-- The receiver takes every ACK as it was sent. -/
theorem receiveAck_message (a : Ack) : receiveAck a.message = some a := by
  have taken : a.message.take 12 = [(0x04 : Byte)] ++ leBytes 3 a.address.toNat ++ [if a.accepted then (0 : Byte) else 1]
      ++ leBytes 2 a.shownCheck.toNat ++ leBytes 2 a.stagedEpoch.toNat ++ leBytes 2 a.stagedCheck.toNat ++ leBytes 1 a.battery.val :=
    rfl
  have address : leAt a.message 1 3 = leNat (leBytes 3 a.address.toNat) := rfl
  have accepted : leAt a.message 4 1 = if a.accepted = true then 0 else 1 := by
    rw [show leAt a.message 4 1 = leNat [if a.accepted then (0 : Byte) else 1] from rfl]
    split <;> rfl
  have shown : leAt a.message 5 2 = leNat (leBytes 2 a.shownCheck.toNat) := rfl
  have epoch : leAt a.message 7 2 = leNat (leBytes 2 a.stagedEpoch.toNat) := rfl
  have staged : leAt a.message 9 2 = leNat (leBytes 2 a.stagedCheck.toNat) := rfl
  have battery : leAt a.message 11 1 = a.battery.val := by
    rw [show leAt a.message 11 1 = leNat (leBytes 1 a.battery.val) from rfl, leNat_leBytes]
    exact Nat.mod_eq_of_lt (by omega)
  have result : (leAt a.message 4 1 == 0) = a.accepted ∧ leAt a.message 4 1 ≤ 1 := by
    rw [accepted]
    cases a.accepted <;> decide
  rw [receiveAck, if_pos ⟨rfl, by rw [taken]; rfl, rfl, result.2, by omega⟩, result.1, address, shown, epoch, staged, battery]
  simp only [ofNat_leNat_leBytes 3 a.address rfl, ofNat_leNat_leBytes 2 a.shownCheck rfl,
    ofNat_leNat_leBytes 2 a.stagedEpoch rfl, ofNat_leNat_leBytes 2 a.stagedCheck rfl, Fin.ofNat_eq_cast, Fin.cast_val_eq_self]

end Sys2Proof

namespace Sys2Proof.Machine

/-! ## BACKOFF_RETRY_DUE (R14) -/

/-- Settles O39: the retry keeps the queue the record stands in, and with it its place. -/
theorem backoffRetryDue : Obligations.BackoffRetryDue := by
  intro k s laws
  refine ⟨fun l here waits come => ?_, fun away => ?_⟩
  · have due : s.retryDue l = true := by simp [State.retryDue, waits, come]
    have next : exec (.backoffRetryDue k) s = .next (s.writeLabel k (some l.retry)) := by
      simp only [exec, execBackoffRetryDue, here, due, if_true]
    have kept : queueOf (s.label k) = queueOf (some l.retry) := by
      simp [here, queueOf, Label.inQueue, Label.retry, waits, Label.adminZone]
    obtain ⟨label, follows, beside⟩ := laws.rewrites here (l' := l.retry) rfl rfl
    refine ⟨_, next, label, fun z => ?_, follows, beside⟩
    rw [State.writeLabel_queue, if_pos kept]
  · simp only [exec, execBackoffRetryDue]
    split
    · rfl
    · rename_i l here
      have still : ¬s.retryDue l = true := by
        simp only [State.retryDue, Bool.and_eq_true, beq_iff_eq]
        have := away l here
        tauto
      rw [if_neg still]

/-! ## A failed attempt (R12, R146 to R149) -/

/-- The record a failed attempt leaves, as R12, R146 and R148 say it (assumption 24). -/
theorem Label.failAttempt_eq (c : RadioConfig) (f : Frame) (e : Entry) (l : Label) (unset : l.retryFrame = none) :
    let l' := { l with
      needs := ⟨l.needs.shown || e.remembered.shown, l.needs.staged || e.remembered.staged,
        l.needs.query || e.remembered.query, l.needs.locate || e.remembered.locate⟩
      requested := if l.requested = some l.confirmed then none else l.requested }
    let attempts := min 15 (l.attempts + 1)
    l.failAttempt c f e = if l'.hasNeed = false then { l' with state := .current, attempts := 0 }
      else if c.maxAttempts ≤ attempts ∧ l.changed = true ∧ Config.changedInFlightRequeued = true then
        { l' with state := .queued, attempts := 0 }
      else if c.maxAttempts ≤ attempts then { l' with state := .failed, attempts := attempts }
      else { l' with state := .backoff, attempts := attempts, retryFrame := some (f + BitVec.ofNat 24 c.retryGap) } := by
  intro l' attempts
  have back : l.takeBack e = l' := by
    rw [Label.takeBack, Label.dropRequested_eq]
    rfl
  have bare : ∀ (d : Delivery) (n : Nat), { l' with state := d, attempts := n, retryFrame := none } = { l' with state := d, attempts := n } :=
    fun d n => by rw [← unset]
  simp only [Label.failAttempt, back, bare, framePlus, Bool.not_eq_true', Bool.and_eq_true, decide_eq_true_eq, and_assoc]
  rfl

/-- A notice raised before a report stands beside the one the report raises. -/
theorem State.raise_reportStaged (x : Source) (t before : State) : (t.raise x).reportStaged before = (t.reportStaged before).raise x := by
  have raised : (t.raise x).reportStaged before
      = if t.epoch.outstanding + t.owed - before.owed = 0 ∧ 0 < t.epoch.outstanding ∧ t.epochOpen = true then
          ((t.raise x).setEpoch { t.epoch with outstanding := t.epoch.outstanding + t.owed - before.owed }).raise .stagingComplete
        else (t.raise x).setEpoch { t.epoch with outstanding := t.epoch.outstanding + t.owed - before.owed } :=
    State.reportStaged_eq _ _
  rw [raised, State.reportStaged_eq]
  split
  · cases x <;> rfl
  · rfl

/-- The entry of a label freed is every entry of the label freed. -/
theorem State.Agrees.erase_eq_filter {s : State} (agrees : s.Agrees) {e : Entry} (member : e ∈ s.entries) :
    s.entries.erase e = s.entries.filter fun e' => e'.label != e.label := by
  rw [(List.Nodup.of_map _ agrees.single).erase_eq_filter]
  refine List.filter_congr fun d there => ?_
  rw [Bool.eq_iff_iff, bne_iff_ne, bne_iff_ne, not_iff_not]
  exact ⟨fun same => same ▸ rfl, fun same => List.inj_on_of_nodup_map agrees.single there member same⟩

/-- A list filtered to one member finds it. -/
theorem find?_of_filter_eq {α : Type} {p : α → Bool} {xs : List α} {x : α} (only : xs.filter p = [x]) :
    xs.find? p = some x ∧ x ∈ xs ∧ p x = true := by
  have found : xs.find? p = some x := by rw [← List.head?_filter, only]; rfl
  exact ⟨found, List.mem_of_find?_eq_some found, List.find?_some found⟩

/-- A failed attempt resolved: the record it leaves, its entry freed, LABEL_FAILED where the label is FAILED, the count reported. -/
theorem State.Laws.fails {s : State} (laws : s.Laws) (lane : Lane) (windows : LaneWindows) {e : Entry} (member : e ∈ s.entries)
    {l m : Label} (here : s.label e.label = some l) (binding : m.binding = l.binding) :
    let w := s.setWindows lane windows
    let new := m.failAttempt s.radio.config s.radio.frame e
    let t := (w.failEntry e m).reportStaged w
    s.Writes e.label (some new) { s with
      entries := s.entries.filter fun e' => e'.label != e.label
      air := { s.air with windows := s.air.windows.set lane.val windows }
      notices := if new.state = .failed then
          { s.noticesAfterCount t with pending := { (s.noticesAfterCount t).pending with labelFailed := true } }
        else s.noticesAfterCount t } t := by
  intro w new t
  have kept : new.binding = l.binding := (m.failAttempt_returned _ _ _).binding.trans binding
  have freed : (w.freeEntry e).Writable e.label (some new) :=
    { tables := laws.tables
      below := laws.tables.label_lt here
      queue := laws.queue
      counts := laws.counts
      bound := laws.bound
      named := (laws.writable here new (.inl kept)).named }
  obtain ⟨label, follows, beside⟩ := freed.reported w laws.owed
  rw [← laws.agrees.erase_eq_filter member]
  by_cases failed : new.state = .failed
  · have raised : t = (((w.freeEntry e).writeLabel e.label (some new)).reportStaged w).raise .labelFailed :=
      (congrArg (State.reportStaged · w) (if_pos failed)).trans (State.raise_reportStaged _ _ _)
    rw [if_pos failed, raised]
    exact ⟨label, follows, State.withRecords_raise beside .labelFailed⟩
  · have quiet : t = ((w.freeEntry e).writeLabel e.label (some new)).reportStaged w :=
      congrArg (State.reportStaged · w) (if_neg failed)
    rw [if_neg failed, quiet]
    exact ⟨label, follows, beside⟩

/-- An entry's lane has windows while any lane has (R98). -/
theorem State.Laws.laneOnAir {s : State} (laws : s.Laws) (awake : s.inReset = false) (windows : s.air.windowsOpen = true) {e : Entry}
    (member : e ∈ s.entries) : s.laneOnAir e.lane = true := by
  obtain ⟨-, -, -, -, lanes, -⟩ := laws.delivery
  simpa [State.laneOnAir, State.laneActive, awake, windows] using lanes e member

/-- An arrival matched to an entry that fails the test of R140 is a failed attempt of the record with its observations (R139). -/
theorem State.takeAck_fails {s : State} {lane : Lane} {slot : SlotNo} {a : Ack} {e : Entry} {l : Label}
    (found : s.matchArrival lane slot a.address = some e) (here : s.label e.label = some l) (fails : e.succeeds a = false) :
    let w := s.setWindows lane { s.air.windows[lane.val] with taken := slot :: s.air.windows[lane.val].taken }
    s.takeAck lane slot a = (w.failEntry e (l.observe s.radio.frame a)).reportStaged w := by
  intro w
  have found' : w.matchArrival lane slot a.address = some e := found
  have here' : w.label e.label = some l := here
  show (match w.matchArrival lane slot a.address with
    | none => w
    | some e => w.resolveArrival e a) = _
  simp only [found', State.resolveArrival, here', fails, Bool.false_eq_true, if_false]
  rfl

/-- The close of a slot that an entry still expects is a failed attempt of its record as it stands (R147). -/
theorem State.closeSlot_fails {s : State} {lane : Lane} {slot : SlotNo} {e : Entry} {l : Label}
    (still : slot ∉ s.air.windows[lane.val].closed) (found : s.expecting lane slot = some e) (here : s.label e.label = some l) :
    let w := s.setWindows lane { s.air.windows[lane.val] with closed := slot :: s.air.windows[lane.val].closed }
    s.closeSlot lane slot = (w.failEntry e l).reportStaged w := by
  intro w
  have open_ : ¬s.air.windows[lane.val].closed.contains slot = true := by simpa using still
  have found' : w.expecting lane slot = some e := found
  have here' : w.label e.label = some l := here
  show (if s.air.windows[lane.val].closed.contains slot = true then s else match w.expecting lane slot with
    | none => w
    | some e => w.resolveClose e) = _
  simp only [if_neg open_, found', State.resolveClose, here']

/-- An acknowledgement that fails the test of R140. -/
theorem Entry.succeeds_eq_false {e : Entry} {a : Ack} (fails : a.accepted = false ∨ match e.message with
    | .page .shown _ check => a.shownCheck ≠ check
    | .page (.staged _) epoch check => a.stagedEpoch ≠ epoch ∨ a.stagedCheck ≠ check
    | .query => False) : e.succeeds a = false := by
  unfold Entry.succeeds
  split at fails
  · simp_all [imp_iff_not_or]
  · simp_all [imp_iff_not_or, or_assoc]
  · simp_all

/-- Settles O45: in a settled frame with every data slot opened the window is one failed attempt of the one entry it concerns. -/
theorem attemptFails : Obligations.AttemptFails := by
  intro lane slot e l s awake laws settled windows opened still here failed outcome
  have attempt : ∀ m : Label, m.retryFrame = none → m.failAttempt s.radio.config s.radio.frame e = failed m := fun m unset =>
    m.failAttempt_eq _ _ e unset
  have unset : e ∈ s.entries → l.retryFrame = none := fun member => by
    obtain ⟨l', here', flies, -⟩ := laws.agrees.flying e member
    obtain rfl : l' = l := Option.some.inj (here'.symm.trans here)
    obtain ⟨-, -, retry, -⟩ := laws.settled here
    simpa [flies] using retry
  refine ⟨fun a first only fails => ?_, fun only => ?_⟩
  · obtain ⟨found, member, meets⟩ := find?_of_filter_eq only
    obtain rfl : e.lane = lane := by simp_all
    have taken := execAckArrival_next e.lane slot a.message s (laws.laneOnAir awake windows member) settled opened still first
    rw [receiveAck_message, Option.elim_some, State.takeAck_fails found here (Entry.succeeds_eq_false fails)] at taken
    have written := laws.fails e.lane { s.air.windows[e.lane.val] with taken := slot :: s.air.windows[e.lane.val].taken } member
      (m := l.observe s.radio.frame a) here rfl
    simp only [attempt (l.observe s.radio.frame a) (unset member)] at written
    exact ⟨_, taken, written⟩
  · obtain ⟨found, member, meets⟩ := find?_of_filter_eq only
    obtain rfl : e.lane = lane := by simp_all
    have closed := execAckSlotClose_next e.lane slot s (laws.laneOnAir awake windows member) settled opened still
    rw [State.closeSlot_fails still found here] at closed
    have written := laws.fails e.lane { s.air.windows[e.lane.val] with closed := slot :: s.air.windows[e.lane.val].closed } member
      (m := l) here rfl
    simp only [attempt l (unset member)] at written
    exact ⟨_, closed, written⟩

end Sys2Proof.Machine
end

