-- ==== Sys2Proof/Proofs/DueWork.lean ====
section
/-! The frame-start work still due (R14, R77, R101, R164; assumption 3): what all of it together leaves, and that nothing is due then. -/

namespace Sys2Proof.Machine

section
variable {s t u : State}

/-! ## Runs of commands -/

theorem run_cons {c : Instr} {cs : List Instr} (h : exec c s = .next t) : run (c :: cs) s = run cs t := by
  simp only [run, h]

theorem run_append {cs ds : List Instr} (h : run cs s = .next t) : run (cs ++ ds) s = run ds t := by
  induction cs generalizing s with
  | nil =>
    obtain rfl := Host.Outcome.next.inj h
    rfl
  | cons c cs ih =>
    cases done : exec c s with
    | next w =>
      rw [run_cons done] at h
      rw [List.cons_append, run_cons done, ih h]
    | fault f => simp [run, done] at h
    | refused r => simp [run, done] at h

/-! ## Retries (R14) -/

/-- BACKOFF_RETRY_DUE of a slot whose record is given. -/
theorem exec_backoffRetryDue {k : Nat} {l : Label} (here : s.label k = some l) :
    exec (.backoffRetryDue k) s = .next (if s.retryDue l = true then s.writeLabel k (some l.retry) else s) := by
  simp only [exec, execBackoffRetryDue, here]

/-- BACKOFF_RETRY_DUE for slots one after another, each record as it stands. -/
theorem run_backoffRetryDue (work : Table Label) (s : State) (rising : work.Pairwise fun a b => a.1 < b.1)
    (here : ∀ kl ∈ work, s.label kl.1 = some kl.2) :
    run (work.map fun kl => .backoffRetryDue kl.1) s
      = .next ((work.filter fun kl => s.retryDue kl.2).foldl (fun t kl => t.writeLabel kl.1 (some kl.2.retry)) s) := by
  induction work generalizing s with
  | nil => rfl
  | cons kl work ih =>
    rw [List.pairwise_cons] at rising
    have rest : ∀ jm ∈ work, s.label jm.1 = some jm.2 := fun jm member => here jm (List.mem_cons_of_mem _ member)
    rw [List.map_cons, run_cons (exec_backoffRetryDue (here kl List.mem_cons_self)), List.filter_cons]
    split
    · have due : (s.writeLabel kl.1 (some kl.2.retry)).retryDue = s.retryDue := by
        funext l
        simp only [State.retryDue, (State.writeLabel_same kl.1 (some kl.2.retry) s).radio]
      rw [ih _ rising.2 fun jm member => ?_, due, List.foldl_cons]
      rw [State.writeLabel_find, if_neg (Nat.ne_of_gt (rising.1 jm member))]
      exact rest jm member
    · exact ih s rising.2 rest

/-- BACKOFF_RETRY_DUE for every slot, then COUNTDOWN_EXPIRY, take all the work due of the directory and the epoch. -/
theorem run_retries_expiry (tables : s.TablesLaw) :
    run ((s.labels.map fun kl => .backoffRetryDue kl.1) ++ [.countdownExpiry]) s = .next s.takeRetries.takeExpiry :=
  run_append (run_backoffRetryDue s.labels s tables.rising fun _ member => (tables.mem_labels _ _).1 member)

/-! ## Hold counts (R164) -/

/-- A zone record once its due count is taken, its hold ended where the count ends it. -/
def State.zoneCounted (s : State) (z : ZoneNo) : Zone :=
  if s.CountEnds z then { (s.zone z).afterCount with hold := .none, holdStart := none, holdFrames := 0 } else (s.zone z).afterCount

/-- The counts of given zones are taken from `s` to `t`, and others stay due: each zone counted, its hold ended where the count ends
it, and nothing else moved. -/
structure State.CountedOff (work due : List ZoneNo) (s t : State) : Prop where
  zone : ∀ z, t.zone z = if z ∈ work then s.zoneCounted z else s.zone z
  holdSet : t.holdSet = s.holdSet.filter fun z => !(decide (z ∈ work) && decide (s.CountEnds z))
  holdsDue : t.holdsDue = due
  notices : t.notices = { s.notices with pending := { s.notices.pending with
    holdEnded := s.notices.pending.holdEnded || work.any fun z => decide (s.CountEnds z) } }
  rest : t = { s with zones := t.zones, holdSet := t.holdSet, holdsDue := t.holdsDue, notices := t.notices }

/-- The state that the counts leave. -/
theorem State.CountedOff.eq {work due : List ZoneNo} (h : State.CountedOff work due s t) : t = { s with
    zones := Vector.ofFn fun z => if z ∈ work then s.zoneCounted z else s.zone z
    holdSet := s.holdSet.filter fun z => !(decide (z ∈ work) && decide (s.CountEnds z))
    holdsDue := due
    notices := { s.notices with pending := { s.notices.pending with
      holdEnded := s.notices.pending.holdEnded || work.any fun z => decide (s.CountEnds z) } } } := by
  have zones : t.zones = Vector.ofFn fun z => if z ∈ work then s.zoneCounted z else s.zone z :=
    Vector.ext fun i below => (h.zone ⟨i, below⟩).trans (by rw [Vector.getElem_ofFn])
  rw [← zones, ← h.holdSet, ← h.holdsDue, ← h.notices]
  exact h.rest

/-- The counts of zones that stay due, taken after one another. -/
theorem State.CountedOff.trans {z : ZoneNo} {work : List ZoneNo} (fresh : z ∉ work) (h : State.CountedOff [z] work s t)
    (k : State.CountedOff work [] t u) : State.CountedOff (z :: work) [] s u := by
  have radio : t.radio = s.radio := by rw [h.rest]
  have zone : ∀ w ≠ z, t.zone w = s.zone w := fun w differ => (h.zone w).trans (if_neg (by simpa using differ))
  have ends : ∀ w ≠ z, (t.CountEnds w ↔ s.CountEnds w) := fun w differ => by simp only [State.CountEnds, zone w differ, radio]
  have other : ∀ w ∈ work, w ≠ z := fun w member same => fresh (same ▸ member)
  refine ⟨fun w => ?_, ?_, k.holdsDue, ?_, ?_⟩
  · rw [k.zone]
    by_cases here : w = z
    · subst here
      rw [if_neg fresh, h.zone, if_pos (List.mem_singleton_self w), if_pos List.mem_cons_self]
    · simp only [State.zoneCounted, ends w here, zone w here, List.mem_cons, here, false_or]
  · rw [k.holdSet, h.holdSet, List.filter_filter]
    refine List.filter_congr fun w _ => ?_
    by_cases here : w = z
    · subst here
      simp [fresh]
    · simp [ends w here, here]
  · have same : (work.any fun w => decide (t.CountEnds w)) = work.any fun w => decide (s.CountEnds w) := by
      rw [Bool.eq_iff_iff, List.any_eq_true, List.any_eq_true]
      exact exists_congr fun w => and_congr_right fun member => by simp only [ends w (other w member)]
    rw [k.notices, h.notices, same, List.any_cons, List.any_cons, List.any_nil, Bool.or_false, ← Bool.or_assoc]
  · rw [k.rest, h.rest]

/-- No count taken, none due. -/
theorem State.CountedOff.nil (due : s.holdsDue = []) : State.CountedOff [] [] s s := by
  refine ⟨fun z => by simp, by simp, due, by simp, rfl⟩

/-- One due count taken, as one record. -/
theorem State.takeHoldCount_eq {z : ZoneNo} {work : List ZoneNo} (due : s.holdsDue = z :: work) (once : z ∉ work) :
    s.takeHoldCount z = if s.CountEnds z then { s with
        zones := s.zones.set z.val { (s.zone z).afterCount with hold := .none, holdStart := none, holdFrames := 0 }
        holdSet := s.holdSet.erase z
        holdsDue := work
        notices := { s.notices with pending := { s.notices.pending with holdEnded := true } } }
      else { s with zones := s.zones.set z.val (s.zone z).afterCount, holdsDue := work } := by
  have ends : s.countEnds z = true ↔ s.CountEnds z := by
    simp [State.countEnds, State.CountEnds, Zone.counted, Zone.afterCount]
  have listed : s.holdsDue.contains z = true := by simp [due]
  have head : s.holdsDue.erase z = work := by simp [due]
  simp only [State.takeHoldCount, listed, head, ends, if_true]
  split
  · have zone : ((s.setZone z (s.zone z).counted).setHoldsDue work).zone z = (s.zone z).counted := by
      rw [show ((s.setZone z (s.zone z).counted).setHoldsDue work).zone z = (s.setZone z (s.zone z).counted).zone z from rfl,
        State.setZone_zone, if_pos rfl]
    rw [State.endHold_eq, zone]
    simp [State.setZone, State.setZones, State.setHoldsDue, List.erase_of_not_mem once, SourceSet.add, Zone.counted, Zone.afterCount]
  · rfl

/-- One due count taken. -/
theorem State.takeHoldCount_counts {z : ZoneNo} {work : List ZoneNo} (due : s.holdsDue = z :: work) (once : z ∉ work)
    (distinct : s.holdSet.Nodup) : State.CountedOff [z] work s (s.takeHoldCount z) := by
  have zone : ∀ w : ZoneNo, (s.zones.set z.val (s.zoneCounted z))[w.val] = if w ∈ [z] then s.zoneCounted w else s.zone w := fun w => by
    simp only [Vector.getElem_set, List.mem_singleton]
    by_cases same : w = z
    · subst same
      simp
    · rw [if_neg fun v => same (Fin.ext v.symm), if_neg same]
      rfl
  have left : (s.holdSet.filter fun w => !(decide (w ∈ [z]) && decide (s.CountEnds w)))
      = if s.CountEnds z then s.holdSet.erase z else s.holdSet := by
    split
    · rename_i spent
      rw [distinct.erase_eq_filter]
      refine List.filter_congr fun w _ => ?_
      by_cases same : w = z
      · subst same
        simp only [List.mem_singleton, spent, decide_true, Bool.and_self, Bool.not_true, bne_self_eq_false]
      · simp [same]
    · rename_i goes
      refine List.filter_eq_self.2 fun w _ => ?_
      by_cases same : w = z
      · subst same
        simp only [goes, decide_false, Bool.and_false, Bool.not_false]
      · simp [same]
  rw [State.takeHoldCount_eq due once]
  split
  · rename_i spent
    rw [if_pos spent] at left
    have ended : s.zoneCounted z = { (s.zone z).afterCount with hold := .none, holdStart := none, holdFrames := 0 } := if_pos spent
    exact ⟨fun w => (by rw [← ended]; exact zone w), left.symm, rfl, by
      simp only [List.any_cons, List.any_nil, spent, decide_true, Bool.true_or, Bool.or_true], rfl⟩
  · rename_i goes
    rw [if_neg goes] at left
    have counted : s.zoneCounted z = (s.zone z).afterCount := if_neg goes
    exact ⟨fun w => (by rw [← counted]; exact zone w), left.symm, rfl, by
      simp only [List.any_cons, List.any_nil, goes, decide_false, Bool.or_false], rfl⟩

/-- The counts due of zones taken one after another. -/
theorem State.foldl_takeHoldCount (work : List ZoneNo) (s : State) (due : s.holdsDue = work) (once : work.Nodup)
    (distinct : s.holdSet.Nodup) : State.CountedOff work [] s (work.foldl (fun t z => t.takeHoldCount z) s) := by
  induction work generalizing s with
  | nil => exact .nil due
  | cons z work ih =>
    obtain ⟨fresh, once⟩ := List.nodup_cons.1 once
    have first := State.takeHoldCount_counts due fresh distinct
    exact first.trans fresh (ih _ first.holdsDue once (first.holdSet ▸ distinct.filter _))

end

/-! ## What the work due leaves -/

/-- What the frame-start work of the directory and the epoch leaves: the radio, the air, the holds and the reset in progress. -/
structure State.BesideWork (s t : State) : Prop where
  inReset : t.inReset = s.inReset
  radio : t.radio = s.radio
  air : t.air = s.air
  holdSet : t.holdSet = s.holdSet
  holdsDue : t.holdsDue = s.holdsDue

theorem State.takeRetries_beside (s : State) : s.BesideWork s.takeRetries := by
  have same := s.updateLabels_same (fun _ l => s.retryDue l) fun _ l => l.retry
  exact ⟨same.inReset, same.radio, same.air, same.holdSet, same.holdsDue⟩

theorem State.takeExpiry_beside (s : State) : s.BesideWork s.takeExpiry := by
  unfold State.takeExpiry
  split
  · have same := State.updateLabels_same (fun _ _ => true) (fun _ l => l.cutOver s.epoch.pending)
      (s.setItems (s.items.map fun kx => (kx.1, kx.2.committed)))
    exact ⟨same.inReset, same.radio, same.air, same.holdSet, same.holdsDue⟩
  · exact ⟨rfl, rfl, rfl, rfl, rfl⟩

theorem State.BesideWork.trans {s t u : State} (h : s.BesideWork t) (k : t.BesideWork u) : s.BesideWork u :=
  ⟨k.inReset.trans h.inReset, k.radio.trans h.radio, k.air.trans h.air, k.holdSet.trans h.holdSet, k.holdsDue.trans h.holdsDue⟩

theorem State.takeWork_beside (s : State) : s.BesideWork s.takeRetries.takeExpiry :=
  s.takeRetries_beside.trans s.takeRetries.takeExpiry_beside

/-- A due expiry is that of a countdown that runs (R70, R77), so none is due once it is taken. -/
theorem State.Laws.takeExpiry_done {s : State} (laws : s.Laws) : s.takeRetries.takeExpiry.epoch.expiryDue = false := by
  obtain ⟨-, -, armed, -, due⟩ := laws.epoch
  have epoch : s.takeRetries.epoch = s.epoch := (s.updateLabels_same (fun _ l => s.retryDue l) fun _ l => l.retry).epoch
  unfold State.takeExpiry
  split
  · rfl
  · rename_i idle
    rw [epoch] at idle ⊢
    by_contra still
    have now : s.epoch.expiryDue = true := by simpa using still
    have state : s.epoch.state = .armed := armed.2 (by rw [due now]; decide)
    simp [now, state] at idle

/-- No record waits for a retry frame that has come. -/
theorem State.takeWork_retries {s : State} (tables : s.TablesLaw) {k : Nat} {l : Label}
    (here : s.takeRetries.takeExpiry.label k = some l) : ¬(l.state = .backoff ∧ l.retryFrame = some s.radio.frame) := by
  have retried : ∀ m, s.takeRetries.label k = some m → ¬(m.state = .backoff ∧ m.retryFrame = some s.radio.frame) := by
    intro m found
    rw [State.takeRetries, State.updateLabels_label _ _ _ _ tables.rising] at found
    obtain ⟨old, -, rfl⟩ := Option.map_eq_some_iff.1 found
    split
    · simp [Label.retry]
    · rename_i still
      simpa [State.retryDue] using still
  have retriedTables := (s.takeRetries_edits tables).tables tables
  unfold State.takeExpiry at here
  split at here
  · have read := State.updateLabels_label (fun _ _ => true) (fun _ l => l.cutOver s.takeRetries.epoch.pending)
      (s.takeRetries.setItems (s.takeRetries.items.map fun kx => (kx.1, kx.2.committed))) k retriedTables.rising
    obtain ⟨m, found, rfl⟩ := Option.map_eq_some_iff.1 (read.symm.trans here)
    simpa using retried m found
  · exact retried l here

/-- The frame settled: the work of the directory and the epoch, the counts due, the beacons. -/
theorem State.Laws.takeDueHolds_counts {s : State} (laws : s.Laws) :
    State.CountedOff s.holdsDue [] s.takeRetries.takeExpiry s.takeRetries.takeExpiry.takeDueHolds := by
  obtain ⟨distinct, -, -, -, once, -⟩ := laws.hold
  have beside := s.takeWork_beside
  have counts := State.foldl_takeHoldCount s.holdsDue s.takeRetries.takeExpiry beside.holdsDue once (beside.holdSet ▸ distinct)
  rw [State.takeDueHolds, beside.holdsDue]
  exact counts

/-- The beacons composed where they are due (R101). -/
theorem State.composeBeacons_eq (s : State) : s.composeBeacons = if s.air.beaconDue = true then s.withBeacons else s := by
  simp only [State.composeBeacons, State.laneActive, decide_eq_true_eq]
  rfl

/-- A frame settled has no work due and no beacon to be composed. -/
theorem State.Laws.settleFrame_settled {s : State} (laws : s.Laws) : s.settleFrame.Settled := by
  have counts := laws.takeDueHolds_counts
  have beside := s.takeWork_beside
  have tables := (s.settleFrame_edits laws.tables).tables laws.tables
  have composed : ∀ t : State, t.composeBeacons.air.beaconDue = false ∧ t.composeBeacons.epoch = t.epoch
      ∧ t.composeBeacons.holdsDue = t.holdsDue ∧ t.composeBeacons.labels = t.labels ∧ t.composeBeacons.radio = t.radio := fun t => by
    rw [State.composeBeacons_eq]
    split
    · exact ⟨rfl, rfl, rfl, rfl, rfl⟩
    · exact ⟨by simp_all, rfl, rfl, rfl, rfl⟩
  obtain ⟨beacon, epoch, holdsDue, labels, radio⟩ := composed s.takeRetries.takeExpiry.takeDueHolds
  refine ⟨beacon, ?_, holdsDue.trans counts.holdsDue, fun kl member => ?_⟩
  · rw [State.settleFrame, epoch, counts.rest]
    exact laws.takeExpiry_done
  · have here : s.takeRetries.takeExpiry.label kl.1 = some kl.2 := by
      have read := (tables.mem_labels kl.1 kl.2).1 member
      rw [State.label, State.settleFrame, labels, counts.rest] at read
      exact read
    have same : s.settleFrame.radio = s.radio := by
      rw [State.settleFrame, radio, counts.rest]
      exact beside.radio
    rw [same]
    exact State.takeWork_retries laws.tables here

end Sys2Proof.Machine
end

