-- ==== Sys2Proof/Proofs/Windows.lean ====
section
/-! Windows in a settled frame (R98 to R100, R147; assumption 4): each window as its own command takes it, one after another. -/

namespace Sys2Proof.Machine

section
variable {s t u : State}

/-! ## Settled frames stay settled -/

/-- A frame ready for its windows: no work due, the laws that windows rest on. -/
structure State.Ready (s : State) : Prop where
  tables : s.TablesLaw
  settled : s.Settled
  onAir : s.OnAir
  gap : 1 ≤ s.radio.config.retryGap ∧ s.radio.config.retryGap ≤ 255

/-- Records that do not come to wait for the frame in progress leave the frame settled. -/
theorem State.Settled.keep (h : s.Settled) (before : s.TablesLaw) (after : t.TablesLaw) (same : s.SameFrame t)
    (labels : ∀ k l, t.label k = some l → s.label k = some l ∨ ¬(l.state = .backoff ∧ l.retryFrame = some s.radio.frame)) :
    t.Settled := by
  obtain ⟨beacon, expiry, holds, retries⟩ := h
  refine ⟨same.beaconDue.trans beacon, same.expiryDue.trans expiry, same.holdsDue.trans holds, fun kl member => ?_⟩
  rw [same.radio]
  rcases labels kl.1 kl.2 ((after.mem_labels _ _).1 member) with old | fresh
  · exact retries kl ((before.mem_labels _ _).2 old)
  · exact fresh

theorem State.reportStaged_labels (s before : State) : (s.reportStaged before).labels = s.labels := by
  rw [State.reportStaged_eq]
  split <;> rfl

/-- The records after a grant. -/
theorem State.grant_label {lane : Lane} {slot : SlotNo} {k : Nat} {l : Label} (here : s.label k = some l) (j : Nat) :
    (s.grant lane slot k).label j = if j = k then some (s.grantedLabel l) else s.label j := by
  have granted := State.writeLabel_find k j (s.grantedLabel l) (s.setEntries (s.entries ++ [s.grantEntry lane slot k l]))
  have labels : (s.grant lane slot k).labels
      = ((s.setEntries (s.entries ++ [s.grantEntry lane slot k l])).writeLabel k (some (s.grantedLabel l))).labels := by
    simp only [State.grant, here]
    split
    · exact State.reportStaged_labels _ s
    · exact State.reportStaged_labels _ s
  rw [State.label, labels]
  exact granted

/-- A record that a data slot's decision leaves is as it was, or IN_FLIGHT. -/
theorem State.decideSlot_label {lane : Lane} {slot : SlotNo} {k : Nat} {l : Label}
    (found : (s.decideSlot lane slot).label k = some l) : s.label k = some l ∨ l.state = .inFlight := by
  rcases s.decideSlot_cases lane slot with silent | ⟨pointers, zones, j, m, -, here, -, -, -, granted⟩
  · rw [silent] at found
    exact .inl found
  · rw [granted, State.grant_label (s := (s.setPointers pointers).setZones zones) here] at found
    split at found
    · exact .inr (Option.some.inj found ▸ rfl)
    · exact .inl found

/-- The next data slot opened in a frame ready leaves it ready: a label granted is IN_FLIGHT. -/
theorem State.Ready.openSlot (h : s.Ready) {lane : Lane} (on : s.laneOnAir lane = true) (next : s.air.windows[lane.val].opened < 6) :
    (s.openSlot lane).Ready := by
  obtain ⟨-, windowsOpen, active⟩ := (s.laneOnAir_iff lane).1 on
  have tables : (s.openSlot lane).TablesLaw := Changes.tables
    ((s.setWindows_changes lane { s.air.windows[lane.val] with opened := s.air.windows[lane.val].opened + 1 }).trans
      (State.decideSlot_changes lane (Fin.ofNat 6 s.air.windows[lane.val].opened) _)) h.tables
  have radio := (s.openSlot_goesOn lane).radio
  refine ⟨tables, ?_, h.onAir.openSlot lane windowsOpen active next, radio ▸ h.gap⟩
  have opened : (s.setWindows lane { s.air.windows[lane.val] with opened := s.air.windows[lane.val].opened + 1 }).Settled := h.settled
  exact opened.keep h.tables tables (State.decideSlot_frame _ _ _) fun j m found =>
    (State.decideSlot_label found).imp_right fun flies waits => by simp [flies] at waits

theorem State.GoesOn.laneOnAir (h : s.GoesOn t) (lane : Lane) : t.laneOnAir lane = s.laneOnAir lane := by
  simp only [State.laneOnAir, State.laneActive, h.inReset, h.windowsOpen, h.radio]

/-- The windows after a number of a lane's data slots have opened: that lane's count alone has moved. -/
theorem State.openSlots_windows (lane other : Lane) (n : Nat) (s : State) : (s.openSlots lane n).air.windows[other.val]
    = if other = lane then { s.air.windows[lane.val] with opened := s.air.windows[lane.val].opened + n }
      else s.air.windows[other.val] := by
  induction n generalizing s with
  | zero =>
    simp only [State.openSlots]
    split
    · rename_i same
      rw [same]
      rfl
    · rfl
  | succ n ih =>
    rw [State.openSlots, ih, State.openSlot_windows, State.openSlot_windows, if_pos rfl]
    split
    · simp only [Nat.add_assoc, Nat.add_comm]
    · rfl

/-- A number of data slots opened leaves the frame ready and goes on. -/
theorem State.Ready.openSlots (h : s.Ready) {lane : Lane} (on : s.laneOnAir lane = true) (n : Nat)
    (few : s.air.windows[lane.val].opened + n ≤ 6) : (s.openSlots lane n).Ready ∧ s.GoesOn (s.openSlots lane n) := by
  induction n generalizing s with
  | zero => exact ⟨h, .refl s⟩
  | succ n ih =>
    have goes := s.openSlot_goesOn lane
    have count : (s.openSlot lane).air.windows[lane.val].opened = s.air.windows[lane.val].opened + 1 := by
      rw [State.openSlot_windows, if_pos rfl]
    obtain ⟨ready, goes'⟩ := ih (h.openSlot on (by omega)) ((goes.laneOnAir lane).trans on) (by omega)
    exact ⟨ready, goes.trans goes'⟩

/-- The data slots of a lane opened up to one, in a frame ready. -/
theorem State.Ready.openUpTo (h : s.Ready) {lane : Lane} (on : s.laneOnAir lane = true) {n : Nat} (few : n ≤ 6) :
    (s.openUpTo lane n).Ready ∧ s.GoesOn (s.openUpTo lane n) := by
  obtain ⟨lanes, -⟩ := h.onAir.air
  have most := (lanes lane).1
  exact h.openSlots on _ (by omega)

/-- Data slots opened up to one and then up to a later one are opened up to the later one. -/
theorem State.openUpTo_openUpTo (lane : Lane) {m n : Nat} (later : m ≤ n) (s : State) :
    (s.openUpTo lane m).openUpTo lane n = s.openUpTo lane n := by
  have both : ∀ (a b : Nat) (s : State), (s.openSlots lane a).openSlots lane b = s.openSlots lane (a + b) := by
    intro a
    induction a with
    | zero => intro b s; rw [Nat.zero_add]; rfl
    | succ a ih => intro b s; rw [Nat.succ_add]; exact ih b _
  simp only [State.openUpTo, both, State.openSlots_windows, if_true]
  congr 1
  omega

/-! ## Ack slots -/

theorem State.failEntry_frame (e : Entry) (l : Label) (s : State) : s.SameFrame (s.failEntry e l) := by
  have same := (State.writeLabel_same e.label (some (l.failAttempt s.radio.config s.radio.frame e)) (s.freeEntry e)).frame
  simp only [State.failEntry]
  split
  · exact ⟨same.radio, same.windows, same.windowsOpen, same.beaconDue, same.inReset, same.expiryDue, same.holdsDue⟩
  · exact ⟨same.radio, same.windows, same.windowsOpen, same.beaconDue, same.inReset, same.expiryDue, same.holdsDue⟩

/-- A failed attempt moves no window and leaves all due work. -/
theorem State.resolveClose_frame (e : Entry) (s : State) : s.SameFrame (s.resolveClose e) := by
  simp only [State.resolveClose]
  split
  · have same := State.reportStaged_frame (s.freeEntry e) s
    exact ⟨same.radio, same.windows, same.windowsOpen, same.beaconDue, same.inReset, same.expiryDue, same.holdsDue⟩
  · exact (s.failEntry_frame e _).trans (State.reportStaged_frame _ s)

/-- A record that waits after a failed attempt waits for the retry frame a gap later (R12). -/
theorem Label.failAttempt_retryFrame (c : RadioConfig) (f : Frame) (e : Entry) (l : Label)
    (waits : (l.failAttempt c f e).state = .backoff) : (l.failAttempt c f e).retryFrame = some (framePlus f c.retryGap) := by
  revert waits
  simp only [Label.failAttempt]
  split
  · simp
  · split
    · simp
    · split
      · simp
      · exact fun _ => rfl

/-- A record that a failed attempt leaves is as it was, or does not wait for the frame in progress. -/
theorem State.resolveClose_label {e : Entry} {k : Nat} {l : Label} (gap : 1 ≤ s.radio.config.retryGap ∧ s.radio.config.retryGap ≤ 255)
    (found : (s.resolveClose e).label k = some l) :
    s.label k = some l ∨ ¬(l.state = .backoff ∧ l.retryFrame = some s.radio.frame) := by
  simp only [State.resolveClose] at found
  split at found
  · rw [State.label, State.reportStaged_labels] at found
    exact .inl found
  · rename_i m _
    have labels : (s.failEntry e m).labels
        = ((s.freeEntry e).writeLabel e.label (some (m.failAttempt s.radio.config s.radio.frame e))).labels := by
      simp only [State.failEntry]
      split <;> rfl
    rw [State.label, State.reportStaged_labels, labels] at found
    have read := (State.writeLabel_find e.label k (m.failAttempt s.radio.config s.radio.frame e) (s.freeEntry e)).symm.trans found
    split at read
    · obtain rfl := Option.some.inj read
      refine .inr fun ⟨waits, come⟩ => ?_
      rw [Label.failAttempt_retryFrame _ _ _ _ waits, framePlus] at come
      have same := Option.some.inj come
      have : s.radio.config.retryGap < 256 := by omega
      bv_omega
    · exact .inl read

/-- The close of an ack slot in a frame ready, the data slots of its lane opened, leaves it ready. -/
theorem State.Ready.closeSlot (h : s.Ready) (lane : Lane) (slot : SlotNo) (opened : s.air.windows[lane.val].opened = 6) :
    (s.closeSlot lane slot).Ready ∧ s.GoesOn (s.closeSlot lane slot) := by
  obtain ⟨lawful, goes, -⟩ := h.onAir.closeSlot lane slot opened
  have tables : (s.closeSlot lane slot).TablesLaw := Changes.tables (s.closeSlot_changes lane slot) h.tables
  refine ⟨⟨tables, ?_, lawful, goes.radio ▸ h.gap⟩, goes⟩
  rcases s.closeSlot_cases lane slot with ⟨-, same⟩ | ⟨-, w, -, ⟨-, same⟩ | ⟨e, -, -, same⟩⟩
  · rw [same]
    exact h.settled
  · rw [same]
    exact h.settled
  · rw [same] at tables ⊢
    have shut : (s.setWindows lane w).Settled := h.settled
    exact shut.keep h.tables tables (State.resolveClose_frame _ _) fun k l found => State.resolveClose_label h.gap found

/-! ## Commands in a frame ready -/

/-- DATA_SLOT_OPENING in a frame ready opens its lane up to its slot. -/
theorem State.Ready.exec_dataSlotOpening (h : s.Ready) (lane : Lane) (slot : SlotNo) : exec (.dataSlotOpening lane slot) s
    = .next (if s.laneOnAir lane = true then s.openUpTo lane (slot.val + 1) else s) := by
  simp only [exec, execDataSlotOpening, State.settleFrame_of_settled s h.settled, Bool.and_eq_true, decide_eq_true_eq]
  by_cases still : s.air.windows[lane.val].opened ≤ slot.val
  · simp only [still, and_true]
  · rw [if_neg fun both => still both.2, State.openUpTo_done lane _ s (Nat.lt_of_not_le still), ite_self]

/-- ACK_SLOT_CLOSE in a frame ready, the data slots of its lane opened, closes its slot. -/
theorem State.Ready.exec_ackSlotClose (h : s.Ready) (lane : Lane) (slot : SlotNo)
    (opened : s.laneOnAir lane = true → s.air.windows[lane.val].opened = 6) :
    exec (.ackSlotClose lane slot) s = .next (if s.laneOnAir lane = true then s.closeSlot lane slot else s) := by
  by_cases on : s.laneOnAir lane = true
  · rw [if_pos on]
    by_cases shut : slot ∈ s.air.windows[lane.val].closed
    · simp [exec, execAckSlotClose, shut, State.closeSlot]
    · exact execAckSlotClose_next lane slot s on h.settled (opened on) shut
  · simp [exec, execAckSlotClose, on]

/-- Data slots opened one after another, each as its own command opens it. -/
theorem State.Ready.run_openings (h : s.Ready) (work : List (Lane × SlotNo)) :
    run (work.map fun w => .dataSlotOpening w.1 w.2) s
      = .next ((work.filter fun w => s.laneOnAir w.1).foldl (fun t w => t.openUpTo w.1 (w.2.val + 1)) s) := by
  induction work generalizing s with
  | nil => rfl
  | cons w work ih =>
    rw [List.map_cons, run_cons (h.exec_dataSlotOpening w.1 w.2), List.filter_cons]
    split
    · rename_i on
      obtain ⟨ready, goes⟩ := h.openUpTo on (n := w.2.val + 1) (by omega)
      simp only [ih ready, goes.laneOnAir, List.foldl_cons]
    · exact ih h

/-- Ack slots closed one after another, the data slots of their lanes opened, each as its own command closes it. -/
theorem State.Ready.run_closes (h : s.Ready) (work : List (Lane × SlotNo))
    (opened : ∀ w ∈ work, s.laneOnAir w.1 = true → s.air.windows[w.1.val].opened = 6) :
    run (work.map fun w => .ackSlotClose w.1 w.2) s
      = .next ((work.filter fun w => s.laneOnAir w.1).foldl (fun t w => t.closeSlot w.1 w.2) s) := by
  induction work generalizing s with
  | nil => rfl
  | cons w work ih =>
    have first := opened w List.mem_cons_self
    have later : ∀ v ∈ work, s.laneOnAir v.1 = true → s.air.windows[v.1.val].opened = 6 := fun v member =>
      opened v (List.mem_cons_of_mem _ member)
    rw [List.map_cons, run_cons (h.exec_ackSlotClose w.1 w.2 first), List.filter_cons]
    split
    · rename_i on
      obtain ⟨ready, goes⟩ := h.closeSlot w.1 w.2 (first on)
      have rest := ih ready fun v member onV => ready.onAir.opened_eq v.1
        ((later v member ((goes.laneOnAir v.1).symm.trans onV)).symm.trans_le (goes.opened v.1))
      simp only [rest, goes.laneOnAir, List.foldl_cons]
    · exact ih h later

/-- Data slots opened one after another leave the frame ready. -/
theorem State.Ready.foldl_openUpTo (h : s.Ready) (work : List (Lane × SlotNo)) (on : ∀ w ∈ work, s.laneOnAir w.1 = true) :
    (work.foldl (fun t w => t.openUpTo w.1 (w.2.val + 1)) s).Ready := by
  induction work generalizing s with
  | nil => exact h
  | cons w work ih =>
    obtain ⟨ready, goes⟩ := h.openUpTo (on w List.mem_cons_self) (n := w.2.val + 1) (by omega)
    exact ih ready fun v member => (goes.laneOnAir v.1).trans (on v (List.mem_cons_of_mem _ member))

/-- Ack slots closed one after another leave the frame ready. -/
theorem State.Ready.foldl_closeSlot (h : s.Ready) (work : List (Lane × SlotNo))
    (opened : ∀ w ∈ work, s.air.windows[w.1.val].opened = 6) : (work.foldl (fun t w => t.closeSlot w.1 w.2) s).Ready := by
  induction work generalizing s with
  | nil => exact h
  | cons w work ih =>
    obtain ⟨ready, goes⟩ := h.closeSlot w.1 w.2 (opened w List.mem_cons_self)
    exact ih ready fun v member => ready.onAir.opened_eq v.1
      ((opened v (List.mem_cons_of_mem _ member)).symm.trans_le (goes.opened v.1))

/-! ## The windows of one lane -/

/-- Data slots opened up to some no later than one, and then that one. -/
theorem State.foldl_openUpTo_last (lane : Lane) (slot : SlotNo) (work : List SlotNo) (s : State) (early : ∀ j ∈ work, j ≤ slot) :
    (work ++ [slot]).foldl (fun t j => t.openUpTo lane (j.val + 1)) s = s.openUpTo lane (slot.val + 1) := by
  induction work generalizing s with
  | nil => rfl
  | cons j work ih =>
    have first : j.val + 1 ≤ slot.val + 1 := Nat.succ_le_succ (early j List.mem_cons_self)
    rw [List.cons_append, List.foldl_cons, ih _ fun i member => early i (List.mem_cons_of_mem _ member),
      State.openUpTo_openUpTo lane first]

/-- The commands of a lane's data slots up to one open the lane up to it. -/
theorem State.Ready.run_lane (h : s.Ready) {lane : Lane} (on : s.laneOnAir lane = true) (slot : SlotNo) (work : List SlotNo)
    (early : ∀ j ∈ work, j ≤ slot) :
    run ((work ++ [slot]).map fun j => .dataSlotOpening lane j) s = .next (s.openUpTo lane (slot.val + 1)) := by
  have ran := h.run_openings ((work ++ [slot]).map fun j => (lane, j))
  have all : (((work ++ [slot]).map fun j => (lane, j)).filter fun w => s.laneOnAir w.1) = (work ++ [slot]).map fun j => (lane, j) :=
    List.filter_eq_self.2 fun w member => by
      obtain ⟨j, -, rfl⟩ := List.mem_map.1 member
      exact on
  rw [all, List.map_map, List.foldl_map, State.foldl_openUpTo_last lane slot work s early] at ran
  exact ran

/-- All six data slots of a lane. -/
theorem State.Ready.run_lane_all (h : s.Ready) {lane : Lane} (on : s.laneOnAir lane = true) :
    run ((List.finRange 6).map fun j => .dataSlotOpening lane j) s = .next (s.openUpTo lane 6) :=
  h.run_lane on 5 [0, 1, 2, 3, 4] (by decide)

/-! ## All windows of a frame -/

/-- Every pair of a lane and a slot, lane by lane within a slot. -/
def lanesOfSlots : List (Lane × SlotNo) := (List.finRange 6).flatMap fun slot => (List.finRange 4).map fun lane => (lane, slot)

theorem frameWindows_eq : frameWindows
    = (lanesOfSlots.map fun w => .dataSlotOpening w.1 w.2) ++ lanesOfSlots.map fun w => .ackSlotClose w.1 w.2 := rfl

/-- The windows of the active lanes are those of a frame with windows outside a reset. -/
theorem State.laneSlots_eq (awake : s.inReset = false) (windows : s.air.windowsOpen = true) :
    s.laneSlots = lanesOfSlots.filter fun w => s.laneOnAir w.1 := by
  have on : (fun w : Lane × SlotNo => s.laneOnAir w.1) = fun w => s.laneActive w.1 := by
    funext w
    simp [State.laneOnAir, awake, windows]
  simp only [State.laneSlots, State.activeLanes, lanesOfSlots, on, List.filter_flatMap, List.filter_map]
  rfl

/-- Every window of a frame ready, each as its own command takes it, finishes the frame's windows (R98, R147). -/
theorem State.Ready.run_frameWindows (h : s.Ready) (awake : s.inReset = false) :
    run frameWindows s = .next s.finishWindows ∧ s.finishWindows.Ready := by
  by_cases windows : s.air.windowsOpen = true
  · have slots := s.laneSlots_eq awake windows
    have active : ∀ w ∈ s.laneSlots, w.1.val < s.radio.config.lanes.count := fun w => (s.mem_laneSlots w).1
    have on : ∀ w ∈ s.laneSlots, s.laneOnAir w.1 = true := fun w member => (s.laneOnAir_iff w.1).2 ⟨awake, windows, active w member⟩
    obtain ⟨-, goes, reached⟩ := h.onAir.foldl_openUpTo s.laneSlots windows active
    have ready := h.foldl_openUpTo s.laneSlots on
    have opened := h.run_openings lanesOfSlots
    rw [← slots] at opened
    rw [frameWindows_eq, run_append opened, show s.finishWindows = s.laneSlots.foldl (fun t w => t.closeSlot w.1 w.2)
      (s.laneSlots.foldl (fun t w => t.openUpTo w.1 (w.2.val + 1)) s) by rw [State.finishWindows, if_pos windows]]
    generalize s.laneSlots.foldl (fun t w => t.openUpTo w.1 (w.2.val + 1)) s = u at goes reached ready
    have all : ∀ lane : Lane, s.laneOnAir lane = true → u.air.windows[lane.val].opened = 6 := fun lane onAir => by
      obtain ⟨-, -, inLanes⟩ := (s.laneOnAir_iff lane).1 onAir
      exact ready.onAir.opened_eq lane (reached (lane, 5) ((s.mem_laneSlots _).2 inLanes))
    have closed := ready.run_closes lanesOfSlots fun w _ onAir => all w.1 ((goes.laneOnAir w.1).symm.trans onAir)
    simp only [goes.laneOnAir] at closed
    rw [← slots] at closed
    exact ⟨closed, ready.foldl_closeSlot s.laneSlots fun w member => all w.1 (on w member)⟩
  · have off : ∀ w ∈ lanesOfSlots, ¬s.laneOnAir w.1 = true := fun w _ onAir => windows ((s.laneOnAir_iff w.1).1 onAir).2.1
    have none : (lanesOfSlots.filter fun w => s.laneOnAir w.1) = [] := List.filter_eq_nil_iff.2 off
    have opened := h.run_openings lanesOfSlots
    have closed := h.run_closes lanesOfSlots fun w member onAir => absurd onAir (off w member)
    rw [none] at opened closed
    rw [frameWindows_eq, run_append opened, State.finishWindows, if_neg windows]
    exact ⟨closed, h⟩

/-! ## Due work, windows, frame -/

/-- The laws make the frame settled ready for its windows. -/
theorem State.Laws.settleFrame_ready {s : State} (laws : s.Laws) : s.settleFrame.Ready := by
  have edits := s.settleFrame_edits laws.tables
  obtain ⟨-, gap, -⟩ := laws.radio
  exact ⟨edits.tables laws.tables, laws.settleFrame_settled, edits.onAir laws.onAir, edits.sameAir.radio ▸ gap⟩

/-- Settling the frame neither begins nor ends a reset. -/
theorem State.Laws.settleFrame_inReset {s : State} (laws : s.Laws) : s.settleFrame.inReset = s.inReset := by
  rw [State.settleFrame, State.composeBeacons_eq]
  split
  · exact (congrArg State.inReset laws.takeDueHolds_counts.rest).trans s.takeWork_beside.inReset
  · exact (congrArg State.inReset laws.takeDueHolds_counts.rest).trans s.takeWork_beside.inReset

/-- A lane with windows has them once the frame is settled. -/
theorem State.Laws.settleFrame_laneOnAir {s : State} (laws : s.Laws) (lane : Lane) : s.settleFrame.laneOnAir lane = s.laneOnAir lane := by
  have same := (s.settleFrame_edits laws.tables).sameAir
  simp only [State.laneOnAir, State.laneActive, laws.settleFrame_inReset, same.windowsOpen, same.radio]

/-- The data slots from one to a later one are some before it and it. -/
theorem slotsFromTo (n : Nat) (slot : SlotNo) (reached : n ≤ slot.val) :
    ((List.finRange 6).filter fun j => decide (n ≤ j.val) && decide (j ≤ slot))
      = ((List.finRange 6).filter fun j => decide (n ≤ j.val) && decide (j < slot)) ++ [slot] := by
  have every : ∀ n slot : SlotNo, n ≤ slot → ((List.finRange 6).filter fun j => decide (n.val ≤ j.val) && decide (j ≤ slot))
      = ((List.finRange 6).filter fun j => decide (n.val ≤ j.val) && decide (j < slot)) ++ [slot] := by decide
  exact every ⟨n, by omega⟩ slot reached

/-- A lane with all its data slots opened: six, and its ack slots as they were. -/
theorem State.Ready.openUpTo_all (h : s.Ready) {lane : Lane} (on : s.laneOnAir lane = true) :
    (s.openUpTo lane 6).Ready ∧ (s.openUpTo lane 6).laneOnAir lane = true ∧ (s.openUpTo lane 6).air.windows[lane.val].opened = 6
      ∧ (s.openUpTo lane 6).air.windows[lane.val].closed = s.air.windows[lane.val].closed
      ∧ (s.openUpTo lane 6).air.windows[lane.val].taken = s.air.windows[lane.val].taken := by
  obtain ⟨lanes, -⟩ := h.onAir.air
  have most := (lanes lane).1
  obtain ⟨ready, goes⟩ := h.openUpTo on (Nat.le_refl 6)
  have read := State.openSlots_windows lane lane (6 - s.air.windows[lane.val].opened) s
  rw [if_pos rfl] at read
  refine ⟨ready, (goes.laneOnAir lane).trans on, ?_, ?_, ?_⟩
  · rw [State.openUpTo, read]
    exact Nat.add_sub_cancel' most
  · rw [State.openUpTo, read]
  · rw [State.openUpTo, read]

/-- Settles O48: the work due as one state, which leaves the frame ready; then each window in a frame ready by its own command. -/
theorem dueWorkPrecedesWindows : Obligations.DueWorkPrecedesWindows := by
  intro s laws
  have ready := laws.settleFrame_ready
  have windows := (s.settleFrame_edits laws.tables).sameAir.windows
  refine ⟨⟨_, run_retries_expiry laws.tables, ?_⟩, ready.settled, fun lane slot awake windowsOpen active => ?_, fun o awake => ?_⟩
  · intro counted
    have counts := laws.takeDueHolds_counts.eq
    have closed : s.takeRetries.takeExpiry.takeDueHolds = counted := counts
    rw [State.settleFrame, State.composeBeacons_eq, closed, show counted.air = s.air from s.takeWork_beside.air]
  · have on : s.laneOnAir lane = true := (s.laneOnAir_iff lane).2 ⟨awake, windowsOpen, active⟩
    have on' : s.settleFrame.laneOnAir lane = true := (laws.settleFrame_laneOnAir lane).trans on
    obtain ⟨opens, onAir, six, closed, before⟩ := ready.openUpTo_all on'
    refine ⟨fun still => ?_, fun still => ⟨?_, fun m first => ?_⟩⟩
    · rw [slotsFromTo _ slot still, ready.run_lane on' slot _ fun j member => by
        simp only [List.mem_filter, Bool.and_eq_true, decide_eq_true_eq] at member
        exact le_of_lt member.2.2]
      simp [exec, execDataSlotOpening, on, still]
    · rw [run_append (ready.run_lane_all on'), run_cons (opens.exec_ackSlotClose lane slot fun _ => six), if_pos onAir]
      simp [exec, execAckSlotClose, on, still, run]
    · have taken : exec (.ackArrival lane slot m) _ = _ :=
        execAckArrival_next lane slot m _ onAir opens.settled six (by rw [closed, windows]; exact still)
          (by rw [before, windows]; exact first)
      have earlier : (s.air.windows[lane.val].taken.all fun j => decide (j < slot)) = true := by simpa using first
      rw [run_append (ready.run_lane_all on'), run_cons taken]
      simp only [exec, execAckArrival, on, earlier]
      cases receiveAck m <;> simp [still, run]
  · have awake' : s.settleFrame.inReset = false := laws.settleFrame_inReset.trans awake
    obtain ⟨ran, done⟩ := ready.run_frameWindows awake'
    obtain ⟨-, goes, finished⟩ := ready.onAir.finishWindows
    refine ⟨_, ran, ?_⟩
    have left := execFrameStart_eq o s awake
    have right := execFrameStart_eq o s.settleFrame.finishWindows (goes.inReset.trans awake')
    rw [State.settleFrame_of_settled _ done.settled, State.finishWindows_of_done _ finished] at right
    exact left.trans right.symm

end

end Sys2Proof.Machine
end

