-- ==== Sys2Proof/Proofs/Rewrites.lean ====
section
/-! Label records rewritten in ascending slot order (R40, R51, R83, R151): what each write keeps, all of them keep. -/

namespace Sys2Proof.Machine

/-- What holds before label records are rewritten, and is kept by every write, holds after. Each record is written in its slot, under its
address, when the slots from there on are still as they were. -/
theorem State.updateLabels_keep {P : State → Prop} {test : Nat → Label → Bool} {change : Nat → Label → Label} {s : State}
    (tables : s.TablesLaw) (address : ∀ k l, (change k l).address = l.address) (start : P s)
    (write : ∀ u k l, u.TablesLaw → (∀ j, k ≤ j → u.label j = s.label j) → s.label k = some l → test k l = true → P u →
      P (u.writeLabel k (some (change k l)))) : P (s.updateLabels test change) := by
  have chain : ∀ (work : Table Label) (u : State), work.Pairwise (fun a b => a.1 < b.1) →
      (∀ kl ∈ work, s.label kl.1 = some kl.2 ∧ test kl.1 kl.2 = true) → u.TablesLaw →
      (∀ kl ∈ work, ∀ j, kl.1 ≤ j → u.label j = s.label j) → P u →
      P (work.foldl (fun t kl => t.writeLabel kl.1 (some (change kl.1 kl.2))) u) := by
    intro work
    induction work with
    | nil => exact fun u _ _ _ _ holds => holds
    | cons kl work ih =>
      intro u rising meets tables untouched holds
      rw [List.pairwise_cons] at rising
      obtain ⟨here, test⟩ := meets kl List.mem_cons_self
      have rest := untouched kl List.mem_cons_self
      refine ih _ rising.2 (fun jm member => meets jm (List.mem_cons_of_mem _ member))
        (tables.rewrite ((rest _ (Nat.le_refl _)).trans here) (address _ _)) (fun jm member j from_ => ?_)
        (write u kl.1 kl.2 tables rest here test holds)
      have later := rising.1 jm member
      rw [State.writeLabel_find, if_neg (by omega)]
      exact rest j (by omega)
  refine chain _ s (tables.rising.filter _) (fun kl member => ?_) tables (fun _ _ _ _ => rfl) start
  obtain ⟨there, meets⟩ := List.mem_filter.1 member
  exact ⟨(tables.mem_labels _ _).1 there, meets⟩

section
variable {test : Nat → Label → Bool} {change : Nat → Label → Label} {s : State}

/-- Rewriting label records moves no part of an item but its bound count (R33). -/
theorem State.updateLabels_unbound (tables : s.TablesLaw) (address : ∀ k l, (change k l).address = l.address) :
    (s.updateLabels test change).unboundItems = s.unboundItems :=
  State.updateLabels_keep (P := fun u => u.unboundItems = s.unboundItems) tables address rfl fun u k _ tables _ _ _ same =>
    (State.writeLabel_unbound k _ u tables.items_wf.1).trans same

/-- Rewriting label records moves no part of a zone record but its counts (R7). -/
theorem State.updateLabels_zone_counts (tables : s.TablesLaw) (address : ∀ k l, (change k l).address = l.address) (z : ZoneNo) :
    (s.updateLabels test change).zone z = { s.zone z with counts := ((s.updateLabels test change).zone z).counts } :=
  State.updateLabels_keep (P := fun u => u.zone z = { s.zone z with counts := (u.zone z).counts }) tables address rfl
    fun _ _ _ _ _ _ _ same => by rw [State.writeLabel_zone_counts, same]

end

end Sys2Proof.Machine
end

