-- ==== Sys2Proof/Proofs/StagedWork.lean ====
section
/-! Staged work (R32, R78, R80): what records, entries and items may hold of it by the pending epoch, and the count of it. -/

namespace Sys2Proof.Machine

/-! ## Staged work by the pending epoch -/

/-- What a label record may hold of staged work by the pending epoch, if there is one (R78): STAGED while there is one, a confirmed
staged page for it. -/
structure Label.StagedFor (pending : Option Epoch) (l : Label) : Prop where
  need : l.needs.staged = true → pending.isSome = true
  page : ∀ g ∈ l.stagedPage, pending = some g.epoch

/-- What an entry may stand for by the pending epoch: a staged PAGE in flight is for it, and that need alone is remembered as STAGED. -/
structure Entry.StagedFor (pending : Option Epoch) (e : Entry) : Prop where
  remembered : e.remembered.staged = e.liveStaged
  epoch : ∀ n c, e.message = .page (.staged .live) n c → pending = some n

/-- The records, entries and items hold no staged work but that of the pending epoch (R32, R78). -/
structure State.StagedFor (pending : Option Epoch) (s : State) : Prop where
  labels : ∀ k l, s.label k = some l → l.StagedFor pending
  entries : ∀ e ∈ s.entries, e.StagedFor pending
  items : ∀ k x, s.item k = some x → x.next.isSome = true → pending.isSome = true

/-- The law of staged work together with what of the epoch record it rests on: an epoch is pending exactly outside STEADY (R70). -/
structure State.Staged (s : State) : Prop where
  epoch : s.epoch.state = .steady ↔ s.epoch.pending = none
  work : s.StagedFor s.epoch.pending
  count : s.epoch.outstanding = s.owed

/-- An entry is a staged PAGE in flight exactly when its message says so (section 7.1). -/
theorem Entry.liveStaged_iff (e : Entry) : e.liveStaged = true ↔ ∃ n c, e.message = .page (.staged .live) n c := by
  unfold Entry.liveStaged
  split
  · rename_i n c sent
    exact ⟨fun _ => ⟨n, c, sent⟩, fun _ => rfl⟩
  · rename_i other
    exact ⟨fun live => absurd live (by simp), fun ⟨n, c, sent⟩ => absurd sent (other n c)⟩

section
variable {pending : Option Epoch} {s t : State} {l l' : Label} {e : Entry}

/-- What an entry remembers as STAGED is a staged PAGE, so an epoch is pending. -/
theorem Entry.StagedFor.need (h : e.StagedFor pending) (staged : e.remembered.staged = true) : pending.isSome = true := by
  obtain ⟨n, c, sent⟩ := e.liveStaged_iff.1 (h.remembered ▸ staged)
  rw [h.epoch n c sent]
  rfl

/-- The law of an entry as the law of staged work writes it. -/
theorem Entry.epoch_iff (e : Entry) : (match e.message with
      | .page (.staged .live) n _ => pending == some n
      | _ => true) = true ↔ ∀ n c, e.message = .page (.staged .live) n c → pending = some n := by
  split
  · rename_i sent
    simp [sent]
  · rename_i other
    exact ⟨fun _ n c sent => absurd sent (other n c), fun _ => rfl⟩

/-- With no epoch pending there is no staged work to count (R80). -/
theorem State.StagedFor.owed_eq_zero (h : s.StagedFor none) (tables : s.TablesLaw) : s.owed = 0 := by
  have labels : s.labels.countP (fun kl => kl.2.needs.staged) = 0 := List.countP_eq_zero.2 fun kl member staged => by
    simpa using (h.labels kl.1 kl.2 ((tables.mem_labels _ _).1 member)).need staged
  have entries : s.entries.countP Entry.liveStaged = 0 := List.countP_eq_zero.2 fun e member live => by
    simpa using (h.entries e member).need ((h.entries e member).remembered.trans live)
  rw [State.owed, labels, entries]

/-- The law of staged work, by slot and by the pending epoch. -/
theorem State.stagedLaw_iff (tables : s.TablesLaw) (epoch : s.epoch.state = .steady ↔ s.epoch.pending = none) :
    s.StagedLaw ↔ s.Staged := by
  have open_ : s.epoch.pending.isSome = true ↔ s.epoch.state ≠ .steady := by
    rw [Option.isSome_iff_ne_none, ne_eq, ne_eq, epoch]
  rw [State.StagedLaw, Table.forall_mem_iff s.labels tables.rising, Table.forall_mem_iff s.labels tables.rising,
    Table.forall_mem_iff s.items tables.items_wf.1]
  constructor
  · rintro ⟨count, remembered, steady, pages, epochs⟩
    refine ⟨epoch, ⟨fun k l here => ⟨fun staged => open_.2 fun idle => ?_, fun g given => ?_⟩,
      fun e member => ⟨remembered e member, e.epoch_iff.1 (epochs e member)⟩, fun k x here next => open_.2 fun idle => ?_⟩, count⟩
    · exact absurd (staged.symm.trans ((steady idle).1 k l here).1) (by decide)
    · simpa [Option.mem_def.1 given] using pages k l here
    · exact absurd (next.symm.trans (congrArg Option.isSome ((steady idle).2.2 k x here))) (by decide)
  · rintro ⟨-, work, count⟩
    refine ⟨count, fun e member => (work.entries e member).remembered, fun idle => ?_, fun k l here => ?_,
      fun e member => e.epoch_iff.2 (work.entries e member).epoch⟩
    · rw [epoch.1 idle] at work
      refine ⟨fun k l here => ⟨?_, ?_⟩, fun e member => ?_, fun k x here => ?_⟩
      · simpa using (work.labels k l here).need
      · exact Option.eq_none_iff_forall_not_mem.2 fun g given => by simpa using (work.labels k l here).page g given
      · rw [← (work.entries e member).remembered]
        simpa using (work.entries e member).need
      · simpa using work.items k x here
    · cases page : l.stagedPage with
      | none => rfl
      | some g => simpa [page] using (work.labels k l here).page g page

/-- Outside STEADY exactly while an epoch is pending. -/
theorem State.Staged.epochOpen_iff (h : s.Staged) : s.epochOpen = true ↔ s.epoch.pending.isSome = true := by
  rw [Option.isSome_iff_ne_none, ne_eq, ← h.epoch]
  simp [State.epochOpen]

/-- A label that meets the staged rule meets it for the pending epoch (R78). -/
theorem State.Staged.pending_of_rule (h : s.Staged) {k : Nat} (rule : s.meetsStagedRule k l = true) :
    s.epoch.pending.isSome = true := by
  simp only [State.meetsStagedRule, Bool.and_eq_true] at rule
  exact h.epochOpen_iff.1 rule.1

/-! ## The transitions of a record -/

/-- A record that keeps its STAGED flag and its confirmed staged page. -/
theorem Label.StagedFor.of_same (h : l.StagedFor pending) (need : l'.needs.staged = l.needs.staged)
    (page : l'.stagedPage = l.stagedPage) : l'.StagedFor pending :=
  ⟨fun staged => h.need (need ▸ staged), fun g given => h.page g (page ▸ given)⟩

@[simp] theorem Label.followNeeds_needs (l : Label) : l.followNeeds.needs = l.needs := by rw [Label.followNeeds_eq]

@[simp] theorem Label.followNeeds_stagedPage (l : Label) : l.followNeeds.stagedPage = l.stagedPage := by
  rw [Label.followNeeds_eq]

@[simp] theorem Label.revive_needs (l : Label) : l.revive.needs = l.needs := by
  unfold Label.revive
  split <;> rfl

@[simp] theorem Label.revive_stagedPage (l : Label) : l.revive.stagedPage = l.stagedPage := by
  unfold Label.revive
  split <;> rfl

@[simp] theorem Label.owe_needs (n : Needs) (l : Label) : (l.owe n).needs = l.needs.union n := by simp [Label.owe]

@[simp] theorem Label.owe_stagedPage (n : Needs) (l : Label) : (l.owe n).stagedPage = l.stagedPage := by simp [Label.owe]

@[simp] theorem Label.mark_stagedPage (shown staged : Bool) (l : Label) : (l.mark shown staged).stagedPage = l.stagedPage := by
  simp [Label.mark]

/-- A mark sets STAGED under the staged rule alone (R39, R40). -/
theorem Label.StagedFor.mark (h : l.StagedFor pending) (shown : Bool) {staged : Bool}
    (rule : staged = true → pending.isSome = true) : (l.mark shown staged).StagedFor pending where
  need marked := by
    rw [Label.mark_needs, Needs.union, Bool.or_eq_true] at marked
    exact marked.elim h.need rule
  page g given := h.page g (l.mark_stagedPage shown staged ▸ given)

/-- After the cutover a record holds no staged work (R83). -/
theorem Label.StagedFor.cutOver (h : l.StagedFor pending) : (l.cutOver pending).StagedFor none := by
  have left : (l.cutOver pending).needs.staged = false ∧ (l.cutOver pending).stagedPage = none := by
    cases given : l.stagedPage with
    | none => by_cases staged : l.needs.staged = true <;> simp [Label.cutOver, given, staged]
    | some g => by_cases staged : l.needs.staged = true <;> simp [Label.cutOver, given, staged, h.page g given]
  exact ⟨fun staged => by simp [left.1] at staged, fun g given => by simp [left.2] at given⟩

/-- After an abandon a record holds no staged work (R87). -/
theorem Label.abandon_stagedFor (l : Label) : l.abandon.StagedFor none :=
  ⟨fun staged => by simp [Label.abandon] at staged, fun g given => by simp [Label.abandon] at given⟩

/-- A record that an abandon passes over holds no staged work (R87). -/
theorem Label.stagedFor_of_none (unset : (l.needs.staged || l.stagedPage.isSome) = false) : l.StagedFor none := by
  simp only [Bool.or_eq_false_iff, Option.isSome_eq_false_iff, Option.isNone_iff_eq_none] at unset
  exact ⟨fun staged => by simp [unset.1] at staged, fun g given => by simp [unset.2] at given⟩

/-! ## What a delivery returns (R11 to R13) -/

theorem Label.takeBack_stagedPage (e : Entry) (l : Label) : (l.takeBack e).stagedPage = l.stagedPage := by
  rw [Label.takeBack, Label.dropRequested_eq]

theorem Label.takeBack_needs (e : Entry) (l : Label) : (l.takeBack e).needs = l.needs.union e.remembered := by
  rw [Label.takeBack, Label.dropRequested_eq]

/-- The needs an entry remembers are set again (R12, R13). -/
theorem Label.StagedFor.takeBack (h : l.StagedFor pending) (sent : e.StagedFor pending) : (l.takeBack e).StagedFor pending where
  need staged := by
    rw [Label.takeBack_needs, Needs.union, Bool.or_eq_true] at staged
    exact staged.elim h.need sent.need
  page g given := h.page g (Label.takeBack_stagedPage e l ▸ given)

theorem Label.StagedFor.failAttempt (h : l.StagedFor pending) (sent : e.StagedFor pending) (c : RadioConfig) (f : Frame) :
    (l.failAttempt c f e).StagedFor pending := by
  have back := h.takeBack sent
  simp only [Label.failAttempt]
  repeat' split
  all_goals exact back.of_same rfl rfl

theorem Label.StagedFor.abort (h : l.StagedFor pending) (sent : e.StagedFor pending) : (l.abort e).StagedFor pending := by
  have back := h.takeBack sent
  simp only [Label.abort]
  split <;> exact back.of_same rfl rfl

theorem Label.StagedFor.compareShown (h : l.StagedFor pending) (a : Ack) : (l.compareShown a).StagedFor pending := by
  simp only [Label.compareShown]
  repeat' split
  all_goals exact h.of_same rfl rfl

/-- The comparison of the staged side sets STAGED, taken while an epoch is pending (R144). -/
theorem Label.StagedFor.compareStaged (h : l.StagedFor pending) (a : Ack) (open_ : pending.isSome = true) :
    (l.compareStaged pending a).StagedFor pending := by
  have owed : Label.StagedFor pending { l with needs := { l.needs with staged := true }, stagedPage := none } :=
    ⟨fun _ => open_, by simp⟩
  simp only [Label.compareStaged]
  split
  · split
    · split
      · exact h
      · exact owed
    · exact owed
  · split
    · exact owed
    · exact h

/-- The success of a staged PAGE confirms a page for the pending epoch; that of a QUERY compares the sides (R142, R144). -/
theorem State.Staged.confirmMessage (staged : s.Staged) (sent : e.StagedFor s.epoch.pending) (a : Ack)
    (h : l.StagedFor s.epoch.pending) : (s.confirmMessage e a l).StagedFor s.epoch.pending := by
  simp only [State.confirmMessage]
  split
  · exact h.of_same rfl rfl
  · rename_i n c message
    exact ⟨h.need, fun g given => by obtain rfl := Option.some.inj given; exact sent.epoch n c message⟩
  · exact h
  · split
    · rename_i open_
      exact (h.compareShown a).compareStaged a (staged.epochOpen_iff.1 open_)
    · exact h.compareShown a

theorem State.Staged.successLabel (staged : s.Staged) (sent : e.StagedFor s.epoch.pending) (a : Ack)
    (h : l.StagedFor s.epoch.pending) : (s.successLabel e a l).StagedFor s.epoch.pending := by
  have confirmed : (l.confirm e.settings).StagedFor s.epoch.pending := by
    rw [Label.confirm, Label.dropRequested_eq]
    exact h.of_same rfl rfl
  exact (staged.confirmMessage sent a confirmed).of_same rfl rfl

/-! ## What a grant takes (R135 to R137) -/

/-- A granted record keeps no more of STAGED than it had (R136). -/
theorem Label.StagedFor.granted (h : l.StagedFor pending) (s : State) : (s.grantedLabel l).StagedFor pending where
  need staged := h.need (by simp_all [State.grantedLabel, Needs.minus])
  page g given := h.page g given

/-- The entry a grant fills: a staged PAGE for the pending epoch where SHOWN is not set and STAGED is (R102, R135, R136). -/
theorem Label.StagedFor.grantEntry (h : l.StagedFor s.epoch.pending) (lane : Lane) (slot : SlotNo) (k : Nat) :
    (s.grantEntry lane slot k l).StagedFor s.epoch.pending := by
  by_cases shown : l.needs.shown = true
  · constructor <;> simp [State.grantEntry, State.chooseMessage, satisfied, messageSide, Entry.liveStaged, shown]
  · by_cases staged : l.needs.staged = true
    · obtain ⟨n, pending⟩ := Option.isSome_iff_exists.1 (h.need staged)
      constructor <;>
        simp [State.grantEntry, State.chooseMessage, satisfied, messageSide, Entry.liveStaged, shown, staged, State.pageEpoch, pending]
    · constructor <;> simp [State.grantEntry, State.chooseMessage, satisfied, messageSide, Entry.liveStaged, shown, staged]

/-! ## Parts of the state written -/

/-- A label record written with staged work of the pending epoch, or a slot freed. -/
theorem State.StagedFor.writeLabel (h : s.StagedFor pending) (tables : s.TablesLaw) (k : Nat) (new : Option Label)
    (fits : ∀ l ∈ new, l.StagedFor pending) : (s.writeLabel k new).StagedFor pending where
  labels j l found := by
    rw [State.writeLabel_label k j new s tables.rising] at found
    split at found
    · exact fits l found
    · exact h.labels j l found
  entries := (State.writeLabel_same k new s).entries ▸ h.entries
  items i x found next := by
    have same := State.writeLabel_item k new s tables.items_wf.1 i
    rw [found] at same
    obtain ⟨y, there, e⟩ := Option.map_eq_some_iff.1 same.symm
    exact h.items i y there ((congrArg (fun z : Item => z.next.isSome) e).trans next)

/-- Label records rewritten, each with staged work of the pending epoch. -/
theorem State.StagedFor.updateLabels (h : s.StagedFor pending) (tables : s.TablesLaw) {test : Nat → Label → Bool}
    {change : Nat → Label → Label} (address : ∀ k l, (change k l).address = l.address)
    (fits : ∀ k l, l.StagedFor pending → (change k l).StagedFor pending) : (s.updateLabels test change).StagedFor pending :=
  State.updateLabels_keep (P := State.StagedFor pending) tables address h fun u k l tables _ here _ staged =>
    staged.writeLabel tables k _ fun m hm => by
      obtain rfl := Option.some.inj hm
      exact fits k l (h.labels k l here)

/-- Entries freed, or rewritten to ones that may stand. -/
theorem State.StagedFor.setEntries (h : s.StagedFor pending) {entries : List Entry} (fits : ∀ e ∈ entries, e.StagedFor pending) :
    (s.setEntries entries).StagedFor pending := ⟨h.labels, fits, h.items⟩

theorem State.StagedFor.freeEntry (h : s.StagedFor pending) (e : Entry) : (s.freeEntry e).StagedFor pending :=
  h.setEntries fun d freed => h.entries d (List.mem_of_mem_erase freed)

/-- An item written with a next set only while an epoch is pending (R32). -/
theorem State.StagedFor.setItem (h : s.StagedFor pending) (k : Nat) {x : Item} (fits : x.next.isSome = true → pending.isSome = true) :
    (s.setItems (s.items.put k x)).StagedFor pending where
  labels := h.labels
  entries := h.entries
  items i y found := by
    rw [State.item, State.setItems_items, Table.find_put] at found
    split at found
    · exact Option.some.inj found ▸ fits
    · exact h.items i y found

/-- Staged work is a matter of label records, entries and items alone. -/
theorem State.StagedFor.of_same (h : s.StagedFor pending) (labels : t.labels = s.labels) (entries : t.entries = s.entries)
    (items : t.items = s.items) : t.StagedFor pending :=
  ⟨by simpa only [State.label, labels] using h.labels, by simpa only [entries] using h.entries,
    by simpa only [State.item, items] using h.items⟩

/-! ## Events -/

/-- The parts of the state that the law of staged work speaks of agree. -/
structure State.SameStaged (s t : State) : Prop where
  labels : t.labels = s.labels
  items : t.items = s.items
  entries : t.entries = s.entries
  state : t.epoch.state = s.epoch.state
  pending : t.epoch.pending = s.epoch.pending
  outstanding : t.epoch.outstanding = s.epoch.outstanding

theorem State.SameStaged.refl (s : State) : s.SameStaged s := ⟨rfl, rfl, rfl, rfl, rfl, rfl⟩

theorem State.SameStaged.trans {u : State} (h : s.SameStaged t) (k : t.SameStaged u) : s.SameStaged u :=
  ⟨k.labels.trans h.labels, k.items.trans h.items, k.entries.trans h.entries, k.state.trans h.state, k.pending.trans h.pending,
    k.outstanding.trans h.outstanding⟩

/-- Whatever moves nothing of staged work, repeated over a list. -/
theorem State.SameStaged.foldl {α : Type} (f : State → α → State) (one : ∀ u a, State.SameStaged u (f u a)) (work : List α) (s : State) :
    s.SameStaged (work.foldl f s) := by
  induction work generalizing s with
  | nil => exact .refl s
  | cons a work ih => exact (one s a).trans (ih (f s a))

theorem State.SameStaged.staged (e : s.SameStaged t) (h : s.Staged) : t.Staged where
  epoch := by rw [e.state, e.pending]; exact h.epoch
  work := e.pending ▸ h.work.of_same e.labels e.entries e.items
  count := by
    rw [e.outstanding, h.count]
    simp only [State.owed, e.labels, e.entries]

/-- An event whose change of the sum of R80 is reported: the count is right again. -/
theorem State.Staged.report (h : s.Staged) (epoch : t.epoch = s.epoch) (work : t.StagedFor s.epoch.pending) :
    (t.reportStaged s).Staged := by
  obtain ⟨same, count, -⟩ := State.reportStaged_right t s (by rw [epoch]; exact h.count)
  have state : (t.reportStaged s).epoch.state = s.epoch.state := by rw [same.epoch, epoch]
  have pending : (t.reportStaged s).epoch.pending = s.epoch.pending := by rw [same.epoch, epoch]
  refine ⟨by rw [state, pending]; exact h.epoch, ?_, ?_⟩
  · rw [pending]
    exact work.of_same same.labels same.entries same.items
  · rw [count]
    simp only [State.owed, same.labels, same.entries]

/-- A record rewritten with its STAGED flag and its confirmed staged page kept: nothing to report. -/
theorem State.Staged.rewrite (h : s.Staged) (tables : s.TablesLaw) {k : Nat} (here : s.label k = some l)
    (need : l'.needs.staged = l.needs.staged) (page : l'.stagedPage = l.stagedPage) : (s.writeLabel k (some l')).Staged := by
  have same := (State.writeLabel_same k (some l') s).epoch
  refine ⟨same ▸ h.epoch, ?_, ?_⟩
  · rw [same]
    exact h.work.writeLabel tables k _ fun m hm => Option.some.inj hm ▸ (h.work.labels k l here).of_same need page
  · have owed := State.writeLabel_owed k (some l') s tables.rising
    have share : stagedShare (some l') = stagedShare (s.label k) := by simp [here, stagedShare, need]
    rw [same, h.count]
    omega

/-- Records rewritten, each with its STAGED flag and its confirmed staged page kept: nothing to report. -/
theorem State.Staged.updateLabels (h : s.Staged) (tables : s.TablesLaw) {test : Nat → Label → Bool} {change : Nat → Label → Label}
    (address : ∀ k l, (change k l).address = l.address) (need : ∀ k l, (change k l).needs.staged = l.needs.staged)
    (page : ∀ k l, (change k l).stagedPage = l.stagedPage) : (s.updateLabels test change).Staged :=
  State.updateLabels_keep (P := State.Staged) tables address h fun _ k l tables untouched here _ staged =>
    staged.rewrite tables ((untouched k (Nat.le_refl k)).trans here) (need k l) (page k l)

/-- A changeover ended where no staged work is left (R85, R87). -/
theorem State.StagedFor.ended (h : s.StagedFor none) (tables : s.TablesLaw) (active : Epoch) :
    (s.setEpoch (s.epoch.ended active)).Staged where
  epoch := ⟨fun _ => rfl, fun _ => rfl⟩
  work := h.of_same rfl rfl rfl
  count := (h.owed_eq_zero tables).symm

end

end Sys2Proof.Machine
end

