-- ==== Sys2Proof/Proofs/StagedSteps.lean ====
section
/-! Every command keeps the law of staged work (R32, R78, R80): an event moves none of it, or reports the change it made, or ends the
changeover. -/

namespace Sys2Proof.Machine

section
variable {s t : State}

/-! ## Items and labels (chapters 1 and 2) -/

/-- Marking the labels of an item sets STAGED under the staged rule alone (R39, R40). -/
theorem State.StagedFor.markBound {pending : Option Epoch} (h : s.StagedFor pending) (tables : s.TablesLaw) (slot : Nat) (shown : Bool)
    (marks : Nat → Label → Bool) (rule : ∀ k l, s.meetsStagedRule k l = true → pending.isSome = true) :
    (s.markBound slot shown marks).StagedFor pending :=
  h.updateLabels tables (fun _ l => (l.mark_setup _ _).address) fun k l fits => fits.mark shown (rule k l)

/-- An item's price sets rewritten and its labels marked. -/
theorem State.Staged.putItem_mark (h : s.Staged) (tables : s.TablesLaw) {k : Nat} {x y : Item} (here : s.item k = some x)
    (number : y.number = x.number) (bound : y.bound = x.bound) (fits : y.next.isSome = true → s.epoch.pending.isSome = true)
    (shown : Bool) (marks : Nat → Label → Bool) :
    (((s.setItems (s.items.put k y)).markBound k shown marks).reportStaged s).Staged := by
  have put : Edits s (s.setItems (s.items.put k y)) := .single (.itemPut here number bound)
  refine h.report (State.updateLabels_same _ _ _).epoch ((h.work.setItem k fits).markBound (put.tables tables) _ _ _ fun j l rule => ?_)
  simp only [State.meetsStagedRule, Bool.and_eq_true] at rule
  exact h.epochOpen_iff.1 rule.1

theorem serveItemPut_staged (w : BitVec 32) (p : PriceWords) (tables : s.TablesLaw) (h : s.Staged) :
    (serveItemPut w p s).state.Staged := by
  unfold serveItemPut
  split
  · rename_i n q _ _
    split
    · rename_i k x found
      split
      · exact h
      · obtain ⟨here, -⟩ := tables.of_itemLookup found
        exact h.putItem_mark tables (y := { x with current := q }) here rfl rfl (h.work.items k x here) _ _
    · split
      · exact h
      · exact ⟨h.epoch, h.work.setItem _ (by simp), h.count⟩
  · exact h

/-- ITEM_SET_NEXT and ITEM_CLEAR_NEXT pass their checks outside STEADY alone (R36, R38). -/
theorem State.stagingItem_open {n k : Nat} {x : Item} (found : s.stagingItem n = .ok (k, x)) : s.epochOpen = true := by
  unfold State.stagingItem at found
  split at found
  · assumption
  · contradiction

theorem serveItemSetNext_staged (w : BitVec 32) (p : PriceWords) (tables : s.TablesLaw) (h : s.Staged) :
    (serveItemSetNext w p s).state.Staged := by
  unfold serveItemSetNext
  split
  · rename_i n q _ _
    split
    · exact h
    · rename_i k x found
      split
      · exact h
      · exact h.putItem_mark tables (y := { x with next := some q }) (s.stagingItem_here tables found) rfl rfl
          (fun _ => h.epochOpen_iff.1 (s.stagingItem_open found)) _ _
  · exact h

theorem serveItemClearNext_staged (w : BitVec 32) (tables : s.TablesLaw) (h : s.Staged) :
    (serveItemClearNext w s).state.Staged := by
  unfold serveItemClearNext
  split
  · exact h
  · split
    · exact h
    · rename_i k x found
      split
      · exact h
      · exact h.putItem_mark tables (y := { x with next := none }) (s.stagingItem_here tables found) rfl rfl (by simp) _ _

theorem serveItemGet_staged (w : BitVec 32) (h : s.Staged) : (serveItemGet w s).state.Staged := by
  unfold serveItemGet
  split
  · exact h
  · split <;> exact h

theorem serveItemRetire_staged (w : BitVec 32) (tables : s.TablesLaw) (h : s.Staged) : (serveItemRetire w s).state.Staged := by
  unfold serveItemRetire
  split
  · exact h
  · split
    · exact h
    · rename_i k x found
      split
      · exact h
      · refine ⟨h.epoch, ⟨h.work.labels, h.work.entries, fun i y there => ?_⟩, h.count⟩
        have read : (s.items.erase k).find i = some y := there
        rw [Table.find_erase s.items k i tables.items_wf.1] at read
        split at read
        · contradiction
        · exact h.work.items i y read

/-- One record written in its slot and the change reported. -/
theorem State.Staged.writeLabel_report (h : s.Staged) (tables : s.TablesLaw) (k : Nat) {l : Label}
    (fits : l.StagedFor s.epoch.pending) : ((s.writeLabel k (some l)).reportStaged s).Staged :=
  h.report (State.writeLabel_same k _ s).epoch (h.work.writeLabel tables k _ fun _ hm => Option.some.inj hm ▸ fits)

theorem serveLabelAdd_staged (b : LabelAddWords) (tables : s.TablesLaw) (h : s.Staged) : (serveLabelAdd b s).state.Staged := by
  unfold serveLabelAdd
  split
  · exact h
  · split
    · exact h
    · split
      · split
        · exact h
        · refine h.writeLabel_report tables _ ⟨fun staged => h.epochOpen_iff.1 ?_, fun g given => by simp [addRecord] at given⟩
          simp only [addRecord, Bool.and_eq_true] at staged
          exact staged.1
      · exact h

/-- A record marked under the staged rule (R39, R40). -/
theorem State.Staged.mark (h : s.Staged) (k : Nat) {l : Label} (fits : l.StagedFor s.epoch.pending) (shown : Bool) :
    (l.mark shown (s.meetsStagedRule k l)).StagedFor s.epoch.pending := fits.mark shown h.pending_of_rule

theorem State.SameStaged.raise (x : Source) (s : State) : s.SameStaged (s.raise x) := ⟨rfl, rfl, rfl, rfl, rfl, rfl⟩

theorem serveLabelBind_staged (port : Port) (a : Address) (w : Option (BitVec 32)) (tables : s.TablesLaw) (h : s.Staged) :
    (serveLabelBind port a w s).state.Staged := by
  unfold serveLabelBind
  split
  · exact h
  rename_i k l found
  split
  · exact h
  rename_i binding named
  split
  · exact h
  obtain ⟨here, -⟩ := s.resolve_here tables found
  have bound : Label.StagedFor s.epoch.pending
      { l with binding := binding, serviceTouched := l.serviceTouched || port == Port.service } :=
    (h.work.labels k l here).of_same rfl rfl
  have written := h.writeLabel_report tables k (h.mark k bound true)
  dsimp only
  split
  · exact (State.SameStaged.raise _ _).staged written
  · exact written

/-- The record a LABEL_MOVE leaves (R19, R20). -/
theorem State.Staged.movedLabel (h : s.Staged) {k : Nat} {l : Label} (here : s.label k = some l) (m : MoveWords) :
    (s.movedLabel k l m).StagedFor s.epoch.pending := by
  have fits := h.work.labels k l here
  simp only [State.movedLabel]
  split
  · exact fits.of_same (by simp) (by simp)
  · refine h.mark k ?_ true
    exact fits.of_same rfl rfl

theorem serveLabelMove_staged (a : Address) (m : MoveWords) (tables : s.TablesLaw) (h : s.Staged) :
    (serveLabelMove a m s).state.Staged := by
  unfold serveLabelMove
  split
  · exact h
  rename_i k l found
  split
  · exact h
  split
  · exact h
  exact h.writeLabel_report tables k (h.movedLabel (s.resolve_here tables found).1 m)

/-- A note of the record alone moves no staged work (R22, R179). -/
theorem State.Staged.note (h : s.Staged) (tables : s.TablesLaw) {k : Nat} {l : Label} (here : s.label k = some l) :
    (s.noteLabel k { l with serviceTouched := false }).Staged := by
  refine ⟨h.epoch, ⟨fun j m there => ?_, h.work.entries, h.work.items⟩, ?_⟩
  · rw [State.noteLabel_label] at there
    split at there
    · obtain rfl := Option.some.inj there
      exact (h.work.labels k l here).of_same rfl rfl
    · exact h.work.labels j m there
  · have count := State.noteLabel_countP (l' := { l with serviceTouched := false }) (fun kl => kl.2.needs.staged) tables here rfl
    exact h.count.trans (congrArg (· + s.entries.countP Entry.liveStaged) count.symm)

theorem serveLabelGet_staged (port : Port) (a : Address) (tables : s.TablesLaw) (h : s.Staged) :
    (serveLabelGet port a s).state.Staged := by
  unfold serveLabelGet
  split
  · exact h
  rename_i k l found
  split
  · exact h.note tables (s.resolve_here tables found).1
  · exact h

theorem serveLabelRetire_staged (a : Address) (tables : s.TablesLaw) (h : s.Staged) : (serveLabelRetire a s).state.Staged := by
  unfold serveLabelRetire
  split
  · exact h
  rename_i k l found
  have freed : State.StagedFor s.epoch.pending ((s.setEntries (s.entries.filter fun e => e.label != k)).setAir
      { s.air with confirmedNow := s.air.confirmedNow.filter (· != k) }) :=
    ⟨h.work.labels, fun e member => h.work.entries e (List.mem_filter.1 member).1, h.work.items⟩
  exact h.report (State.writeLabel_same k none _).epoch (freed.writeLabel tables k none (by simp))

theorem serveLabelRetry_staged (a : Address) (tables : s.TablesLaw) (h : s.Staged) : (serveLabelRetry a s).state.Staged := by
  unfold serveLabelRetry
  split
  · exact h
  exact h.rewrite tables (s.resolve_here tables ‹_›).1 (by simp) (by simp)

theorem serveLabelQuery_staged (a : Address) (tables : s.TablesLaw) (h : s.Staged) : (serveLabelQuery a s).state.Staged := by
  unfold serveLabelQuery
  split
  · exact h
  exact h.rewrite tables (s.resolve_here tables ‹_›).1 (by simp [Needs.union]) (by simp)

theorem serveLabelLocate_staged (a : Address) (tables : s.TablesLaw) (h : s.Staged) : (serveLabelLocate a s).state.Staged := by
  unfold serveLabelLocate
  split
  · exact h
  exact h.rewrite tables (s.resolve_here tables ‹_›).1 (by simp [Needs.union]) (by simp)

theorem serveLabelScan_staged (start : BitVec 16) (states flags : Byte) (h : s.Staged) :
    (serveLabelScan start states flags s).state.Staged := by
  unfold serveLabelScan
  split
  · exact h
  · split <;> exact h

/-! ## Templates, zones and holds (chapters 3, 6 and 8) -/

theorem serveTemplateLoad_staged (b : TemplateWords) (tables : s.TablesLaw) (h : s.Staged) :
    (serveTemplateLoad b s).state.Staged := by
  unfold serveTemplateLoad
  split
  · exact h
  rename_i record
  split
  · exact h
  rename_i fields passed
  obtain ⟨below, valid⟩ := stored_valid b fields (by simpa using record) passed
  have stored : Edits s (s.setTemplates (s.templates.put b.id.toNat ⟨b.length.toNat, b.mask, fields⟩)) :=
    .single (.template below valid)
  have same : s.SameStaged (s.setTemplates (s.templates.put b.id.toNat ⟨b.length.toNat, b.mask, fields⟩)) :=
    ⟨rfl, rfl, rfl, rfl, rfl, rfl⟩
  dsimp only
  split
  · exact same.staged h
  · split
    · exact h
    · exact h.report (State.updateLabels_same _ _ _).epoch ((same.staged h).work.updateLabels (stored.tables tables)
        (fun _ l => (l.mark_setup _ _).address) fun _ _ fits => fits.mark true (same.staged h).pending_of_rule)

theorem serveTemplateGet_staged (i : Byte) (h : s.Staged) : (serveTemplateGet i s).state.Staged := by
  unfold serveTemplateGet
  split
  · exact h
  · split <;> exact h

/-- A zone record moves no staged work. -/
theorem State.SameStaged.setZone (z : ZoneNo) (x : Zone) (s : State) : s.SameStaged (s.setZone z x) := ⟨rfl, rfl, rfl, rfl, rfl, rfl⟩

theorem State.SameStaged.endHold (z : ZoneNo) (s : State) : s.SameStaged (s.endHold z) := ⟨rfl, rfl, rfl, rfl, rfl, rfl⟩

theorem State.SameStaged.beginHold (z : ZoneNo) (budget : Nat) (s : State) : s.SameStaged (s.beginHold z budget) :=
  ⟨rfl, rfl, rfl, rfl, rfl, rfl⟩

theorem State.SameStaged.takeHoldCount (z : ZoneNo) (s : State) : s.SameStaged (s.takeHoldCount z) := by
  simp only [State.takeHoldCount]
  split
  · have counted : s.SameStaged ((s.setZone z (s.zone z).counted).setHoldsDue (s.holdsDue.erase z)) := ⟨rfl, rfl, rfl, rfl, rfl, rfl⟩
    split
    · exact counted.trans (.endHold z _)
    · exact counted
  · exact .refl s

theorem State.SameStaged.takeDueHolds (s : State) : s.SameStaged s.takeDueHolds :=
  .foldl _ (fun u z => .takeHoldCount z u) _ s

theorem State.SameStaged.endAllHolds (s : State) : s.SameStaged s.endAllHolds := .foldl _ (fun u z => .endHold z u) _ s

theorem State.SameStaged.ageHolds (s : State) : s.SameStaged s.ageHolds := .foldl _ (fun u z => .setZone z _ u) _ s

theorem State.SameStaged.countHolds (s : State) : s.SameStaged s.countHolds := by
  refine .foldl _ (fun u z => ?_) _ s
  split
  · exact ⟨rfl, rfl, rfl, rfl, rfl, rfl⟩
  · exact .setZone z _ u

theorem serveZoneSet_staged (z : Byte) (v : ZoneWords) (h : s.Staged) : (serveZoneSet z v s).state.Staged := by
  unfold serveZoneSet
  split
  · exact h
  · split
    · exact h
    · exact (State.SameStaged.setZone _ _ s).staged h

theorem serveZoneGet_staged (z : Byte) (h : s.Staged) : (serveZoneGet z s).state.Staged := by
  unfold serveZoneGet
  split <;> exact h

theorem serveZoneHold_staged (zone : Byte) (budget : BitVec 16) (h : s.Staged) : (serveZoneHold zone budget s).state.Staged := by
  unfold serveZoneHold
  split
  · exact h
  rename_i z _
  dsimp only
  split
  · split
    · exact (State.SameStaged.endHold z s).staged h
    · exact (State.SameStaged.setZone z _ s).staged h
  · split
    · exact h
    · split
      · exact h
      · split
        · exact h
        · exact (State.SameStaged.beginHold z _ s).staged h

theorem serveZoneRelease_staged (zone : Byte) (h : s.Staged) : (serveZoneRelease zone s).state.Staged := by
  unfold serveZoneRelease
  split
  · exact h
  rename_i z _
  show State.Staged (if (s.zone z).isHeld then s.endHold z else s)
  split
  · exact (State.SameStaged.endHold z s).staged h
  · exact h

theorem serveZoneRetry_staged (zone : Byte) (tables : s.TablesLaw) (h : s.Staged) : (serveZoneRetry zone s).state.Staged := by
  unfold serveZoneRetry
  split
  · exact h
  · rename_i z _
    exact h.updateLabels (test := fun _ l => l.failedIn z) (change := fun _ l => l.revive) tables (fun _ l => l.revive_setup.address)
      (by simp) (by simp)

/-! ## Changeovers (chapter 4) -/

/-- A relabelled entry stands for no staged work (R84). -/
theorem Entry.StagedFor.relabelled {pending : Option Epoch} {e : Entry} (h : e.StagedFor pending) : e.relabelled.StagedFor none := by
  unfold Entry.relabelled
  split
  · exact ⟨rfl, by simp⟩
  · rename_i other
    exact ⟨h.remembered, fun n c sent => absurd sent (other n c)⟩

/-- A withdrawn entry stands for no staged work (R88). -/
theorem Entry.StagedFor.withdrawn {pending : Option Epoch} {e : Entry} (h : e.StagedFor pending) : e.withdrawn.StagedFor none := by
  unfold Entry.withdrawn
  split
  · exact ⟨rfl, by simp⟩
  · rename_i other
    exact ⟨h.remembered, fun n c sent => absurd sent (other n c)⟩

/-- What the items, records and entries hold once a changeover has converted all of them (R82 to R84, R87, R88). -/
theorem State.StagedFor.converted {pending : Option Epoch} (h : s.StagedFor pending) {f : Item → Item} {g : Entry → Entry}
    {test : Nat → Label → Bool} {change : Nat → Label → Label}
    (tables : (s.setItems (s.items.map fun kx => (kx.1, f kx.2))).TablesLaw) (address : ∀ k l, (change k l).address = l.address)
    (items : ∀ x, (f x).next = none) (labels : ∀ k l, l.StagedFor pending → (if test k l then change k l else l).StagedFor none)
    (entries : ∀ e, e.StagedFor pending → (g e).StagedFor none)
    (rewritten : (s.setItems (s.items.map fun kx => (kx.1, f kx.2))).updateLabels test change = t) :
    (t.setEntries (t.entries.map g)).StagedFor none := by
  subst rewritten
  refine ⟨fun k l found => ?_, fun d member => ?_, fun i x found next => ?_⟩
  · have read := State.updateLabels_label test change _ k tables.rising
    obtain ⟨old, here, rfl⟩ := Option.map_eq_some_iff.1 (read.symm.trans found)
    exact labels k old (h.labels k old here)
  · obtain ⟨e, there, rfl⟩ := List.mem_map.1 member
    rw [(State.updateLabels_same test change _).entries] at there
    exact entries e (h.entries e there)
  · have slot : ∀ v : State, v.unboundItems.find i = (v.item i).map Item.unbound := fun v => Table.find_map v.items Item.unbound i
    have same := congrArg (fun items => Table.find items i) (State.updateLabels_unbound (test := test) (change := change) tables address)
    have read : (s.setItems (s.items.map fun kx => (kx.1, f kx.2))).item i = (s.item i).map f := Table.find_map s.items f i
    simp only [slot, read] at same
    obtain ⟨z, there, e⟩ := Option.map_eq_some_iff.1 (same.symm.trans (congrArg (Option.map Item.unbound) found))
    obtain ⟨y, -, rfl⟩ := Option.map_eq_some_iff.1 there
    have gone : x.next = none := (congrArg Item.next e).symm.trans (items y)
    simp [gone] at next

theorem State.Staged.cutover (h : s.Staged) (tables : s.TablesLaw) : s.cutover.Staged := by
  have items : Edits s (s.setItems (s.items.map fun kx => (kx.1, kx.2.committed))) := .single (.itemMap fun _ => ⟨rfl, rfl⟩)
  have left := h.work.converted (f := Item.committed) (g := Entry.relabelled) (test := fun _ _ => true)
    (change := fun _ l => l.cutOver s.epoch.pending) (items.tables tables) (fun _ l => (l.cutOver_setup _).address) (fun _ => rfl)
    (fun _ _ fits => fits.cutOver) (fun _ fits => fits.relabelled) rfl
  exact (State.SameStaged.raise _ _).staged (left.ended ((s.cutover_edits tables).tables tables) _)

theorem State.Staged.takeExpiry (h : s.Staged) (tables : s.TablesLaw) : s.takeExpiry.Staged := by
  unfold State.takeExpiry
  split
  · exact h.cutover tables
  · exact h

theorem serveEpochOpen_staged (e : Epoch) (h : s.Staged) : (serveEpochOpen e s).state.Staged := by
  unfold serveEpochOpen
  split
  · exact h
  split
  · exact h
  rename_i steady
  split
  · exact h
  have idle : s.epoch.pending = none := by simpa [h.epochOpen_iff] using steady
  have work := idle ▸ h.work
  refine ⟨by simp [State.accept], ⟨fun k l here => ⟨fun _ => rfl, fun g given => ?_⟩, fun d member => ?_, fun _ _ _ _ => rfl⟩, h.count⟩
  · simpa using (work.labels k l here).page g given
  · have fits := work.entries d member
    exact ⟨fits.remembered, fun n c sent => by simpa using fits.epoch n c sent⟩

theorem serveEpochSchedule_staged (count : BitVec 32) (tables : s.TablesLaw) (h : s.Staged) :
    (serveEpochSchedule count s).state.Staged := by
  unfold serveEpochSchedule
  dsimp only
  split
  · exact h
  split
  · exact h
  rename_i steady
  split
  · exact h.cutover tables
  · have open_ : s.epoch.pending.isSome = true := by simpa [h.epochOpen_iff] using steady
    refine ⟨?_, h.work.of_same rfl rfl rfl, h.count⟩
    simp [State.accept, Option.isSome_iff_ne_none.1 open_]

theorem serveEpochAbandon_staged (tables : s.TablesLaw) (h : s.Staged) : (serveEpochAbandon s).state.Staged := by
  unfold serveEpochAbandon
  split
  · exact h
  rename_i open_
  have all := (serveEpochAbandon_edits s tables).tables tables
  rw [serveEpochAbandon, if_neg open_] at all
  have items : Edits s (s.setItems (s.items.map fun kx => (kx.1, { kx.2 with next := none }))) :=
    .single (.itemMap (f := fun x => { x with next := none }) fun _ => ⟨rfl, rfl⟩)
  have left := h.work.converted (f := fun x => { x with next := none }) (g := Entry.withdrawn)
    (test := fun _ l => l.needs.staged || l.stagedPage.isSome) (change := fun _ l => l.abandon) (items.tables tables)
    (fun _ l => l.abandon_setup.address) (fun _ => rfl) (fun _ l _ => by
      split
      · exact l.abandon_stagedFor
      · exact Label.stagedFor_of_none (by simp_all)) (fun _ fits => fits.withdrawn) rfl
  exact left.ended all _

end

end Sys2Proof.Machine
end

