-- ==== Sys2Proof/Proofs/StagedCommands.lean ====
section
/-! Staged work under every request, in the windows of a frame, and under every command (R32, R78, R80). -/

namespace Sys2Proof.Machine

section
variable {s t : State}

/-! ## Deliveries (R10 to R13, R135 to R147, R156) -/

theorem State.Staged.grant (h : s.Staged) (tables : s.TablesLaw) (lane : Lane) (slot : SlotNo) (k : Nat) :
    (s.grant lane slot k).Staged := by
  simp only [State.grant]
  split
  · exact h
  rename_i l here
  have fits := h.work.labels k l here
  have filled : (s.setEntries (s.entries ++ [s.grantEntry lane slot k l])).StagedFor s.epoch.pending :=
    h.work.setEntries fun e member => (List.mem_append.1 member).elim (h.work.entries e) fun last =>
      List.mem_singleton.1 last ▸ fits.grantEntry lane slot k
  have same := (State.writeLabel_same k (some (s.grantedLabel l)) (s.setEntries (s.entries ++ [s.grantEntry lane slot k l]))).epoch
  have granted := filled.writeLabel tables k (some (s.grantedLabel l)) fun _ hm => Option.some.inj hm ▸ fits.granted s
  have reported : ((State.transmit lane (some (s.chooseMessage l).2.1) _).reportStaged s).Staged :=
    h.report same (granted.of_same rfl rfl rfl)
  split
  · exact (State.SameStaged.raise _ _).staged reported
  · exact reported

/-- A delivery ended: its entry freed, a record of the pending epoch's staged work returned. -/
theorem State.Staged.giveBack (h : s.Staged) (tables : s.TablesLaw) (e : Entry) {l : Label} (fits : l.StagedFor s.epoch.pending) :
    ((s.freeEntry e).writeLabel e.label (some l)).StagedFor s.epoch.pending
      ∧ ((s.freeEntry e).writeLabel e.label (some l)).epoch = s.epoch :=
  ⟨(h.work.freeEntry e).writeLabel tables e.label _ fun _ hm => Option.some.inj hm ▸ fits,
    (State.writeLabel_same e.label _ (s.freeEntry e)).epoch⟩

theorem State.Staged.failEntry (h : s.Staged) (tables : s.TablesLaw) {e : Entry} (member : e ∈ s.entries) {l : Label}
    (fits : l.StagedFor s.epoch.pending) : (s.failEntry e l).StagedFor s.epoch.pending ∧ (s.failEntry e l).epoch = s.epoch := by
  have returned := h.giveBack tables e (fits.failAttempt (h.work.entries e member) s.radio.config s.radio.frame)
  simp only [State.failEntry]
  split
  · exact ⟨returned.1.of_same rfl rfl rfl, returned.2⟩
  · exact returned

theorem State.Staged.succeedEntry (h : s.Staged) (tables : s.TablesLaw) {e : Entry} (member : e ∈ s.entries) (a : Ack) {l : Label}
    (fits : l.StagedFor s.epoch.pending) :
    (s.succeedEntry e a l).StagedFor s.epoch.pending ∧ (s.succeedEntry e a l).epoch = s.epoch := by
  have returned := h.giveBack tables e (h.successLabel (h.work.entries e member) a fits)
  exact ⟨returned.1.of_same rfl rfl rfl, returned.2⟩

theorem State.Staged.resolveArrival (h : s.Staged) (tables : s.TablesLaw) {e : Entry} (member : e ∈ s.entries) (a : Ack) :
    (s.resolveArrival e a).Staged := by
  simp only [State.resolveArrival]
  split
  · exact h.report rfl (h.work.freeEntry e)
  · rename_i l here
    have fits : (l.observe s.radio.frame a).StagedFor s.epoch.pending := (h.work.labels _ l here).of_same rfl rfl
    split
    · obtain ⟨work, epoch⟩ := h.succeedEntry tables member a fits
      exact h.report epoch work
    · obtain ⟨work, epoch⟩ := h.failEntry tables member fits
      exact h.report epoch work

theorem State.Staged.resolveClose (h : s.Staged) (tables : s.TablesLaw) {e : Entry} (member : e ∈ s.entries) :
    (s.resolveClose e).Staged := by
  simp only [State.resolveClose]
  split
  · exact h.report rfl (h.work.freeEntry e)
  · rename_i l here
    obtain ⟨work, epoch⟩ := h.failEntry tables member (h.work.labels _ l here)
    exact h.report epoch work

/-- Aborting the entries of a list that names every entry (R156). -/
theorem State.StagedFor.foldl_abortEntry {pending : Option Epoch} (work : List Entry) (tables : s.TablesLaw)
    (h : s.StagedFor pending) (all : work.Perm s.entries) :
    (work.foldl (fun t e => t.abortEntry e) s).StagedFor pending ∧ (work.foldl (fun t e => t.abortEntry e) s).epoch = s.epoch := by
  induction work generalizing s with
  | nil => exact ⟨h, rfl⟩
  | cons e work ih =>
    obtain ⟨member, rest⟩ := List.cons_perm_iff_perm_erase.1 all
    have one : (s.abortEntry e).StagedFor pending ∧ (s.abortEntry e).epoch = s.epoch := by
      simp only [State.abortEntry]
      split
      · exact ⟨h.freeEntry e, rfl⟩
      · rename_i l here
        refine ⟨(h.freeEntry e).writeLabel tables e.label _ fun m hm => ?_, (State.writeLabel_same e.label _ (s.freeEntry e)).epoch⟩
        exact Option.some.inj hm ▸ (h.labels _ l here).abort (h.entries e member)
    obtain ⟨aborted, epoch⟩ := ih ((s.abortEntry_edits e member).tables tables) one.1 ((s.abortEntry_entries e).symm ▸ rest)
    exact ⟨aborted, epoch.trans one.2⟩

/-! ## The requests of the radio, and the reset (R92 to R95, R184) -/

theorem serveRadioConfig_staged (b : RadioWords) (h : s.Staged) : (serveRadioConfig b s).state.Staged := by
  unfold serveRadioConfig
  split
  · exact h
  · split
    · exact h
    · split
      · exact h
      · exact ⟨h.epoch, h.work.of_same rfl rfl rfl, h.count⟩

theorem serveRadioStart_staged (h : s.Staged) : (serveRadioStart s).state.Staged := by
  simp only [serveRadioStart, State.accept]
  split
  · exact h
  · exact ⟨h.epoch, h.work.of_same rfl rfl rfl, h.count⟩

theorem serveRadioStop_staged (tables : s.TablesLaw) (h : s.Staged) : (serveRadioStop s).state.Staged := by
  unfold serveRadioStop
  split
  · have stopped : s.stopped.StagedFor s.epoch.pending := h.work.of_same rfl rfl rfl
    obtain ⟨work, epoch⟩ := State.StagedFor.foldl_abortEntry (s := s.stopped) s.stopped.abortOrder tables stopped s.stopped.abortOrder_perm
    exact (State.SameStaged.endAllHolds _).staged (h.report (t := s.stopped.abortAll) epoch work)
  · exact h

theorem State.reset_staged : State.reset.Staged := (State.stagedLaw_iff State.reset_tablesLaw (by decide)).1 State.reset_stagedLaw

theorem State.takeReset_staged (s : State) : s.takeReset.Staged :=
  State.SameStaged.staged (s := State.reset) ⟨rfl, rfl, rfl, rfl, rfl, rfl⟩ State.reset_staged

/-! ## Every request -/

/-- Every request keeps the law of staged work, from either port. -/
theorem serve_staged (port : Port) (r : Request) (tables : s.TablesLaw) (h : s.Staged) : (serve port r s).state.Staged := by
  cases r with
  | itemPut n p => exact serveItemPut_staged n p tables h
  | itemSetNext n p => exact serveItemSetNext_staged n p tables h
  | itemClearNext n => exact serveItemClearNext_staged n tables h
  | itemGet n => exact serveItemGet_staged n h
  | itemRetire n => exact serveItemRetire_staged n tables h
  | labelAdd b => exact serveLabelAdd_staged b tables h
  | labelBind a n => exact serveLabelBind_staged port a n tables h
  | labelMove a m => exact serveLabelMove_staged a m tables h
  | labelGet a => exact serveLabelGet_staged port a tables h
  | labelRetire a => exact serveLabelRetire_staged a tables h
  | labelRetry a => exact serveLabelRetry_staged a tables h
  | labelQuery a => exact serveLabelQuery_staged a tables h
  | labelLocate a => exact serveLabelLocate_staged a tables h
  | labelScan start states flags => exact serveLabelScan_staged start states flags h
  | templateLoad b => exact serveTemplateLoad_staged b tables h
  | templateGet i => exact serveTemplateGet_staged i h
  | zoneSet z v => exact serveZoneSet_staged z v h
  | zoneGet z => exact serveZoneGet_staged z h
  | zoneHold z b => exact serveZoneHold_staged z b h
  | zoneRelease z => exact serveZoneRelease_staged z h
  | zoneRetry z => exact serveZoneRetry_staged z tables h
  | epochOpen e => exact serveEpochOpen_staged e h
  | epochSchedule n => exact serveEpochSchedule_staged n tables h
  | epochAbandon => exact serveEpochAbandon_staged tables h
  | radioConfig b => exact serveRadioConfig_staged b h
  | radioStart => exact serveRadioStart_staged h
  | radioStop => exact serveRadioStop_staged tables h
  | noticeClear set =>
    simp only [serve, serveNoticeClear]
    split
    · exact h
    · exact ⟨h.epoch, h.work.of_same rfl rfl rfl, h.count⟩
  | noticeMask set =>
    simp only [serve, serveNoticeMask]
    split
    · exact h
    · exact ⟨h.epoch, h.work.of_same rfl rfl rfl, h.count⟩
  | portConfig e p =>
    simp only [serve, servePortConfig]
    split
    · exact h
    · exact ⟨h.epoch, h.work.of_same rfl rfl rfl, h.count⟩
  | epochStatus => exact h
  | radioStatus => exact h
  | noticeRead => exact h
  | deviceInfo => exact h
  | deviceReset => exact s.takeReset_staged

/-! ## The ports (chapter 9) -/

theorem State.SameStaged.setGateway (x : Gateway) (s : State) : s.SameStaged (s.setGateway x) := ⟨rfl, rfl, rfl, rfl, rfl, rfl⟩

theorem State.SameStaged.setService (x : ServiceLine) (s : State) : s.SameStaged (s.setService x) := ⟨rfl, rfl, rfl, rfl, rfl, rfl⟩

theorem Served.held_staged (v : Served) (tag : Byte) (h : v.state.Staged) : (v.held tag).Staged := by
  unfold Served.held
  split
  · exact h
  · exact (State.SameStaged.setGateway _ _).staged h

theorem State.Staged.gatewayTake (h : s.Staged) (tables : s.TablesLaw) (tag : Byte) (r : Request) :
    (s.gatewayTake tag r (serve .gateway r)).Staged := by
  unfold State.gatewayTake
  split
  · exact h
  · exact Served.held_staged _ tag (serve_staged _ _ tables ((State.SameStaged.setGateway _ s).staged h))

theorem State.Staged.readResponse (h : s.Staged) (n : Nat) : (s.readResponse n).Staged := by
  unfold State.readResponse
  split <;> exact (State.SameStaged.setGateway _ s).staged h

theorem State.Staged.gatewayTransaction (h : s.Staged) (tables : s.TablesLaw) (bytes : List Byte) :
    (s.gatewayTransaction bytes).Staged := by
  unfold State.gatewayTransaction
  have collected : (s.collect bytes).Staged := (State.SameStaged.setGateway _ s).staged h
  split
  · exact h
  · split
    · exact h.readResponse _
    · split
      · exact (State.SameStaged.setGateway _ _).staged collected
      · exact Served.held_staged _ _ (serve_staged _ _ tables collected)

theorem State.Staged.serviceFrame (h : s.Staged) (tables : s.TablesLaw) (frame : List Byte) : (s.serviceFrame frame).Staged := by
  unfold State.serviceFrame
  split
  · exact h
  · split
    · exact (State.SameStaged.setService _ s).staged h
    · rename_i r _
      have served := serve_staged .service r tables h
      dsimp only
      split
      · exact served
      · exact (State.SameStaged.setService _ _).staged served

theorem State.Staged.assemble (h : s.Staged) (tables : s.TablesLaw) (buffer : List Byte) (b : Byte) :
    (s.assemble buffer b).Staged := by
  unfold State.assemble
  have hunts : (s.receive .hunting).Staged := (State.SameStaged.setService _ s).staged h
  dsimp only
  split
  · exact (State.SameStaged.setService _ s).staged h
  · split
    · unfold State.serviceTooLong
      split
      · exact hunts
      · exact (State.SameStaged.setService _ _).staged hunts
    · split
      · exact (State.SameStaged.setService _ s).staged h
      · exact hunts.serviceFrame tables _

/-! ## The frame-start work (R14, R77, R101, R164) -/

theorem State.SameStaged.setAir (x : Air) (s : State) : s.SameStaged (s.setAir x) := ⟨rfl, rfl, rfl, rfl, rfl, rfl⟩

theorem State.SameStaged.composeBeacons (s : State) : s.SameStaged s.composeBeacons := by
  unfold State.composeBeacons
  split
  · exact .setAir _ s
  · exact .refl s

theorem State.SameStaged.countDown (s : State) : s.SameStaged s.countDown := by
  unfold State.countDown
  split
  · split <;> exact ⟨rfl, rfl, rfl, rfl, rfl, rfl⟩
  · exact .refl s

theorem State.SameStaged.advanceFrame (s : State) : s.SameStaged s.advanceFrame :=
  State.SameStaged.trans (t := (s.setRadio { s.radio with frame := framePlus s.radio.frame 1 }).setAir { s.air with
    windowsOpen := s.running, beaconDue := s.running, windows := Vector.replicate 4 .none, confirmedNow := [] })
    ⟨rfl, rfl, rfl, rfl, rfl, rfl⟩ (.ageHolds _)

theorem State.Staged.takeRetries (h : s.Staged) (tables : s.TablesLaw) : s.takeRetries.Staged :=
  h.updateLabels (test := fun _ l => s.retryDue l) (change := fun _ l => l.retry) tables (fun _ _ => rfl) (fun _ _ => rfl)
    fun _ _ => rfl

theorem State.Staged.settleFrame (h : s.Staged) (tables : s.TablesLaw) : s.settleFrame.Staged :=
  ((State.SameStaged.takeDueHolds _).trans (.composeBeacons _)).staged
    ((h.takeRetries tables).takeExpiry ((s.takeRetries_edits tables).tables tables))

theorem State.Staged.orderedWork (h : s.Staged) (tables : s.TablesLaw) (o : FrameOrder) : (s.orderedWork o).Staged := by
  have retries : (if o.retries then s.takeRetries else s).Staged ∧ (if o.retries then s.takeRetries else s).TablesLaw := by
    split
    · exact ⟨h.takeRetries tables, (s.takeRetries_edits tables).tables tables⟩
    · exact ⟨h, tables⟩
  have expiry : ∀ u : State, u.TablesLaw → u.Staged → (if o.expiry then u.takeExpiry else u).Staged := fun u tables h => by
    split
    · exact h.takeExpiry tables
    · exact h
  have holds : ∀ u : State, u.SameStaged (if o.holds then u.takeDueHolds else u) := fun u => by
    split
    · exact .takeDueHolds u
    · exact .refl u
  have beacon : ∀ u : State, u.SameStaged (if o.beacon then u.composeBeacons else u) := fun u => by
    split
    · exact .composeBeacons u
    · exact .refl u
  exact ((holds _).trans (beacon _)).staged (expiry _ retries.2 retries.1)

/-! ## The windows (R98 to R100, R123 to R147) -/

/-- A data slot's decision: nothing sent, or a grant with pointers and guards moved. -/
theorem State.Staged.decideSlot (h : s.Staged) (tables : s.TablesLaw) (lane : Lane) (slot : SlotNo) :
    (s.decideSlot lane slot).Staged := by
  rcases s.decideSlot_cases lane slot with silent | ⟨pointers, zones, k, l, -, -, -, -, -, granted⟩
  · exact silent ▸ (State.SameStaged.setAir _ s).staged h
  · have moved : s.SameStaged ((s.setPointers pointers).setZones zones) := ⟨rfl, rfl, rfl, rfl, rfl, rfl⟩
    exact granted ▸ (moved.staged h).grant tables lane slot k

theorem State.Staged.setWindows (h : s.Staged) (lane : Lane) (w : LaneWindows) : (s.setWindows lane w).Staged :=
  (State.SameStaged.setAir _ s).staged h

theorem State.Staged.openSlots (h : s.Staged) (tables : s.TablesLaw) (lane : Lane) (n : Nat) : (s.openSlots lane n).Staged := by
  induction n generalizing s with
  | zero => exact h
  | succ n ih =>
    exact ih ((h.setWindows lane _).decideSlot tables lane _)
      (Changes.tables ((s.setWindows_changes lane _).trans (State.decideSlot_changes _ _ _)) tables)

theorem State.Staged.openUpTo (h : s.Staged) (tables : s.TablesLaw) (lane : Lane) (n : Nat) : (s.openUpTo lane n).Staged :=
  h.openSlots tables lane _

theorem State.Staged.closeSlot (h : s.Staged) (tables : s.TablesLaw) (lane : Lane) (slot : SlotNo) :
    (s.closeSlot lane slot).Staged := by
  simp only [State.closeSlot]
  split
  · exact h
  · split
    · exact h.setWindows lane _
    · rename_i e found
      exact (h.setWindows lane _).resolveClose tables (List.mem_of_find?_eq_some found)

theorem State.Staged.takeAck (h : s.Staged) (tables : s.TablesLaw) (lane : Lane) (slot : SlotNo) (a : Ack) :
    (s.takeAck lane slot a).Staged := by
  simp only [State.takeAck]
  split
  · exact h.setWindows lane _
  · rename_i e found
    exact (h.setWindows lane _).resolveArrival tables (List.mem_of_find?_eq_some found) a

/-- What each of a list of windows keeps, all of them keep. -/
theorem State.Staged.foldl {α : Type} (f : State → α → State) (one : ∀ u a, State.TablesLaw u → State.Staged u → State.Staged (f u a))
    (changes : ∀ u a, Changes u (f u a)) (work : List α) (tables : s.TablesLaw) (h : s.Staged) :
    (work.foldl f s).TablesLaw ∧ (work.foldl f s).Staged := by
  induction work generalizing s with
  | nil => exact ⟨tables, h⟩
  | cons a work ih => exact ih ((changes s a).tables tables) (one s a tables h)

theorem State.Staged.finishWindows (h : s.Staged) (tables : s.TablesLaw) : s.finishWindows.Staged := by
  simp only [State.finishWindows]
  split
  · obtain ⟨tables, opened⟩ := State.Staged.foldl (fun t (w : Lane × SlotNo) => t.openUpTo w.1 (w.2.val + 1))
      (fun _ w tables h => h.openUpTo tables w.1 _) (fun u w => u.openUpTo_changes w.1 _) s.laneSlots tables h
    exact (State.Staged.foldl (fun t (w : Lane × SlotNo) => t.closeSlot w.1 w.2) (fun _ w tables h => h.closeSlot tables w.1 w.2)
      (fun u w => u.closeSlot_changes w.1 w.2) s.laneSlots tables opened).2
  · exact h

/-! ## Every command -/

theorem State.Staged.takeHoldCount (h : s.Staged) (z : ZoneNo) : (s.takeHoldCount z).Staged :=
  (State.SameStaged.takeHoldCount z s).staged h

/-- Every command keeps the law of staged work. -/
theorem exec_staged (c : Instr) (s t : State) (tables : s.TablesLaw) (h : s.Staged) (ran : exec c s = .next t) : t.Staged := by
  cases row : c.request with
  | some tr =>
    rw [exec_request (tag := tr.1) (r := tr.2) row] at ran
    obtain rfl := Host.Outcome.next.inj ran
    exact h.gatewayTake tables _ _
  | none =>
    have settled := h.settleFrame tables
    have tables' := (s.settleFrame_edits tables).tables tables
    cases c with
    | powerOnReset =>
      obtain rfl := Host.Outcome.next.inj ran
      exact s.takeReset_staged
    | resetEnd =>
      obtain rfl := Host.Outcome.next.inj ran
      exact ⟨h.epoch, h.work.of_same rfl rfl rfl, h.count⟩
    | readResponse n =>
      obtain rfl := Host.Outcome.next.inj ran
      split
      · exact h
      · exact h.readResponse n
    | unknownKindFrame bytes =>
      obtain rfl := Host.Outcome.next.inj ran
      exact h.gatewayTransaction tables bytes
    | serviceLineByte b stopBitError =>
      obtain rfl := Host.Outcome.next.inj ran
      split
      · exact h
      · split
        · split
          · exact (State.SameStaged.setService _ s).staged h
          · exact h
        · split
          · exact (State.SameStaged.setService _ s).staged h
          · exact h.assemble tables _ b
    | serviceLineGapTimeout =>
      obtain rfl := Host.Outcome.next.inj ran
      exact (State.SameStaged.setService _ s).staged h
    | serviceResponseSent =>
      obtain rfl := Host.Outcome.next.inj ran
      exact (State.SameStaged.setService _ s).staged h
    | frameStart o =>
      by_cases on : s.inReset = false
      · rw [show exec (.frameStart o) s = _ from execFrameStart_eq o s on] at ran
        obtain rfl := Host.Outcome.next.inj ran
        have started : s.settleFrame.finishWindows.SameStaged s.settleFrame.finishWindows.advanceFrame.countDown.countHolds :=
          ((State.SameStaged.advanceFrame _).trans (.countDown _)).trans (.countHolds _)
        have changes : Changes s.settleFrame s.settleFrame.finishWindows.advanceFrame.countDown.countHolds :=
          (((State.finishWindows_changes _).trans (State.advanceFrame_changes _)).trans
            (State.countDown_edits _).changes).trans (State.countHolds_edits _).changes
        exact (started.staged (settled.finishWindows tables')).orderedWork (changes.tables tables') o
      · have off : s.inReset = true := by simpa using on
        obtain rfl : s = t := by simpa [exec, execFrameStart, off] using ran
        exact h
    | backoffRetryDue k =>
      obtain rfl := Host.Outcome.next.inj ran
      split
      · exact h
      · rename_i l here
        split
        · exact h.rewrite tables here rfl rfl
        · exact h
    | countdownExpiry =>
      obtain rfl := Host.Outcome.next.inj ran
      exact h.takeExpiry tables
    | holdBudgetSpent z =>
      obtain rfl := Host.Outcome.next.inj ran
      split
      · exact h.takeHoldCount z
      · exact h
    | holdIdleReached z =>
      obtain rfl := Host.Outcome.next.inj ran
      split
      · exact h.takeHoldCount z
      · exact h
    | dataSlotOpening lane slot =>
      obtain rfl := Host.Outcome.next.inj ran
      split
      · exact settled.openUpTo tables' lane _
      · exact h
    | ackArrival lane slot m =>
      obtain rfl := Host.Outcome.next.inj ran
      dsimp only
      split
      · have opened := settled.openUpTo tables' lane 6
        split
        · exact opened
        · exact opened.takeAck ((State.openUpTo_changes lane 6 _).tables tables') lane slot _
      · exact h
    | ackSlotClose lane slot =>
      obtain rfl := Host.Outcome.next.inj ran
      split
      · exact (settled.openUpTo tables' lane 6).closeSlot ((State.openUpTo_changes lane 6 _).tables tables') lane slot
      · exact h
    | _ => contradiction

/-- An epoch is pending exactly outside STEADY (R70). -/
theorem State.EpochLaw.steady_iff (h : s.EpochLaw) : s.epoch.state = .steady ↔ s.epoch.pending = none := by
  obtain ⟨steady, outside, -⟩ := h
  refine ⟨fun idle => (steady idle).1, fun none => ?_⟩
  by_contra away
  simp [none] at outside
  exact away outside

/-- Staged work in a state that meets every law. -/
theorem State.Laws.stagedWork (laws : s.Laws) : s.Staged := (State.stagedLaw_iff laws.tables laws.epoch.steady_iff).1 laws.staged

/-- Settles O59: every command keeps staged work that of the pending epoch, and the count the sum of R80. -/
theorem stepKeepsStagedLaw : Obligations.StepKeepsStagedLaw := fun s t laws stepped => by
  have staged : t.Staged := by
    unfold step at stepped
    split at stepped
    · obtain rfl := Host.Outcome.next.inj stepped
      exact laws.stagedWork
    · rename_i c rest _
      have popped : s.SameStaged (s.setPending rest) := ⟨rfl, rfl, rfl, rfl, rfl, rfl⟩
      exact exec_staged c (s.setPending rest) t laws.tables (popped.staged laws.stagedWork) stepped
  exact (State.stagedLaw_iff ((step_changes s t laws.tables stepped).tables laws.tables) staged.epoch).2 staged

end

end Sys2Proof.Machine
end

