-- ==== Sys2Proof/Proofs/Marking.lean ====
section
/-! What follows label records rewritten in one event (R6, R7, R33, R40, R80): the queues in slot order, the counts, and nothing else. -/

namespace Sys2Proof.Machine

section
variable {s t : State} {test : Nat → Label → Bool} {change : Nat → Label → Label}

/-! ## Queues (R6) -/

/-- A zone's queue on the way from `s` to `u`, records written in ascending slot order: those that still wait in it keep their order, and
those that joined it stand behind them in slot order. -/
def State.Queued (s u : State) (z : ZoneNo) (joined : List Nat) : Prop :=
  joined.Pairwise (· < ·)
    ∧ (∀ j, j ∈ joined ↔ queueOf (u.label j) = some z ∧ queueOf (s.label j) ≠ some z)
    ∧ u.queue z = ((s.queue z).filter fun j => queueOf (u.label j) = some z) ++ joined

/-- One more record written, the slots from its own on untouched so far. -/
theorem State.Queued.write {u : State} {z : ZoneNo} {joined : List Nat} (h : s.Queued u z joined) (nodup : (s.queue z).Nodup)
    (holds : ∀ j, j ∈ s.queue z ↔ queueOf (s.label j) = some z) (k : Nat) (untouched : ∀ j, k ≤ j → u.label j = s.label j)
    (new : Label) : ∃ joined', s.Queued (u.writeLabel k (some new)) z joined' := by
  obtain ⟨rising, members, queue⟩ := h
  have read : ∀ j, (u.writeLabel k (some new)).label j = if j = k then some new else u.label j := fun j =>
    State.writeLabel_find k j new u
  have here := untouched k (Nat.le_refl k)
  have below : ∀ j ∈ joined, j < k := fun j member => by
    obtain ⟨waits, fresh⟩ := (members j).1 member
    by_contra from_
    exact fresh (untouched j (by omega) ▸ waits)
  have moved := State.writeLabel_queue k (some new) u z
  rw [here] at moved
  have stays : (queueOf (s.label k) = some z ↔ queueOf (some new) = some z) → ∃ joined', s.Queued (u.writeLabel k (some new)) z joined' := by
    intro both
    have unmoved : ∀ j, queueOf ((u.writeLabel k (some new)).label j) = some z ↔ queueOf (u.label j) = some z := fun j => by
      rw [read]
      by_cases same : j = k <;> simp [same, here, both]
    refine ⟨joined, rising, fun j => (members j).trans (by rw [unmoved]), ?_⟩
    simp only [unmoved]
    rw [← queue, moved]
    by_cases old : queueOf (s.label k) = some z
    · rw [if_pos (old.trans (both.1 old).symm)]
    · rw [if_neg fun now => old (both.2 now), if_neg old, ite_self]
  by_cases old : queueOf (s.label k) = some z
  · by_cases now : queueOf (some new) = some z
    · exact stays (iff_of_true old now)
    rw [if_neg fun same => now (same.symm.trans old), if_neg now, if_pos old] at moved
    have waits : k ∈ (s.queue z).filter fun j => queueOf (u.label j) = some z :=
      List.mem_filter.2 ⟨(holds k).2 old, by simp [here, old]⟩
    refine ⟨joined, rising, fun j => ?_, ?_⟩
    · rw [members, read]
      by_cases same : j = k <;> simp [same, now, old]
    · rw [moved, queue, List.erase_append_left _ waits, (nodup.filter _).erase_eq_filter, List.filter_filter]
      congr 1
      refine List.filter_congr fun j _ => ?_
      rw [read]
      by_cases same : j = k <;> simp [same, now]
  · by_cases now : queueOf (some new) = some z
    · rw [if_neg fun same => old (same.trans now), if_pos now] at moved
      refine ⟨joined ++ [k], List.pairwise_append.2 ⟨rising, List.pairwise_singleton _ _, fun j member i last => ?_⟩, fun j => ?_, ?_⟩
      · exact List.mem_singleton.1 last ▸ below j member
      · rw [List.mem_append, List.mem_singleton, members, read]
        by_cases same : j = k <;> simp [same, now, old]
      · rw [moved, queue, List.append_assoc]
        congr 1
        refine List.filter_congr fun j member => ?_
        have other : j ≠ k := fun same => old (same ▸ (holds j).1 member)
        rw [read, if_neg other]
    · exact stays (iff_of_false old now)

/-- The queues after label records are rewritten, as R6 gives them. -/
theorem State.updateLabels_queue (tables : s.TablesLaw) (law : s.QueueLaw) (kept : ∀ k l u, Label.KeptIn u l (change k l)) (z : ZoneNo) :
    (s.updateLabels test change).queue z
      = ((s.queue z).filter fun j => ((s.updateLabels test change).label j).any fun l => l.waitsIn z)
        ++ (((s.updateLabels test change).labels.filter fun jl => jl.2.waitsIn z
              && !(s.label jl.1).any fun l => l.waitsIn z).map Prod.fst) := by
  obtain ⟨nodup, holds⟩ := (s.queueLaw_iff tables.rising).1 law z
  have start : ∃ joined, s.Queued s z joined :=
    ⟨[], List.Pairwise.nil, by simp, by
      rw [List.append_nil, List.filter_eq_self.2 fun j member => by simpa using (holds j).1 member]⟩
  obtain ⟨joined, rising, members, queue⟩ : ∃ joined, s.Queued (s.updateLabels test change) z joined :=
    State.updateLabels_keep (P := fun u => ∃ joined, s.Queued u z joined) tables (fun k l => (kept k l s).address) start
      fun u k l _ untouched _ _ ⟨joined, queued⟩ => queued.write nodup holds k untouched (change k l)
  have tables' := (s.updateLabels_edits test change tables fun k l _ u => kept k l u).tables tables
  have waits : ∀ o : Option Label, (o.any fun l => l.waitsIn z) = decide (queueOf o = some z) := fun o => by
    rw [Bool.eq_iff_iff, any_waitsIn_iff, decide_eq_true_eq]
  rw [queue]
  simp only [waits]
  congr 1
  refine eq_of_rising rising (List.pairwise_map.2 (tables'.rising.filter _)) fun j => ?_
  rw [members, List.mem_map]
  constructor
  · rintro ⟨now, before⟩
    obtain ⟨l, found, zone, state⟩ := (queueOf_eq_some _ z).1 now
    refine ⟨(j, l), List.mem_filter.2 ⟨(tables'.mem_labels j l).2 found, ?_⟩, rfl⟩
    simp [Label.waitsIn, zone, state, before]
  · rintro ⟨⟨i, l⟩, member, rfl⟩
    obtain ⟨there, meets⟩ := List.mem_filter.1 member
    rw [(tables'.mem_labels i l).1 there, ← any_waitsIn_iff]
    simpa using meets

/-! ## Records rewritten and reported -/

/-- The sum of R80 does not fall where no record rewritten loses STAGED. -/
theorem State.updateLabels_owed_le (tables : s.TablesLaw) (kept : ∀ k l u, Label.KeptIn u l (change k l))
    (more : ∀ k (l : Label), l.needs.staged = true → (change k l).needs.staged = true) : s.owed ≤ (s.updateLabels test change).owed :=
  State.updateLabels_keep (P := fun u => s.owed ≤ u.owed) tables (fun k l => (kept k l s).address) (Nat.le_refl _)
    fun u k l tables untouched here _ least => by
      have owed := State.writeLabel_owed k (some (change k l)) u tables.rising
      have share := stagedShare_le (more k l)
      rw [untouched k (Nat.le_refl k), here] at owed
      omega

/-- Label records rewritten in one event, none losing STAGED, and the change of the sum of R80 reported: what each slot reads as, what
follows, and nothing else. -/
theorem State.updateLabels_report {before : State} (tables : s.TablesLaw) (queue : s.QueueLaw) (counts : s.CountsLaw) (bound : s.BoundLaw)
    (owed : s.owed = before.owed) (right : s.epoch.outstanding = before.owed) (kept : ∀ k l u, Label.KeptIn u l (change k l))
    (more : ∀ k (l : Label), l.needs.staged = true → (change k l).needs.staged = true) :
    (∀ j, ((s.updateLabels test change).reportStaged before).label j
        = (s.label j).map fun l => if test j l then change j l else l)
      ∧ s.Follows ((s.updateLabels test change).reportStaged before)
      ∧ (s.updateLabels test change).reportStaged before = ((s.updateLabels test change).reportStaged before).withRecords s := by
  have same := s.updateLabels_same test change
  have address : ∀ k l, (change k l).address = l.address := fun k l => (kept k l s).address
  have changes : Changes s (s.updateLabels test change) :=
    (s.updateLabels_edits test change tables fun k l _ u => kept k l u).changes
  have least := State.updateLabels_owed_le (test := test) tables kept more
  obtain ⟨count, total, notices⟩ := State.reportStaged_right (s.updateLabels test change) before (by rw [same.epoch]; exact right)
  have read : ∀ j, ((s.updateLabels test change).reportStaged before).label j = (s.updateLabels test change).label j := fun j => by
    simp only [State.label, count.labels]
  have quiet : ((s.updateLabels test change).reportStaged before).notices = s.notices := by
    rw [notices, State.noticesAfterCount, total, same.epoch, if_neg fun falls => by omega]
    exact same.notices
  have zone : ∀ z, ((s.updateLabels test change).reportStaged before).zone z = (s.updateLabels test change).zone z :=
    State.zone_congr count.zones
  have laws : ((s.updateLabels test change).reportStaged before).CountsLaw ∧ ((s.updateLabels test change).reportStaged before).BoundLaw := by
    have all := changes.trans (State.reportStaged_edits _ before).changes
    exact ⟨(Changes.keep (P := fun u => u.QueueLaw ∧ u.CountsLaw) Change.queue_counts all tables ⟨queue, counts⟩).2.2,
      (Changes.keep (P := State.BoundLaw) Change.bound all tables bound).2⟩
  refine ⟨fun j => (read j).trans (State.updateLabels_label test change s j tables.rising),
    ⟨fun z => ?_, laws.1, fun z => ?_, laws.2, ?_, ?_⟩, State.BesideRecords.eq ?_⟩
  · have queues := State.updateLabels_queue (test := test) tables queue kept z
    simpa only [State.queue, count.queues, read, count.labels] using queues
  · rw [zone]
    exact State.updateLabels_zone_counts tables address z
  · rw [count.items]
    exact State.updateLabels_unbound tables address
  · rw [total, count.labels, count.entries]
    rfl
  · exact ⟨count.inReset.trans same.inReset, count.gateway.trans same.gateway, count.service.trans same.service,
      count.templates.trans same.templates, same.epoch ▸ count.epoch, count.radio.trans same.radio, count.air.trans same.air,
      count.pointers.trans same.pointers, count.entries.trans same.entries, count.holdSet.trans same.holdSet,
      count.holdsDue.trans same.holdsDue, quiet, count.pending.trans same.pending⟩

end

end Sys2Proof.Machine
end

