-- ==== Sys2Proof/Proofs/ItemRequests.lean ====
section
/-! The item requests (chapter 2): what each checks of the written values, what it leaves in the records, and its refusals. -/

namespace Sys2Proof.Machine

/-! ## Written values (R29, R30) -/

theorem itemNumberOf_eq {n : BitVec 32} (low : 1 ≤ n.toNat) (high : n.toNat ≤ 99999999) : itemNumberOf n = some n.toNat := by
  unfold itemNumberOf Config.moneyLimit
  exact if_neg (by omega)

theorem itemNumberOf_eq_none {n : BitVec 32} (out : n.toNat = 0 ∨ 99999999 < n.toNat) : itemNumberOf n = none := by
  unfold itemNumberOf Config.moneyLimit
  exact if_pos out

/-- The number of an item of the table is one a request may name. -/
theorem State.TablesLaw.itemNumberOf_eq {s : State} (tables : s.TablesLaw) {k : Nat} {x : Item} (here : s.item k = some x)
    {n : BitVec 32} (named : x.number = n.toNat) : itemNumberOf n = some n.toNat := by
  obtain ⟨low, high⟩ := tables.item_range here
  exact Machine.itemNumberOf_eq (by omega) (by omega)

theorem basisOf_units (b : Basis) : basisOf b.units = some b := by cases b <;> rfl

theorem unitKindOf_code {b : Byte} {u : UnitKind} (named : u.code = b.toNat) : unitKindOf b = some u := by
  unfold unitKindOf
  cases u <;> rw [← named] <;> rfl

/-- A basis is named by 1, 10, 100 or 1000 (R30). -/
theorem basisOf_isSome (n : Nat) : (basisOf n).isSome = [1, 10, 100, 1000].contains n := by
  unfold basisOf
  repeat' split
  all_goals simp_all

/-- A unit kind is named by a code up to 3 (R198). -/
theorem unitKindOf_isSome (b : Byte) : (unitKindOf b).isSome = decide (b.toNat ≤ 3) := by
  unfold unitKindOf
  split
  all_goals simp_all
  omega

/-- The table of R30: the ranges, then the names of the basis and of the kind. -/
theorem PriceWordsOk_iff (p : PriceWords) : PriceWordsOk p = true ↔
    ¬p.price.toNat > Config.moneyLimit ∧ ¬p.old.any (fun o => o.toNat > Config.moneyLimit) = true
      ∧ ¬p.quantity.toNat > Config.quantityLimit ∧ (basisOf p.basis.toNat).isSome = true ∧ (unitKindOf p.kind).isSome = true := by
  have old : p.old.all (fun o => decide (o.toNat ≤ 99999999)) = true ↔ ¬p.old.any (fun o => o.toNat > 99999999) = true := by
    cases p.old <;> simp
  simp only [PriceWordsOk, Bool.and_eq_true, decide_eq_true_eq, basisOf_isSome, unitKindOf_isSome, old, Config.moneyLimit,
    Config.quantityLimit, gt_iff_lt, Nat.not_lt, and_assoc]

/-- A price set that passes R30's table is stored as it holds it. -/
theorem priceSetOf_eq {p : PriceWords} {q : PriceSet} (ok : PriceWordsOk p = true) (holds : q.Holds p) : priceSetOf p = some q := by
  obtain ⟨price, old, quantity, -, -⟩ := (PriceWordsOk_iff p).1 ok
  obtain ⟨price', old', promo', quantity', basis, kind⟩ := holds
  have zero : p.quantity = 0 ↔ p.quantity.toNat = 0 := BitVec.toNat_eq
  rw [priceSetOf, if_neg price, if_neg old, if_neg quantity, ← basis, basisOf_units, unitKindOf_code kind]
  simp only [← price', ← old', ← promo', ← zero, ← quantity']

/-- A price set is stored exactly when it passes R30's table. -/
theorem priceSetOf_isSome (p : PriceWords) : (priceSetOf p).isSome = true ↔ PriceWordsOk p = true := by
  rw [PriceWordsOk_iff, priceSetOf]
  by_cases price : p.price.toNat > Config.moneyLimit
  · simp [price]
  by_cases old : p.old.any (fun o => o.toNat > Config.moneyLimit) = true
  · simp [price, old]
  by_cases quantity : p.quantity.toNat > Config.quantityLimit
  · simp [price, old, quantity]
  rw [if_neg price, if_neg old, if_neg quantity]
  cases basisOf p.basis.toNat <;> cases unitKindOf p.kind <;> simp [price, old, quantity]

theorem priceSetOf_eq_none {p : PriceWords} (wrong : PriceWordsOk p = false) : priceSetOf p = none := by
  rw [← Option.not_isSome_iff_eq_none, priceSetOf_isSome, wrong]
  decide

/-! ## Requests taken -/

section
variable {s : State} {c : Instr} {tag : Byte} {r : Request} {body : List Byte}

/-- A request whose block answers OK: the state it leaves, and the Gateway Port. -/
theorem State.request_accepted {t : State} (row : c.request = some (tag, r)) (awake : s.inReset = false)
    (served : serve .gateway r (s.collect (r.frame tag)) = (t.collect (r.frame tag)).accept body) :
    exec c s = .next (t.answer tag r .ok body) := by
  rw [exec_request row, State.gatewayTake_eq _ _ _ _ awake, served, State.accept_held]

/-- The same where label records were rewritten: what follows them, and the Gateway Port. -/
theorem State.request_rewrites {s' t : State} {read : Nat → Option Label} (row : c.request = some (tag, r)) (awake : s.inReset = false)
    (served : serve .gateway r (s.collect (r.frame tag)) = t.accept body)
    (written : (∀ j, t.label j = read j) ∧ (s'.collect (r.frame tag)).Follows t ∧ t = t.withRecords (s'.collect (r.frame tag))) :
    ∃ t', exec c s = .next t' ∧ (∀ j, t'.label j = read j) ∧ s'.Follows t' ∧ t' = t'.withRecords (s'.answer tag r .ok body) := by
  obtain ⟨label, follows, beside⟩ := written
  refine ⟨t.holdResponse tag (.ok, body), ?_, label, follows, State.withRecords_hold beside tag _⟩
  rw [exec_request row, State.gatewayTake_eq _ _ _ _ awake, served]
  rfl

end

/-! ## Items written (R31, R34 to R38) -/

section
variable {s : State} {k : Nat} {x y : Item}

/-- The price sets of an item rewritten, a next set only outside STEADY: every law holds on. -/
theorem State.Laws.putItem (laws : s.Laws) (here : s.item k = some x) (number : y.number = x.number) (bound : y.bound = x.bound)
    (fits : y.next.isSome = true → s.epoch.pending.isSome = true) : (s.setItems (s.items.put k y)).Laws := by
  have put : Edit s (s.setItems (s.items.put k y)) := .itemPut here number bound
  have tables := put.tables laws.tables
  have staged : (s.setItems (s.items.put k y)).Staged :=
    ⟨laws.stagedWork.epoch, laws.stagedWork.work.setItem k fits, laws.stagedWork.count⟩
  exact { laws with
    tables := tables
    bound := put.bound laws.tables laws.bound
    staged := (State.stagedLaw_iff tables staged.epoch).2 staged }

/-- A mark with either flag is the mark of R40's table. -/
theorem Label.mark_eq_marked_of_flag (shown staged : Bool) (l : Label) (flag : (shown || staged) = true) :
    l.mark shown staged = l.marked shown staged := by
  have need : (l.needs.shown || shown || (l.needs.staged || staged)) = true := by
    revert flag
    cases shown <;> cases staged <;> simp
  cases state : l.state <;>
    simp_all [Label.mark, Label.marked, Label.revive, Label.owe, Label.followNeeds, Label.hasNeed, Needs.any, Needs.union]

/-- The labels bound to a rewritten item marked, and the change reported (R39, R40). -/
theorem State.Laws.marksBound (laws : s.Laws) (here : s.item k = some x) (number : y.number = x.number) (bound : y.bound = x.bound)
    (fits : y.next.isSome = true → s.epoch.pending.isSome = true) (shown : Bool) (marks : Nat → Label → Bool)
    {read : Nat → Label → Label}
    (reads : ∀ j l, s.label j = some l → read j l = if (l.binding == some k && marks j l) = true
      then l.mark shown ((s.setItems (s.items.put k y)).meetsStagedRule j l) else l) :
    (∀ j, ((((s.setItems (s.items.put k y)).markBound k shown marks).reportStaged s).label j) = (s.label j).map (read j))
      ∧ (s.setItems (s.items.put k y)).Follows (((s.setItems (s.items.put k y)).markBound k shown marks).reportStaged s)
      ∧ ((s.setItems (s.items.put k y)).markBound k shown marks).reportStaged s
        = (((s.setItems (s.items.put k y)).markBound k shown marks).reportStaged s).withRecords (s.setItems (s.items.put k y)) := by
  have laws' := laws.putItem here number bound fits
  obtain ⟨label, follows, beside⟩ := State.updateLabels_report (before := s)
    (test := fun j l => l.binding == some k && marks j l)
    (change := fun j l => l.mark shown ((s.setItems (s.items.put k y)).meetsStagedRule j l))
    laws'.tables laws'.queue laws'.counts laws'.bound rfl laws.owed (fun _ l u => l.mark_kept shown _ u)
    fun _ l staged => by simp [Needs.union, staged]
  refine ⟨fun j => (label j).trans ?_, follows, beside⟩
  cases there : s.label j with
  | none => rw [show (s.setItems (s.items.put k y)).label j = none from there]; rfl
  | some l => rw [show (s.setItems (s.items.put k y)).label j = some l from there, Option.map_some, Option.map_some, reads j l there]

end

/-! ## ITEM_PUT (R34, R35) -/

/-- Settles O13: the checks pass, the number is new, and the record is put in the lowest free slot. -/
theorem itemPutCreates : Obligations.ItemPutCreates := by
  intro tag item set q s awake laws low high ok holds fresh
  have number := itemNumberOf_eq low high
  have stored := priceSetOf_eq ok holds
  have absent : (s.collect ((Request.itemPut item set).frame tag)).itemLookup item.toNat = none :=
    (State.itemLookup_eq_none _ _).2 fresh
  refine ⟨fun k below free taken => ?_, fun full => ?_⟩
  · have slot : (s.collect ((Request.itemPut item set).frame tag)).items.lowestFree Config.itemCapacity = some k :=
      Table.lowestFree_eq _ _ _ laws.tables.items_wf below free taken
    exact State.request_accepted rfl awake (by simp only [serve, serveItemPut, number, stored, absent, slot]; rfl)
  · have slot : (s.collect ((Request.itemPut item set).frame tag)).items.lowestFree Config.itemCapacity = none :=
      Table.lowestFree_none _ _ laws.tables.items_wf full
    exact State.request_refused rfl awake (by simp only [serve, serveItemPut, number, stored, absent, slot])

/-- The staged rule of R78 looks at an item for its next set alone. -/
theorem State.needsStagedSide_putItem {s : State} {k : Nat} {x y : Item} (here : s.item k = some x) (next : y.next = x.next) :
    (s.setItems (s.items.put k y)).needsStagedSide = s.needsStagedSide := by
  funext j l
  have item : ∀ i, ((s.setItems (s.items.put k y)).item i).any (fun z => z.next.isSome) = (s.item i).any fun z => z.next.isSome := by
    intro i
    rw [State.item, State.setItems_items, Table.find_put]
    split
    · subst i
      simp [here, next]
    · rfl
  have any_ : (l.binding.bind (s.setItems (s.items.put k y)).item).any (fun z => z.next.isSome)
      = (l.binding.bind s.item).any fun z => z.next.isSome := by
    cases l.binding with
    | none => rfl
    | some i => exact item i
  simp only [State.needsStagedSide, any_]
  rfl

/-- Another current set put, and every bound label marked SHOWN (R35). -/
theorem State.Laws.putsCurrent {s : State} (laws : s.Laws) {k : Nat} {x : Item} (here : s.item k = some x) (q : PriceSet) :
    let s' := s.setItems (s.items.put k { x with current := q })
    let t := (s'.markBound k true fun _ _ => true).reportStaged s
    (∀ j, t.label j = (s.label j).map fun l => if l.binding = some k then l.marked true (s.needsStagedSide j l) else l)
      ∧ s'.Follows t ∧ t = t.withRecords s' := by
  have fits := laws.stagedWork.work.items k x here
  refine laws.marksBound (y := { x with current := q }) here rfl rfl fits true _ fun j l there => ?_
  have laws' := laws.putItem (y := { x with current := q }) here rfl rfl fits
  rw [laws'.meetsStagedRule_eq there rfl, State.needsStagedSide_putItem (y := { x with current := q }) here rfl, Label.mark_eq_marked]
  simp only [Bool.and_true, beq_iff_eq]

/-- Settles O14: an equal set changes nothing, another is put and every bound label marked SHOWN. -/
theorem itemPutReplaces : Obligations.ItemPutReplaces := by
  intro tag item set q k x s awake laws ok holds here named
  have laws' := laws.collect ((Request.itemPut item set).frame tag)
  have number := laws.tables.itemNumberOf_eq here named
  have stored := priceSetOf_eq ok holds
  have found : (s.collect ((Request.itemPut item set).frame tag)).itemLookup item.toNat = some (k, x) :=
    laws'.tables.itemLookup_eq here named
  refine ⟨fun same => ?_, fun differ => ?_⟩
  · exact State.request_answered rfl awake (by simp only [serve, serveItemPut, number, stored, found, if_pos same]; rfl)
  · exact State.request_rewrites (s' := s.setItems (s.items.put k { x with current := q })) rfl awake
      (by simp only [serve, serveItemPut, number, stored, found, if_neg differ]; rfl) (laws'.putsCurrent here q)

/-! ## ITEM_SET_NEXT and ITEM_CLEAR_NEXT (R36 to R38) -/

/-- In STEADY the epoch state refuses (R36, R38). -/
theorem State.stagingItem_steady {s : State} (idle : s.epoch.state = .steady) (n : Nat) :
    s.stagingItem n = .error .wrongEpochState := by
  simp [State.stagingItem, State.epochOpen, idle]

/-- Outside STEADY the item that has the number is taken. -/
theorem State.stagingItem_found {s : State} (away : s.epoch.state ≠ .steady) {n k : Nat} {x : Item}
    (found : s.itemLookup n = some (k, x)) : s.stagingItem n = .ok (k, x) := by
  simp [State.stagingItem, State.epochOpen, away, found]

/-- Outside STEADY a number that no item has is not found. -/
theorem State.stagingItem_absent {s : State} (away : s.epoch.state ≠ .steady) {n : Nat} (absent : s.itemLookup n = none) :
    s.stagingItem n = .error .notFound := by
  simp [State.stagingItem, State.epochOpen, away, absent]

/-- Another next set put, and every bound label marked STAGED: each meets the staged rule by the set put (R37). -/
theorem State.Laws.putsNext {s : State} (laws : s.Laws) (away : s.epoch.state ≠ .steady) {k : Nat} {x : Item}
    (here : s.item k = some x) (q : PriceSet) :
    let s' := s.setItems (s.items.put k { x with next := some q })
    let t := (s'.markBound k false fun _ _ => true).reportStaged s
    (∀ j, t.label j = (s.label j).map fun l => if l.binding = some k then l.marked false true else l)
      ∧ s'.Follows t ∧ t = t.withRecords s' := by
  have open_ : s.epochOpen = true := by simpa [State.epochOpen] using away
  refine laws.marksBound (y := { x with next := some q }) here rfl rfl (fun _ => laws.stagedWork.epochOpen_iff.1 open_) false _
    fun j l _ => ?_
  simp only [Bool.and_true, beq_iff_eq]
  split
  · rename_i bound
    have item : (s.setItems (s.items.put k { x with next := some q })).item k = some { x with next := some q } :=
      (Table.find_put s.items k k _).trans (if_pos rfl)
    have rule : (s.setItems (s.items.put k { x with next := some q })).meetsStagedRule j l = true := by
      have opened : (s.setItems (s.items.put k { x with next := some q })).epochOpen = true := open_
      simp [State.meetsStagedRule, State.itemHasNext, opened, bound, item]
    rw [rule, Label.mark_eq_marked_of_flag false true l rfl]
  · rfl

/-- The next set removed, and those bound labels marked STAGED that still meet the staged rule (R38; assumption 16). -/
theorem State.Laws.dropsNext {s : State} (laws : s.Laws) {k : Nat} {x : Item} (here : s.item k = some x) :
    let s' := s.setItems (s.items.put k { x with next := none })
    let t := (s'.markBound k false s'.meetsStagedRule).reportStaged s
    (∀ j, t.label j = (s.label j).map fun l =>
        if l.binding = some k ∧ s'.needsStagedSide j l = true then l.marked false true else l)
      ∧ s'.Follows t ∧ t = t.withRecords s' := by
  refine laws.marksBound (y := { x with next := none }) here rfl rfl (by simp) false _ fun j l there => ?_
  have laws' := laws.putItem (y := { x with next := none }) here rfl rfl (by simp)
  rw [laws'.meetsStagedRule_eq there rfl]
  simp only [Bool.and_eq_true, beq_iff_eq]
  split
  · rename_i both
    rw [both.2, Label.mark_eq_marked_of_flag false true l rfl]
  · rfl

/-- ITEM_SET_NEXT of an item that is there: refused in STEADY, otherwise by the next set it has. -/
theorem itemSetNext_settles (tag : Byte) (item : BitVec 32) (set : PriceWords) (q : PriceSet) (k : Nat) (x : Item) (s : State)
    (awake : s.inReset = false) (laws : s.Laws) (ok : PriceWordsOk set = true) (holds : q.Holds set) (here : s.item k = some x)
    (named : x.number = item.toNat) :
    (s.epoch.state = .steady →
      exec (.itemSetNext tag item set) s = .next (s.answer tag (.itemSetNext item set) .wrongEpochState []))
    ∧ (s.epoch.state ≠ .steady → x.next = some q →
      exec (.itemSetNext tag item set) s = .next (s.answer tag (.itemSetNext item set) .ok (leBytes 2 k ++ [0])))
    ∧ (s.epoch.state ≠ .steady → x.next ≠ some q →
      let s' := s.setItems (s.items.put k { x with next := some q })
      ∃ t, exec (.itemSetNext tag item set) s = .next t
        ∧ (∀ j, t.label j = (s.label j).map fun l => if l.binding = some k then l.marked false true else l)
        ∧ s'.Follows t ∧ t = t.withRecords (s'.answer tag (.itemSetNext item set) .ok (leBytes 2 k ++ [1]))) := by
  have laws' := laws.collect ((Request.itemSetNext item set).frame tag)
  have number := laws.tables.itemNumberOf_eq here named
  have stored := priceSetOf_eq ok holds
  have found : (s.collect ((Request.itemSetNext item set).frame tag)).itemLookup item.toNat = some (k, x) :=
    laws'.tables.itemLookup_eq here named
  refine ⟨fun idle => ?_, fun away same => ?_, fun away differ => ?_⟩
  · have checked := State.stagingItem_steady (s := s.collect ((Request.itemSetNext item set).frame tag)) idle item.toNat
    exact State.request_refused rfl awake (by simp only [serve, serveItemSetNext, number, stored, checked])
  · have checked := State.stagingItem_found (s := s.collect ((Request.itemSetNext item set).frame tag)) away found
    exact State.request_answered rfl awake (by simp only [serve, serveItemSetNext, number, stored, checked, if_pos same]; rfl)
  · have checked := State.stagingItem_found (s := s.collect ((Request.itemSetNext item set).frame tag)) away found
    exact State.request_rewrites (s' := s.setItems (s.items.put k { x with next := some q })) rfl awake
      (by simp only [serve, serveItemSetNext, number, stored, checked, if_neg differ]; rfl) (laws'.putsNext away here q)

/-- Settles O15: ITEM_SET_NEXT by the lemma above, ITEM_CLEAR_NEXT by the same three cases. -/
theorem itemNextSets : Obligations.ItemNextSets := by
  refine ⟨itemSetNext_settles, fun tag item k x s awake laws here named => ?_⟩
  have laws' := laws.collect ((Request.itemClearNext item).frame tag)
  have number := laws.tables.itemNumberOf_eq here named
  have found : (s.collect ((Request.itemClearNext item).frame tag)).itemLookup item.toNat = some (k, x) :=
    laws'.tables.itemLookup_eq here named
  refine ⟨fun idle => ?_, fun away same => ?_, fun away differ => ?_⟩
  · have checked := State.stagingItem_steady (s := s.collect ((Request.itemClearNext item).frame tag)) idle item.toNat
    exact State.request_refused rfl awake (by simp only [serve, serveItemClearNext, number, checked])
  · have checked := State.stagingItem_found (s := s.collect ((Request.itemClearNext item).frame tag)) away found
    exact State.request_answered rfl awake (by simp only [serve, serveItemClearNext, number, checked, if_pos same]; rfl)
  · have checked := State.stagingItem_found (s := s.collect ((Request.itemClearNext item).frame tag)) away found
    exact State.request_rewrites (s' := s.setItems (s.items.put k { x with next := none })) rfl awake
      (by simp only [serve, serveItemClearNext, number, checked, if_neg differ]; rfl) (laws'.dropsNext here)

/-! ## ITEM_RETIRE, and the refusals (R29, R30, R34, R36, R38, R42, R43) -/

/-- An item removed: its slot is free, the others stand. -/
theorem itemRetire_settles (tag : Byte) (item : BitVec 32) (k : Nat) (x : Item) (s : State) (awake : s.inReset = false) (laws : s.Laws)
    (here : s.item k = some x) (named : x.number = item.toNat) :
    (x.bound = 0 → ∃ t, exec (.itemRetire tag item) s = .next t
      ∧ (∀ j, t.item j = if j = k then none else s.item j) ∧ t.items.wf 16384
      ∧ t = (s.setItems t.items).answer tag (.itemRetire item) .ok (leBytes 2 k))
    ∧ (0 < x.bound → exec (.itemRetire tag item) s = .next (s.answer tag (.itemRetire item) .inUse [])) := by
  have number := laws.tables.itemNumberOf_eq here named
  have found : (s.collect ((Request.itemRetire item).frame tag)).itemLookup item.toNat = some (k, x) :=
    (laws.collect _).tables.itemLookup_eq here named
  refine ⟨fun free => ?_, fun bound => ?_⟩
  · refine ⟨(s.setItems (s.items.erase k)).answer tag (.itemRetire item) .ok (leBytes 2 k), ?_,
      fun j => Table.find_erase s.items k j laws.tables.items_wf.1, s.items.erase_wf k _ laws.tables.items_wf, rfl⟩
    exact State.request_accepted rfl awake
      (by simp only [serve, serveItemRetire, number, found, if_neg (show ¬x.bound > 0 by omega)]; rfl)
  · exact State.request_refused rfl awake (by simp only [serve, serveItemRetire, number, found, if_pos bound])

/-- Settles O16: each check of the item requests in its order. -/
theorem itemRetireAndRefusals : Obligations.ItemRetireAndRefusals := by
  refine ⟨itemRetire_settles, fun tag item set s awake => ⟨fun wrong => ?_, fun out => ?_, fun low high idle => ?_,
    fun low high fresh => ?_⟩⟩
  · have refused : itemNumberOf item = none ∨ priceSetOf set = none :=
      (or_assoc.2 wrong).imp itemNumberOf_eq_none priceSetOf_eq_none
    constructor
    · refine State.request_refused rfl awake ?_
      simp only [serve, serveItemPut]
      split
      · simp_all
      · rfl
    · refine State.request_refused rfl awake ?_
      simp only [serve, serveItemSetNext]
      split
      · simp_all
      · rfl
  · have number := itemNumberOf_eq_none out
    refine ⟨?_, ?_, ?_⟩
    · exact State.request_refused rfl awake (by simp only [serve, serveItemClearNext, number])
    · exact State.request_refused rfl awake (by simp only [serve, serveItemGet, number])
    · exact State.request_refused rfl awake (by simp only [serve, serveItemRetire, number])
  · have number := itemNumberOf_eq low high
    have checked : ∀ r : Request, (s.collect (r.frame tag)).stagingItem item.toNat = .error .wrongEpochState := fun r =>
      State.stagingItem_steady (s := s.collect _) idle _
    refine ⟨?_, fun ok => ?_⟩
    · exact State.request_refused rfl awake (by simp only [serve, serveItemClearNext, number, checked])
    · obtain ⟨q, stored⟩ := Option.isSome_iff_exists.1 ((priceSetOf_isSome set).2 ok)
      exact State.request_refused rfl awake (by simp only [serve, serveItemSetNext, number, stored, checked])
  · have number := itemNumberOf_eq low high
    have absent : ∀ r : Request, (s.collect (r.frame tag)).itemLookup item.toNat = none := fun r =>
      (State.itemLookup_eq_none (s.collect _) _).2 fresh
    refine ⟨?_, ?_, fun away => ?_⟩
    · exact State.request_refused rfl awake (by simp only [serve, serveItemGet, number, absent])
    · exact State.request_refused rfl awake (by simp only [serve, serveItemRetire, number, absent])
    · have checked : ∀ r : Request, (s.collect (r.frame tag)).stagingItem item.toNat = .error .notFound := fun r =>
        State.stagingItem_absent (s := s.collect _) away (absent r)
      refine ⟨?_, fun ok => ?_⟩
      · exact State.request_refused rfl awake (by simp only [serve, serveItemClearNext, number, checked])
      · obtain ⟨q, stored⟩ := Option.isSome_iff_exists.1 ((priceSetOf_isSome set).2 ok)
        exact State.request_refused rfl awake (by simp only [serve, serveItemSetNext, number, stored, checked])

end Sys2Proof.Machine
end

