-- ==== Sys2Proof/Proofs/StatusRequests.lean ====
section
/-! The status requests (R42, R53, R89, R96, R116, R121): each reports what its owner holds, byte by byte, and changes nothing. -/

namespace Sys2Proof.Machine

/-! ## What the responses spell (R198) -/

theorem holdStateCode_eq (h : HoldState) : holdStateCode h = if h = .held then 1 else 0 := by cases h <;> rfl

theorem radioStateCode_eq (r : RadioState) : radioStateCode r = if r = .running then 1 else 0 := by cases r <;> rfl

/-- The effective priority as R116 states it. -/
theorem State.effectivePriority_eq (s : State) (z : ZoneNo) : s.effectivePriority z
    = if (s.zone z).boost = true ∧ 1 ≤ (s.zone z).priority.val ∧ (s.zone z).priority.val ≤ 4 ∧ s.queueOwesShown z = true then 5
      else (s.zone z).priority.val := by
  simp only [State.effectivePriority, Bool.and_eq_true, decide_eq_true_eq, and_assoc]

/-- A zone number in range names its zone (R121). -/
theorem zoneOf_eq {zone : Byte} {z : ZoneNo} (named : z.val = zone.toNat) : zoneOf zone = some z := by
  rw [zoneOf, if_pos (by omega), Fin.ofNat_eq_of_val named]

theorem zoneOf_eq_none {zone : Byte} (out : 63 < zone.toNat) : zoneOf zone = none := if_neg (by omega)

/-- The four lanes as RADIO_STATUS lists them: entries held and partition of an active lane, 0 and 0 of another (R96). -/
theorem State.laneBytes_eq (s : State) : (List.finRange 4).flatMap (fun lane =>
      leBytes 1 (if s.laneActive lane then s.laneEntries lane else 0) ++ leBytes 1 (if s.laneActive lane then s.partition else 0))
    = ([0, 1, 2, 3] : List Lane).flatMap fun lane =>
        if lane.val < s.radio.config.lanes.count then
          leBytes 1 (s.entries.countP fun e => e.lane == lane) ++ leBytes 1 (64 / s.radio.config.lanes.count)
        else ([0, 0] : List Byte) := by
  rw [show List.finRange 4 = ([0, 1, 2, 3] : List Lane) by decide]
  congr 1
  funext lane
  by_cases active : lane.val < s.radio.config.lanes.count
  · simp [State.laneActive, State.laneEntries, State.partition, Config.inFlightCapacity, active]
  · simp [State.laneActive, active, leBytes]

/-! ## The requests -/

section
variable {s : State}

theorem serveItemGet_eq (tables : s.TablesLaw) {item : BitVec 32} {k : Nat} {x : Item} (here : s.item k = some x)
    (named : x.number = item.toNat) : serveItemGet item s = s.accept (leBytes 2 k ++ leBytes 4 x.number ++ x.current.bytes
      ++ optGroup 17 (x.next.map PriceSet.bytes) ++ leBytes 2 x.bound) := by
  simp only [serveItemGet, tables.itemNumberOf_eq here named, tables.itemLookup_eq here named]

theorem serveTemplateGet_eq {id : Byte} {t : Template} (inRange : id.toNat ≤ 31) (stored : s.templates.find id.toNat = some t) :
    serveTemplateGet id s = s.accept ([id] ++ leBytes 1 t.length ++ leBytes 6 t.mask.toNat ++ leBytes 1 t.fields.length
      ++ t.fields.flatMap Field.bytes) := by
  simp only [serveTemplateGet, if_neg (show ¬id.toNat > 31 by omega), stored]

theorem serveTemplateGet_refused (id : Byte) : (31 < id.toNat → serveTemplateGet id s = s.refuse .badValue)
    ∧ (id.toNat ≤ 31 → s.templates.find id.toNat = none → serveTemplateGet id s = s.refuse .notFound) := by
  refine ⟨fun out => if_pos out, fun inRange free => ?_⟩
  simp only [serveTemplateGet, if_neg (show ¬id.toNat > 31 by omega), free]

theorem serveZoneGet_eq {zone : Byte} {z : ZoneNo} (named : z.val = zone.toNat) : serveZoneGet zone s
    = s.accept ([zone] ++ leBytes 1 (s.zone z).priority.val ++ leBytes 1 (s.effectivePriority z) ++ [flagByte (s.zone z).boost]
      ++ leBytes 1 (s.zone z).reload ++ leBytes 1 (s.zone z).counter ++ [flagByte (s.zone z).promoted]
      ++ [holdStateCode (s.zone z).hold] ++ leBytes 2 (s.zone z).budget ++ leBytes 1 (s.zone z).idle ++ optFrame (s.zone z).holdStart
      ++ (s.zone z).counts.bytes) := by
  simp only [serveZoneGet, zoneOf_eq named]

end

/-- Settles O53: each response is the one its owner composes, its codes and groups spelled out. -/
theorem statusRequestsReport : Obligations.StatusRequestsReport := by
  intro tag s awake laws
  refine ⟨fun item k x here named => ?_, fun id t inRange stored => ?_, fun id => ⟨fun out => ?_, fun inRange free => ?_⟩,
    fun zone out => ?_, fun zone z named => ?_, ?_, ?_⟩
  · refine State.request_answered rfl awake ((serveItemGet_eq (laws.collect _).tables here named).trans ?_)
    cases x.next <;> rfl
  · exact State.request_answered rfl awake (serveTemplateGet_eq (s := s.collect _) inRange stored)
  · exact State.request_refused rfl awake ((serveTemplateGet_refused id).1 out)
  · exact State.request_refused rfl awake ((serveTemplateGet_refused (s := s.collect _) id).2 inRange free)
  · exact State.request_refused rfl awake (by simp only [serve, serveZoneGet, zoneOf_eq_none out])
  · refine State.request_answered rfl awake ((serveZoneGet_eq (s := s.collect _) named).trans ?_)
    rw [State.effectivePriority_eq, holdStateCode_eq]
    simp only [Counts.bytes, List.append_assoc]
    rfl
  · refine State.request_answered rfl awake ?_
    rw [serve, serveEpochStatus, show (s.collect (Request.epochStatus.frame tag)).epoch = s.epoch from rfl]
    cases s.epoch.state <;> rfl
  · refine State.request_answered rfl awake ?_
    simp only [serve, serveRadioStatus, State.laneBytes_eq, radioStateCode_eq]
    simp only [RadioConfig.bytes, List.append_assoc]
    rfl

end Sys2Proof.Machine
end

