-- ==== Sys2Proof/Proofs/TemplateLoads.lean ====
section
/-! TEMPLATE_LOAD (R47 to R51): the record checks, the fields checked one after another, and what an accepted load leaves. -/

namespace Sys2Proof.Machine

/-! ## The record-level checks (R48) -/

/-- A mask includes no byte at or beyond the page length exactly when nothing is left of it once the page's bytes are shifted out. -/
theorem mask_ushiftRight_eq_zero (mask : BitVec 48) (n : Nat) :
    mask >>> n = 0 ↔ ∀ k : Fin 48, n ≤ k.val → mask.getLsbD k.val = false := by
  constructor
  · intro none k beyond
    have bit := congrArg (fun m => m.getLsbD (k.val - n)) none
    simpa [BitVec.getLsbD_ushiftRight, Nat.add_sub_cancel' beyond] using bit
  · intro none
    refine BitVec.eq_of_getLsbD_eq fun i _ => ?_
    rw [BitVec.getLsbD_ushiftRight]
    by_cases inside : n + i < 48
    · simpa using none ⟨n + i, inside⟩ (Nat.le_add_right n i)
    · simpa using BitVec.getLsbD_of_ge mask (n + i) (by omega)

/-- A mask includes some byte exactly when it is not 0. -/
theorem mask_ne_zero (mask : BitVec 48) : mask ≠ 0 ↔ ∃ k : Fin 48, mask.getLsbD k.val = true := by
  have zero := mask_ushiftRight_eq_zero mask 0
  rw [BitVec.ushiftRight_zero] at zero
  rw [Ne, zero]
  simp

/-- The record-level checks are those of R48's table. -/
theorem recordOk_iff (b : TemplateWords) : recordOk b = true ↔ TemplateWordsOk b := by
  simp only [recordOk, TemplateWordsOk, Bool.and_eq_true, decide_eq_true_eq, bne_iff_ne, beq_iff_eq, mask_ne_zero,
    mask_ushiftRight_eq_zero, and_assoc]

/-! ## One field entry (R47, R49) -/

/-- A field kind is named by its code alone (R198). -/
theorem fieldKindOf_eq_some {b : Byte} {kind : FieldKind} : fieldKindOf b = some kind ↔ kind.code = b := by
  constructor
  · intro named
    unfold fieldKindOf at named
    split at named <;> cases named <;> exact BitVec.eq_of_toNat_eq (Eq.symm ‹_›)
  · rintro rfl
    cases kind <;> rfl

/-- The entry that a written field of a kind is stored as, the digit counts of an INDICATOR as 2 and 2 (R47). -/
def Field.ofWords (kind : FieldKind) (w : FieldWords) : Field :=
  ⟨kind, w.offset.toNat, if kind = .indicator then 2 else w.digits.toNat, if kind = .indicator then 2 else w.minimum.toNat⟩

/-- A stored field holds a written one exactly when it is what R47 stores of it. -/
theorem Field.holds_iff (g : Field) (w : FieldWords) :
    g.Holds w ↔ ∃ kind, fieldKindOf w.kind = some kind ∧ Field.ofWords kind w = g := by
  obtain ⟨kind, offset, digits, minimum⟩ := g
  simp only [Field.Holds, fieldKindOf_eq_some, Field.ofWords, Field.mk.injEq]
  constructor
  · rintro ⟨code, rfl, counts⟩
    refine ⟨kind, code, rfl, rfl, ?_⟩
    split at counts <;> simp_all
  · rintro ⟨_, code, rfl, rfl, rfl, rfl⟩
    refine ⟨code, rfl, ?_⟩
    split <;> exact ⟨rfl, rfl⟩

/-- An INDICATOR that holds a written field has two places (R47). -/
theorem Field.Holds.indicator {g : Field} {w : FieldWords} (holds : g.Holds w) (is : g.kind = .indicator) : g.digits = 2 := by
  obtain ⟨-, -, counts⟩ := holds
  rw [if_pos is] at counts
  exact counts.1

section
variable {length : Nat} {before : List Field}

/-- Fields that fit, and one more behind them. -/
theorem fieldsFit_append_singleton {f : Field} : FieldsFit length (before ++ [f]) ↔ FieldsFit length before
    ∧ (1 ≤ f.minimum ∧ f.minimum ≤ f.digits ∧ f.digits ≤ 10 ∧ f.offset % 4 = 0 ∧ f.offset + 4 * f.digits ≤ 8 * length)
    ∧ ∀ g ∈ before, g.Apart f := by
  simp only [FieldsFit, List.forall_mem_append, List.forall_mem_singleton, List.pairwise_append, List.pairwise_singleton, true_and]
  tauto

/-- Fields that fit still do without the last of them. -/
theorem FieldsFit.of_append {rest : List Field} (fit : FieldsFit length (before ++ rest)) : FieldsFit length before :=
  ⟨fun f member => fit.1 f (List.mem_append_left _ member), (List.pairwise_append.1 fit.2).1⟩

/-- The checks of R49 read the stored entry alone, once its kind is named. -/
theorem checkField_of_kind {w : FieldWords} {kind : FieldKind} {f : Field} (named : fieldKindOf w.kind = some kind)
    (stored : Field.ofWords kind w = f) :
    checkField length before w =
      if f.digits = 0 ∨ f.digits > 10 then none
      else if f.minimum = 0 ∨ f.minimum > f.digits then none
      else if f.offset % 4 ≠ 0 then none
      else if f.offset + 4 * f.digits > 8 * length then none
      else if before.any (fun g => spansMeet f.offset (4 * f.digits) g.offset (fieldWidth g.kind g.digits)) then none
      else some f := by
  subst stored
  rw [← fieldWidth_eq kind (Field.ofWords kind w).digits fun is => if_pos is, checkField, named]
  rfl

/-- A field entry passes R49's checks exactly when the stored entry fits behind the fields before it. -/
theorem checkField_eq_some {w : FieldWords} {f : Field} (two : ∀ g ∈ before, g.kind = .indicator → g.digits = 2)
    (fit : FieldsFit length before) :
    checkField length before w = some f ↔ f.Holds w ∧ FieldsFit length (before ++ [f]) := by
  rw [Field.holds_iff, fieldsFit_append_singleton]
  cases named : fieldKindOf w.kind with
  | none => simp [checkField, named]
  | some kind =>
    obtain ⟨g, stored⟩ : ∃ g, Field.ofWords kind w = g := ⟨_, rfl⟩
    have meet : before.any (fun h => spansMeet g.offset (4 * g.digits) h.offset (fieldWidth h.kind h.digits)) = true
        ↔ ¬∀ h ∈ before, h.Apart g := by
      simp only [List.any_eq_true, not_forall, spansMeet, Bool.and_eq_true, decide_eq_true_eq, Field.Apart, exists_prop]
      refine exists_congr fun h => and_congr_right fun member => ?_
      rw [fieldWidth_eq _ _ (two h member)]
      omega
    rw [checkField_of_kind named stored]
    simp only [Option.ite_none_left_eq_some, meet, Option.some.injEq, exists_eq_left', not_not, stored]
    constructor
    · rintro ⟨digits, minimum, aligned, inside, apart, rfl⟩
      exact ⟨rfl, fit, ⟨by omega, by omega, by omega, aligned, by omega⟩, apart⟩
    · rintro ⟨rfl, -, ⟨low, minimum, digits, aligned, inside⟩, apart⟩
      exact ⟨by omega, by omega, aligned, by omega, apart, rfl⟩

/-! ## The fields of a load (R49) -/

/-- The fields of a load all pass exactly when what R47 stores of them fits behind the fields before them. -/
theorem checkFields_eq_ok (words : List FieldWords) (fields : List Field)
    (two : ∀ g ∈ before, g.kind = .indicator → g.digits = 2) (fit : FieldsFit length before) :
    checkFields length before words = .ok fields
      ↔ ∃ added, before ++ added = fields ∧ List.Forall₂ Field.Holds added words ∧ FieldsFit length fields := by
  induction words generalizing before with
  | nil =>
    simp only [checkFields, Except.ok.injEq, List.forall₂_nil_right_iff]
    constructor
    · rintro rfl
      exact ⟨[], List.append_nil _, rfl, fit⟩
    · rintro ⟨-, rfl, rfl, -⟩
      exact (List.append_nil _).symm
  | cons w words ih =>
    have later : ∀ f, f.Holds w → FieldsFit length (before ++ [f]) →
        (checkFields length (before ++ [f]) words = .ok fields
          ↔ ∃ added, before ++ [f] ++ added = fields ∧ List.Forall₂ Field.Holds added words ∧ FieldsFit length fields) :=
      fun f holds fit' => ih (fun g member => (List.mem_append.1 member).elim (two g) fun last =>
        List.mem_singleton.1 last ▸ holds.indicator) fit'
    constructor
    · intro passed
      rw [checkFields] at passed
      split at passed
      · contradiction
      rename_i f one
      obtain ⟨holds, fit'⟩ := (checkField_eq_some two fit).1 one
      obtain ⟨added, rfl, rest, all⟩ := (later f holds fit').1 passed
      exact ⟨f :: added, by simp, .cons holds rest, all⟩
    · rintro ⟨_, rfl, both, all⟩
      obtain ⟨f, added, holds, rest, rfl⟩ := List.forall₂_cons_right_iff.1 both
      rw [List.append_cons] at all
      have fit' : FieldsFit length (before ++ [f]) := all.of_append
      rw [checkFields, (checkField_eq_some two fit).2 ⟨holds, fit'⟩]
      exact (later f holds fit').2 ⟨added, (List.append_cons ..).symm, rest, by rwa [List.append_cons]⟩

/-- The index reported is that of the first field that fails: those before it pass, and with it they do not. -/
theorem checkFields_eq_error (words : List FieldWords) (index : Nat) (failed : checkFields length before words = .error index) :
    ∃ i, i < words.length ∧ index = before.length + i ∧ (∃ fields, checkFields length before (words.take i) = .ok fields)
      ∧ ¬∃ fields, checkFields length before (words.take (i + 1)) = .ok fields := by
  induction words generalizing before with
  | nil => contradiction
  | cons w words ih =>
    cases one : checkField length before w with
    | none =>
      simp only [checkFields, one, Except.error.injEq] at failed
      exact ⟨0, Nat.succ_pos _, failed.symm, ⟨before, rfl⟩, by simp [checkFields, one]⟩
    | some f =>
      simp only [checkFields, one] at failed
      obtain ⟨i, inside, rfl, passed, stopped⟩ := ih failed
      refine ⟨i + 1, Nat.succ_lt_succ inside, by simp; omega, ?_, ?_⟩
      · simpa only [List.take_succ_cons, checkFields, one] using passed
      · simpa only [List.take_succ_cons, checkFields, one] using stopped

end

/-- The fields of a load pass exactly when what R47 stores of them fits the page (R49). -/
theorem checkFields_nil_eq_ok (length : Nat) (words : List FieldWords) (fields : List Field) :
    checkFields length [] words = .ok fields ↔ List.Forall₂ Field.Holds fields words ∧ FieldsFit length fields := by
  rw [checkFields_eq_ok words fields (by simp) ⟨by simp, .nil⟩]
  simp

/-- A report of staged work moves no template. -/
theorem State.reportStaged_templates (s before : State) : (s.reportStaged before).templates = s.templates := by
  rw [State.reportStaged_eq]
  split <;> rfl

/-! ## What a load comes to (R48 to R51) -/

section
variable {s : State} {tag : Byte} {b : TemplateWords}

/-- A record that fails a check of R48. -/
theorem serveTemplateLoad_badValue (wrong : ¬TemplateWordsOk b) : serveTemplateLoad b s = s.refuse .badValue := by
  rw [serveTemplateLoad, Bool.eq_false_iff.2 (wrong ∘ (recordOk_iff b).1)]
  rfl

/-- A field that fails a check of R49. -/
theorem serveTemplateLoad_layoutBad (ok : TemplateWordsOk b) {i : Nat} (failed : checkFields b.length.toNat [] b.fields = .error i) :
    serveTemplateLoad b s = ⟨some (.layoutBad, leBytes 1 i), s⟩ := by
  rw [serveTemplateLoad, (recordOk_iff b).2 ok, failed]
  rfl

section
variable {fields : List Field}

/-- A first load defines the slot (R50). -/
theorem serveTemplateLoad_defines (ok : TemplateWordsOk b) (passed : checkFields b.length.toNat [] b.fields = .ok fields)
    (free : s.templates.find b.id.toNat = none) : serveTemplateLoad b s
      = (s.setTemplates (s.templates.put b.id.toNat ⟨b.length.toNat, b.mask, fields⟩)).accept [1, 0, 0] := by
  simp only [serveTemplateLoad, (recordOk_iff b).2 ok, passed, free]
  rfl

/-- An equal load changes nothing (R50). -/
theorem serveTemplateLoad_same (ok : TemplateWordsOk b) (passed : checkFields b.length.toNat [] b.fields = .ok fields)
    (stored : s.templates.find b.id.toNat = some ⟨b.length.toNat, b.mask, fields⟩) : serveTemplateLoad b s = s.accept [0, 0, 0] := by
  simp only [serveTemplateLoad, (recordOk_iff b).2 ok, passed, stored]
  rfl

/-- A reload replaces the record and marks the labels that use it (R50, R51). -/
theorem serveTemplateLoad_reloads (ok : TemplateWordsOk b) (passed : checkFields b.length.toNat [] b.fields = .ok fields)
    {old : Template} (stored : s.templates.find b.id.toNat = some old) (differ : old ≠ ⟨b.length.toNat, b.mask, fields⟩) :
    serveTemplateLoad b s
      = (((s.setTemplates (s.templates.put b.id.toNat ⟨b.length.toNat, b.mask, fields⟩)).markTemplate
          (Fin.ofNat 32 b.id.toNat)).reportStaged s).accept (1 :: leBytes 2 (s.templateUsers (Fin.ofNat 32 b.id.toNat))) := by
  simp only [serveTemplateLoad, (recordOk_iff b).2 ok, passed, stored, if_neg differ]
  rfl

/-- Whatever the slot held, an accepted load leaves the record in it and answers OK (R50). -/
theorem serveTemplateLoad_stores (ok : TemplateWordsOk b) (passed : checkFields b.length.toNat [] b.fields = .ok fields) :
    (∃ body, (serveTemplateLoad b s).reply = some (.ok, body))
      ∧ (serveTemplateLoad b s).state.templates.find b.id.toNat = some ⟨b.length.toNat, b.mask, fields⟩ := by
  have put := (Table.find_put s.templates b.id.toNat b.id.toNat ⟨b.length.toNat, b.mask, fields⟩).trans (if_pos rfl)
  cases stored : s.templates.find b.id.toNat with
  | none =>
    rw [serveTemplateLoad_defines ok passed stored]
    exact ⟨⟨_, rfl⟩, put⟩
  | some old =>
    by_cases same : old = ⟨b.length.toNat, b.mask, fields⟩
    · subst same
      rw [serveTemplateLoad_same ok passed stored]
      exact ⟨⟨_, rfl⟩, stored⟩
    · rw [serveTemplateLoad_reloads ok passed stored same]
      refine ⟨⟨_, rfl⟩, ?_⟩
      show ((State.markTemplate _ _).reportStaged s).templates.find _ = _
      rw [State.reportStaged_templates, State.markTemplate, (State.updateLabels_same _ _ _).templates]
      exact put

end

/-- A template's number read as a label's template (R46). -/
theorem template_eq_ofNat {id : Byte} (inRange : id.toNat ≤ 31) (t : Fin 32) : (t == Fin.ofNat 32 id.toNat) = (t.val == id.toNat) := by
  rw [Bool.eq_iff_iff, beq_iff_eq, beq_iff_eq, Fin.ext_iff, Fin.val_ofNat, Nat.mod_eq_of_lt (by omega)]

/-- A record put in a slot, and every label that uses it marked (R51). -/
theorem State.Laws.marksTemplate (laws : s.Laws) {id : Byte} (inRange : id.toNat ≤ 31) {record : Template} (valid : record.Valid) :
    let s' := s.setTemplates (s.templates.put id.toNat record)
    let t := (s'.markTemplate (Fin.ofNat 32 id.toNat)).reportStaged s
    (∀ j, t.label j = (s.label j).map fun l => if l.template.val = id.toNat then l.marked true (s.needsStagedSide j l) else l)
      ∧ s'.Follows t ∧ t = t.withRecords s' := by
  intro s' t
  have tables : s'.TablesLaw := (Edit.template (by omega) valid).tables laws.tables
  obtain ⟨label, follows, beside⟩ := State.updateLabels_report (s := s') (before := s)
    (test := fun _ l => l.template == Fin.ofNat 32 id.toNat) (change := fun j l => l.mark true (s'.meetsStagedRule j l))
    tables laws.queue laws.counts laws.bound rfl laws.owed (fun _ l u => l.mark_kept true _ u)
    fun _ l staged => by simp [Needs.union, staged]
  refine ⟨fun j => (label j).trans ?_, follows, beside⟩
  refine Option.map_congr fun l there => ?_
  have rule : s'.meetsStagedRule j l = s.needsStagedSide j l := laws.meetsStagedRule_eq there rfl
  simp only [template_eq_ofNat inRange, beq_iff_eq, rule, Label.mark_eq_marked]

end

/-- Settles O24, by whether the slot is free, holds the record already, or holds another. -/
theorem templateLoadStores : Obligations.TemplateLoadStores := by
  rintro tag b ⟨length, mask, fields⟩ s awake laws ok rfl rfl holds fit
  have passed := (checkFields_nil_eq_ok b.length.toNat b.fields fields).2 ⟨holds, fit⟩
  obtain ⟨-, valid⟩ := stored_valid b fields ((recordOk_iff b).2 ok) passed
  refine ⟨fun free => ?_, fun same => ?_, fun old stored differ => ?_⟩
  · exact State.request_accepted rfl awake (serveTemplateLoad_defines (s := s.collect _) ok passed free)
  · exact State.request_answered rfl awake (serveTemplateLoad_same (s := s.collect _) ok passed same)
  · have users : s.templateUsers (Fin.ofNat 32 b.id.toNat) = s.labels.countP fun kl => kl.2.template.val == b.id.toNat := by
      simp only [State.templateUsers, template_eq_ofNat ok.1]
    rw [← users]
    exact State.request_rewrites rfl awake (serveTemplateLoad_reloads (s := s.collect _) ok passed stored differ)
      ((laws.collect _).marksTemplate ok.1 valid)

/-- Settles O25: the checks of R48, then the first field that fails, or what an accepted load stores. -/
theorem templateFieldsCheckedInOrder : Obligations.TemplateFieldsCheckedInOrder := by
  intro tag b s awake
  refine ⟨fun wrong => State.request_refused rfl awake (serveTemplateLoad_badValue wrong), fun ok => ?_⟩
  have taken : exec (.templateLoad tag b) s
      = .next ((serveTemplateLoad b (s.collect ((Request.templateLoad b).frame tag))).held tag) := by
    rw [exec_request (r := .templateLoad b) rfl, State.gatewayTake_eq _ _ _ _ awake]
    rfl
  rw [taken]
  cases checked : checkFields b.length.toNat [] b.fields with
  | error i =>
    obtain ⟨j, inside, same, passed, stopped⟩ := checkFields_eq_error b.fields i checked
    simp only [checkFields_nil_eq_ok] at passed stopped
    obtain rfl : i = j := by simpa using same
    exact .inr ⟨i, inside, passed, stopped, by rw [serveTemplateLoad_layoutBad ok checked]; rfl⟩
  | ok fields =>
    obtain ⟨holds, fit⟩ := (checkFields_nil_eq_ok _ _ _).1 checked
    obtain ⟨⟨body, reply⟩, stored⟩ := serveTemplateLoad_stores (s := s.collect ((Request.templateLoad b).frame tag)) ok checked
    refine .inl ⟨fields, holds, fit, _, rfl, ?_⟩
    rw [Served.held, reply]
    exact stored

end Sys2Proof.Machine
end

