-- ==== Sys2Proof/Proofs/Rendering.lean ====
section
/-! The Page Renderer (sections 3.4 to 3.8): what a field shows, what its places hold, the places and bytes of a page, the page check. -/

namespace Sys2Proof.Machine

/-! ## The values that fields show (R60 to R63) -/

section
variable {p : PriceSet}

/-- The promotion condition holds of a promo whose old price is above the price (R61). -/
theorem PriceSet.promotion_of_lt {o : Nat} (promo : p.promo = true) (old : p.old = some o) (above : p.price < o) :
    p.promotion = true := by
  simp [PriceSet.promotion, promo, old, above]

/-- The promotion condition fails where one of its three parts does (R61). -/
theorem PriceSet.promotion_eq_false (fails : p.promo = false ∨ p.old = none ∨ ∃ o, p.old = some o ∧ o ≤ p.price) :
    p.promotion = false := by
  rcases fails with promo | old | ⟨o, old, above⟩
  · simp [PriceSet.promotion, promo]
  · simp [PriceSet.promotion, old]
  · simp [PriceSet.promotion, old, above]

/-- The unit price is the rounded value of R62. -/
theorem fieldValue_unitPrice (number : Nat) {q : Nat} (quantity : p.quantity = some q) :
    fieldValue number p .unitPrice = some ((2 * p.price * p.basis.units + q) / (2 * q)) := by
  simp [fieldValue, quantity]

/-- Under the promotion condition the old price is shown (R61). -/
theorem fieldValue_oldPrice (number : Nat) {o : Nat} (promotion : p.promotion = true) (old : p.old = some o) :
    fieldValue number p .oldPrice = some o := by
  simp [fieldValue, promotion, old]

/-- Under the promotion condition the saving is shown, unless it is 0 (R63). -/
theorem fieldValue_savePct (number : Nat) {o : Nat} (promotion : p.promotion = true) (old : p.old = some o) :
    fieldValue number p .savePct = if (o - p.price) * 100 / o = 0 then none else some ((o - p.price) * 100 / o) := by
  simp [fieldValue, promotion, old]

/-- Without the promotion condition both fields are blank (R59). -/
theorem fieldValue_no_promotion (number : Nat) (promotion : p.promotion = false) :
    fieldValue number p .oldPrice = none ∧ fieldValue number p .savePct = none := by
  simp [fieldValue, promotion]

end

/-- Settles O27, field kind by field kind. -/
theorem renderedValues : Obligations.RenderedValues := by
  intro number p
  refine ⟨fun q quantity positive => ⟨_, fieldValue_unitPrice number quantity, Nat.mul_div_le _ _, ?_⟩, fun absent => ?_, rfl, rfl,
    fun o promo old above => ?_, fun fails => fieldValue_no_promotion number (PriceSet.promotion_eq_false fails)⟩
  · exact Nat.lt_mul_div_succ _ (by omega)
  · simp [fieldValue, absent]
  · have promotion := PriceSet.promotion_of_lt promo old above
    refine ⟨fieldValue_oldPrice number promotion old, fun v positive low high => ?_, fun small => ?_⟩
    · rw [fieldValue_savePct number promotion old, Nat.div_eq_of_lt_le low high, if_neg (by omega)]
      refine ⟨rfl, Nat.le_of_mul_le_mul_right (Nat.le_trans low ?_) (by omega : 0 < o)⟩
      omega
    · rw [fieldValue_savePct number promotion old, if_pos (Nat.div_eq_of_lt small)]

/-! ## The places of a numeric field (R58, R59) -/

section
variable {d m v : Nat}

@[simp] theorem length_digitPlaces : (digitPlaces d m v).length = d := by simp [digitPlaces]

/-- The place at an index: blank above the lowest `m` places while only zeros stand there and above, its digit otherwise (R58). -/
theorem getElem?_digitPlaces {i : Nat} (inside : i < d) : (digitPlaces d m v)[i]?
    = some (if v / 10 ^ (d - 1 - i) = 0 ∧ i + m < d then blankPlace else BitVec.ofNat 4 (v / 10 ^ (d - 1 - i) % 10)) := by
  simp [digitPlaces, inside]

/-- The code of a digit is the digit (R58). -/
theorem toNat_digit (n : Nat) : (BitVec.ofNat 4 (n % 10)).toNat = n % 10 := by
  rw [BitVec.toNat_ofNat]
  omega

/-- No digit has the blank code (R58). -/
theorem digit_ne_blank (n : Nat) : BitVec.ofNat 4 (n % 10) ≠ 0xF#4 := by
  intro same
  have digit : n % 10 = 15 := (toNat_digit n).symm.trans (congrArg BitVec.toNat same)
  omega

/-- The number a place stands for, a blank as 0. -/
def placeValue (p : BitVec 4) : Nat := if p = 0xF#4 then 0 else p.toNat

/-- Blank or not, a place stands for its digit. -/
theorem placeValue_digit (n : Nat) (blank : Prop) [Decidable blank] :
    placeValue (if n = 0 ∧ blank then blankPlace else BitVec.ofNat 4 (n % 10)) = n % 10 := by
  split
  · rename_i both
    rw [both.1]
    rfl
  · rw [placeValue, if_neg (digit_ne_blank n), toNat_digit]

/-- The first `n` places read as a number are the value without its lowest `d - n` digits. -/
theorem foldl_digitPlaces (n : Nat) (inside : n ≤ d) (fits : v < 10 ^ d) :
    ((digitPlaces d m v).take n).foldl (fun n p => 10 * n + placeValue p) 0 = v / 10 ^ (d - n) := by
  induction n with
  | zero => simpa using (Nat.div_eq_of_lt fits).symm
  | succ n ih =>
    have next : d - n = d - 1 - n + 1 := by omega
    rw [List.take_add_one, getElem?_digitPlaces inside, List.foldl_append, ih (by omega), Option.toList_some, List.foldl_cons,
      List.foldl_nil, placeValue_digit, next, pow_succ, ← Nat.div_div_eq_div_mul, show d - (n + 1) = d - 1 - n by omega]
    exact Nat.div_add_mod _ 10

end

section
variable {f : Field} {v : Nat}

/-- An overflowing value fills every place with dashes (R58). -/
theorem numericPlaces_overflow (large : 10 ^ f.digits ≤ v) : numericPlaces f (some v) = List.replicate f.digits dashPlace :=
  if_pos large

/-- A value that fits is written in its digits (R58). -/
theorem numericPlaces_fits (fits : v < 10 ^ f.digits) : numericPlaces f (some v) = digitPlaces f.digits f.minimum v :=
  if_neg (by omega)

@[simp] theorem length_numericPlaces (f : Field) (v : Option Nat) : (numericPlaces f v).length = f.digits := by
  unfold numericPlaces
  split
  · simp
  · split <;> simp

end

/-- Settles O26: a value that does not fit by its dashes, one that fits place by place. -/
theorem numericFieldsSpellTheirValues : Obligations.NumericFieldsSpellTheirValues := by
  intro f low minimum digits
  refine ⟨rfl, rfl, fun v => ⟨fun large => ⟨numericPlaces_overflow large, by simpa [overflows] using large⟩, fun fits => ?_⟩⟩
  rw [numericPlaces_fits fits]
  refine ⟨by simpa [overflows] using fits, length_digitPlaces, ?_, fun i p place => ?_⟩
  · have all := foldl_digitPlaces (m := f.minimum) f.digits (Nat.le_refl _) fits
    rwa [List.take_of_length_le (by simp), Nat.sub_self, pow_zero, Nat.div_one] at all
  · have inside : i < f.digits := by simpa using (List.getElem?_eq_some_iff.1 place).1
    rw [getElem?_digitPlaces inside] at place
    obtain rfl := Option.some.inj place
    have above : i < f.digits - f.minimum ↔ i + f.minimum < f.digits := by omega
    rw [above, and_comm (a := i + f.minimum < f.digits)]
    split
    · rename_i blank
      exact ⟨.inr rfl, iff_of_true rfl blank⟩
    · rename_i shown
      exact ⟨.inl (by rw [toNat_digit]; omega), iff_of_false (digit_ne_blank _) shown⟩

/-! ## Places written into a page (R57) -/

section
variable {page places : List (BitVec 4)} {start : Nat}

@[simp] theorem length_writePlaces (inside : start + places.length ≤ page.length) :
    (writePlaces page start places).length = page.length := by
  simp only [writePlaces, List.length_append, List.length_take, List.length_drop]
  omega

/-- A place written reads as what was written. -/
theorem getElem?_writePlaces_inside (inside : start + places.length ≤ page.length) {i : Nat} (here : i < places.length) :
    (writePlaces page start places)[start + i]? = places[i]? := by
  have before : (page.take start).length = start := List.length_take_of_le (by omega)
  rw [writePlaces, List.append_assoc, List.getElem?_append_right (by omega), before, Nat.add_sub_cancel_left,
    List.getElem?_append_left here]

/-- Every other place stays as it was. -/
theorem getElem?_writePlaces_outside (inside : start + places.length ≤ page.length) {j : Nat}
    (outside : j < start ∨ start + places.length ≤ j) : (writePlaces page start places)[j]? = page[j]? := by
  have before : (page.take start).length = start := List.length_take_of_le (by omega)
  rw [writePlaces, List.append_assoc]
  rcases outside with below | above
  · rw [List.getElem?_append_left (by omega), List.getElem?_take_of_lt below]
  · rw [List.getElem?_append_right (by omega), List.getElem?_append_right (by omega), List.getElem?_drop, before]
    congr 1
    omega

end

/-! ## Fields written into a page (R56, R57) -/

/-- Fields written into a page one after another, each at its own places. -/
def writeFields (T : Template) (content : Option (Nat × PriceSet)) (fields : List Field) (page : List (BitVec 4)) : List (BitVec 4) :=
  fields.foldl (fun page f => writePlaces page (f.offset / 4) (fieldPlaces T content f)) page

/-- The fields of a template in the order in which a page takes them: the numeric ones, then the INDICATOR ones (R56). -/
def Template.writeOrder (T : Template) : List Field :=
  (T.fields.filter fun f => f.kind != .indicator) ++ T.fields.filter fun f => f.kind == .indicator

/-- A page is all ones, then the fields in the order of writing (R56). -/
theorem pagePlaces_eq (T : Template) (content : Option (Nat × PriceSet)) :
    pagePlaces T content = writeFields T content T.writeOrder (List.replicate (2 * T.length) blankPlace) := by
  rw [writeFields, Template.writeOrder, List.foldl_append]
  rfl

/-- The order of writing lists the template's fields. -/
theorem Template.writeOrder_perm (T : Template) : T.writeOrder.Perm T.fields :=
  List.perm_append_comm.trans (List.filter_append_perm (fun f => f.kind == .indicator) T.fields)

section
variable {T : Template} {content : Option (Nat × PriceSet)}

/-- A field has as many places as it has digits (R47). -/
theorem length_fieldPlaces {f : Field} (two : f.kind = .indicator → f.digits = 2) : (fieldPlaces T content f).length = f.digits := by
  unfold fieldPlaces
  split <;> split
  · exact (two ‹_›).symm
  · exact List.length_replicate
  · exact (two ‹_›).symm
  · exact length_numericPlaces _ _

/-- Fields that fit the page and share no bit, written one after another: the length of the page, what each field's places hold, and
that every other place stays. -/
theorem writeFields_spec {length : Nat} (fields : List Field) (page : List (BitVec 4)) (size : page.length = 2 * length)
    (fits : ∀ f ∈ fields, f.Fits length) (apart : fields.Pairwise Field.Apart) :
    (writeFields T content fields page).length = 2 * length
      ∧ (∀ f ∈ fields, ∀ i, i < f.digits → (writeFields T content fields page)[f.offset / 4 + i]? = (fieldPlaces T content f)[i]?)
      ∧ ∀ j, (∀ f ∈ fields, j < f.offset / 4 ∨ f.offset / 4 + f.digits ≤ j) → (writeFields T content fields page)[j]? = page[j]? := by
  induction fields generalizing page with
  | nil => exact ⟨size, by simp, fun _ _ => rfl⟩
  | cons f fields ih =>
    obtain ⟨-, -, -, two, aligned, inside⟩ := fits f List.mem_cons_self
    rw [List.pairwise_cons] at apart
    have width : (fieldPlaces T content f).length = f.digits := length_fieldPlaces fun is => (two is).1
    have room : f.offset / 4 + (fieldPlaces T content f).length ≤ page.length := by omega
    obtain ⟨length', held, others⟩ := ih (writePlaces page (f.offset / 4) (fieldPlaces T content f))
      ((length_writePlaces room).trans size) (fun g member => fits g (List.mem_cons_of_mem _ member)) apart.2
    rw [show writeFields T content (f :: fields) page
      = writeFields T content fields (writePlaces page (f.offset / 4) (fieldPlaces T content f)) from rfl]
    refine ⟨length', fun g member i below => ?_, fun j outside => ?_⟩
    · rcases List.mem_cons.1 member with rfl | later
      · rw [others _ fun h member => ?_, getElem?_writePlaces_inside room (by omega)]
        have := apart.1 h member
        obtain ⟨-, -, -, -, aligned', -⟩ := fits h (List.mem_cons_of_mem _ member)
        omega
      · exact held g later i below
    · rw [others j fun g member => outside g (List.mem_cons_of_mem _ member), getElem?_writePlaces_outside room]
      rw [width]
      exact outside f List.mem_cons_self

/-! ## The places of a page (R56, R66) -/

/-- The places of a page of a valid template. -/
theorem pagePlaces_spec (valid : T.Valid) : (pagePlaces T content).length = 2 * T.length
    ∧ (∀ f ∈ T.fields, ∀ i, i < f.digits → (pagePlaces T content)[f.offset / 4 + i]? = (fieldPlaces T content f)[i]?)
    ∧ ∀ j, j < 2 * T.length → (∀ f ∈ T.fields, j < f.offset / 4 ∨ f.offset / 4 + f.digits ≤ j) →
        (pagePlaces T content)[j]? = some blankPlace := by
  obtain ⟨-, -, -, -, fits, apart⟩ := valid
  have order := T.writeOrder_perm
  obtain ⟨length, held, others⟩ := writeFields_spec (T := T) (content := content) T.writeOrder
    (List.replicate (2 * T.length) blankPlace) List.length_replicate (fun f member => fits f (order.mem_iff.1 member))
    (order.symm.pairwise apart fun h => h.symm)
  rw [pagePlaces_eq]
  exact ⟨length, fun f member => held f (order.mem_iff.2 member), fun j inside outside =>
    (others j fun f member => outside f (order.mem_iff.1 member)).trans (by simp [inside])⟩

/-- No INDICATOR field overflows (R58). -/
theorem pageOverflows_eq (T : Template) (number : Nat) (p : PriceSet) : pageOverflows T (some (number, p))
    = T.fields.any fun g => g.kind != .indicator && overflows g.digits (fieldValue number p g.kind) := by
  refine congrArg T.fields.any (funext fun g => ?_)
  cases g.kind <;> rfl

/-- A place of the blank page: 0 in an INDICATOR field, blank in a numeric one (R66). -/
theorem getElem?_fieldPlaces_blank {f : Field} (two : f.kind = .indicator → f.digits = 2) {i : Nat} (inside : i < f.digits) :
    (fieldPlaces T none f)[i]? = some (if f.kind = .indicator then 0#4 else blankPlace) := by
  by_cases is : f.kind = .indicator
  · have half : i = 0 ∨ i = 1 := by have := two is; omega
    rcases half with rfl | rfl <;> simp [fieldPlaces, is]
  · simp [fieldPlaces, is, inside]

/-- A place of a bound label's page: a half of the indicator byte, or what the field's value puts there (R58 to R64). -/
theorem getElem?_fieldPlaces_bound {number : Nat} {p : PriceSet} {f : Field} (two : f.kind = .indicator → f.digits = 2) {i : Nat}
    (inside : i < f.digits) : (fieldPlaces T (some (number, p)) f)[i]? =
      if f.kind = .indicator then
        some (if i = 0 then (indicatorByte p (pageOverflows T (some (number, p)))).extractLsb' 4 4
          else (indicatorByte p (pageOverflows T (some (number, p)))).extractLsb' 0 4)
      else (numericPlaces f (fieldValue number p f.kind))[i]? := by
  by_cases is : f.kind = .indicator
  · have half : i = 0 ∨ i = 1 := by have := two is; omega
    rcases half with rfl | rfl <;> simp [fieldPlaces, indicatorPlaces, is]
  · simp [fieldPlaces, is]

end

/-! ## The bytes of a page (R57) -/

/-- A byte is two places, the high half first. -/
theorem getElem?_packPlaces : ∀ (places : List (BitVec 4)) (k : Nat), (packPlaces places)[k]? = (do
    let high ← places[2 * k]?
    let low ← places[2 * k + 1]?
    some (high ++ low))
  | [], _ => rfl
  | [only], k => by
    have none : [only][2 * k + 1]? = none := rfl
    rw [none]
    cases [only][2 * k]? <;> rfl
  | _ :: _ :: _, 0 => rfl
  | _ :: _ :: rest, k + 1 => getElem?_packPlaces rest k

/-- Half as many bytes as places. -/
theorem length_packPlaces : ∀ places : List (BitVec 4), (packPlaces places).length = places.length / 2
  | [] => rfl
  | [_] => by simp [packPlaces]
  | _ :: _ :: rest => by
    rw [packPlaces, List.length_cons, length_packPlaces rest, List.length_cons, List.length_cons]
    omega

/-! ## The page check (R67) -/

/-- The bytes included from byte `k` on are those whose mask bit is set, in ascending order. -/
theorem includedBytes_eq (mask : BitVec 48) (k : Nat) (page : List Byte) : includedBytes mask k page
    = ((List.range page.length).filter fun i => mask.getLsbD (k + i)).map fun i => page.getD i 0 := by
  induction page generalizing k with
  | nil => rfl
  | cons b page ih =>
    have rest : includedBytes mask (k + 1) page = (((List.range page.length).map Nat.succ).filter fun i => mask.getLsbD (k + i)).map
        fun i => (b :: page).getD i 0 := by
      rw [ih, List.filter_map, List.map_map]
      simp only [Function.comp_def, List.getD_cons_succ, Nat.succ_eq_add_one, Nat.add_assoc, Nat.add_comm 1]
    rw [List.length_cons, List.range_succ_eq_map, includedBytes, List.filter_cons, rest, Nat.add_zero]
    split <;> rfl

/-- Settles O28: the places by their fields, the bytes by their places, the check by its mask. -/
theorem pagePlacesHoldTheirFields : Obligations.PagePlacesHoldTheirFields := by
  intro T content valid
  obtain ⟨length, held, others⟩ := pagePlaces_spec (content := content) valid
  obtain ⟨-, -, -, -, fits, -⟩ := valid
  refine ⟨?_, fun f member i inside => (held f member i inside).trans ?_, others, fun k _ => ⟨getElem?_packPlaces _ k, fun page => ?_⟩⟩
  · rw [pageBytes, length_packPlaces, length]
    omega
  · obtain ⟨-, -, -, two, -⟩ := fits f member
    obtain _ | ⟨number, p⟩ := content
    · exact getElem?_fieldPlaces_blank (fun is => (two is).1) inside
    · rw [getElem?_fieldPlaces_bound (fun is => (two is).1) inside, pageOverflows_eq]
      rfl
  · rw [pageCheck, includedBytes_eq]
    simp only [Nat.zero_add]

end Sys2Proof.Machine
end

