-- ==== Sys2Proof/Proofs/Control.lean ====
section
/-! What the laws of epoch, radio, holds and guard speak of (R70, R91, R117, R159), and the many operations that leave all of it. -/

namespace Sys2Proof.Machine

section
variable {s t u : State}

/-! ## The parts the laws speak of -/

/-- A zone record without its counts. -/
def Zone.uncounted (x : Zone) : Zone := { x with counts := ⟨0, 0, 0, 0, 0, 0⟩ }

/-- A state with nothing but what the laws of epoch, radio, holds and guard speak of: every other part is at its reset value. -/
def State.control (s : State) : State :=
  { State.reset with
    epoch := { s.epoch with outstanding := 0 }
    radio := s.radio
    air := { Air.silent with windowsOpen := s.air.windowsOpen, beaconDue := s.air.beaconDue }
    zones := s.zones.map Zone.uncounted
    holdSet := s.holdSet
    holdsDue := s.holdsDue }

theorem State.control_zone (s : State) (z : ZoneNo) : s.control.zone z = (s.zone z).uncounted := by
  simp [State.zone, State.control]

theorem State.control_epochLaw (s : State) : s.control.EpochLaw ↔ s.EpochLaw := Iff.rfl

theorem State.control_radioLaw (s : State) : s.control.RadioLaw ↔ s.RadioLaw := Iff.rfl

theorem State.control_holdLaw (s : State) : s.control.HoldLaw ↔ s.HoldLaw := by
  simp only [State.HoldLaw, State.control_zone]
  rfl

theorem State.control_guardLaw (s : State) : s.control.GuardLaw ↔ s.GuardLaw := by
  simp only [State.GuardLaw, State.control_zone]
  rfl

/-- States that agree in these parts, the zone records beside their counts. -/
theorem State.control_congr (epoch : { t.epoch with outstanding := 0 } = { s.epoch with outstanding := 0 }) (radio : t.radio = s.radio)
    (windowsOpen : t.air.windowsOpen = s.air.windowsOpen) (beaconDue : t.air.beaconDue = s.air.beaconDue)
    (zones : ∀ z, (t.zone z).uncounted = (s.zone z).uncounted) (holdSet : t.holdSet = s.holdSet) (holdsDue : t.holdsDue = s.holdsDue) :
    t.control = s.control := by
  have table : t.zones.map Zone.uncounted = s.zones.map Zone.uncounted :=
    Vector.ext fun i below => by simpa [State.zone] using zones ⟨i, below⟩
  simp only [State.control, epoch, radio, windowsOpen, beaconDue, table, holdSet, holdsDue]

/-! ## Operations that leave them -/

@[simp] theorem State.setInReset_control (x) (s : State) : (s.setInReset x).control = s.control := rfl
@[simp] theorem State.setGateway_control (x) (s : State) : (s.setGateway x).control = s.control := rfl
@[simp] theorem State.setService_control (x) (s : State) : (s.setService x).control = s.control := rfl
@[simp] theorem State.setLabels_control (x) (s : State) : (s.setLabels x).control = s.control := rfl
@[simp] theorem State.setItems_control (x) (s : State) : (s.setItems x).control = s.control := rfl
@[simp] theorem State.setTemplates_control (x) (s : State) : (s.setTemplates x).control = s.control := rfl
@[simp] theorem State.setPointers_control (x) (s : State) : (s.setPointers x).control = s.control := rfl
@[simp] theorem State.setEntries_control (x) (s : State) : (s.setEntries x).control = s.control := rfl
@[simp] theorem State.setNotices_control (x) (s : State) : (s.setNotices x).control = s.control := rfl
@[simp] theorem State.setPending_control (x) (s : State) : (s.setPending x).control = s.control := rfl
@[simp] theorem State.raise_control (x : Source) (s : State) : (s.raise x).control = s.control := rfl
@[simp] theorem State.noteLabel_control (k : Nat) (l : Label) (s : State) : (s.noteLabel k l).control = s.control := rfl
@[simp] theorem State.freeEntry_control (e : Entry) (s : State) : (s.freeEntry e).control = s.control := rfl

/-- Whatever of the air is written, only the windows' opening and the beacons due count. -/
theorem State.setAir_control (x : Air) (s : State) (windowsOpen : x.windowsOpen = s.air.windowsOpen)
    (beaconDue : x.beaconDue = s.air.beaconDue) : (s.setAir x).control = s.control :=
  State.control_congr rfl rfl windowsOpen beaconDue (fun _ => rfl) rfl rfl

@[simp] theorem State.transmit_control (lane : Lane) (m : Option (List Byte)) (s : State) : (s.transmit lane m).control = s.control :=
  s.setAir_control _ rfl rfl

@[simp] theorem State.setWindows_control (lane : Lane) (w : LaneWindows) (s : State) : (s.setWindows lane w).control = s.control :=
  s.setAir_control _ rfl rfl

@[simp] theorem State.reportStaged_control (s before : State) : (s.reportStaged before).control = s.control := by
  rw [State.reportStaged_eq]
  split <;> rfl

/-- A label record written moves the counts of zones alone. -/
@[simp] theorem State.writeLabel_control (k : Nat) (new : Option Label) (s : State) : (s.writeLabel k new).control = s.control := by
  have same := State.writeLabel_same k new s
  refine State.control_congr (by rw [same.epoch]) same.radio (by rw [same.air]) (by rw [same.air]) (fun z => ?_) same.holdSet same.holdsDue
  rw [State.writeLabel_zone_counts]
  rfl

/-- What each operation of a list leaves, all of them leave. -/
theorem State.foldl_control {α : Type} (f : State → α → State) (one : ∀ s a, (f s a).control = s.control) (work : List α) (s : State) :
    (work.foldl f s).control = s.control :=
  List.foldlRecOn (motive := fun u : State => u.control = s.control) work f rfl fun u same a _ => (one u a).trans same

@[simp] theorem State.updateLabels_control (test : Nat → Label → Bool) (change : Nat → Label → Label) (s : State) :
    (s.updateLabels test change).control = s.control :=
  State.foldl_control (fun u (kv : Nat × Label) => u.writeLabel kv.1 (some (change kv.1 kv.2)))
    (fun u kv => u.writeLabel_control kv.1 _) _ s

@[simp] theorem State.takeRetries_control (s : State) : s.takeRetries.control = s.control := s.updateLabels_control _ _

@[simp] theorem State.retireLabel_control (k : Nat) (s : State) : (s.retireLabel k).control = s.control := by
  rw [State.retireLabel, State.writeLabel_control]
  exact State.setAir_control _ _ rfl rfl

/-! ## Deliveries (R10 to R13, R135 to R147, R156) -/

@[simp] theorem State.grant_control (lane : Lane) (slot : SlotNo) (k : Nat) (s : State) : (s.grant lane slot k).control = s.control := by
  simp only [State.grant]
  split
  · rfl
  · split <;> simp

@[simp] theorem State.failEntry_control (e : Entry) (l : Label) (s : State) : (s.failEntry e l).control = s.control := by
  simp only [State.failEntry]
  split <;> simp

@[simp] theorem State.succeedEntry_control (e : Entry) (a : Ack) (l : Label) (s : State) :
    (s.succeedEntry e a l).control = s.control := by
  simp only [State.succeedEntry]
  exact (State.setAir_control _ _ rfl rfl).trans (by simp)

@[simp] theorem State.resolveArrival_control (e : Entry) (a : Ack) (s : State) : (s.resolveArrival e a).control = s.control := by
  simp only [State.resolveArrival]
  split
  · simp
  · split <;> simp

@[simp] theorem State.resolveClose_control (e : Entry) (s : State) : (s.resolveClose e).control = s.control := by
  simp only [State.resolveClose]
  split <;> simp

@[simp] theorem State.closeSlot_control (lane : Lane) (slot : SlotNo) (s : State) : (s.closeSlot lane slot).control = s.control := by
  simp only [State.closeSlot]
  split
  · rfl
  · split <;> simp

@[simp] theorem State.takeAck_control (lane : Lane) (slot : SlotNo) (a : Ack) (s : State) : (s.takeAck lane slot a).control = s.control := by
  simp only [State.takeAck]
  split <;> simp

theorem State.abortEntry_control (e : Entry) (s : State) : (s.abortEntry e).control = s.control := by
  simp only [State.abortEntry]
  split <;> simp

@[simp] theorem State.abortAll_control (s : State) : s.abortAll.control = s.control :=
  State.foldl_control _ (fun u e => u.abortEntry_control e) _ s

/-! ## Requests (R174, R181) -/

@[simp] theorem State.accept_control (s : State) (body : List Byte) : (s.accept body).state.control = s.control := rfl
@[simp] theorem State.refuse_control (s : State) (r : Result) : (s.refuse r).state.control = s.control := rfl
@[simp] theorem State.collect_control (bytes : List Byte) (s : State) : (s.collect bytes).control = s.control := rfl

@[simp] theorem Served.held_control (v : Served) (tag : Byte) : (v.held tag).control = v.state.control := by
  unfold Served.held
  split <;> rfl

theorem serveItemPut_control (w : BitVec 32) (p : PriceWords) (s : State) : (serveItemPut w p s).state.control = s.control := by
  unfold serveItemPut
  split
  · split
    · split <;> simp [State.markBound]
    · split <;> simp
  · rfl

theorem serveItemSetNext_control (w : BitVec 32) (p : PriceWords) (s : State) : (serveItemSetNext w p s).state.control = s.control := by
  unfold serveItemSetNext
  split
  · split
    · rfl
    · split <;> simp [State.markBound]
  · rfl

theorem serveItemClearNext_control (w : BitVec 32) (s : State) : (serveItemClearNext w s).state.control = s.control := by
  unfold serveItemClearNext
  split
  · rfl
  · split
    · rfl
    · split <;> simp [State.markBound]

theorem serveItemGet_control (w : BitVec 32) (s : State) : (serveItemGet w s).state.control = s.control := by
  unfold serveItemGet
  split
  · rfl
  · split <;> rfl

theorem serveItemRetire_control (w : BitVec 32) (s : State) : (serveItemRetire w s).state.control = s.control := by
  unfold serveItemRetire
  split
  · rfl
  · split
    · rfl
    · split <;> rfl

theorem serveLabelAdd_control (b : LabelAddWords) (s : State) : (serveLabelAdd b s).state.control = s.control := by
  unfold serveLabelAdd
  split
  · rfl
  · split
    · rfl
    · split
      · split <;> simp
      · rfl

theorem serveLabelBind_control (port : Port) (a : Address) (w : Option (BitVec 32)) (s : State) :
    (serveLabelBind port a w s).state.control = s.control := by
  unfold serveLabelBind
  split
  · rfl
  · split
    · rfl
    · split
      · rfl
      · dsimp only
        split <;> simp

theorem serveLabelMove_control (a : Address) (m : MoveWords) (s : State) : (serveLabelMove a m s).state.control = s.control := by
  unfold serveLabelMove
  split
  · rfl
  · split
    · rfl
    · split <;> simp

theorem serveLabelGet_control (port : Port) (a : Address) (s : State) : (serveLabelGet port a s).state.control = s.control := by
  unfold serveLabelGet
  split
  · rfl
  · split <;> rfl

theorem serveLabelRetire_control (a : Address) (s : State) : (serveLabelRetire a s).state.control = s.control := by
  unfold serveLabelRetire
  split <;> simp

theorem serveLabelRetry_control (a : Address) (s : State) : (serveLabelRetry a s).state.control = s.control := by
  unfold serveLabelRetry
  split <;> simp

theorem serveLabelQuery_control (a : Address) (s : State) : (serveLabelQuery a s).state.control = s.control := by
  unfold serveLabelQuery
  split <;> simp

theorem serveLabelLocate_control (a : Address) (s : State) : (serveLabelLocate a s).state.control = s.control := by
  unfold serveLabelLocate
  split <;> simp

theorem serveLabelScan_control (start : BitVec 16) (states flags : Byte) (s : State) :
    (serveLabelScan start states flags s).state.control = s.control := by
  unfold serveLabelScan
  split
  · rfl
  · split <;> rfl

theorem serveTemplateLoad_control (b : TemplateWords) (s : State) : (serveTemplateLoad b s).state.control = s.control := by
  unfold serveTemplateLoad
  split
  · rfl
  · split
    · rfl
    · dsimp only
      split
      · rfl
      · split <;> simp [State.markTemplate]

theorem serveTemplateGet_control (i : Byte) (s : State) : (serveTemplateGet i s).state.control = s.control := by
  unfold serveTemplateGet
  split
  · rfl
  · split <;> rfl

theorem serveZoneGet_control (z : Byte) (s : State) : (serveZoneGet z s).state.control = s.control := by
  unfold serveZoneGet
  split <;> rfl

theorem serveZoneRetry_control (z : Byte) (s : State) : (serveZoneRetry z s).state.control = s.control := by
  unfold serveZoneRetry
  split <;> simp

theorem serveNoticeClear_control (sources : Byte) (s : State) : (serveNoticeClear sources s).state.control = s.control := by
  unfold serveNoticeClear
  split <;> rfl

theorem serveNoticeMask_control (sources : Byte) (s : State) : (serveNoticeMask sources s).state.control = s.control := by
  unfold serveNoticeMask
  split <;> rfl

theorem servePortConfig_control (enable polarity : Option Byte) (s : State) :
    (servePortConfig enable polarity s).state.control = s.control := by
  unfold servePortConfig
  split <;> rfl

/-- The requests that the Epoch Controller, the radio, the Hold Unit and the guards take to themselves, and the reset. -/
def movesControl : Request → Bool
  | .zoneSet .. | .zoneHold .. | .zoneRelease _ | .epochOpen _ | .epochSchedule _ | .epochAbandon | .radioConfig _ | .radioStart
  | .radioStop | .deviceReset => true
  | _ => false

/-- Every other request leaves what these laws speak of, from either port. -/
theorem serve_control (port : Port) (r : Request) (s : State) (still : movesControl r = false) :
    (serve port r s).state.control = s.control := by
  cases r with
  | itemPut n p => exact serveItemPut_control n p s
  | itemSetNext n p => exact serveItemSetNext_control n p s
  | itemClearNext n => exact serveItemClearNext_control n s
  | itemGet n => exact serveItemGet_control n s
  | itemRetire n => exact serveItemRetire_control n s
  | labelAdd b => exact serveLabelAdd_control b s
  | labelBind a n => exact serveLabelBind_control port a n s
  | labelMove a m => exact serveLabelMove_control a m s
  | labelGet a => exact serveLabelGet_control port a s
  | labelRetire a => exact serveLabelRetire_control a s
  | labelRetry a => exact serveLabelRetry_control a s
  | labelQuery a => exact serveLabelQuery_control a s
  | labelLocate a => exact serveLabelLocate_control a s
  | labelScan start states flags => exact serveLabelScan_control start states flags s
  | templateLoad b => exact serveTemplateLoad_control b s
  | templateGet i => exact serveTemplateGet_control i s
  | zoneGet z => exact serveZoneGet_control z s
  | zoneRetry z => exact serveZoneRetry_control z s
  | noticeClear set => exact serveNoticeClear_control set s
  | noticeMask set => exact serveNoticeMask_control set s
  | portConfig e p => exact servePortConfig_control e p s
  | epochStatus | radioStatus | noticeRead | deviceInfo => rfl
  | zoneSet | zoneHold | zoneRelease | epochOpen | epochSchedule | epochAbandon | radioConfig | radioStart | radioStop
  | deviceReset => contradiction

end

end Sys2Proof.Machine
end

