-- ==== Sys2Proof/Proofs/ControlLaws.lean ====
section
/-! What each operation of the Epoch Controller, the radio, the Hold Unit and the guards keeps of their laws (R70, R91, R92, R117, R159,
R163, R166). -/

namespace Sys2Proof.Machine

section
variable {s t u : State}

/-! ## Laws kept -/

/-- The laws of epoch, of radio and holds, and of the guard hold of `t` where they hold of `s`. -/
structure State.KeepsLaws (s t : State) : Prop where
  epoch : s.EpochLaw → t.EpochLaw
  holds : s.RadioLaw → s.HoldLaw → t.RadioLaw ∧ t.HoldLaw
  guard : s.GuardLaw → t.GuardLaw

/-- They are kept, and no hold count comes to be due (R164). -/
structure State.Upholds (s t : State) : Prop extends s.KeepsLaws t where
  clear : s.holdsDue = [] → t.holdsDue = []

theorem State.KeepsLaws.trans (h : s.KeepsLaws t) (k : t.KeepsLaws u) : s.KeepsLaws u where
  epoch law := k.epoch (h.epoch law)
  holds radio hold := k.holds (h.holds radio hold).1 (h.holds radio hold).2
  guard law := k.guard (h.guard law)

theorem State.Upholds.refl (s : State) : s.Upholds s := ⟨⟨id, And.intro, id⟩, id⟩

theorem State.Upholds.trans (h : s.Upholds t) (k : t.Upholds u) : s.Upholds u :=
  ⟨h.toKeepsLaws.trans k.toKeepsLaws, fun none => k.clear (h.clear none)⟩

/-- What each operation of a list upholds, all of them uphold. -/
theorem State.Upholds.foldl {α : Type} (f : State → α → State) (one : ∀ u a, State.Upholds u (f u a)) (work : List α) (s : State) :
    s.Upholds (work.foldl f s) :=
  List.foldlRecOn (motive := fun u : State => s.Upholds u) work f (.refl s) fun _ kept a _ => kept.trans (one _ a)

/-- What moves nothing that the laws speak of upholds them. -/
theorem State.Upholds.of_control (same : t.control = s.control) : s.Upholds t where
  epoch law := (State.control_epochLaw t).1 (same ▸ (State.control_epochLaw s).2 law)
  holds radio hold := ⟨(State.control_radioLaw t).1 (same ▸ (State.control_radioLaw s).2 radio),
    (State.control_holdLaw t).1 (same ▸ (State.control_holdLaw s).2 hold)⟩
  guard law := (State.control_guardLaw t).1 (same ▸ (State.control_guardLaw s).2 law)
  clear none := (congrArg State.holdsDue same).trans none

/-- An epoch record written that keeps its own law (R70). -/
theorem State.Upholds.setEpoch (x : EpochRecord) (law : s.EpochLaw → (s.setEpoch x).EpochLaw) : s.Upholds (s.setEpoch x) :=
  ⟨⟨law, And.intro, id⟩, id⟩

/-! ## The law of the epoch record (R70) -/

/-- A changeover ended leaves nothing pending and no countdown (R85, R87). -/
theorem State.Upholds.ended (same : t.control = s.control) (active : Epoch) : s.Upholds (t.setEpoch (t.epoch.ended active)) :=
  (State.Upholds.of_control same).trans (.setEpoch _ fun _ => by simp [State.EpochLaw, EpochRecord.ended])

/-- EPOCH_OPEN: the epoch opened lies after the active one (R73, R74). -/
theorem serveEpochOpen_upholds (e : Epoch) (s : State) : s.Upholds (serveEpochOpen e s).state := by
  unfold serveEpochOpen
  split
  · exact .refl s
  · split
    · exact .refl s
    · split
      · exact .refl s
      · rename_i some idle later
        refine .setEpoch _ fun ⟨quiet, _, _, most, due⟩ => ?_
        have steady : s.epoch.state = .steady := by simpa [State.epochOpen] using idle
        obtain ⟨-, zero⟩ := quiet steady
        simp only [liesAfter, Bool.not_eq_true', Bool.not_eq_false, Bool.and_eq_true, decide_eq_true_eq] at later
        exact ⟨by simp, fun _ => ⟨rfl, some, later.2⟩, by simp [zero], most, due⟩

/-- The cutover (R82 to R85). -/
theorem State.cutover_upholds (s : State) : s.Upholds s.cutover := by
  simp only [State.cutover]
  exact (State.Upholds.ended (by simp) _).trans (.of_control (State.raise_control _ _))

theorem State.takeExpiry_upholds (s : State) : s.Upholds s.takeExpiry := by
  unfold State.takeExpiry
  split
  · exact s.cutover_upholds
  · exact .refl s

/-- EPOCH_SCHEDULE: a countdown of 1 or more, or the cutover at once (R75, R76). -/
theorem serveEpochSchedule_upholds (count : BitVec 32) (s : State) : s.Upholds (serveEpochSchedule count s).state := by
  unfold serveEpochSchedule
  dsimp only
  split
  · exact .refl s
  · split
    · exact .refl s
    · split
      · exact s.cutover_upholds
      · rename_i low away some
        refine .setEpoch _ fun ⟨_, pending, _⟩ => ?_
        have outside : s.epoch.state ≠ .steady := by simpa [State.epochOpen] using away
        refine ⟨by simp, fun _ => pending outside, ⟨fun _ => Nat.pos_of_ne_zero some, fun _ => rfl⟩, Nat.le_of_not_lt low, by simp⟩

/-- EPOCH_ABANDON (R87, R88). -/
theorem serveEpochAbandon_upholds (s : State) : s.Upholds (serveEpochAbandon s).state := by
  unfold serveEpochAbandon
  split
  · exact .refl s
  · exact .ended (by simp) _

/-- The countdown at a frame start: it falls by 1, or reads 1 with its expiry due (R77). -/
theorem State.countDown_upholds (s : State) : s.Upholds s.countDown := by
  unfold State.countDown
  split
  · rename_i runs
    split
    · refine .setEpoch _ fun ⟨quiet, pending, armed, most, _⟩ => ?_
      have some := armed.1 runs
      exact ⟨quiet, pending, armed, most, fun _ => by simp only [State.setEpoch_epoch]; omega⟩
    · rename_i long
      refine .setEpoch _ fun ⟨_, pending, armed, most, due⟩ => ?_
      refine ⟨by simp [runs], pending, ⟨fun _ => ?_, fun _ => runs⟩, ?_, fun expiry => ?_⟩
      · simp only [State.setEpoch_epoch]; omega
      · simp only [State.setEpoch_epoch]; omega
      · have one := due expiry
        omega
  · exact .refl s

/-! ## The law of the guard (R117) -/

/-- What the law of the guard says of one zone record. -/
abbrev Zone.GuardSound (x : Zone) : Prop :=
  x.reload ≤ 255 ∧ (x.reload = 0 → x.counter = 0 ∧ x.promoted = false) ∧ (0 < x.reload → 1 ≤ x.counter ∧ x.counter ≤ x.reload)

theorem Zone.GuardSound.won {x : Zone} (h : x.GuardSound) : x.won.GuardSound := by
  obtain ⟨small, -, -⟩ := h
  exact ⟨small, fun none => ⟨none, rfl⟩, fun some => ⟨some, Nat.le_refl _⟩⟩

theorem Zone.GuardSound.passedOver {x : Zone} (h : x.GuardSound) : x.passedOver.GuardSound := by
  unfold Zone.passedOver
  split
  · exact h
  · rename_i some
    obtain ⟨small, -, between⟩ := h
    refine ⟨small, fun none => absurd none some, fun positive => ?_⟩
    obtain ⟨low, high⟩ := between positive
    dsimp only
    split <;> omega

/-- A guard reload written loads the counter (R120). -/
theorem Zone.GuardSound.zoneWith {x : Zone} (h : x.GuardSound) (v : ZoneWords) (boost : Option Bool) :
    (zoneWith v boost x).GuardSound := by
  unfold Machine.zoneWith
  dsimp only
  split
  · exact h
  · rename_i r _
    exact ⟨Nat.le_of_lt_succ r.isLt, fun none => ⟨none, rfl⟩, fun some => ⟨some, Nat.le_refl _⟩⟩

/-- The parts of a zone record that the law of holds speaks of agree. -/
structure Zone.SameHold (x y : Zone) : Prop where
  hold : y.hold = x.hold
  budget : y.budget = x.budget
  idle : y.idle = x.idle
  holdStart : y.holdStart = x.holdStart
  holdFrames : y.holdFrames = x.holdFrames

/-- A zone record written with its guard sound and its hold untouched. -/
theorem State.Upholds.setGuard (z : ZoneNo) {x : Zone} (same : (s.zone z).SameHold x) (sound : (s.zone z).GuardSound → x.GuardSound) :
    s.Upholds (s.setZone z x) := by
  refine ⟨⟨id, fun radio hold => ⟨radio, ?_⟩, fun law w => ?_⟩, id⟩
  · obtain ⟨once, few, running, zones, due⟩ := hold
    refine ⟨once, few, running, fun w => ?_, due⟩
    rw [State.setZone_zone]
    split
    · rename_i here
      subst here
      rw [same.hold, same.budget, same.idle, same.holdStart, same.holdFrames]
      exact zones w
    · exact zones w
  · rw [State.setZone_zone]
    split
    · exact sound (law z)
    · exact law w

theorem zoneWith_sameHold (v : ZoneWords) (boost : Option Bool) (x : Zone) : x.SameHold (zoneWith v boost x) := by
  unfold zoneWith
  dsimp only
  split <;> exact ⟨rfl, rfl, rfl, rfl, rfl⟩

theorem Zone.passedOver_sameHold (x : Zone) : x.SameHold x.passedOver := by
  unfold Zone.passedOver
  split <;> exact ⟨rfl, rfl, rfl, rfl, rfl⟩

/-- ZONE_SET (R119, R120). -/
theorem serveZoneSet_upholds (zone : Byte) (v : ZoneWords) (s : State) : s.Upholds (serveZoneSet zone v s).state := by
  unfold serveZoneSet
  split
  · exact .refl s
  · split
    · exact .refl s
    · exact .setGuard _ (zoneWith_sameHold v _ _) fun sound => sound.zoneWith v _

/-- The guard update of a grant (R129). -/
theorem State.updateGuards_upholds (zones : List ZoneNo) (winner : ZoneNo) (s : State) : s.Upholds (s.updateGuards zones winner) := by
  refine .foldl _ (fun u z => ?_) zones s
  split
  · exact .setGuard z ⟨rfl, rfl, rfl, rfl, rfl⟩ Zone.GuardSound.won
  · exact .setGuard z (u.zone z).passedOver_sameHold Zone.GuardSound.passedOver

/-! ## The law of holds (R159, R163, R166) -/

/-- What the law of holds says of one zone record, by the frame in progress and HOLD_IDLE. -/
structure Zone.HoldSound (frame : Frame) (limit : Nat) (x : Zone) : Prop where
  start : x.hold = .held ↔ x.holdStart.isSome = true
  budget : x.budget ≤ 65535
  idle : x.idle ≤ 255
  unspent : x.hold = .held → 1 ≤ x.budget ∧ x.idle < limit
  frames : ∀ h ∈ x.holdStart, BitVec.ofNat 24 x.holdFrames = frame - h + 1

/-- The law of holds but for the radio that holds run under. -/
structure State.HoldsSound (s : State) : Prop where
  once : s.holdSet.Nodup
  few : s.holdSet.length ≤ 8
  listed : ∀ z : ZoneNo, z ∈ s.holdSet ↔ (s.zone z).hold = .held
  zones : ∀ z : ZoneNo, (s.zone z).HoldSound s.radio.frame s.radio.config.holdIdle
  dueOnce : s.holdsDue.Nodup
  dueHeld : ∀ z ∈ s.holdsDue, z ∈ s.holdSet

theorem State.holdLaw_iff (s : State) : s.HoldLaw ↔ s.HoldsSound ∧ (s.holdSet ≠ [] → s.radio.state = .running) := by
  have frames : ∀ z : ZoneNo, (s.zone z).holdStart.all (fun h => BitVec.ofNat 24 (s.zone z).holdFrames == s.radio.frame - h + 1) = true
      ↔ ∀ h ∈ (s.zone z).holdStart, BitVec.ofNat 24 (s.zone z).holdFrames = s.radio.frame - h + 1 := fun z => by
    simp [Option.all_eq_true]
  constructor
  · rintro ⟨once, few, running, zones, dueOnce, dueHeld⟩
    refine ⟨⟨once, few, fun z => (zones z).1, fun z => ?_, dueOnce, dueHeld⟩, running⟩
    obtain ⟨-, start, budget, idle, unspent, counted⟩ := zones z
    exact ⟨start, budget, idle, unspent, (frames z).1 counted⟩
  · rintro ⟨h, running⟩
    exact ⟨h.once, h.few, running, fun z => ⟨h.listed z, (h.zones z).start, (h.zones z).budget, (h.zones z).idle, (h.zones z).unspent,
      (frames z).2 (h.zones z).frames⟩, h.dueOnce, h.dueHeld⟩

/-! ### One zone record -/

section
variable {x : Zone} {frame : Frame} {limit : Nat}

theorem Zone.HoldSound.of_same {y : Zone} (h : x.HoldSound frame limit) (same : x.SameHold y) : y.HoldSound frame limit where
  start := by rw [same.hold, same.holdStart]; exact h.start
  budget := same.budget ▸ h.budget
  idle := same.idle ▸ h.idle
  unspent := by rw [same.hold, same.budget, same.idle]; exact h.unspent
  frames := by rw [same.holdStart, same.holdFrames]; exact h.frames

/-- A hold ended. -/
theorem Zone.HoldSound.ended (h : x.HoldSound frame limit) :
    Zone.HoldSound frame limit { x with hold := .none, holdStart := none, holdFrames := 0 } :=
  ⟨by simp, h.budget, h.idle, by simp, by simp⟩

/-- A budget given to a HELD zone (R161). -/
theorem Zone.HoldSound.renewed (h : x.HoldSound frame limit) {budget : Nat} (some : 1 ≤ budget) (most : budget ≤ 65535)
    (positive : 1 ≤ limit) : Zone.HoldSound frame limit { x with budget := budget, idle := 0 } :=
  ⟨h.start, most, Nat.zero_le _, fun _ => ⟨some, positive⟩, h.frames⟩

/-- A count that ends a hold leaves budget and idle count in their ranges (R164). -/
theorem Zone.HoldSound.spent (h : x.HoldSound frame limit) (held : x.hold = .held) (most : limit ≤ 255) :
    Zone.HoldSound frame limit { x.counted with hold := .none, holdStart := none, holdFrames := 0 } := by
  obtain ⟨-, below⟩ := h.unspent held
  have budget := h.budget
  refine ⟨by simp, ?_, ?_, by simp, by simp⟩
  · simp only [Zone.counted]
    omega
  · simp only [Zone.counted]
    split <;> omega

/-- A count that ends no hold (R164). -/
theorem Zone.HoldSound.counted (h : x.HoldSound frame limit) (held : x.hold = .held) (unspent : x.counted.budget ≠ 0)
    (busy : x.counted.idle ≠ limit) (most : limit ≤ 255) : x.counted.HoldSound frame limit := by
  obtain ⟨-, below⟩ := h.unspent held
  have budget := h.budget
  have idle : x.counted.idle < limit := by
    simp only [Zone.counted] at busy ⊢
    split <;> split at busy <;> omega
  refine ⟨h.start, ?_, by omega, fun _ => ⟨Nat.pos_of_ne_zero unspent, idle⟩, h.frames⟩
  simp only [Zone.counted]
  omega

/-- The next frame begins in a HELD zone, one frame more of its hold (R111). -/
theorem Zone.HoldSound.aged (h : x.HoldSound frame limit) :
    Zone.HoldSound (framePlus frame 1) limit { x with holdFrames := x.holdFrames + 1 } := by
  refine ⟨h.start, h.budget, h.idle, h.unspent, fun f given => ?_⟩
  have counted := h.frames f given
  simp only [framePlus]
  rw [BitVec.ofNat_add, counted]
  ring

/-- The next frame begins in a zone that is not HELD. -/
theorem Zone.HoldSound.unheld (h : x.HoldSound frame limit) (free : x.hold ≠ .held) (frame' : Frame) (limit' : Nat) :
    x.HoldSound frame' limit' := by
  refine ⟨h.start, h.budget, h.idle, fun held => absurd held free, fun f given => absurd (h.start.2 ?_) free⟩
  rw [Option.mem_def.1 given]
  rfl

end

/-! ### The Hold Unit's operations -/

@[simp] theorem State.setHoldSet_zone (x) (s : State) (z : ZoneNo) : (s.setHoldSet x).zone z = s.zone z := rfl
@[simp] theorem State.setHoldsDue_zone (x) (s : State) (z : ZoneNo) : (s.setHoldsDue x).zone z = s.zone z := rfl

/-- A HELD zone's record written with its hold going on. -/
theorem State.HoldsSound.setZone (h : s.HoldsSound) {z : ZoneNo} {x : Zone} (hold : x.hold = (s.zone z).hold)
    (sound : x.HoldSound s.radio.frame s.radio.config.holdIdle) : (s.setZone z x).HoldsSound := by
  refine ⟨h.once, h.few, fun w => ?_, fun w => ?_, h.dueOnce, h.dueHeld⟩
  · rw [State.setZone_zone]
    split
    · rename_i here
      subst here
      rw [hold]
      exact h.listed w
    · exact h.listed w
  · rw [State.setZone_zone]
    split
    · exact sound
    · exact h.zones w

/-- A hold ended, its zone record otherwise as it may stand (R163). -/
theorem State.HoldsSound.setEnded (h : s.HoldsSound) {z : ZoneNo} {x : Zone} (hold : x.hold ≠ .held)
    (sound : x.HoldSound s.radio.frame s.radio.config.holdIdle) :
    (((s.setZone z x).setHoldSet (s.holdSet.erase z)).setHoldsDue (s.holdsDue.erase z)).HoldsSound := by
  refine ⟨h.once.erase z, (List.erase_sublist.length_le).trans h.few, fun w => ?_, fun w => ?_, h.dueOnce.erase z, fun w member => ?_⟩
  · simp only [State.setHoldsDue_zone, State.setHoldSet_zone, State.setZone_zone, State.setHoldsDue_holdSet, State.setHoldSet_holdSet,
      h.once.mem_erase_iff]
    split
    · rename_i here
      exact iff_of_false (fun both => both.1 here) hold
    · rename_i other
      rw [h.listed w]
      exact and_iff_right other
  · simp only [State.setHoldsDue_zone, State.setHoldSet_zone, State.setZone_zone]
    split
    · exact sound
    · exact h.zones w
  · obtain ⟨other, due⟩ := h.dueOnce.mem_erase_iff.1 member
    exact h.once.mem_erase_iff.2 ⟨other, h.dueHeld w due⟩

/-- A zone record written with the guard it has. -/
theorem State.GuardLaw.setZone (law : s.GuardLaw) {z : ZoneNo} {x : Zone} (sound : x.GuardSound) : (s.setZone z x).GuardLaw := fun w => by
  rw [State.setZone_zone]
  split
  · exact sound
  · exact law w

theorem State.HoldsSound.endHold (h : s.HoldsSound) (z : ZoneNo) : (s.endHold z).HoldsSound := by
  have ended := h.setEnded (z := z) (x := { s.zone z with hold := .none, holdStart := none, holdFrames := 0 }) (by simp) (h.zones z).ended
  exact ⟨ended.once, ended.few, ended.listed, ended.zones, ended.dueOnce, ended.dueHeld⟩

/-- The zone records after the end of a hold. -/
theorem State.endHold_zone (z w : ZoneNo) (s : State) : (s.endHold z).zone w
    = if w = z then { s.zone z with hold := .none, holdStart := none, holdFrames := 0 } else s.zone w :=
  State.setZone_zone z w _ s

/-- The end of a hold (R163). -/
theorem State.endHold_upholds (z : ZoneNo) (s : State) : s.Upholds (s.endHold z) := by
  refine ⟨⟨id, fun radio hold => ⟨radio, ?_⟩, fun law => ?_⟩, fun none => ?_⟩
  · obtain ⟨sound, running⟩ := s.holdLaw_iff.1 hold
    refine (State.holdLaw_iff _).2 ⟨sound.endHold z, fun some => running fun none => some ?_⟩
    rw [State.endHold_eq]
    simp [none]
  · exact State.GuardLaw.setZone (x := { s.zone z with hold := .none, holdStart := none, holdFrames := 0 }) law (law z)
  · rw [State.endHold_eq]
    simp [none]

/-- The record of a zone whose hold begins (R160). -/
def State.begunZone (s : State) (z : ZoneNo) (budget : Nat) : Zone :=
  { s.zone z with
    hold := .held
    budget := budget
    idle := 0
    holdStart := some (if s.air.beaconDue then s.radio.frame else framePlus s.radio.frame 1)
    holdFrames := if s.air.beaconDue then 1 else 0 }

theorem State.begunZone_holdSound (s : State) (z : ZoneNo) {budget limit : Nat} (some : 1 ≤ budget) (most : budget ≤ 65535)
    (positive : 1 ≤ limit) : (s.begunZone z budget).HoldSound s.radio.frame limit := by
  refine ⟨by simp [State.begunZone], most, Nat.zero_le _, fun _ => ⟨some, positive⟩, fun f given => ?_⟩
  obtain rfl := Option.some.inj given
  simp only [State.begunZone]
  split
  · simp
  · simp only [framePlus]
    ring_nf
    simp

/-- A hold begun while RUNNING, with a budget, in a hold set with room (R160). -/
theorem State.beginHold_upholds {z : ZoneNo} {budget : Nat} (free : (s.zone z).hold ≠ .held) (some : 1 ≤ budget)
    (most : budget ≤ 65535) (running : s.radio.state = .running) (room : s.holdSet.length < 8) : s.Upholds (s.beginHold z budget) := by
  have zone : ∀ w, (s.beginHold z budget).zone w = if w = z then s.begunZone z budget else s.zone w := fun w =>
    State.setZone_zone z w (s.begunZone z budget) s
  have holdSet : (s.beginHold z budget).holdSet = s.holdSet ++ [z] := rfl
  refine ⟨⟨id, fun radio hold => ⟨radio, ?_⟩, fun law => ?_⟩, id⟩
  · obtain ⟨sound, -⟩ := s.holdLaw_iff.1 hold
    obtain ⟨-, -, -, ⟨positive, -⟩, -⟩ := radio
    have fresh : z ∉ s.holdSet := fun member => free ((sound.listed z).1 member)
    refine (State.holdLaw_iff _).2 ⟨⟨?_, ?_, fun w => ?_, fun w => ?_, sound.dueOnce, fun w member =>
      List.mem_append_left _ (sound.dueHeld w member)⟩, fun _ => running⟩
    · exact List.nodup_append.2 ⟨sound.once, List.nodup_singleton z, fun a member b last same =>
        fresh (List.mem_singleton.1 last ▸ same ▸ member)⟩
    · rw [holdSet, List.length_append]
      exact room
    · rw [zone, holdSet, List.mem_append, List.mem_singleton]
      split
      · rename_i here
        exact iff_of_true (.inr here) rfl
      · rename_i other
        rw [sound.listed w]
        exact or_iff_left other
    · rw [zone]
      split
      · exact s.begunZone_holdSound z some most positive
      · exact sound.zones w
  · exact State.GuardLaw.setZone (x := s.begunZone z budget) law (law z)

/-- A budget replaced, or a count that ends no hold: a HELD zone's record written with its hold going on. -/
theorem State.Upholds.setZone {z : ZoneNo} {x : Zone} (hold : x.hold = (s.zone z).hold)
    (sound : s.RadioLaw → s.HoldsSound → x.HoldSound s.radio.frame s.radio.config.holdIdle)
    (guard : (s.zone z).GuardSound → x.GuardSound) : s.Upholds (s.setZone z x) := by
  refine ⟨⟨id, fun radio law => ⟨radio, ?_⟩, fun law => law.setZone (guard (law z))⟩, id⟩
  obtain ⟨holds, running⟩ := s.holdLaw_iff.1 law
  exact (State.holdLaw_iff _).2 ⟨holds.setZone hold (sound radio holds), running⟩

/-- ZONE_HOLD (R160 to R162). -/
theorem serveZoneHold_upholds (zone : Byte) (budget : BitVec 16) (s : State) : s.Upholds (serveZoneHold zone budget s).state := by
  have most : budget.toNat ≤ 65535 := Nat.le_of_lt_succ budget.isLt
  unfold serveZoneHold
  dsimp only
  split
  · exact .refl s
  · rename_i z _
    split
    · split
      · exact s.endHold_upholds z
      · rename_i some
        refine .setZone rfl (fun radio holds => ?_) id
        obtain ⟨-, -, -, ⟨positive, -⟩, -⟩ := radio
        exact (holds.zones z).renewed (Nat.pos_of_ne_zero some) most positive
    · rename_i free
      split
      · exact .refl s
      · rename_i some
        split
        · exact .refl s
        · split
          · exact .refl s
          · rename_i running room
            exact State.beginHold_upholds (by simpa [Zone.isHeld] using free) (Nat.pos_of_ne_zero some) most
              (by simpa [State.running] using running) (Nat.lt_of_not_le room)

/-- ZONE_RELEASE (R163). -/
theorem serveZoneRelease_upholds (zone : Byte) (s : State) : s.Upholds (serveZoneRelease zone s).state := by
  unfold serveZoneRelease
  dsimp only
  split
  · exact .refl s
  · split
    · exact s.endHold_upholds _
    · exact .refl s

/-! ### Counts (R164) -/

/-- The law of holds is a matter of the zones' holds, the hold set, the counts due and the radio. -/
theorem State.HoldsSound.of_same (h : s.HoldsSound) (zone : ∀ z, (s.zone z).SameHold (t.zone z)) (holdSet : t.holdSet = s.holdSet)
    (holdsDue : t.holdsDue = s.holdsDue) (radio : t.radio = s.radio) : t.HoldsSound where
  once := holdSet ▸ h.once
  few := holdSet ▸ h.few
  listed z := by rw [holdSet, (zone z).hold]; exact h.listed z
  zones z := radio ▸ (h.zones z).of_same (zone z)
  dueOnce := holdsDue ▸ h.dueOnce
  dueHeld := by rw [holdSet, holdsDue]; exact h.dueHeld

theorem State.HoldsSound.of_control (h : s.HoldsSound) (same : t.control = s.control) : t.HoldsSound := by
  refine h.of_same (fun z => ?_) (congrArg State.holdSet same :) (congrArg State.holdsDue same :) (congrArg State.radio same :)
  have zone := congrArg (fun v : State => v.zone z) same
  simp only [State.control_zone] at zone
  exact ⟨(congrArg Zone.hold zone :), (congrArg Zone.budget zone :), (congrArg Zone.idle zone :), (congrArg Zone.holdStart zone :),
    (congrArg Zone.holdFrames zone :)⟩

/-- A count comes to be due, or is due no longer. -/
theorem State.HoldsSound.setHoldsDue (h : s.HoldsSound) {due : List ZoneNo} (once : due.Nodup) (held : ∀ z ∈ due, z ∈ s.holdSet) :
    (s.setHoldsDue due).HoldsSound := ⟨h.once, h.few, h.listed, h.zones, once, held⟩

/-- A count that ends a hold, by what it leaves (R164, step 3). -/
theorem State.countEnds_iff (s : State) (z : ZoneNo) : s.countEnds z = true
    ↔ (s.zone z).counted.budget = 0 ∨ (s.zone z).counted.idle = s.radio.config.holdIdle := by
  simp [State.countEnds]

/-- A HELD zone counted, its hold going on. -/
theorem State.HoldsSound.count (h : s.HoldsSound) (radio : s.RadioLaw) {z : ZoneNo} (held : z ∈ s.holdSet)
    (goes : ¬s.countEnds z = true) : (s.setZone z (s.zone z).counted).HoldsSound := by
  obtain ⟨-, -, -, ⟨-, most⟩, -⟩ := radio
  rw [State.countEnds_iff, not_or] at goes
  exact h.setZone rfl ((h.zones z).counted ((h.listed z).1 held) goes.1 goes.2 most)

/-- A due count taken, the hold ended by it or going on. -/
theorem State.HoldsSound.takeHoldCount (h : s.HoldsSound) (radio : s.RadioLaw) (z : ZoneNo) : (s.takeHoldCount z).HoldsSound := by
  simp only [State.takeHoldCount]
  split
  · rename_i due
    have held : z ∈ s.holdSet := h.dueHeld z (by simpa using due)
    have rest : ∀ w ∈ s.holdsDue.erase z, w ∈ s.holdSet := fun w member => h.dueHeld w (List.mem_of_mem_erase member)
    split
    · obtain ⟨-, -, -, ⟨-, most⟩, -⟩ := radio
      have ended := (h.setHoldsDue (h.dueOnce.erase z) rest).setEnded (z := z)
        (x := { (s.zone z).counted with hold := .none, holdStart := none, holdFrames := 0 }) (by simp)
        ((h.zones z).spent ((h.listed z).1 held) most)
      refine ended.of_same (fun w => ?_) rfl rfl rfl
      simp only [State.endHold_zone, State.setHoldsDue_zone, State.setHoldSet_zone, State.setZone_zone, if_true]
      split <;> exact ⟨rfl, rfl, rfl, rfl, rfl⟩
    · rename_i goes
      exact (h.count radio held goes).setHoldsDue (h.dueOnce.erase z) rest
  · exact h

/-- A due count moves a zone record, and holds and counts due that end, beside the notices. -/
theorem State.takeHoldCount_kept (z : ZoneNo) (s : State) : (s.takeHoldCount z).epoch = s.epoch ∧ (s.takeHoldCount z).radio = s.radio
    ∧ (s.takeHoldCount z).air = s.air ∧ (s.takeHoldCount z).holdSet.Sublist s.holdSet
    ∧ (s.takeHoldCount z).holdsDue.Sublist s.holdsDue := by
  simp only [State.takeHoldCount]
  split
  · split
    · rw [State.endHold_eq]
      exact ⟨rfl, rfl, rfl, List.erase_sublist, List.Sublist.trans List.erase_sublist List.erase_sublist⟩
    · exact ⟨rfl, rfl, rfl, .refl _, List.erase_sublist⟩
  · exact ⟨rfl, rfl, rfl, .refl _, .refl _⟩

theorem State.takeHoldCount_upholds (z : ZoneNo) (s : State) : s.Upholds (s.takeHoldCount z) := by
  obtain ⟨epoch, record, air, fewer, due⟩ := s.takeHoldCount_kept z
  refine ⟨⟨fun law => by rw [State.EpochLaw, epoch]; exact law, fun radio hold => ⟨by rw [State.RadioLaw, record, air]; exact radio, ?_⟩,
    fun law w => ?_⟩, fun none => by rw [none] at due; exact List.sublist_nil.1 due⟩
  · obtain ⟨sound, running⟩ := s.holdLaw_iff.1 hold
    refine (State.holdLaw_iff _).2 ⟨sound.takeHoldCount radio z, fun some => ?_⟩
    rw [record]
    exact running fun none => some (by rw [none] at fewer; exact List.sublist_nil.1 fewer)
  · simp only [State.takeHoldCount]
    split
    · split <;> simp only [State.endHold_zone, State.setHoldsDue_zone, State.setZone_zone, if_true] <;> split
      · exact law z
      · exact law w
      · exact law z
      · exact law w
    · exact law w

theorem State.takeDueHolds_upholds (s : State) : s.Upholds s.takeDueHolds := .foldl _ (fun u z => u.takeHoldCount_upholds z) _ s

/-- The frame-start count: each HELD zone is counted or comes to be due, where none was (R164; assumption 3). -/
theorem State.HoldsSound.countHolds (work : List ZoneNo) (h : s.HoldsSound) (radio : s.RadioLaw) (once : work.Nodup)
    (held : ∀ z ∈ work, z ∈ s.holdSet) (fresh : ∀ z ∈ work, z ∉ s.holdsDue) :
    (work.foldl (fun t z => if t.countEnds z then t.setHoldsDue (t.holdsDue ++ [z]) else t.setZone z (t.zone z).counted) s).HoldsSound := by
  induction work generalizing s with
  | nil => exact h
  | cons z work ih =>
    obtain ⟨new, once⟩ := List.nodup_cons.1 once
    have here := held z List.mem_cons_self
    have later : ∀ w ∈ work, w ∈ s.holdSet := fun w member => held w (List.mem_cons_of_mem _ member)
    have notDue := fresh z List.mem_cons_self
    rw [List.foldl_cons]
    split
    · refine ih (h.setHoldsDue ?_ fun w member => ?_) radio once later fun w member due => ?_
      · exact List.nodup_append.2 ⟨h.dueOnce, List.nodup_singleton z, fun a member b last same =>
          notDue (List.mem_singleton.1 last ▸ same ▸ member)⟩
      · rcases List.mem_append.1 member with old | last
        · exact h.dueHeld w old
        · exact List.mem_singleton.1 last ▸ here
      · rcases List.mem_append.1 due with old | last
        · exact fresh w (List.mem_cons_of_mem _ member) old
        · exact new (List.mem_singleton.1 last ▸ member)
    · rename_i goes
      exact ih (h.count radio here goes) radio once later fun w member => fresh w (List.mem_cons_of_mem _ member)

/-- The frame-start count where no count is due (R164). -/
theorem State.KeepsLaws.countHolds (h : s.KeepsLaws t) (clear : s.RadioLaw → s.HoldLaw → t.holdsDue = []) :
    s.KeepsLaws t.countHolds := by
  have kept : t.countHolds.epoch = t.epoch ∧ t.countHolds.radio = t.radio ∧ t.countHolds.air = t.air ∧ t.countHolds.holdSet = t.holdSet := by
    refine List.foldlRecOn (motive := fun u : State => u.epoch = t.epoch ∧ u.radio = t.radio ∧ u.air = t.air ∧ u.holdSet = t.holdSet)
      t.holdSet _ ⟨rfl, rfl, rfl, rfl⟩ fun u same z _ => ?_
    split <;> exact same
  obtain ⟨epoch, record, air, holdSet⟩ := kept
  refine ⟨fun law => ?_, fun radio hold => ?_, fun law => ?_⟩
  · rw [State.EpochLaw, epoch]
    exact h.epoch law
  · obtain ⟨radio', hold'⟩ := h.holds radio hold
    obtain ⟨sound, running⟩ := t.holdLaw_iff.1 hold'
    refine ⟨by rw [State.RadioLaw, record, air]; exact radio', (State.holdLaw_iff _).2 ⟨?_, by rw [holdSet, record]; exact running⟩⟩
    exact sound.countHolds t.holdSet radio' sound.once (fun _ => id) fun z _ => by simp [clear radio hold]
  · refine List.foldlRecOn (motive := State.GuardLaw) t.holdSet _ (h.guard law) fun u guard z _ => ?_
    split
    · exact guard
    · exact guard.setZone (guard z)

/-! ### The frame (R97, R101, R111) -/

/-- The beacons composed are due no longer. -/
theorem State.composeBeacons_upholds (s : State) : s.Upholds s.composeBeacons := by
  unfold State.composeBeacons
  split
  · refine ⟨⟨id, fun ⟨ack, gap, attempts, idle, channels, windows, _⟩ hold => ?_, id⟩, id⟩
    exact ⟨⟨ack, gap, attempts, idle, channels, windows, by simp⟩, hold⟩
  · exact .refl s

/-- Zone records of a list rewritten, each once. -/
theorem State.foldl_setZone_zone (f : Zone → Zone) (work : List ZoneNo) (s : State) (once : work.Nodup) (z : ZoneNo) :
    (work.foldl (fun t z => t.setZone z (f (t.zone z))) s).zone z = if z ∈ work then f (s.zone z) else s.zone z := by
  induction work generalizing s with
  | nil => simp
  | cons w work ih =>
    obtain ⟨fresh, once⟩ := List.nodup_cons.1 once
    rw [List.foldl_cons, ih _ once, State.setZone_zone]
    by_cases here : z = w
    · subst here
      simp [fresh]
    · simp [here]

/-- A frame of each hold begins with the frame, and its windows only while RUNNING (R97, R98, R111). -/
theorem State.advanceFrame_upholds (s : State) : s.Upholds s.advanceFrame := by
  obtain ⟨zones, same, -⟩ := State.foldl_setZone (fun x _ => { x with holdFrames := x.holdFrames + 1 }) (fun _ _ => rfl) s.holdSet
    ((s.setRadio { s.radio with frame := framePlus s.radio.frame 1 }).setAir
      { s.air with windowsOpen := s.running, beaconDue := s.running, windows := Vector.replicate 4 .none, confirmedNow := [] })
  have aged : s.advanceFrame = _ := same
  have zone : s.holdSet.Nodup → ∀ z, s.advanceFrame.zone z
      = if z ∈ s.holdSet then { s.zone z with holdFrames := (s.zone z).holdFrames + 1 } else s.zone z := fun once z =>
    State.foldl_setZone_zone (fun x => { x with holdFrames := x.holdFrames + 1 }) s.holdSet _ once z
  refine ⟨⟨fun law => by rw [aged]; exact law, fun radio hold => ⟨?_, ?_⟩, fun law => ?_⟩, fun none => by rw [aged]; exact none⟩
  · obtain ⟨ack, gap, attempts, idle, channels, -, -⟩ := radio
    rw [aged]
    exact ⟨ack, gap, attempts, idle, channels, by simp [State.running], id⟩
  · obtain ⟨sound, running⟩ := s.holdLaw_iff.1 hold
    have radio : s.advanceFrame.radio = { s.radio with frame := framePlus s.radio.frame 1 } := by rw [aged]; rfl
    have holdSet : s.advanceFrame.holdSet = s.holdSet := by rw [aged]; rfl
    have holdsDue : s.advanceFrame.holdsDue = s.holdsDue := by rw [aged]; rfl
    refine (State.holdLaw_iff _).2 ⟨⟨holdSet ▸ sound.once, holdSet ▸ sound.few, fun z => ?_, fun z => ?_, holdsDue ▸ sound.dueOnce, ?_⟩, ?_⟩
    · rw [holdSet, sound.listed, zone sound.once]
      split <;> exact Iff.rfl
    · rw [zone sound.once, radio]
      split
      · exact (sound.zones z).aged
      · rename_i free
        exact (sound.zones z).unheld (fun held => free ((sound.listed z).2 held)) _ _
    · rw [holdSet, holdsDue]
      exact sound.dueHeld
    · rw [holdSet, radio]
      exact running
  · exact List.foldlRecOn (motive := State.GuardLaw) s.holdSet _ law fun u guard z _ => guard.setZone (guard z)

/-! ## The law of the radio record (R91, R92) -/

/-- The channels of distinct bytes up to 15 are distinct (R92). -/
theorem channels_nodup {lanes : LaneCount} {r : RadioWords} (ok : channelsOk lanes r = true) :
    ((storedConfig lanes r).channels.toList.take lanes.count).Nodup := by
  simp only [channelsOk, Bool.and_eq_true, List.all_eq_true, decide_eq_true_eq] at ok
  obtain ⟨small, distinct⟩ := ok
  have stored : (storedConfig lanes r).channels.toList = (channelsOf r).map fun b => Fin.ofNat 16 b.toNat := rfl
  rw [stored, ← List.map_take]
  refine List.Nodup.map_on (fun a ha b hb same => ?_) distinct
  have smallA := small a (List.mem_of_mem_take ha)
  have smallB := small b (List.mem_of_mem_take hb)
  have value := congrArg Fin.val same
  simp only [Fin.ofNat] at value
  exact BitVec.eq_of_toNat_eq (by omega)

/-- RADIO_CONFIG: the timing values are brought into their ranges, and while STOPPED no zone is HELD (R92, R93). -/
theorem serveRadioConfig_upholds (r : RadioWords) (s : State) : s.Upholds (serveRadioConfig r s).state := by
  unfold serveRadioConfig
  split
  · exact .refl s
  · rename_i lanes _
    split
    · exact .refl s
    · split
      · exact .refl s
      · rename_i distinct off
        have off : s.radio.state ≠ .running := by simpa [State.running] using off
        refine ⟨⟨id, fun ⟨_, _, _, _, _, windows, beacon⟩ hold => ⟨?_, ?_⟩, id⟩, id⟩
        · refine ⟨?_, ?_, ?_, ?_, channels_nodup (lanes := lanes) (r := r) (by simpa using distinct), windows, beacon⟩ <;>
            simp only [State.accept, State.setRadio_radio, storedConfig, clamp] <;> omega
        · obtain ⟨sound, running⟩ := s.holdLaw_iff.1 hold
          have none : s.holdSet = [] := by
            by_contra some
            exact off (running some)
          have free : ∀ z, (s.zone z).hold ≠ .held := fun z held => by simpa [none] using (sound.listed z).2 held
          exact (State.holdLaw_iff _).2 ⟨⟨sound.once, sound.few, sound.listed, fun z => (sound.zones z).unheld (free z) _ _,
            sound.dueOnce, sound.dueHeld⟩, running⟩

/-- RADIO_START (R94). -/
theorem serveRadioStart_upholds (s : State) : s.Upholds (serveRadioStart s).state := by
  simp only [serveRadioStart, State.accept]
  split
  · exact .refl s
  · refine ⟨⟨id, fun ⟨ack, gap, attempts, idle, channels, _, beacon⟩ hold => ?_, id⟩, id⟩
    obtain ⟨sound, -⟩ := s.holdLaw_iff.1 hold
    exact ⟨⟨ack, gap, attempts, idle, channels, fun _ => rfl, beacon⟩, (State.holdLaw_iff _).2
      ⟨⟨sound.once, sound.few, sound.listed, sound.zones, sound.dueOnce, sound.dueHeld⟩, fun _ => rfl⟩⟩

/-- Every hold ended: none is left, and the radio and the air stay (R165). -/
theorem State.endAllHolds_kept (s : State) : s.endAllHolds.holdSet = [] ∧ s.endAllHolds.radio = s.radio ∧ s.endAllHolds.air = s.air := by
  have ends : ∀ (work : List ZoneNo) (u : State), u.holdSet = work →
      (work.foldl (fun t z => t.endHold z) u).holdSet = [] ∧ (work.foldl (fun t z => t.endHold z) u).radio = u.radio
        ∧ (work.foldl (fun t z => t.endHold z) u).air = u.air := by
    intro work
    induction work with
    | nil => exact fun u all => ⟨all, rfl, rfl⟩
    | cons z work ih => exact fun u all => ih (u.endHold z) (by rw [State.endHold_eq, all, List.erase_cons_head])
  exact ends s.holdSet s rfl

/-- RADIO_STOP: the windows close and every hold ends, so that the stopped radio has none (R95, R165). -/
theorem serveRadioStop_upholds (s : State) : s.Upholds (serveRadioStop s).state := by
  by_cases running : s.running = true
  · have state : (serveRadioStop s).state = (s.stopped.abortAll.reportStaged s).endAllHolds := by
      simp [serveRadioStop, running, State.accept, State.stopped]
    have aborted : (s.stopped.abortAll.reportStaged s).control = s.stopped.control := by simp
    have upheld : s.stopped.Upholds (s.stopped.abortAll.reportStaged s).endAllHolds :=
      (State.Upholds.of_control aborted).trans (.foldl _ (fun u z => u.endHold_upholds z) _ _)
    obtain ⟨none, record, air⟩ := (s.stopped.abortAll.reportStaged s).endAllHolds_kept
    rw [state]
    refine ⟨⟨upheld.epoch, fun radio hold => ⟨?_, (State.holdLaw_iff _).2 ⟨?_, fun some => absurd none some⟩⟩, upheld.guard⟩, upheld.clear⟩
    · obtain ⟨ack, gap, attempts, idle, channels, -, -⟩ := radio
      have stopped : s.stopped.RadioLaw := ⟨ack, gap, attempts, idle, channels, by simp [State.stopped], by simp [State.stopped]⟩
      rw [State.RadioLaw, record, air]
      exact (State.control_radioLaw _).1 (aborted ▸ (State.control_radioLaw _).2 stopped)
    · obtain ⟨sound, -⟩ := s.holdLaw_iff.1 hold
      have stopped : s.stopped.HoldsSound := ⟨sound.once, sound.few, sound.listed, sound.zones, sound.dueOnce, sound.dueHeld⟩
      exact List.foldlRecOn (motive := State.HoldsSound) _ _ (stopped.of_control aborted) fun u ended z _ => ended.endHold z
  · simp only [serveRadioStop, if_neg running]
    exact .refl s

end

end Sys2Proof.Machine
end

