-- ==== Sys2Proof/Proofs/ControlSteps.lean ====
section
/-! Every command keeps the laws of epoch, radio, holds and guard (R70, R91, R92, R117, R159, R163, R166). -/

namespace Sys2Proof.Machine

section
variable {s t : State}

/-! ## Requests and ports (chapter 9) -/

/-- The state that a reset takes meets the laws whatever was before it (R184, R185). -/
theorem State.takeReset_upholds (s : State) : s.Upholds s.takeReset := by
  have reset : s.takeReset.control = State.reset.control := rfl
  have laws : State.reset.Upholds s.takeReset := .of_control reset
  exact ⟨⟨fun _ => laws.epoch resetMeetsTheLaws.epoch, fun _ _ => laws.holds resetMeetsTheLaws.radio resetMeetsTheLaws.hold,
    fun _ => laws.guard resetMeetsTheLaws.guard⟩, fun _ => rfl⟩

/-- Every request upholds the laws, from either port. -/
theorem serve_upholds (port : Port) (r : Request) (s : State) : s.Upholds (serve port r s).state := by
  by_cases still : movesControl r = false
  · exact .of_control (serve_control port r s still)
  cases r with
  | zoneSet z v => exact serveZoneSet_upholds z v s
  | zoneHold z b => exact serveZoneHold_upholds z b s
  | zoneRelease z => exact serveZoneRelease_upholds z s
  | epochOpen e => exact serveEpochOpen_upholds e s
  | epochSchedule n => exact serveEpochSchedule_upholds n s
  | epochAbandon => exact serveEpochAbandon_upholds s
  | radioConfig b => exact serveRadioConfig_upholds b s
  | radioStart => exact serveRadioStart_upholds s
  | radioStop => exact serveRadioStop_upholds s
  | deviceReset => exact s.takeReset_upholds
  | _ => exact absurd rfl still

theorem State.gatewayTake_upholds (tag : Byte) (r : Request) (s : State) : s.Upholds (s.gatewayTake tag r (serve .gateway r)) := by
  unfold State.gatewayTake
  split
  · exact .refl s
  · exact ((State.Upholds.of_control (State.collect_control _ s)).trans (serve_upholds .gateway r _)).trans
      (.of_control (Served.held_control _ tag))

theorem State.readResponse_control (n : Nat) (s : State) : (s.readResponse n).control = s.control := by
  unfold State.readResponse
  split <;> rfl

theorem State.gatewayTransaction_upholds (bytes : List Byte) (s : State) : s.Upholds (s.gatewayTransaction bytes) := by
  unfold State.gatewayTransaction
  split
  · exact .refl s
  · split
    · exact .of_control (s.readResponse_control _)
    · split
      · exact .of_control rfl
      · exact ((State.Upholds.of_control (s.collect_control bytes)).trans (serve_upholds .gateway _ _)).trans
          (.of_control (Served.held_control _ _))

theorem State.serviceFrame_upholds (frame : List Byte) (s : State) : s.Upholds (s.serviceFrame frame) := by
  unfold State.serviceFrame
  split
  · exact .refl s
  · split
    · exact .of_control rfl
    · rename_i r _
      have served := serve_upholds .service r s
      dsimp only
      split
      · exact served
      · exact served.trans (.of_control (State.setService_control _ _))

theorem State.assemble_upholds (buffer : List Byte) (b : Byte) (s : State) : s.Upholds (s.assemble buffer b) := by
  unfold State.assemble
  have hunts : s.Upholds (s.receive .hunting) := .of_control rfl
  dsimp only
  split
  · exact .of_control rfl
  · split
    · refine hunts.trans ?_
      unfold State.serviceTooLong
      split
      · exact .refl _
      · exact .of_control rfl
    · split
      · exact .of_control rfl
      · exact hunts.trans (State.serviceFrame_upholds _ _)

/-! ## Windows (R98 to R100, R123 to R147) -/

/-- A data slot's decision moves the guards alone (R129). -/
theorem State.decideSlot_upholds (lane : Lane) (slot : SlotNo) (s : State) : s.Upholds (s.decideSlot lane slot) := by
  simp only [State.decideSlot]
  split
  · exact .of_control (by simp)
  · split
    · exact .of_control (by simp)
    · split
      · exact .of_control (by simp)
      · exact ((State.Upholds.of_control (s.setPointers_control _)).trans (State.updateGuards_upholds _ _ _)).trans
          (.of_control (State.grant_control _ _ _ _))

theorem State.openSlots_upholds (lane : Lane) (n : Nat) (s : State) : s.Upholds (s.openSlots lane n) := by
  induction n generalizing s with
  | zero => exact .refl s
  | succ n ih =>
    have opens : s.Upholds (s.openSlot lane) :=
      (State.Upholds.of_control (s.setWindows_control lane _)).trans (State.decideSlot_upholds _ _ _)
    exact opens.trans (ih _)

theorem State.openUpTo_upholds (lane : Lane) (n : Nat) (s : State) : s.Upholds (s.openUpTo lane n) := s.openSlots_upholds lane _

theorem State.finishWindows_upholds (s : State) : s.Upholds s.finishWindows := by
  simp only [State.finishWindows]
  split
  · exact (State.Upholds.foldl _ (fun u (w : Lane × SlotNo) => u.openUpTo_upholds w.1 _) _ s).trans
      (.of_control (State.foldl_control _ (fun u (w : Lane × SlotNo) => u.closeSlot_control w.1 w.2) _ _))
  · exact .refl s

/-! ## The frame (R97, R101) -/

theorem State.settleFrame_upholds (s : State) : s.Upholds s.settleFrame :=
  (((State.Upholds.of_control s.takeRetries_control).trans (State.takeExpiry_upholds _)).trans (State.takeDueHolds_upholds _)).trans
    (State.composeBeacons_upholds _)

/-- A frame settled has no hold count due (R164). -/
theorem State.settleFrame_holdsDue (hold : s.HoldLaw) : s.settleFrame.holdsDue = [] := by
  obtain ⟨distinct, -, -, -, once, -⟩ := hold
  have beside := s.takeWork_beside
  have counts := State.foldl_takeHoldCount s.holdsDue s.takeRetries.takeExpiry beside.holdsDue once (beside.holdSet ▸ distinct)
  have composed : ∀ u : State, u.composeBeacons.holdsDue = u.holdsDue := fun u => by
    rw [State.composeBeacons_eq]
    split <;> rfl
  rw [State.settleFrame, composed, State.takeDueHolds, beside.holdsDue]
  exact counts.holdsDue

theorem State.orderedWork_upholds (o : FrameOrder) (s : State) : s.Upholds (s.orderedWork o) := by
  have optional : ∀ (b : Bool) (u v : State), u.Upholds v → u.Upholds (if b then v else u) := fun b u v upheld => by
    split
    · exact upheld
    · exact .refl u
  exact (((optional o.retries s _ (.of_control s.takeRetries_control)).trans
    (optional o.expiry _ _ (State.takeExpiry_upholds _))).trans (optional o.holds _ _ (State.takeDueHolds_upholds _))).trans
    (optional o.beacon _ _ (State.composeBeacons_upholds _))

/-- FRAME_START (R97): the counts of the new frame find none due, since the frame before was settled. -/
theorem State.frameStart_keepsLaws (o : FrameOrder) (s : State) :
    s.KeepsLaws (s.settleFrame.finishWindows.advanceFrame.countDown.countHolds.orderedWork o) := by
  have settled := s.settleFrame_upholds
  have advanced := (s.settleFrame.finishWindows_upholds.trans (State.advanceFrame_upholds _)).trans (State.countDown_upholds _)
  have counted := State.KeepsLaws.countHolds (settled.trans advanced).toKeepsLaws fun _ hold =>
    advanced.clear (State.settleFrame_holdsDue hold)
  exact counted.trans (State.orderedWork_upholds o _).toKeepsLaws

/-! ## Every command -/

theorem exec_keepsLaws (c : Instr) (s t : State) (h : exec c s = .next t) : s.KeepsLaws t := by
  cases row : c.request with
  | some tr =>
    rw [exec_request (tag := tr.1) (r := tr.2) row] at h
    obtain rfl := Host.Outcome.next.inj h
    exact (s.gatewayTake_upholds _ _).toKeepsLaws
  | none =>
    have settled := s.settleFrame_upholds
    have unmoved := (State.Upholds.refl s).toKeepsLaws
    cases c with
    | powerOnReset =>
      obtain rfl := Host.Outcome.next.inj h
      exact s.takeReset_upholds.toKeepsLaws
    | resetEnd =>
      obtain rfl := Host.Outcome.next.inj h
      exact (State.Upholds.of_control (s.setInReset_control false)).toKeepsLaws
    | readResponse n =>
      obtain rfl := Host.Outcome.next.inj h
      split
      · exact unmoved
      · exact (State.Upholds.of_control (s.readResponse_control n)).toKeepsLaws
    | unknownKindFrame bytes =>
      obtain rfl := Host.Outcome.next.inj h
      exact (s.gatewayTransaction_upholds bytes).toKeepsLaws
    | serviceLineByte b stopBitError =>
      obtain rfl := Host.Outcome.next.inj h
      have received : ∀ r, s.KeepsLaws (s.receive r) := fun r => (State.Upholds.of_control (s.setService_control _)).toKeepsLaws
      split
      · exact unmoved
      · split
        · split
          · exact received _
          · exact unmoved
        · split
          · exact received _
          · exact (s.assemble_upholds _ b).toKeepsLaws
    | serviceLineGapTimeout =>
      obtain rfl := Host.Outcome.next.inj h
      exact (State.Upholds.of_control (s.setService_control _)).toKeepsLaws
    | serviceResponseSent =>
      obtain rfl := Host.Outcome.next.inj h
      exact (State.Upholds.of_control (s.setService_control _)).toKeepsLaws
    | frameStart o =>
      by_cases on : s.inReset = false
      · rw [show exec (.frameStart o) s = _ from execFrameStart_eq o s on] at h
        obtain rfl := Host.Outcome.next.inj h
        exact s.frameStart_keepsLaws o
      · have off : s.inReset = true := by simpa using on
        obtain rfl : s = t := by simpa [exec, execFrameStart, off] using h
        exact unmoved
    | backoffRetryDue k =>
      obtain rfl := Host.Outcome.next.inj h
      split
      · exact unmoved
      · split
        · exact (State.Upholds.of_control (s.writeLabel_control k _)).toKeepsLaws
        · exact unmoved
    | countdownExpiry =>
      obtain rfl := Host.Outcome.next.inj h
      exact s.takeExpiry_upholds.toKeepsLaws
    | holdBudgetSpent z =>
      obtain rfl := Host.Outcome.next.inj h
      split
      · exact (s.takeHoldCount_upholds z).toKeepsLaws
      · exact unmoved
    | holdIdleReached z =>
      obtain rfl := Host.Outcome.next.inj h
      split
      · exact (s.takeHoldCount_upholds z).toKeepsLaws
      · exact unmoved
    | dataSlotOpening lane slot =>
      obtain rfl := Host.Outcome.next.inj h
      split
      · exact (settled.trans (State.openUpTo_upholds lane _ _)).toKeepsLaws
      · exact unmoved
    | ackArrival lane slot m =>
      obtain rfl := Host.Outcome.next.inj h
      dsimp only
      split
      · have opened := settled.trans (State.openUpTo_upholds lane 6 _)
        split
        · exact opened.toKeepsLaws
        · exact (opened.trans (.of_control (State.takeAck_control lane slot _ _))).toKeepsLaws
      · exact unmoved
    | ackSlotClose lane slot =>
      obtain rfl := Host.Outcome.next.inj h
      split
      · exact ((settled.trans (State.openUpTo_upholds lane 6 _)).trans (.of_control (State.closeSlot_control lane slot _))).toKeepsLaws
      · exact unmoved
    | _ => contradiction

theorem step_keepsLaws (s t : State) (h : step s = .next t) : s.KeepsLaws t := by
  unfold step at h
  split at h
  · obtain rfl := Host.Outcome.next.inj h
    exact (State.Upholds.refl s).toKeepsLaws
  · rename_i c rest _
    exact (State.Upholds.of_control (s.setPending_control rest)).toKeepsLaws.trans (exec_keepsLaws c _ t h)

end

/-- Settles O56: what every command keeps of these laws, a step keeps. -/
theorem stepKeepsEpochRadioHoldAndGuardLaws : Obligations.StepKeepsEpochRadioHoldAndGuardLaws :=
  ⟨fun s t law stepped => (step_keepsLaws s t stepped).epoch law,
   fun s t radio hold stepped => (step_keepsLaws s t stepped).holds radio hold,
   fun s t law stepped => (step_keepsLaws s t stepped).guard law⟩

end Sys2Proof.Machine
end

