-- ==== Sys2Proof/Proofs/Changeovers.lean ====
section
/-! The changeover (chapter 4): EPOCH_OPEN and EPOCH_SCHEDULE by their checks, and what a cutover and an abandon make of the records. -/

namespace Sys2Proof.Machine

/-! ## EPOCH_OPEN and EPOCH_SCHEDULE (R73 to R76) -/

section
variable {s : State} {e : Epoch} {count : BitVec 32}

theorem liesAfter_iff (e f : Epoch) : liesAfter e f = true ↔ 1 ≤ (e - f).toNat ∧ (e - f).toNat ≤ 32767 := by simp [liesAfter]

theorem State.epochOpen_iff (s : State) : s.epochOpen = true ↔ s.epoch.state ≠ .steady := by simp [State.epochOpen]

theorem serveEpochOpen_badValue (zero : e = 0) : serveEpochOpen e s = s.refuse .badValue := if_pos zero

theorem serveEpochOpen_wrongState (nonzero : e ≠ 0) (away : s.epoch.state ≠ .steady) :
    serveEpochOpen e s = s.refuse .wrongEpochState :=
  (if_neg nonzero).trans (if_pos (s.epochOpen_iff.2 away))

theorem serveEpochOpen_notAfter (nonzero : e ≠ 0) (steady : s.epoch.state = .steady)
    (early : ¬(liesAfter e s.epoch.lastIssued = true ∧ liesAfter e s.epoch.active = true)) :
    serveEpochOpen e s = s.refuse .epochNotAfter := by
  rw [← Bool.and_eq_true, Bool.not_eq_true] at early
  exact (if_neg nonzero).trans ((if_neg fun open_ => s.epochOpen_iff.1 open_ steady).trans (if_pos (by rw [early]; rfl)))

theorem serveEpochOpen_opens (nonzero : e ≠ 0) (steady : s.epoch.state = .steady) (last : liesAfter e s.epoch.lastIssued = true)
    (active : liesAfter e s.epoch.active = true) : serveEpochOpen e s
    = (s.setEpoch { s.epoch with state := .opened, lastIssued := e, pending := some e }).accept (leBytes 2 e.toNat) :=
  (if_neg nonzero).trans ((if_neg fun open_ => s.epochOpen_iff.1 open_ steady).trans (if_neg (by simp [last, active])))

theorem serveEpochSchedule_badValue (large : 1048575 < count.toNat) : serveEpochSchedule count s = s.refuse .badValue :=
  if_pos large

theorem serveEpochSchedule_wrongState (low : count.toNat ≤ 1048575) (steady : s.epoch.state = .steady) :
    serveEpochSchedule count s = s.refuse .wrongEpochState :=
  (if_neg (Nat.not_lt.2 low)).trans (if_pos (by simp [State.epochOpen, steady]))

/-- A count of 1 or more arms the epoch (R75). -/
theorem serveEpochSchedule_arms (positive : 1 ≤ count.toNat) (low : count.toNat ≤ 1048575) (away : s.epoch.state ≠ .steady) :
    serveEpochSchedule count s = (s.setEpoch { s.epoch with state := .armed, countdown := count.toNat, expiryDue := false }).accept
      (leBytes 4 count.toNat ++ leBytes 2 s.epoch.active.toNat) := by
  have open_ : ¬(!s.epochOpen) = true := by simp [State.epochOpen, away]
  refine (if_neg (Nat.not_lt.2 low)).trans ((if_neg open_).trans ?_)
  rw [if_neg (Nat.ne_of_gt positive)]
  rfl

/-- A count of 0 is the cutover at once (R76). -/
theorem serveEpochSchedule_cuts (zero : count.toNat = 0) (away : s.epoch.state ≠ .steady) : serveEpochSchedule count s
    = s.cutover.accept (leBytes 4 s.cutover.epoch.countdown ++ leBytes 2 s.cutover.epoch.active.toNat) := by
  have open_ : ¬(!s.epochOpen) = true := by simp [State.epochOpen, away]
  refine (if_neg (by omega)).trans ((if_neg open_).trans ?_)
  rw [if_pos zero]

end

/-- Settles O29: each check in its order, and the epoch record an accepted request leaves. -/
theorem epochOpenAndSchedule : Obligations.EpochOpenAndSchedule := by
  refine ⟨fun tag e s awake => ?_, fun tag count s awake => ⟨fun large => ?_, fun low steady => ?_, fun positive low away => ?_⟩⟩
  · split
    · exact State.request_refused rfl awake (serveEpochOpen_badValue ‹_›)
    rename_i nonzero
    split
    · exact State.request_refused rfl awake (serveEpochOpen_wrongState nonzero ‹_›)
    rename_i steady
    have steady : s.epoch.state = .steady := not_not.1 steady
    split
    · rename_i early
      exact State.request_refused rfl awake (serveEpochOpen_notAfter nonzero steady fun both => early ((liesAfter_iff _ _).1 both.1))
    rename_i last
    split
    · rename_i early
      exact State.request_refused rfl awake (serveEpochOpen_notAfter nonzero steady fun both => early ((liesAfter_iff _ _).1 both.2))
    rename_i active
    exact State.request_accepted rfl awake (serveEpochOpen_opens nonzero steady ((liesAfter_iff _ _).2 (not_not.1 last))
      ((liesAfter_iff _ _).2 (not_not.1 active)))
  · exact State.request_refused rfl awake (serveEpochSchedule_badValue large)
  · exact State.request_refused rfl awake (serveEpochSchedule_wrongState low steady)
  · exact State.request_accepted rfl awake (serveEpochSchedule_arms positive low away)

/-! ## Records rewritten, whatever else an event does -/

section
variable {s t : State} {test : Nat → Label → Bool} {change : Nat → Label → Label}

/-- What follows label records rewritten, the count right. -/
theorem State.updateLabels_follows (tables : s.TablesLaw) (queue : s.QueueLaw) (counts : s.CountsLaw) (bound : s.BoundLaw)
    (kept : ∀ k l u, Label.KeptIn u l (change k l)) (labels : t.labels = (s.updateLabels test change).labels)
    (queues : t.queues = (s.updateLabels test change).queues) (zones : t.zones = (s.updateLabels test change).zones)
    (items : t.items = (s.updateLabels test change).items) (right : t.epoch.outstanding = t.owed) : s.Follows t := by
  have address : ∀ k l, (change k l).address = l.address := fun k l => (kept k l s).address
  have changes : Changes s (s.updateLabels test change) := (s.updateLabels_edits test change tables fun k l _ u => kept k l u).changes
  have counts' := (Changes.keep (P := fun u => u.QueueLaw ∧ u.CountsLaw) Change.queue_counts changes tables ⟨queue, counts⟩).2.2
  have bound' := (Changes.keep (P := State.BoundLaw) Change.bound changes tables bound).2
  have label : ∀ j, t.label j = (s.updateLabels test change).label j := fun j => by simp only [State.label, labels]
  have item : ∀ j, t.item j = (s.updateLabels test change).item j := fun j => by simp only [State.item, items]
  have zone : ∀ z, t.zone z = (s.updateLabels test change).zone z := State.zone_congr zones
  refine ⟨fun z => ?_, ?_, fun z => ?_, ?_, ?_, right⟩
  · simp only [label, labels, show t.queue z = (s.updateLabels test change).queue z by simp only [State.queue, queues]]
    exact State.updateLabels_queue tables queue kept z
  · simpa only [State.CountsLaw, zone, State.tally, labels] using counts'
  · rw [zone]
    exact State.updateLabels_zone_counts tables address z
  · simpa only [State.BoundLaw, item, items, labels] using bound'
  · rw [items]
    exact State.updateLabels_unbound tables address

/-- A state that differs from another in label records and what goes with them. -/
theorem State.SameBesideLabels.eq_withRecords (h : s.SameBesideLabels t) : t = t.withRecords s :=
  State.BesideRecords.eq ⟨h.inReset, h.gateway, h.service, h.templates, by rw [h.epoch], h.radio, h.air, h.pointers, h.entries, h.holdSet,
    h.holdsDue, h.notices, h.pending⟩

end

/-- The price sets of all items rewritten leave what label records rest on (R82, R87). -/
theorem State.Laws.mapItems {s : State} (laws : s.Laws) {f : Item → Item}
    (same : ∀ x, (f x).number = x.number ∧ (f x).bound = x.bound) :
    (s.setItems (s.items.map fun kx => (kx.1, f kx.2))).TablesLaw ∧ (s.setItems (s.items.map fun kx => (kx.1, f kx.2))).BoundLaw :=
  ⟨Edit.tables (.itemMap same) laws.tables, Edit.bound (.itemMap same) laws.tables laws.bound⟩

/-! ## The cutover (R76, R77, R82 to R85, R154) -/

section
variable {s : State} {l : Label}

/-- The items committed, with the label records as they were (R82). -/
def State.committed (s : State) : State := s.setItems (s.items.map fun kx => (kx.1, kx.2.committed))

/-- A label record once the cutover has converted it (R83). -/
def Label.converted (l : Label) : Label :=
  { l with shownCheck := (l.stagedPage.map StagedPage.check).or l.shownCheck, stagedPage := none,
           needs := { l.needs with staged := false, shown := l.needs.shown || l.needs.staged } }

/-- A confirmed staged page is one of the pending epoch, so the cutover converts every record in full (R78, R83). -/
theorem Label.StagedFor.cutOver_eq {pending : Option Epoch} (h : l.StagedFor pending) : l.cutOver pending = l.converted := by
  have needs : ∀ m : Label, (if m.needs.staged then { m with needs := { m.needs with staged := false, shown := true } } else m)
      = { m with needs := { m.needs with staged := false, shown := m.needs.shown || m.needs.staged } } := fun m => by
    obtain ⟨⟩ := m
    rename_i n _ _ _ _ _ _ _ _ _ _ _ _
    obtain ⟨shown, staged, query, locate⟩ := n
    cases staged <;> simp
  simp only [Label.cutOver, Label.converted, needs]
  cases page : l.stagedPage with
  | none => simp [page]
  | some g => simp [h.page g page]

/-- The label records converted over the committed items. -/
def State.cutLabels (s : State) : State := s.committed.updateLabels (fun _ _ => true) fun _ l => l.cutOver s.epoch.pending

/-- The cutover by its parts: items, labels, entries, epoch record, notice (R82 to R85). -/
theorem State.cutover_eq (s : State) : s.cutover = (((s.cutLabels.setEntries (s.entries.map Entry.relabelled)).setEpoch
    (s.epoch.ended (s.epoch.pending.getD s.epoch.active))).raise .cutoverDone) := by
  have same : s.committed.SameBesideLabels s.cutLabels := State.updateLabels_same _ _ _
  have epoch : s.cutLabels.epoch = s.epoch := same.epoch
  have entries : s.cutLabels.entries = s.entries := same.entries
  change (((s.cutLabels.setEntries (s.cutLabels.entries.map Entry.relabelled)).setEpoch
    (s.cutLabels.epoch.ended (s.cutLabels.epoch.pending.getD s.cutLabels.epoch.active))).raise .cutoverDone) = _
  rw [epoch, entries]

/-- A cutover outside STEADY: what each record becomes, what follows it, and the rest by parts (R82 to R85). -/
theorem State.Laws.cutover {s : State} (laws : s.Laws) (away : s.epoch.state ≠ .steady) :
    (∀ j, s.cutover.label j = (s.label j).map Label.converted) ∧ s.committed.Follows s.cutover
      ∧ s.cutover = ((((s.cutover.withRecords s.committed).setEntries (s.entries.map Entry.relabelled)).setEpoch
          (s.epoch.ended s.epoch.lastIssued)).raise .cutoverDone) := by
  obtain ⟨tables, bound⟩ := laws.mapItems (f := Item.committed) fun _ => ⟨rfl, rfl⟩
  obtain ⟨-, pending, -⟩ := laws.epoch
  have active : s.epoch.pending.getD s.epoch.active = s.epoch.lastIssued := by rw [(pending away).1]; rfl
  have same : s.committed.SameBesideLabels s.cutLabels := State.updateLabels_same _ _ _
  refine ⟨fun j => ?_, ?_, ?_⟩
  · refine (State.updateLabels_label (fun _ _ => true) (fun _ l => l.cutOver s.epoch.pending) s.committed j tables.rising).trans ?_
    cases here : s.label j with
    | none => rw [show s.committed.label j = none from here]; rfl
    | some l =>
      rw [show s.committed.label j = some l from here]
      exact congrArg some (laws.stagedWork.work.labels j l here).cutOver_eq
  · exact State.updateLabels_follows (test := fun _ _ => true) (change := fun _ l => l.cutOver s.epoch.pending) tables laws.queue
      laws.counts bound (fun _ l u => (l.cutOver_setup _).kept (by simp) (fun settled => settled.cutOver _) u) rfl rfl rfl rfl
      (laws.stagedWork.cutover laws.tables).count
  · calc s.cutover
        = (((s.cutLabels.setEntries (s.entries.map Entry.relabelled)).setEpoch (s.epoch.ended s.epoch.lastIssued)).raise
            .cutoverDone) := active ▸ s.cutover_eq
      _ = ((((s.cutLabels.withRecords s.committed).setEntries (s.entries.map Entry.relabelled)).setEpoch
            (s.epoch.ended s.epoch.lastIssued)).raise .cutoverDone) := by rw [← same.eq_withRecords]
      _ = _ := rfl

end

/-- A request served leaves what its block left, its response held in the Gateway Port. -/
theorem State.request_served {s : State} {c : Instr} {tag : Byte} {r : Request} {v : Served} (row : c.request = some (tag, r))
    (awake : s.inReset = false) (served : serve .gateway r (s.collect (r.frame tag)) = v) : exec c s = .next (v.held tag) := by
  rw [exec_request row, State.gatewayTake_eq _ _ _ _ awake, served]

/-- Settles O30: the cutover by its parts, taken at once or at the expiry. -/
theorem cutoverConvertsEverything : Obligations.CutoverConvertsEverything := by
  refine ⟨fun s quiet => ?_, fun s laws away => ⟨fun tag awake => ?_, fun due => ?_⟩⟩
  · simp [exec, execCountdownExpiry, State.takeExpiry, quiet]
  · let taken : State := s.collect ((Request.epochSchedule 0).frame tag)
    let answer : State → State := State.holdResponse tag (.ok, leBytes 4 0 ++ leBytes 2 s.epoch.lastIssued.toNat)
    obtain ⟨label, follows, parts⟩ := (laws.collect ((Request.epochSchedule 0).frame tag)).cutover away
    have ended : taken.cutover.epoch = s.epoch.ended s.epoch.lastIssued := congrArg State.epoch parts
    have served := serveEpochSchedule_cuts (s := taken) (count := 0) rfl away
    rw [ended] at served
    exact ⟨answer taken.cutover, State.request_served (r := .epochSchedule 0) rfl awake served, ⟨label, follows⟩,
      congrArg answer parts⟩
  · obtain ⟨label, follows, parts⟩ := laws.cutover away
    refine ⟨s.cutover, ?_, ⟨label, follows⟩, parts⟩
    obtain ⟨-, -, armed, -, last⟩ := laws.epoch
    have runs : s.epoch.state = .armed := armed.2 (by rw [last due]; decide)
    simp [exec, execCountdownExpiry, State.takeExpiry, due, runs]

/-! ## The abandon (R87, R88, R155) -/

section
variable {l : Label}

/-- A label record once an abandon has discarded its staged work (R15, R87). -/
def Label.abandoned (l : Label) : Label :=
  let l' := { l with needs := { l.needs with staged := false }, stagedPage := none, changed := l.changed && l.needs.shown }
  if l.state = .inFlight ∨ l'.hasNeed = true then l' else { l' with state := .current, attempts := 0, retryFrame := none }

theorem Label.Settled.abandon_eq (h : l.Settled) : l.abandon = l.abandoned := by
  obtain ⟨current, -, retry, -⟩ := h
  cases state : l.state <;> simp_all [Label.abandon, Label.abandoned, Label.followNeeds, Label.hasNeed, Needs.any]

/-- An abandon leaves a record without staged work as it is. -/
theorem Label.Settled.abandon_self (h : l.Settled) (idle : ¬(l.needs.staged || l.stagedPage.isSome) = true) : l.abandon = l := by
  obtain ⟨unowed, pageless⟩ : l.needs.staged = false ∧ l.stagedPage = none := by simpa using idle
  have noted : (l.changed && l.needs.shown) = l.changed := by
    obtain ⟨-, -, -, -, -, noted⟩ := h
    cases changed : l.changed
    · rfl
    · simpa [unowed, changed] using noted changed
  have same : ({ l with needs := { l.needs with staged := false }, stagedPage := none, changed := l.changed && l.needs.shown } : Label)
      = l := by rw [noted, ← unowed, ← pageless]
  rw [Label.abandon, same, h.followNeeds_self]

/-- The items with their next sets discarded, the label records as they were (R87). -/
def State.discarded (s : State) : State := s.setItems (s.items.map fun kx => (kx.1, { kx.2 with next := none }))

/-- The label records abandoned over those items. -/
def State.abandonLabels (s : State) : State :=
  s.discarded.updateLabels (fun _ l => l.needs.staged || l.stagedPage.isSome) fun _ l => l.abandon

/-- The state an accepted abandon leaves, by its parts (R87, R88). -/
def State.abandonAll (s : State) : State :=
  (s.abandonLabels.setEntries (s.entries.map Entry.withdrawn)).setEpoch (s.abandonLabels.epoch.ended s.epoch.active)

theorem serveEpochAbandon_wrongState {s : State} (steady : s.epoch.state = .steady) :
    serveEpochAbandon s = s.refuse .wrongEpochState := if_pos (by simp [State.epochOpen, steady])

theorem serveEpochAbandon_ends {s : State} (away : s.epoch.state ≠ .steady) :
    serveEpochAbandon s = s.abandonAll.accept (leBytes 2 (s.epoch.pending.getD 0).toNat) := by
  have same : s.discarded.SameBesideLabels s.abandonLabels := State.updateLabels_same _ _ _
  have epoch : s.abandonLabels.epoch.active = s.epoch.active := congrArg EpochRecord.active same.epoch
  have entries : s.abandonLabels.entries = s.entries := same.entries
  refine (if_neg (by simp [State.epochOpen, away])).trans ?_
  change ((s.abandonLabels.setEntries (s.abandonLabels.entries.map Entry.withdrawn)).setEpoch
    (s.abandonLabels.epoch.ended s.abandonLabels.epoch.active)).accept _ = _
  rw [epoch, entries]
  rfl

/-- An abandon outside STEADY: what each record becomes, what follows it, and the rest by parts (R87, R88). -/
theorem State.Laws.abandonAll {s : State} (laws : s.Laws) (away : s.epoch.state ≠ .steady) :
    (∀ j, s.abandonAll.label j = (s.label j).map Label.abandoned) ∧ s.discarded.Follows s.abandonAll
      ∧ s.abandonAll = ((s.abandonAll.withRecords s.discarded).setEntries (s.entries.map Entry.withdrawn)).setEpoch
          (s.epoch.ended s.epoch.active) := by
  obtain ⟨tables, bound⟩ := laws.mapItems (f := fun x => { x with next := none }) fun _ => ⟨rfl, rfl⟩
  have same : s.discarded.SameBesideLabels s.abandonLabels := State.updateLabels_same _ _ _
  have staged : s.abandonAll.Staged := by
    have left := serveEpochAbandon_staged laws.tables laws.stagedWork
    rwa [serveEpochAbandon_ends away] at left
  refine ⟨fun j => ?_, ?_, ?_⟩
  · refine (State.updateLabels_label (fun _ l => l.needs.staged || l.stagedPage.isSome) (fun _ l => l.abandon) s.discarded j
      tables.rising).trans (Option.map_congr fun l here => ?_)
    have settled : l.Settled := laws.settled here
    split
    · exact settled.abandon_eq
    · rw [← settled.abandon_eq, settled.abandon_self ‹_›]
  · exact State.updateLabels_follows (test := fun _ l => l.needs.staged || l.stagedPage.isSome) (change := fun _ l => l.abandon) tables
      laws.queue laws.counts bound (fun _ l u => l.abandon_setup.kept l.abandon_inFlight (fun settled => settled.abandon) u)
      rfl rfl rfl rfl staged.count
  · calc s.abandonAll
        = (s.abandonLabels.setEntries (s.entries.map Entry.withdrawn)).setEpoch (s.epoch.ended s.epoch.active) := by
          rw [State.abandonAll, same.epoch]
          rfl
      _ = ((s.abandonLabels.withRecords s.discarded).setEntries (s.entries.map Entry.withdrawn)).setEpoch
            (s.epoch.ended s.epoch.active) := by rw [← same.eq_withRecords]
      _ = _ := rfl

end

/-- Settles O31: the refusal in STEADY, else the abandon by its parts. -/
theorem epochAbandon : Obligations.EpochAbandon := by
  refine fun tag s awake laws => ⟨fun steady => State.request_refused rfl awake (serveEpochAbandon_wrongState steady), fun away => ?_⟩
  let answer : State → State := State.holdResponse tag (.ok, leBytes 2 s.epoch.lastIssued.toNat)
  obtain ⟨label, follows, parts⟩ := (laws.collect (Request.epochAbandon.frame tag)).abandonAll away
  have served := serveEpochAbandon_ends (s := s.collect (Request.epochAbandon.frame tag)) away
  obtain ⟨-, pending, -⟩ := laws.epoch
  have last : s.epoch.pending = some s.epoch.lastIssued := (pending away).1
  rw [show (s.collect (Request.epochAbandon.frame tag)).epoch.pending = some s.epoch.lastIssued from last] at served
  exact ⟨answer (s.collect (Request.epochAbandon.frame tag)).abandonAll, State.request_served (r := .epochAbandon) rfl awake served,
    label, follows, congrArg answer parts⟩

end Sys2Proof.Machine
end

