-- ==== Sys2Proof/Proofs/ShelfLabels.lean ====
section
/-! A shelf label as the controller relies on it (section 5.4): the messages of a grant read back, the answer owed frame by frame, what
a beacon does. -/

namespace Sys2Proof.Machine

/-! ## The controller's messages as a label reads them (R201) -/

section
variable {a : Address} {side : PageSide} {epoch : Epoch} {c : Settings} {locate : Bool} {template : Fin 32} {page : List Byte}
  {check : Check}

/-- A message's air check is right. -/
theorem sealed_take {m bytes : List Byte} (sealed : m = sealAir bytes) : m = sealAir (m.take (m.length - 2)) := by
  have length : m.length - 2 = bytes.length := by simp [sealed, sealAir, leBytes]
  have front : m.take bytes.length = bytes := by rw [sealed, sealAir, List.take_left]
  rw [length, front, sealed]

/-- A field of a message within the field's own bytes. -/
theorem leAt_add (m : List Byte) (off k n : Nat) : leAt m (off + k) n = leAt (m.drop off) k n := by
  simp only [leAt, List.drop_drop]

/-- The settings of a message as they were sent. -/
theorem settingsAt_bytes {m rest : List Byte} {off : Nat} (phase : c.phase < 256) (here : m.drop off = c.bytes ++ rest) :
    settingsAt m off = c := by
  have byte : ∀ v : Nat, leNat (leBytes 1 v) = v % 256 := fun v => leNat_leBytes 1 v
  have zone : leAt m (off + 0) 1 = c.zone.val % 256 := by rw [leAt_add, here, ← byte]; rfl
  have lane : leAt m (off + 1) 1 = c.lane.val % 256 := by rw [leAt_add, here, ← byte]; rfl
  have exponent : leAt m (off + 2) 1 = c.exponent.val % 256 := by rw [leAt_add, here, ← byte]; rfl
  have phase' : leAt m (off + 3) 1 = c.phase % 256 := by rw [leAt_add, here, ← byte]; rfl
  rw [settingsAt, ← Nat.add_zero off, zone, Nat.add_zero, lane, exponent, phase', Nat.mod_eq_of_lt (by omega : c.zone.val < 256),
    Nat.mod_eq_of_lt (by omega : c.lane.val < 256), Nat.mod_eq_of_lt (by omega : c.exponent.val < 256), Nat.mod_eq_of_lt phase]
  simp

theorem flagAt_flagByte {m rest : List Byte} {off : Nat} (here : m.drop off = flagByte locate :: rest) : flagAt m off = locate := by
  have read : leAt m off 1 = (flagByte locate).toNat := by rw [leAt, here]; rfl
  rw [flagAt, read]
  cases locate <;> rfl

/-- The bytes of a PAGE before its page. -/
def pageHead (a : Address) (side : PageSide) (epoch : Epoch) (c : Settings) (locate : Bool) (template : Fin 32) (length : Nat) :
    List Byte :=
  (0x02 : Byte) :: (leBytes 3 a.toNat ++ (sideCode side :: (leBytes 2 epoch.toNat ++ (c.bytes ++ (flagByte locate ::
    (leBytes 1 template.val ++ leBytes 1 length))))))

/-- A PAGE by its parts: 14 bytes, the page, the page check, the air check. -/
theorem pageMessage_eq : ∃ air : Check, pageMessage a side epoch c locate template page check
    = pageHead a side epoch c locate template page.length ++ (page ++ (leBytes 2 check.toNat ++ leBytes 2 air.toNat)) :=
  ⟨_, by simp only [pageMessage, sealAir, pageHead, List.append_assoc, List.cons_append, List.nil_append]; rfl⟩

/-- A label takes a PAGE as a grant sent it. -/
theorem hear_pageMessage (short : page.length < 256) (phase : c.phase < 256) :
    hear a (pageMessage a side epoch c locate template page check)
      = some (.page (sideCode side == 1) epoch c locate template.val page check) := by
  have sealed := sealed_take (m := pageMessage a side epoch c locate template page check) rfl
  obtain ⟨air, parts⟩ := pageMessage_eq (a := a) (side := side) (epoch := epoch) (c := c) (locate := locate) (template := template)
    (page := page) (check := check)
  generalize pageMessage a side epoch c locate template page check = m at sealed parts
  have length : m.length = 18 + page.length := by
    rw [parts]
    simp [pageHead, leBytes, Settings.bytes]
    omega
  have kind : leAt m 0 1 = 2 := by rw [parts]; rfl
  have address : leAt m 1 3 = leNat (leBytes 3 a.toNat) := by rw [parts]; rfl
  have code : leAt m 4 1 = leNat [sideCode side] := by rw [parts]; rfl
  have number : leAt m 5 2 = leNat (leBytes 2 epoch.toNat) := by rw [parts]; rfl
  have form : leAt m 12 1 = template.val := by
    rw [show leAt m 12 1 = leNat (leBytes 1 template.val) by rw [parts]; rfl, leNat_leBytes]
    omega
  have size : leAt m 13 1 = page.length := by
    rw [show leAt m 13 1 = leNat (leBytes 1 page.length) by rw [parts]; rfl, leNat_leBytes]
    omega
  have tail : m.drop 14 = page ++ (leBytes 2 check.toNat ++ leBytes 2 air.toNat) := by rw [parts]; rfl
  have bytes : (m.drop 14).take page.length = page := by rw [tail, List.take_left]
  have last : leAt m (14 + page.length) 2 = leNat (leBytes 2 check.toNat) := by
    rw [leAt, ← List.drop_drop, tail, List.drop_left]
    rfl
  have settings : settingsAt m 7 = c := settingsAt_bytes phase (by rw [parts]; rfl)
  have flag : flagAt m 11 = locate := flagAt_flagByte (by rw [parts]; rfl)
  have staged : (leAt m 4 1 == 1) = (sideCode side == 1) := by
    rw [code]
    cases side <;> rfl
  rw [hear, if_neg (by rw [address, ofNat_leNat_leBytes 3 a rfl]; simpa using sealed), if_pos ⟨kind, by rw [size, length]⟩]
  simp only [size, bytes, last, number, form, settings, flag, staged, ofNat_leNat_leBytes 2 check rfl, ofNat_leNat_leBytes 2 epoch rfl]

/-- A label takes a QUERY as a grant sent it. -/
theorem hear_queryMessage (phase : c.phase < 256) : hear a (queryMessage a c locate) = some (.query c locate) := by
  have sealed := sealed_take (m := queryMessage a c locate) rfl
  have length : (queryMessage a c locate).length = 11 := rfl
  have kind : leAt (queryMessage a c locate) 0 1 = 3 := rfl
  have address : leAt (queryMessage a c locate) 1 3 = leNat (leBytes 3 a.toNat) := rfl
  have settings : settingsAt (queryMessage a c locate) 4 = c := settingsAt_bytes phase rfl
  have flag : flagAt (queryMessage a c locate) 8 = locate := flagAt_flagByte rfl
  rw [hear, if_neg (by rw [address, ofNat_leNat_leBytes 3 a rfl]; simpa using sealed), if_neg (by simp [kind]), if_pos ⟨kind, length⟩,
    settings, flag]

/-- A message that meets none of R201's forms is not taken. -/
theorem hear_of_not_takes {m : List Byte} (other : ¬takesMessage a m) : hear a m = none := by
  unfold hear
  split
  · rfl
  rename_i own
  obtain ⟨sealed, address⟩ : m = sealAir (m.take (m.length - 2)) ∧ BitVec.ofNat 24 (leAt m 1 3) = a := by
    simpa only [not_or, not_not, ne_eq] using own
  rw [if_neg fun form => other ⟨sealed, address, .inl form⟩, if_neg fun form => other ⟨sealed, address, .inr form⟩]

end

/-! ## The answer owed, frame by frame (R105, R107) -/

section
variable {l : ShelfLabel} {d : AnswerDue}

/-- A label in another frame by its own count. -/
def ShelfLabel.atFrame (f : Frame) (l : ShelfLabel) : ShelfLabel := { l with count := f }

theorem ShelfLabel.listens_of_due (due : l.due = [d]) : l.listens = true := by simp [ShelfLabel.listens, due]

/-- A frame that passes before the answer's own keeps the label listening. -/
theorem ShelfLabel.tick_before (awake : l.awake = true) (due : l.due = [d]) (early : d.frame ≠ l.count) :
    l.tick = l.atFrame (l.count + 1) := by
  have kept : l.due.filter (fun d => d.frame != l.count) = l.due := by simp [due, early]
  have listens : ShelfLabel.listens { l with count := l.count + 1 } = true := ShelfLabel.listens_of_due due
  simp only [ShelfLabel.tick, kept, listens, ShelfLabel.atFrame]
  rw [← awake]

/-- Every frame until the answer's own is listened in. -/
theorem ShelfLabel.ticks_before (awake : l.awake = true) (due : l.due = [d]) :
    ∀ n, (∀ i, i < n → d.frame ≠ framePlus l.count i) → ShelfLabel.tick^[n] l = l.atFrame (framePlus l.count n)
  | 0, _ => by simp [framePlus, ShelfLabel.atFrame]
  | n + 1, early => by
    have before := ticks_before awake due n fun i less => early i (by omega)
    have next : framePlus l.count n + 1 = framePlus l.count (n + 1) := by
      simp only [framePlus, BitVec.ofNat_add, BitVec.add_assoc]
      rfl
    have ticked := ShelfLabel.tick_before (l := l.atFrame (framePlus l.count n)) awake due (early n (by omega))
    rw [Function.iterate_succ_apply', before, ticked, ← next]
    rfl

/-- The answer due goes out in its own frame and slot. -/
theorem ShelfLabel.answer_due (due : l.due = [d]) (now : d.frame = l.count) : l.answer d.slot = some
    (⟨d.lane, l.plan[d.lane.val], (l.ack d.accepted).message⟩,
      (d.adopts.map fun c => { l with due := [] }.adopt c).getD { l with due := [] }) := by
  simp [ShelfLabel.answer, due, now]

/-- In another frame or slot no answer goes out. -/
theorem ShelfLabel.answer_none (due : l.due = [d]) {slot : SlotNo} (other : d.frame ≠ l.count ∨ d.slot ≠ slot) :
    l.answer slot = none := by
  have unmet : (d.frame == l.count && d.slot == slot) = false := by
    rw [Bool.and_eq_false_iff]
    simpa only [beq_eq_false_iff_ne] using other
  simp [ShelfLabel.answer, due, unmet]

/-- Frames less than a whole numbering apart differ. -/
theorem framePlus_inj {f : Frame} {n i : Nat} (hn : n < 2 ^ 24) (hi : i < 2 ^ 24) : framePlus f n = framePlus f i ↔ n = i := by
  rw [framePlus, framePlus, BitVec.add_right_inj]
  refine ⟨fun same => ?_, fun same => same ▸ rfl⟩
  have numbers := congrArg BitVec.toNat same
  rwa [BitVec.toNat_ofNat, BitVec.toNat_ofNat, Nat.mod_eq_of_lt hn, Nat.mod_eq_of_lt hi] at numbers

end

/-! ## A message received (R103, R107 to R109) -/

section
variable {L : ShelfLabel} {slot : SlotNo} {c : Settings} {locate : Bool} {e : Entry}

/-- What a label stores and shows, apart from the rest of it. -/
def ShelfLabel.store (shown : HeldPage) (staged : Option (Epoch × HeldPage)) (led : Bool) (l : ShelfLabel) : ShelfLabel :=
  { l with shown := shown, staged := staged, led := led }

/-- A label accepts a PAGE or QUERY as the entry `e` stands for it: it stores, owes an answer, and its ACK is a success of `e`. -/
def ShelfLabel.Accepts (L : ShelfLabel) (slot : SlotNo) (c : Settings) (e : Entry) (l : ShelfLabel) : Prop :=
  ∃ shown staged led, l = (L.store shown staged led).owe slot true c ∧ e.succeeds ((L.store shown staged led).ack true) = true

theorem ShelfLabel.take_page {side : PageSide} {epoch : Epoch} {template : Fin 32} {mask : BitVec 48} {page : List Byte}
    (holds : L.masks.find? (fun km => km.1 == template.val) = some (template.val, mask))
    (sent : e.message = .page side epoch (crc16 (includedBytes mask 0 page))) :
    L.Accepts slot c e (L.take slot (.page (sideCode side == 1) epoch c locate template.val page (crc16 (includedBytes mask 0 page)))) := by
  have check : L.checkOf template.val page = some (crc16 (includedBytes mask 0 page)) := by simp [ShelfLabel.checkOf, holds]
  simp only [ShelfLabel.take, if_pos check]
  cases side with
  | shown =>
    exact ⟨⟨page, _⟩, L.staged, L.led || locate, rfl, by simp [Entry.succeeds, sent, ShelfLabel.ack, ShelfLabel.store]⟩
  | staged =>
    exact ⟨L.shown, some (epoch, ⟨page, _⟩), L.led || locate, rfl, by simp [Entry.succeeds, sent, ShelfLabel.ack, ShelfLabel.store]⟩

theorem ShelfLabel.take_query (sent : e.message = .query) : L.Accepts slot c e (L.take slot (.query c locate)) :=
  ⟨L.shown, L.staged, L.led || locate, rfl, by simp [Entry.succeeds, sent, ShelfLabel.ack]⟩

/-- An accepted message is answered once, ACK_DELAY frames later in its own slot, with a success, and its settings adopted. -/
theorem ShelfLabel.Accepts.answers {l : ShelfLabel} (accepts : L.Accepts slot c e l) (awake : L.awake = true) (idle : L.due = [])
    (few : L.ackDelay ≤ 15) :
    (∀ n, n ≤ L.ackDelay → (ShelfLabel.tick^[n] l).awake = true)
    ∧ (∀ n j, n ≤ L.ackDelay → (n ≠ L.ackDelay ∨ j ≠ slot) → (ShelfLabel.tick^[n] l).answer j = none)
    ∧ ∃ sent L' a, (ShelfLabel.tick^[L.ackDelay] l).answer slot = some (⟨L.settings.lane, L.plan[L.settings.lane.val], sent⟩, L')
        ∧ receiveAck sent = some a ∧ a.address = L.address ∧ e.succeeds a = true ∧ L'.settings = c ∧ L'.due = [] := by
  obtain ⟨shown, staged, led, rfl, success⟩ := accepts
  let owed : AnswerDue := ⟨framePlus L.count L.ackDelay, slot, L.settings.lane, true, some c⟩
  have due : ((L.store shown staged led).owe slot true c).due = [owed] := congrArg (· ++ [owed]) idle
  have later : ∀ n, n ≤ L.ackDelay → ShelfLabel.tick^[n] ((L.store shown staged led).owe slot true c)
      = ((L.store shown staged led).owe slot true c).atFrame (framePlus L.count n) := fun n within =>
    ShelfLabel.ticks_before (l := (L.store shown staged led).owe slot true c) awake due n fun i less =>
      mt (framePlus_inj (by omega) (by omega)).1 (by omega)
  refine ⟨fun n within => ?_, fun n j within other => ?_, ?_⟩
  · rw [later n within]
    exact awake
  · rw [later n within]
    have apart : framePlus L.count L.ackDelay = framePlus L.count n ↔ L.ackDelay = n := framePlus_inj (by omega) (by omega)
    exact ShelfLabel.answer_none (l := ((L.store shown staged led).owe slot true c).atFrame (framePlus L.count n)) due
      (other.imp (fun ne same => ne (apart.1 same).symm) Ne.symm)
  · rw [later _ (Nat.le_refl _)]
    exact ⟨_, _, _, ShelfLabel.answer_due (d := owed) due rfl, receiveAck_message _, rfl, success, rfl, rfl⟩

end

/-! ## What a label hears (R104, R105) -/

theorem ShelfLabel.hears_iff {L : ShelfLabel} {m : OnAir} :
    L.hears m = true ↔ L.awake = true ∧ m.lane = L.settings.lane ∧ m.channel = L.plan[m.lane.val] := by
  simp [ShelfLabel.hears, and_assoc]

theorem ShelfLabel.receive_heard {L : ShelfLabel} {m : OnAir} {h : Heard} (slot : SlotNo) (hears : L.hears m = true)
    (heard : hear L.address m.bytes = some h) : L.receive slot m = L.take slot h := by
  simp only [ShelfLabel.receive, hears, heard, if_true]

/-! ## A beacon heard (R72, R105, R106) -/

section
variable {L : ShelfLabel} {active : Epoch} {b : Beacon}

/-- A beacon's active epoch moves the two page stores alone (R72). -/
theorem ShelfLabel.meetEpoch_eq (L : ShelfLabel) (active : Epoch) :
    L.meetEpoch active = { L with shown := (L.meetEpoch active).shown, staged := (L.meetEpoch active).staged } := by
  cases L with
  | mk _ _ _ _ _ _ staged _ _ _ _ _ _ _ =>
    cases staged with
    | none => rfl
    | some p =>
      simp only [ShelfLabel.meetEpoch]
      split
      · rfl
      split <;> rfl

theorem ShelfLabel.meetEpoch_none (empty : L.staged = none) : L.meetEpoch active = L := by simp [ShelfLabel.meetEpoch, empty]

theorem ShelfLabel.meetEpoch_flips {page : HeldPage} (held : L.staged = some (active, page)) :
    L.meetEpoch active = { L with shown := page, staged := none } := by simp [ShelfLabel.meetEpoch, held]

theorem ShelfLabel.meetEpoch_other {e : Epoch} {page : HeldPage} (held : L.staged = some (e, page)) (other : active ≠ e) :
    L.meetEpoch active = { L with staged :=
      if active = 0 ∨ (1 ≤ (active - e).toNat ∧ (active - e).toNat ≤ 32767) then none else L.staged } := by
  simp only [ShelfLabel.meetEpoch, held, if_neg other, epochAfter, Bool.or_eq_true, Bool.and_eq_true, decide_eq_true_eq]
  split
  · rfl
  · rw [← held]

theorem ShelfLabel.listens_iff (l : ShelfLabel) : l.listens = true
    ↔ l.count.toNat % 2 ^ l.settings.exponent.val = l.settings.phase ∨ l.holding = true ∨ l.due ≠ [] := by
  simp [ShelfLabel.listens, Settings.period, or_assoc]

theorem ShelfLabel.heeds_iff (l : ShelfLabel) (holdList : List Nat) :
    l.heeds holdList = true ↔ 2 < l.battery.val ∧ l.settings.zone.val ∈ holdList := by
  simp [ShelfLabel.heeds]

/-- What a beacon leaves a label (R72, R105, R106). -/
theorem ShelfLabel.takeBeacon_parts (L : ShelfLabel) (b : Beacon) :
    (L.takeBeacon b).count = b.frame ∧ (L.takeBeacon b).settings = L.settings ∧ (L.takeBeacon b).ackDelay = b.ackDelay
      ∧ (L.takeBeacon b).holding = L.heeds b.holdList
      ∧ ((L.takeBeacon b).awake = true
        ↔ b.frame.toNat % 2 ^ L.settings.exponent.val = L.settings.phase ∨ L.heeds b.holdList = true ∨ L.due ≠ [])
      ∧ (L.takeBeacon b).shown = (L.meetEpoch b.active).shown ∧ (L.takeBeacon b).staged = (L.meetEpoch b.active).staged := by
  have settings : (L.meetEpoch b.active).settings = L.settings := by rw [L.meetEpoch_eq]
  refine ⟨rfl, settings, rfl, rfl, ?_, rfl, rfl⟩
  refine (ShelfLabel.listens_iff _).trans ?_
  simp only [settings, ne_eq, List.map_eq_nil_iff]

end

/-- Settles O50: the message heard, the answer owed until its frame, and the beacon by its parts. -/
theorem labelAnswersWithSuccess : Obligations.LabelAnswersWithSuccess := by
  refine ⟨fun L slot channel c locate message e awake plan idle _ few phase sent => ?_, fun L slot m deaf => ?_,
    fun L slot m other => ?_, fun L m b hears read => ?_, fun L => ⟨rfl, ?_⟩⟩
  · have hears : L.hears ⟨L.settings.lane, channel, message⟩ = true := ShelfLabel.hears_iff.2 ⟨awake, rfl, plan.symm⟩
    subst plan
    have accepts : L.Accepts slot c e (L.receive slot ⟨L.settings.lane, L.plan[L.settings.lane.val], message⟩) := by
      obtain ⟨side, epoch, template, mask, page, short, holds, entry, rfl⟩ | ⟨entry, rfl⟩ := sent
      · rw [ShelfLabel.receive_heard slot hears (hear_pageMessage (by omega) phase)]
        exact ShelfLabel.take_page holds entry
      · rw [ShelfLabel.receive_heard slot hears (hear_queryMessage phase)]
        exact ShelfLabel.take_query entry
    exact accepts.answers awake idle few
  · have unheard : ¬L.hears m = true := fun hears => by
      obtain ⟨awake, lane, channel⟩ := ShelfLabel.hears_iff.1 hears
      obtain asleep | away | elsewhere := deaf
      · simp [awake] at asleep
      · exact away lane
      · exact elsewhere channel.symm
    exact ⟨if_neg unheard, if_neg unheard⟩
  · simp only [ShelfLabel.receive, hear_of_not_takes other, ite_self]
  · have heard : L.hearBeacon m = L.takeBeacon b := by simp only [ShelfLabel.hearBeacon, hears, read, if_true]
    obtain ⟨count, settings, ackDelay, holding, awake, shown, staged⟩ := L.takeBeacon_parts b
    simp only [heard, shown, staged]
    refine ⟨count, settings, ackDelay, ?_, ?_, fun e page held => ⟨?_, fun other => ?_⟩, fun empty => ?_⟩
    · rw [holding, ShelfLabel.heeds_iff]
    · rw [awake, holding]
    · rintro rfl
      rw [ShelfLabel.meetEpoch_flips held]
      exact ⟨rfl, rfl⟩
    · rw [ShelfLabel.meetEpoch_other held other]
      exact ⟨rfl, rfl⟩
    · rw [ShelfLabel.meetEpoch_none empty]
      exact ⟨rfl, empty⟩
  · refine (ShelfLabel.listens_iff _).trans ?_
    simp [List.filter_eq_nil_iff]

end Sys2Proof.Machine
end

