-- ==== Sys2Proof/Proofs/Receptions.lean ====
section
/-! What the receiver takes and discards (R103, R201), and the windows' commands that do nothing (R95, R98, R100, R138, R147;
assumption 4). -/

namespace Sys2Proof

/-- What the receiver discards, by R201's tests in their order. -/
theorem receiveAck_eq_none_iff (m : List Byte) : receiveAck m = none ↔
    (m.length ≠ 14 ∨ m ≠ sealAir (m.take 12) ∨ leAt m 0 1 ≠ 4 ∨ 1 < leAt m 4 1 ∨ 15 < leAt m 11 1) := by
  simp only [receiveAck, ite_eq_right_iff, reduceCtorEq, imp_false, not_and_or, not_le, ne_eq]

/-- Settles O49: an ACK's bytes read back field by field, and a message discarded by the test it fails. -/
theorem ackMessageRoundTrip : Obligations.AckMessageRoundTrip :=
  ⟨fun a => ⟨rfl, receiveAck_message a⟩, receiveAck_eq_none_iff⟩

end Sys2Proof

namespace Sys2Proof.Machine

section
variable {s : State} {lane : Lane} {slot : SlotNo}

/-- A lane without windows, as the windows' commands judge it. -/
theorem State.laneOnAir_eq_false (off : s.inReset = true ∨ s.air.windowsOpen = false ∨ s.radio.config.lanes.count ≤ lane.val) :
    s.laneOnAir lane = false := by
  rw [Bool.eq_false_iff, ne_eq, State.laneOnAir_iff]
  rintro ⟨awake, windows, active⟩
  rcases off with reset | shut | inactive
  · simp [awake] at reset
  · simp [windows] at shut
  · exact absurd active (Nat.not_lt.2 inactive)

/-- Settles O47: each command of a window tests the lane, and then the window's own record. -/
theorem noWindowNoEffect : Obligations.NoWindowNoEffect := by
  intro lane slot m s off
  refine ⟨fun none => ?_, fun none => ?_, fun none => ?_⟩
  · rcases none with away | opened
    · simp [exec, execDataSlotOpening, State.laneOnAir_eq_false away]
    · simp [exec, execDataSlotOpening, Nat.not_le.2 opened]
  · rcases none with away | closed | ⟨j, taken, later⟩
    · simp [exec, execAckArrival, State.laneOnAir_eq_false away]
    · simp [exec, execAckArrival, closed]
    · have behind : (s.air.windows[lane.val].taken.all fun j => decide (j < slot)) = false :=
        List.all_eq_false.2 ⟨j, taken, by simpa using later⟩
      simp [exec, execAckArrival, behind]
  · rcases none with away | closed
    · simp [exec, execAckSlotClose, State.laneOnAir_eq_false away]
    · simp [exec, execAckSlotClose, closed]

/-- An ACK that no entry of its slot and address expects is taken and ignored (R100, R138). -/
theorem State.takeAck_unmatched {a : Ack} (none : ∀ e ∈ s.entries, ¬(e.lane = lane ∧ e.expected = s.radio.frame ∧ e.slot = slot
    ∧ e.address = a.address)) : s.takeAck lane slot a
    = s.setWindows lane { s.air.windows[lane.val] with taken := slot :: s.air.windows[lane.val].taken } := by
  have unmatched : s.matchArrival lane slot a.address = Option.none :=
    List.find?_eq_none.2 fun e member => by simpa [and_assoc] using none e member
  have unmatched' : (s.setWindows lane { s.air.windows[lane.val] with taken := slot :: s.air.windows[lane.val].taken }).matchArrival
    lane slot a.address = Option.none := unmatched
  simp only [State.takeAck, unmatched']

/-- The close of an ack slot that no entry expects (R147). -/
theorem State.closeSlot_unexpected (still : slot ∉ s.air.windows[lane.val].closed)
    (none : ∀ e ∈ s.entries, ¬(e.lane = lane ∧ e.expected = s.radio.frame ∧ e.slot = slot)) : s.closeSlot lane slot
    = s.setWindows lane { s.air.windows[lane.val] with closed := slot :: s.air.windows[lane.val].closed } := by
  have unexpected : s.expecting lane slot = Option.none :=
    List.find?_eq_none.2 fun e member => by simpa [and_assoc] using none e member
  have unexpected' : (s.setWindows lane { s.air.windows[lane.val] with closed := slot :: s.air.windows[lane.val].closed }).expecting
    lane slot = Option.none := unexpected
  have open_ : ¬s.air.windows[lane.val].closed.contains slot = true := by simpa using still
  simp only [State.closeSlot, if_neg open_, unexpected']

end

/-- Settles O46: in a settled frame with every data slot opened the command is its one window, which finds no entry. -/
theorem unmatchedArrivalIgnored : Obligations.UnmatchedArrivalIgnored := by
  intro lane slot s awake settled windows active opened still
  have on : s.laneOnAir lane = true := (s.laneOnAir_iff lane).2 ⟨awake, windows, active⟩
  refine ⟨fun a first none => ?_, fun m discarded => ?_, fun none => ?_⟩
  · refine (execAckArrival_next lane slot a.message s on settled opened still first).trans ?_
    rw [receiveAck_message, Option.elim_some, State.takeAck_unmatched none]
    rfl
  · have unread := (receiveAck_eq_none_iff m).2 discarded
    simp [exec, execAckArrival, unread, State.settleFrame_of_settled s settled,
      State.openUpTo_done lane 6 s (Nat.le_of_eq opened.symm)]
  · refine (execAckSlotClose_next lane slot s on settled opened still).trans ?_
    rw [State.closeSlot_unexpected still none]
    rfl

end Sys2Proof.Machine
end

