-- ==== Sys2Proof/Proofs/RadioRequests.lean ====
section
/-! The radio's requests (section 5.1): RADIO_CONFIG by its checks. -/

namespace Sys2Proof.Machine

/-! ## RADIO_CONFIG (R92, R93) -/

section
variable {b : Byte} {lanes : LaneCount} {r : RadioWords} {s : State}

/-- A lane count that is no count of lanes (R92). -/
theorem laneCountOf_eq_none (other : ¬(b = 1 ∨ b = 2 ∨ b = 4)) : laneCountOf b = none := by
  simp only [not_or, ← BitVec.toNat_inj] at other
  obtain ⟨one, two, four⟩ := other
  unfold laneCountOf
  split
  · exact absurd ‹_› one
  · exact absurd ‹_› two
  · exact absurd ‹_› four
  · rfl

/-- The lane count that a byte names, and its byte (R92, R198). -/
theorem laneCountOf_eq_some (named : b = 1 ∨ b = 2 ∨ b = 4) :
    laneCountOf b = some (if b = 1 then .one else if b = 2 then .two else .four)
      ∧ b = BitVec.ofNat 8 (if b = 1 then LaneCount.one else if b = 2 then .two else .four).count := by
  rcases named with rfl | rfl | rfl <;> exact ⟨rfl, rfl⟩

/-- The channels pass R92 when none is above 15 and those of the active lanes differ. -/
theorem channelsOk_iff : channelsOk lanes r = true ↔
    (¬∃ c ∈ (channelsOf r).map BitVec.toNat, 15 < c) ∧ (((channelsOf r).map BitVec.toNat).take lanes.count).Nodup := by
  rw [channelsOk, Bool.and_eq_true, decide_eq_true_eq, ← List.map_take, List.nodup_map_iff fun _ _ => BitVec.eq_of_toNat_eq]
  simp

/-- The timing values a configuration stores, each brought into its range (R92). -/
theorem storedConfig_eq : storedConfig lanes r =
    { lanes := lanes
      channels := #v[Fin.ofNat 16 r.channel0.toNat, Fin.ofNat 16 r.channel1.toNat, Fin.ofNat 16 r.channel2.toNat,
                     Fin.ofNat 16 r.channel3.toNat]
      ackDelay := if r.ackDelay.toNat < 2 then 2 else if 15 < r.ackDelay.toNat then 15 else r.ackDelay.toNat
      retryGap := if r.retryGap.toNat = 0 then 1 else r.retryGap.toNat
      maxAttempts := if r.maxAttempts.toNat = 0 then 1 else if 15 < r.maxAttempts.toNat then 15 else r.maxAttempts.toNat
      holdIdle := if r.holdIdle.toNat = 0 then 1 else r.holdIdle.toNat } := by
  have gap := r.retryGap.isLt
  have idle := r.holdIdle.isLt
  simp only [storedConfig, clamp, RadioConfig.mk.injEq, true_and]
  refine ⟨?_, ?_, ?_, ?_⟩ <;> grind

/-- A channel byte up to 15 as the response carries it again (R198). -/
theorem leBytes_channel {c : Byte} (small : ¬15 < c.toNat) : leBytes 1 (Fin.ofNat 16 c.toNat).val = [c] := by
  have low : (Fin.ofNat 16 c.toNat).val = c.toNat := Nat.mod_eq_of_lt (by omega)
  rw [low]
  simp [leBytes]

/-- The channels stored are sent as they were given (R92). -/
theorem storedConfig_channels (small : ¬∃ c ∈ (channelsOf r).map BitVec.toNat, 15 < c) :
    (storedConfig lanes r).channels.toList.flatMap (fun x => leBytes 1 x.val) = channelsOf r := by
  have given : ∀ c ∈ channelsOf r, ¬15 < c.toNat := fun c member large => small ⟨c.toNat, List.mem_map_of_mem member, large⟩
  have stored : (storedConfig lanes r).channels.toList = (channelsOf r).map fun c => Fin.ofNat 16 c.toNat := rfl
  rw [stored, List.flatMap_map, List.flatMap_congr fun c member => leBytes_channel (given c member)]
  exact List.flatMap_singleton' _

theorem serveRadioConfig_unnamed (none : laneCountOf r.lanes = Option.none) : serveRadioConfig r s = s.refuse .badValue := by
  simp only [serveRadioConfig, none]

theorem serveRadioConfig_badChannels (named : laneCountOf r.lanes = some lanes) (bad : ¬channelsOk lanes r = true) :
    serveRadioConfig r s = s.refuse .badValue := by
  simp [serveRadioConfig, named, bad]

theorem serveRadioConfig_running (named : laneCountOf r.lanes = some lanes) (ok : channelsOk lanes r = true)
    (running : s.radio.state = .running) : serveRadioConfig r s = s.refuse .radioRunning := by
  simp [serveRadioConfig, named, ok, State.running, running]

theorem serveRadioConfig_stores (named : laneCountOf r.lanes = some lanes) (ok : channelsOk lanes r = true)
    (stopped : s.radio.state ≠ .running) : serveRadioConfig r s
    = (s.setRadio { s.radio with config := storedConfig lanes r }).accept (storedConfig lanes r).bytes := by
  simp [serveRadioConfig, named, ok, State.running, stopped]

end

/-- Settles O32: the checks one after another, then the configuration stored and its bytes. -/
theorem radioConfigChecksAndClamps : Obligations.RadioConfigChecksAndClamps := by
  intro tag r s awake channels
  split
  · exact State.request_refused rfl awake (serveRadioConfig_unnamed (laneCountOf_eq_none ‹_›))
  rename_i known
  obtain ⟨named, lanesByte⟩ := laneCountOf_eq_some (not_not.1 known)
  generalize (if r.lanes = 1 then LaneCount.one else if r.lanes = 2 then .two else .four) = lanes at named lanesByte ⊢
  have count : r.lanes.toNat = lanes.count := by rw [lanesByte]; cases lanes <;> rfl
  split
  · rename_i large
    exact State.request_refused rfl awake (serveRadioConfig_badChannels named fun ok => (channelsOk_iff.1 ok).1 large)
  rename_i small
  split
  · rename_i double
    exact State.request_refused rfl awake (serveRadioConfig_badChannels named fun ok => double (count ▸ (channelsOk_iff.1 ok).2))
  rename_i distinct
  have ok : channelsOk lanes r = true := channelsOk_iff.2 ⟨small, count ▸ not_not.1 distinct⟩
  split
  · exact State.request_refused rfl awake (serveRadioConfig_running named ok ‹_›)
  rename_i stopped
  have stores := State.request_accepted (c := .radioConfig tag r)
    (t := s.setRadio { s.radio with config := storedConfig lanes r }) rfl awake (serveRadioConfig_stores named ok stopped)
  have head : leBytes 1 lanes.count = [r.lanes] := by rw [lanesByte]; rfl
  rw [RadioConfig.bytes, storedConfig_channels small, storedConfig_eq, head] at stores
  exact stores

end Sys2Proof.Machine
end

