-- ==== Sys2Proof/Proofs/FrameStarts.lean ====
section
/-! FRAME_START (R14, R77, R97, R101, R164): the frame it begins, and the work it takes as the work's own rows take it. -/

namespace Sys2Proof.Machine

section
variable {s t u : State}

/-! ## The frame begun (R77, R97, R111, R164) -/

/-- A zone table by its records. -/
theorem State.zones_eq_ofFn {f : ZoneNo → Zone} (zone : ∀ z, s.zone z = f z) : s.zones = Vector.ofFn f :=
  Vector.ext fun i below => (zone ⟨i, below⟩).trans (by rw [Vector.getElem_ofFn])

/-- The frame advanced, with one frame more of each hold (R97, R98, R111). -/
theorem State.advanceFrame_eq (once : s.holdSet.Nodup) : s.advanceFrame = { s with
    radio := { s.radio with frame := s.radio.frame + 1 }
    air := { s.air with
      windowsOpen := s.radio.state == .running, beaconDue := s.radio.state == .running,
      windows := Vector.replicate 4 ⟨0, [], []⟩, confirmedNow := [] }
    zones := Vector.ofFn fun z =>
      if z ∈ s.holdSet then { s.zone z with holdFrames := (s.zone z).holdFrames + 1 } else s.zone z } := by
  obtain ⟨zones, same, -⟩ := State.foldl_setZone (fun x _ => { x with holdFrames := x.holdFrames + 1 }) (fun _ _ => rfl) s.holdSet
    ((s.setRadio { s.radio with frame := framePlus s.radio.frame 1 }).setAir
      { s.air with windowsOpen := s.running, beaconDue := s.running, windows := Vector.replicate 4 .none, confirmedNow := [] })
  have aged : s.advanceFrame = _ := same
  have table : s.advanceFrame.zones = _ := State.zones_eq_ofFn fun z =>
    State.foldl_setZone_zone (fun x => { x with holdFrames := x.holdFrames + 1 }) s.holdSet _ once z
  have given : zones = s.advanceFrame.zones := by rw [aged]; rfl
  rw [aged, given, table]
  rfl

/-- The countdown of the frame start, by whether the decrement ends it (R77). -/
theorem State.countDown_eq (law : s.EpochLaw) : s.countDown = s.setEpoch (if s.epoch.state = .armed then
      if s.epoch.countdown = 1 then { s.epoch with expiryDue := true } else { s.epoch with countdown := s.epoch.countdown - 1 }
    else s.epoch) := by
  obtain ⟨-, -, armed, -⟩ := law
  unfold State.countDown
  split
  · rename_i runs
    have positive := armed.1 runs
    have last : s.epoch.countdown ≤ 1 ↔ s.epoch.countdown = 1 := by omega
    simp only [last]
    split <;> rfl
  · rfl

/-- Zones of the hold set are counted at the frame start, from `s` to `t`: those whose hold the count ends come to be due, the others are
counted, and nothing else moves (R164). -/
structure State.CountedOn (work : List ZoneNo) (s t : State) : Prop where
  zone : ∀ z, t.zone z = if z ∈ work ∧ ¬s.CountEnds z then (s.zone z).afterCount else s.zone z
  holdsDue : t.holdsDue = s.holdsDue ++ work.filter fun z => decide (s.CountEnds z)
  rest : t = { s with zones := t.zones, holdsDue := t.holdsDue }

/-- One zone counted at the frame start. -/
theorem State.countHold_counts (z : ZoneNo) (s : State) :
    State.CountedOn [z] s (if s.countEnds z then s.setHoldsDue (s.holdsDue ++ [z]) else s.setZone z (s.zone z).counted) := by
  have ends : s.countEnds z = true ↔ s.CountEnds z := s.countEnds_iff z
  split
  · rename_i last
    have last : s.CountEnds z := ends.1 last
    refine ⟨fun w => ?_, by rw [List.filter_cons_of_pos (by simpa using last)]; rfl, rfl⟩
    rw [State.setHoldsDue_zone, if_neg fun ⟨here, goes⟩ => goes (List.mem_singleton.1 here ▸ last)]
  · rename_i goes
    have goes : ¬s.CountEnds z := fun last => goes (ends.2 last)
    refine ⟨fun w => ?_, by rw [List.filter_cons_of_neg (by simpa using goes)]; exact (List.append_nil _).symm, rfl⟩
    rw [State.setZone_zone]
    by_cases here : w = z
    · subst here
      rw [if_pos rfl, if_pos ⟨List.mem_singleton_self w, goes⟩]
      rfl
    · rw [if_neg here, if_neg fun both => here (List.mem_singleton.1 both.1)]

/-- Zones counted one after another. -/
theorem State.CountedOn.trans {z : ZoneNo} {work : List ZoneNo} (fresh : z ∉ work) (h : State.CountedOn [z] s t)
    (k : State.CountedOn work t u) : State.CountedOn (z :: work) s u := by
  have radio : t.radio = s.radio := by rw [h.rest]
  have zone : ∀ w ≠ z, t.zone w = s.zone w := fun w differ => by
    rw [h.zone, if_neg fun both => differ (List.mem_singleton.1 both.1)]
  have ends : ∀ w ≠ z, (t.CountEnds w ↔ s.CountEnds w) := fun w differ => by simp only [State.CountEnds, zone w differ, radio]
  refine ⟨fun w => ?_, ?_, ?_⟩
  · rw [k.zone]
    by_cases here : w = z
    · subst here
      rw [if_neg fun both => fresh both.1, h.zone]
      simp only [List.mem_cons, true_or]
    · simp only [ends w here, zone w here, List.mem_cons, here, false_or]
  · have later : work.filter (fun w => decide (t.CountEnds w)) = work.filter fun w => decide (s.CountEnds w) :=
      List.filter_congr fun w member => by simp only [ends w fun here => fresh (here ▸ member)]
    rw [k.holdsDue, h.holdsDue, later, List.append_assoc, ← List.filter_append, List.singleton_append]
  · rw [k.rest, h.rest]

/-- The frame-start count over zones, each once. -/
theorem State.foldl_countHold (work : List ZoneNo) (s : State) (once : work.Nodup) : State.CountedOn work s
    (work.foldl (fun t z => if t.countEnds z then t.setHoldsDue (t.holdsDue ++ [z]) else t.setZone z (t.zone z).counted) s) := by
  induction work generalizing s with
  | nil => exact ⟨fun z => by simp, (List.append_nil _).symm, rfl⟩
  | cons z work ih =>
    obtain ⟨fresh, once⟩ := List.nodup_cons.1 once
    exact (s.countHold_counts z).trans fresh (ih _ once)

/-- The state in which a settled frame whose windows are done has become the next one: the frame number advanced, an ARMED countdown
decremented or its expiry due, each HELD zone counted or its count due, no window taken yet (R77, R97, R98, R111, R164). -/
def State.nextFrame (s : State) : State := { s with
  radio := { s.radio with frame := s.radio.frame + 1 }
  epoch := if s.epoch.state = .armed then
      if s.epoch.countdown = 1 then { s.epoch with expiryDue := true } else { s.epoch with countdown := s.epoch.countdown - 1 }
    else s.epoch
  air := { s.air with
    windowsOpen := s.radio.state == .running, beaconDue := s.radio.state == .running,
    windows := Vector.replicate 4 ⟨0, [], []⟩, confirmedNow := [] }
  zones := Vector.ofFn fun z =>
    if (s.zone z).hold = .none then s.zone z
    else if s.CountEnds z then { s.zone z with holdFrames := (s.zone z).holdFrames + 1 }
    else { (s.zone z).afterCount with holdFrames := (s.zone z).holdFrames + 1 }
  holdsDue := s.holdSet.filter fun z => decide (s.CountEnds z) }

/-- The frame begun from a settled one (R77, R97, R111, R164). -/
theorem State.Laws.nextFrame_eq (laws : s.Laws) (settled : s.Settled) : s.advanceFrame.countDown.countHolds = s.nextFrame := by
  obtain ⟨sound, -⟩ := s.holdLaw_iff.1 laws.hold
  obtain ⟨-, -, none, -⟩ := settled
  have advanced := State.advanceFrame_eq sound.once
  have counted : s.advanceFrame.countDown = _ := State.countDown_eq (s := s.advanceFrame) (advanced ▸ laws.epoch)
  have zone : ∀ z, s.advanceFrame.countDown.zone z
      = if z ∈ s.holdSet then { s.zone z with holdFrames := (s.zone z).holdFrames + 1 } else s.zone z := fun z => by
    rw [counted, advanced]
    simp only [State.zone, State.setEpoch_zones, Vector.getElem_ofFn]
  have config : s.advanceFrame.countDown.radio.config = s.radio.config := by rw [counted, advanced]; rfl
  have ends : ∀ z, s.advanceFrame.countDown.CountEnds z ↔ s.CountEnds z := fun z => by
    rw [State.CountEnds, State.CountEnds, zone, config]
    split <;> exact Iff.rfl
  have same : s.advanceFrame.countDown.holdSet = s.holdSet := by rw [counted, advanced]; rfl
  have quiet : s.advanceFrame.countDown.holdsDue = [] := by rw [counted, advanced]; exact none
  have counts : State.CountedOn s.advanceFrame.countDown.holdSet _ s.advanceFrame.countDown.countHolds :=
    State.foldl_countHold _ _ (same ▸ sound.once)
  have table : s.advanceFrame.countDown.countHolds.zones = s.nextFrame.zones := State.zones_eq_ofFn fun z => by
    rw [counts.zone]
    simp only [same, ends, zone]
    by_cases held : z ∈ s.holdSet
    · have holds : (s.zone z).hold ≠ .none := by rw [(sound.listed z).1 held]; decide
      simp only [held, true_and, if_true, if_neg holds, ite_not]
      rfl
    · have free : (s.zone z).hold = .none := by
        have unheld := mt (sound.listed z).2 held
        cases h : (s.zone z).hold <;> simp_all
      simp only [held, false_and, if_false, if_pos free]
  have due : s.advanceFrame.countDown.countHolds.holdsDue = s.nextFrame.holdsDue := by
    rw [counts.holdsDue, quiet, same, List.nil_append]
    simp only [ends]
    rfl
  rw [counts.rest, table, due, counted, advanced]
  rfl

/-- FRAME_START in a settled frame whose windows are done: the next frame, and the work it is told to take (R97). -/
theorem State.Laws.exec_frameStart (laws : s.Laws) (awake : s.inReset = false) (settled : s.Settled) (done : s.WindowsDone) (o : FrameOrder) :
    exec (.frameStart o) s = .next (s.nextFrame.orderedWork o) := by
  refine (execFrameStart_eq o s awake).trans ?_
  rw [State.settleFrame_of_settled s settled, State.finishWindows_of_done s done, laws.nextFrame_eq settled]

/-! ## Counts due while other work is taken (R14, R77, R164) -/

/-- No label waits in a zone, by the zone's counts (R6, R7). -/
theorem State.CountsLaw.noneWaits_iff (law : s.CountsLaw) (tables : s.TablesLaw) (z : ZoneNo) :
    ((s.zone z).counts.queued = 0 ∧ (s.zone z).counts.backoff = 0) ↔ ∀ j, queueOf (s.label j) ≠ some z := by
  obtain ⟨-, queued, backoff, -⟩ := law z
  rw [queued, backoff, State.tally, State.tally, List.countP_eq_zero, List.countP_eq_zero]
  constructor
  · rintro ⟨noQueued, noBackoff⟩ j waits
    obtain ⟨l, here, zone, state⟩ := (queueOf_eq_some _ z).1 waits
    have member := (tables.mem_labels j l).2 here
    rcases state with state | state
    · exact noQueued _ member (by simp [zone, state])
    · exact noBackoff _ member (by simp [zone, state])
  · intro none
    have waits : ∀ kl ∈ s.labels, kl.2.adminZone = z → ¬(kl.2.state = .queued ∨ kl.2.state = .backoff) := fun kl member zone state =>
      none kl.1 ((queueOf_eq_some _ z).2 ⟨kl.2, (tables.mem_labels _ _).1 member, zone, state⟩)
    refine ⟨fun kl member counted => ?_, fun kl member counted => ?_⟩ <;> simp only [Bool.and_eq_true, beq_iff_eq] at counted
    · exact waits kl member counted.1 (.inl counted.2)
    · exact waits kl member counted.1 (.inr counted.2)

/-- The labels wait in the same zones, and nothing that a hold's count reads has moved but the zone counts. -/
structure State.SameWaits (s t : State) : Prop where
  waits : ∀ j, queueOf (t.label j) = queueOf (s.label j)
  zone : ∀ z, t.zone z = { s.zone z with counts := (t.zone z).counts }
  radio : t.radio = s.radio

theorem State.SameWaits.trans (h : s.SameWaits t) (k : t.SameWaits u) : s.SameWaits u :=
  ⟨fun j => (k.waits j).trans (h.waits j), fun z => by rw [k.zone, h.zone], k.radio.trans h.radio⟩

/-- A count due ends a hold after as before other work that leaves the labels waiting where they wait (R164). -/
theorem State.SameWaits.countEnds (h : s.SameWaits t) (tables : s.TablesLaw) (tables' : t.TablesLaw) (law : s.CountsLaw)
    (law' : t.CountsLaw) (z : ZoneNo) : t.CountEnds z ↔ s.CountEnds z := by
  have idle : ((t.zone z).counts.queued = 0 ∧ (t.zone z).counts.backoff = 0)
      ↔ ((s.zone z).counts.queued = 0 ∧ (s.zone z).counts.backoff = 0) := by
    rw [law.noneWaits_iff tables, law'.noneWaits_iff tables']
    simp only [h.waits]
  have budget : (t.zone z).budget = (s.zone z).budget := by rw [h.zone]
  have count : (t.zone z).idle = (s.zone z).idle := by rw [h.zone]
  simp only [State.CountEnds, Zone.afterCount, budget, count, h.radio, idle]

/-- Label records rewritten where they wait. -/
theorem State.updateLabels_sameWaits {test : Nat → Label → Bool} {change : Nat → Label → Label} (tables : s.TablesLaw)
    (address : ∀ k l, (change k l).address = l.address)
    (waits : ∀ k l, test k l = true → queueOf (some (change k l)) = queueOf (some l)) : s.SameWaits (s.updateLabels test change) where
  waits j := by
    rw [State.updateLabels_label test change s j tables.rising]
    cases s.label j with
    | none => rfl
    | some l =>
      simp only [Option.map_some]
      split
      · exact waits j l ‹_›
      · rfl
  zone := State.updateLabels_zone_counts tables address
  radio := (s.updateLabels_same test change).radio

/-- A retry leaves each label waiting where it waits (R14). -/
theorem State.takeRetries_sameWaits (tables : s.TablesLaw) : s.SameWaits s.takeRetries :=
  State.updateLabels_sameWaits tables (fun _ _ => rfl) fun _ l due => by
    have state : l.state = .backoff := by
      simp only [State.retryDue, Bool.and_eq_true, beq_iff_eq] at due
      exact due.1
    simp [queueOf, Label.inQueue, Label.retry, state, Label.adminZone]

/-- A cutover leaves each label waiting where it waits (R83). -/
theorem State.takeExpiry_sameWaits (tables : s.TablesLaw) : s.SameWaits s.takeExpiry := by
  unfold State.takeExpiry
  split
  · have committed : s.committed.TablesLaw := Edit.tables (.itemMap (f := Item.committed) fun _ => ⟨rfl, rfl⟩) tables
    have cut : s.committed.SameWaits s.cutLabels :=
      State.updateLabels_sameWaits committed (fun _ l => (l.cutOver_setup _).address) fun _ l _ => by
        have setup := l.cutOver_setup s.epoch.pending
        simp [queueOf, Label.inQueue, Label.adminZone, setup.confirmed, setup.requested]
    rw [State.cutover_eq]
    exact ⟨cut.waits, cut.zone, cut.radio⟩
  · exact ⟨fun _ => rfl, fun _ => rfl, rfl⟩

/-! ## Hold counts by their own rows (R164) -/

/-- The two rows of a zone whose count is due and ends its hold take that count, whichever limit ends it. -/
theorem run_holdEnds {z : ZoneNo} {work : List ZoneNo} (due : s.holdsDue = z :: work) (once : z ∉ work) (ends : s.CountEnds z)
    (distinct : s.holdSet.Nodup) : run [.holdBudgetSpent z, .holdIdleReached z] s = .next (s.takeHoldCount z) := by
  have gone : (s.takeHoldCount z).takeHoldCount z = s.takeHoldCount z := by
    have taken := State.takeHoldCount_counts due once distinct
    rw [State.takeHoldCount, if_neg]
    simpa [taken.holdsDue] using once
  by_cases spent : (s.zone z).counted.budget = 0
  · have second : exec (.holdIdleReached z) (s.takeHoldCount z) = .next (s.takeHoldCount z) := by
      simp only [exec, execHoldIdleReached, gone, ite_self]
    rw [run_cons (show exec (.holdBudgetSpent z) s = .next (s.takeHoldCount z) by simp only [exec, execHoldBudgetSpent, spent, if_true]),
      run_cons second]
    rfl
  · have idle : (s.zone z).counted.idle = s.radio.config.holdIdle := ends.resolve_left spent
    rw [run_cons (show exec (.holdBudgetSpent z) s = .next s by simp only [exec, execHoldBudgetSpent, spent, if_false]),
      run_cons (show exec (.holdIdleReached z) s = .next (s.takeHoldCount z) by simp only [exec, execHoldIdleReached, idle, if_true])]
    rfl

/-- The rows of all zones whose counts are due and end their holds take all counts due. -/
theorem run_holdsDue (work : List ZoneNo) (s : State) (due : s.holdsDue = work) (once : work.Nodup) (ends : ∀ z ∈ work, s.CountEnds z)
    (distinct : s.holdSet.Nodup) : run (work.flatMap fun z => [.holdBudgetSpent z, .holdIdleReached z]) s
      = .next (work.foldl (fun t z => t.takeHoldCount z) s) := by
  induction work generalizing s with
  | nil => rfl
  | cons z work ih =>
    obtain ⟨fresh, once⟩ := List.nodup_cons.1 once
    have taken := State.takeHoldCount_counts due fresh distinct
    have radio : (s.takeHoldCount z).radio = s.radio := by rw [taken.rest]
    rw [List.flatMap_cons, run_append (run_holdEnds due fresh (ends z List.mem_cons_self) distinct), List.foldl_cons]
    refine ih _ taken.holdsDue once (fun w member => ?_) (taken.holdSet ▸ distinct.filter _)
    have other : w ∉ [z] := fun here => fresh (List.mem_singleton.1 here ▸ member)
    rw [State.CountEnds, taken.zone, if_neg other, radio]
    exact ends w (List.mem_cons_of_mem _ member)

/-! ## The frame begun with work still due -/

theorem State.nextFrame_zone (s : State) (z : ZoneNo) : s.nextFrame.zone z = if (s.zone z).hold = .none then s.zone z
    else if s.CountEnds z then { s.zone z with holdFrames := (s.zone z).holdFrames + 1 }
    else { (s.zone z).afterCount with holdFrames := (s.zone z).holdFrames + 1 } :=
  Vector.getElem_ofFn z.isLt

/-- The zone counts stay right in the frame begun (R7). -/
theorem State.CountsLaw.nextFrame (law : s.CountsLaw) : s.nextFrame.CountsLaw := fun z => by
  have counts : (s.nextFrame.zone z).counts = (s.zone z).counts := by
    rw [State.nextFrame_zone]
    split
    · rfl
    · split <;> rfl
  rw [counts]
  exact law z

/-- A count due in the frame begun ends its hold when it is taken (R164). -/
theorem State.nextFrame_ends {z : ZoneNo} (due : z ∈ s.nextFrame.holdsDue) : s.nextFrame.CountEnds z := by
  have last : s.CountEnds z := by simpa using (List.mem_filter.1 due).2
  rw [State.CountEnds, State.nextFrame_zone, if_pos last]
  split <;> exact last

/-- The work of the directory and the epoch that a FRAME_START takes, as their own rows take it. -/
theorem run_orderedRetries (tables : s.TablesLaw) (retries : Bool) :
    run (if retries = true then s.labels.map fun kl => .backoffRetryDue kl.1 else []) s
      = .next (if retries = true then s.takeRetries else s) := by
  cases retries
  · rfl
  · exact run_backoffRetryDue s.labels s tables.rising fun _ member => (tables.mem_labels _ _).1 member

theorem run_orderedExpiry (expiry : Bool) (s : State) :
    run (if expiry = true then [.countdownExpiry] else []) s = .next (if expiry = true then s.takeExpiry else s) := by
  cases expiry <;> rfl

/-- The retries and the expiry of a FRAME_START, as it is told to take them. -/
def State.orderedChanges (retries expiry : Bool) (s : State) : State :=
  let s := if retries = true then s.takeRetries else s
  if expiry = true then s.takeExpiry else s

/-- The retries and the expiry leave the labels waiting where they wait, and the radio, the air and the holds as they were. -/
theorem State.orderedChanges_keeps (tables : s.TablesLaw) (retries expiry : Bool) :
    s.SameWaits (s.orderedChanges retries expiry) ∧ s.BesideWork (s.orderedChanges retries expiry)
      ∧ Edits s (s.orderedChanges retries expiry) := by
  have still : ∀ u : State, u.SameWaits u ∧ u.BesideWork u ∧ Edits u u := fun u =>
    ⟨⟨fun _ => rfl, fun _ => rfl, rfl⟩, ⟨rfl, rfl, rfl, rfl, rfl⟩, .refl⟩
  have first : s.SameWaits (if retries = true then s.takeRetries else s) ∧ s.BesideWork (if retries = true then s.takeRetries else s)
      ∧ Edits s (if retries = true then s.takeRetries else s) := by
    split
    · exact ⟨State.takeRetries_sameWaits tables, s.takeRetries_beside, s.takeRetries_edits tables⟩
    · exact still s
  have second : ∀ u : State, u.TablesLaw → u.SameWaits (if expiry = true then u.takeExpiry else u)
      ∧ u.BesideWork (if expiry = true then u.takeExpiry else u) ∧ Edits u (if expiry = true then u.takeExpiry else u) := fun u tables => by
    split
    · exact ⟨State.takeExpiry_sameWaits tables, u.takeExpiry_beside, u.takeExpiry_edits tables⟩
    · exact still u
  obtain ⟨waits, beside, edits⟩ := first
  obtain ⟨waits', beside', edits'⟩ := second _ (edits.tables tables)
  exact ⟨waits.trans waits', beside.trans beside', edits.trans edits'⟩

/-- Every count due in the frame begun still ends its hold once retries and expiry are taken (R164). -/
theorem State.Laws.orderedChanges_ends (laws : s.Laws) (retries expiry : Bool) {z : ZoneNo} (due : z ∈ s.nextFrame.holdsDue) :
    (s.nextFrame.orderedChanges retries expiry).CountEnds z := by
  have tables : s.nextFrame.TablesLaw := laws.tables
  have queue : s.nextFrame.QueueLaw := laws.queue
  obtain ⟨waits, -, edits⟩ := State.orderedChanges_keeps tables retries expiry
  obtain ⟨tables', -, counts'⟩ := Changes.keep (P := fun u => u.QueueLaw ∧ u.CountsLaw) Change.queue_counts edits.changes tables
    ⟨queue, laws.counts.nextFrame⟩
  exact (waits.countEnds tables tables' laws.counts.nextFrame counts' z).2 (State.nextFrame_ends due)

/-- The work a FRAME_START is told to take but for the beacons, as its own rows take it, and what it leaves on the air. -/
theorem State.Laws.run_orderedWork (laws : s.Laws) (retries expiry holds : Bool) :
    run ((if retries = true then s.labels.map fun kl => .backoffRetryDue kl.1 else [])
        ++ (if expiry = true then [.countdownExpiry] else [])
        ++ (if holds = true then s.nextFrame.holdsDue.flatMap fun z => [.holdBudgetSpent z, .holdIdleReached z] else [])) s.nextFrame
      = .next (s.nextFrame.orderedWork ⟨retries, expiry, holds, false⟩)
    ∧ (s.nextFrame.orderedWork ⟨retries, expiry, holds, false⟩).air = s.nextFrame.air := by
  have tables : s.nextFrame.TablesLaw := laws.tables
  obtain ⟨sound, -⟩ := s.holdLaw_iff.1 laws.hold
  obtain ⟨-, beside, -⟩ := State.orderedChanges_keeps tables retries expiry
  have changes := run_append (ds := if expiry = true then [Instr.countdownExpiry] else []) (run_orderedRetries tables retries)
  rw [run_orderedExpiry] at changes
  rw [show (if retries = true then s.labels.map fun kl => Instr.backoffRetryDue kl.1 else [])
    = if retries = true then s.nextFrame.labels.map fun kl => Instr.backoffRetryDue kl.1 else [] from rfl, run_append changes]
  change run _ (s.nextFrame.orderedChanges retries expiry) = _ ∧ _
  cases holds
  · exact ⟨rfl, beside.air⟩
  · have once : s.nextFrame.holdsDue.Nodup := sound.once.filter _
    have distinct : (s.nextFrame.orderedChanges retries expiry).holdSet.Nodup := beside.holdSet ▸ sound.once
    have taken := State.foldl_takeHoldCount _ _ beside.holdsDue once distinct
    have work : s.nextFrame.orderedWork ⟨retries, expiry, true, false⟩ = s.nextFrame.holdsDue.foldl (fun t z => t.takeHoldCount z)
        (s.nextFrame.orderedChanges retries expiry) := by
      rw [← beside.holdsDue]
      rfl
    rw [work]
    refine ⟨run_holdsDue _ _ beside.holdsDue once (fun z due => laws.orderedChanges_ends retries expiry due) distinct, ?_⟩
    rw [taken.rest]
    exact beside.air

end

/-- Settles O38: the frame begun, the work taken by its own rows, and the beacons after it. -/
theorem frameStartDoesItsWork : Obligations.FrameStartDoesItsWork := by
  intro s awake laws settled done base
  have started : ∀ o, exec (.frameStart o) s = .next (s.nextFrame.orderedWork o) := laws.exec_frameStart awake settled done
  refine ⟨started _, fun retries expiry holds beacon => ?_⟩
  obtain ⟨ran, air⟩ := laws.run_orderedWork retries expiry holds
  refine ⟨_, ran, (started _).trans ?_⟩
  have due : (s.nextFrame.orderedWork ⟨retries, expiry, holds, false⟩).air.beaconDue = (s.radio.state == .running) := by rw [air]; rfl
  cases beacon
  · simp only [Bool.false_eq_true, false_and, if_false]
  · have composed : s.nextFrame.orderedWork ⟨retries, expiry, holds, true⟩
        = (s.nextFrame.orderedWork ⟨retries, expiry, holds, false⟩).composeBeacons := rfl
    rw [composed, State.composeBeacons_eq, due]
    simp only [beq_iff_eq, true_and]

end Sys2Proof.Machine
end

