-- ==== Sys2Proof/Proofs/Eligibility.lean ====
section
/-! Which labels are eligible in the frame in progress (R110, R111). -/

namespace Sys2Proof.Machine

/-! ## Eligibility (R110, R111) -/

section
variable {s : State} {lane : Lane} {k : Nat} {l : Label}

/-- A natural listen frame comes within a number of frames from a frame on exactly when the first one does, which is `(p - h) mod P`
frames away (R111). -/
theorem listens_within_iff {exponent phase : Nat} (short : exponent ≤ 24) (reduced : phase < 2 ^ exponent) (h : Frame) (frames : Nat) :
    (BitVec.ofNat 24 phase - h).toNat % 2 ^ exponent < frames ↔ ∃ g, g < frames ∧ (h.toNat + g) % 2 ^ exponent = phase := by
  have divides : 2 ^ exponent ∣ 2 ^ 24 := Nat.pow_dvd_pow 2 short
  have small : phase < 2 ^ 24 := Nat.lt_of_lt_of_le reduced (Nat.pow_le_pow_right (by decide) short)
  have away : (BitVec.ofNat 24 phase - h).toNat + h.toNat ≡ phase [MOD 2 ^ exponent] := by
    refine Nat.ModEq.of_dvd divides ?_
    have sum := congrArg BitVec.toNat (BitVec.sub_add_cancel (BitVec.ofNat 24 phase) h)
    rw [BitVec.toNat_add, BitVec.toNat_ofNat] at sum
    exact sum
  have first : ∀ g, h.toNat + g ≡ phase [MOD 2 ^ exponent] ↔ g ≡ (BitVec.ofNat 24 phase - h).toNat [MOD 2 ^ exponent] := fun g => by
    rw [Nat.add_comm]
    exact ⟨fun at_ => Nat.ModEq.add_right_cancel' h.toNat (at_.trans away.symm), fun same => (same.add_right h.toNat).trans away⟩
  have natural : ∀ g, (h.toNat + g) % 2 ^ exponent = phase ↔ g ≡ (BitVec.ofNat 24 phase - h).toNat [MOD 2 ^ exponent] := fun g => by
    rw [← first, Nat.ModEq, Nat.mod_eq_of_lt reduced]
  simp only [natural]
  exact ⟨fun soon => ⟨_, soon, Nat.mod_modEq _ _⟩, fun ⟨g, soon, same⟩ => by
    rw [← show g % 2 ^ exponent = _ from same]
    exact Nat.lt_of_le_of_lt (Nat.mod_le _ _) soon⟩

/-- The held part of R110, by the frames of the hold that have begun. -/
theorem State.heldListen_iff (reduced : l.confirmed.Reduced) : s.heldListen l = true ↔
    (s.zone l.confirmed.zone).hold = .held ∧ l.lowBattery = false
      ∧ ∃ h g, (s.zone l.confirmed.zone).holdStart = some h ∧ g < (s.zone l.confirmed.zone).holdFrames
        ∧ (h.toNat + g) % 2 ^ l.confirmed.exponent.val = l.confirmed.phase := by
  by_cases held : (s.zone l.confirmed.zone).hold = .held
  · cases start : (s.zone l.confirmed.zone).holdStart with
    | none => simp [State.heldListen, start]
    | some h =>
      have within := listens_within_iff (by omega) reduced h (s.zone l.confirmed.zone).holdFrames
      simp [State.heldListen, Zone.isHeld, held, start, Settings.period, within, -BitVec.toNat_sub]
  · simp [State.heldListen, Zone.isHeld, held]

/-- Eligibility by its tests in order (R110). -/
theorem State.eligible_iff : s.eligible lane k l = true ↔
    l.confirmed.lane = lane ∧ lane.val < s.radio.config.lanes.count ∧ k ∉ s.air.confirmedNow
      ∧ (s.radio.frame.toNat % 2 ^ l.confirmed.exponent.val = l.confirmed.phase ∨ s.heldListen l = true) := by
  simp [State.eligible, State.laneActive, naturalListen, Settings.period, and_assoc]

/-- The frames of a hold by the frames from its start to the frame in progress, and its start where none has begun (R111). -/
theorem holdFrames_spec {frame h : Frame} {n : Nat} (counted : BitVec.ofNat 24 n = frame - h + 1) :
    (1 ≤ n → n ≤ 16777216 → (frame - h).toNat + 1 = n) ∧ (n = 0 → frame + 1 = h) := by
  refine ⟨fun begun lasted => ?_, fun next => ?_⟩
  · have value := congrArg BitVec.toNat counted
    rw [BitVec.toNat_ofNat, BitVec.toNat_add, show (1 : Frame).toNat = 1 from rfl] at value
    have below := (frame - h).isLt
    omega
  · subst next
    bv_omega

end

/-- Settles O40: eligibility by its tests, its held part by the first natural listen frame of the hold; the count by the law of holds. -/
theorem eligibilityIsTheSpecs : Obligations.EligibilityIsTheSpecs := by
  refine ⟨fun s lane k l reduced => ?_, fun s z h law start => ?_⟩
  · rw [State.eligible_iff, State.heldListen_iff reduced]
  · obtain ⟨sound, -⟩ := s.holdLaw_iff.1 law
    exact holdFrames_spec ((sound.zones z).frames h start)

end Sys2Proof.Machine
end

