-- ==== Sys2Proof/Proofs/RadioStops.lean ====
section
/-! RADIO_START and RADIO_STOP (section 5.1): the order of the aborts, what an abort and the end of every hold come to, and the two
requests by their parts (R13, R94, R95, R156, R165). -/

namespace Sys2Proof.Machine

/-! ## RADIO_START (R94) -/

/-- RADIO_START sets RUNNING; where the radio runs already that changes nothing. -/
theorem serveRadioStart_eq (s : State) :
    serveRadioStart s = (s.setRadio { s.radio with state := .running }).accept (1 :: leBytes 3 (s.radio.frame + 1).toNat) := by
  have same : (if s.running then s else s.setRadio { s.radio with state := .running })
      = s.setRadio { s.radio with state := .running } := by
    split
    · rename_i runs
      have state : s.radio.state = .running := by simpa [State.running] using runs
      rw [← state]
      rfl
    · rfl
  rw [serveRadioStart, same]
  rfl

/-! ## The order of the aborts (R95) -/

/-- An entry comes before another in the order of the aborts: lane, then the older grant frame, then slot. -/
def Entry.Before (now : Frame) (a b : Entry) : Prop :=
  a.lane < b.lane ∨ (a.lane = b.lane ∧ ((now - b.grantFrame).toNat < (now - a.grantFrame).toNat
    ∨ (a.grantFrame = b.grantFrame ∧ a.slot ≤ b.slot)))

section
variable {now : Frame} {a b c e : Entry}

theorem abortBefore_iff : abortBefore now a b = true ↔ a.Before now b := by
  simp [abortBefore, Entry.Before]

/-- Grants of one age stand in one frame. -/
theorem grantFrame_eq_of_age (age : (now - a.grantFrame).toNat = (now - b.grantFrame).toNat) : a.grantFrame = b.grantFrame := by
  bv_omega

theorem Entry.before_total : a.Before now b ∨ b.Before now a := by
  rcases lt_trichotomy a.lane b.lane with less | same | more
  · exact .inl (.inl less)
  · rcases lt_trichotomy (now - b.grantFrame).toNat (now - a.grantFrame).toNat with older | age | younger
    · exact .inl (.inr ⟨same, .inl older⟩)
    · have frame := grantFrame_eq_of_age age
      rcases le_total a.slot b.slot with low | high
      · exact .inl (.inr ⟨same, .inr ⟨frame.symm, low⟩⟩)
      · exact .inr (.inr ⟨same.symm, .inr ⟨frame, high⟩⟩)
    · exact .inr (.inr ⟨same.symm, .inl younger⟩)
  · exact .inr (.inl more)

theorem Entry.Before.trans (h : a.Before now b) (k : b.Before now c) : a.Before now c := by
  rcases h with less | ⟨lane, first⟩
  · exact .inl (k.elim less.trans fun ⟨lane', _⟩ => lane' ▸ less)
  rcases k with less | ⟨lane', second⟩
  · exact .inl (lane ▸ less)
  refine .inr ⟨lane.trans lane', ?_⟩
  rcases first with older | ⟨frame, low⟩
  · exact .inl (second.elim (fun older' => older'.trans older) fun ⟨frame', _⟩ => frame' ▸ older)
  · exact second.imp (fun older' => frame ▸ older') fun ⟨frame', low'⟩ => ⟨frame.trans frame', low.trans low'⟩

/-- An entry inserted keeps the order. -/
theorem insertEntry_ordered {es : List Entry} (ordered : es.Pairwise (Entry.Before now)) :
    (insertEntry now e es).Pairwise (Entry.Before now) := by
  induction es with
  | nil => exact List.pairwise_singleton _ _
  | cons x xs ih =>
    obtain ⟨first, rest⟩ := List.pairwise_cons.1 ordered
    simp only [insertEntry]
    split
    · rename_i before
      have before := abortBefore_iff.1 before
      refine List.pairwise_cons.2 ⟨fun y member => ?_, ordered⟩
      rcases List.mem_cons.1 member with rfl | later
      · exact before
      · exact before.trans (first y later)
    · rename_i after
      have after : x.Before now e := Entry.before_total.resolve_left fun before => after (abortBefore_iff.2 before)
      refine List.pairwise_cons.2 ⟨fun y member => ?_, ih rest⟩
      rcases List.mem_cons.1 ((insertEntry_perm now e xs).mem_iff.1 member) with rfl | later
      · exact after
      · exact first y later

end

/-- The entries are aborted in the order of R95. -/
theorem State.abortOrder_ordered (s : State) : s.abortOrder.Pairwise (Entry.Before s.radio.frame) :=
  List.foldrRecOn (motive := List.Pairwise (Entry.Before s.radio.frame)) _ _ List.Pairwise.nil
    fun _ ordered _ _ => insertEntry_ordered ordered

/-! ## One entry aborted (R13, R156) -/

/-- The record an abort leaves, as R13 and R156 say it. -/
theorem Label.abort_eq (e : Entry) (l : Label) (unset : l.retryFrame = none) :
    let l' := { l with
      needs := ⟨l.needs.shown || e.remembered.shown, l.needs.staged || e.remembered.staged,
        l.needs.query || e.remembered.query, l.needs.locate || e.remembered.locate⟩
      requested := if l.requested = some l.confirmed then none else l.requested }
    l.abort e = if l'.hasNeed = true then { l' with state := .queued } else { l' with state := .current, attempts := 0 } := by
  intro l'
  have back : l.takeBack e = l' := by
    rw [Label.takeBack, Label.dropRequested_eq]
    rfl
  have still : l'.retryFrame = none := unset
  simp only [Label.abort, back, still]

theorem Label.abort_binding (e : Entry) (l : Label) : (l.abort e).binding = l.binding := (l.abort_returned e).binding

/-- STAGED after an abort: kept, or set again from what the entry remembers. -/
theorem Label.abort_staged (e : Entry) (l : Label) :
    (l.abort e).needs.staged = (l.needs.staged || e.remembered.staged) := by
  have back := congrArg Needs.staged (Label.takeBack_needs e l)
  simp only [Label.abort]
  split <;> exact back

section
variable {s t : State} {e : Entry} {l : Label}

/-- The bound counts are those of the law, so they follow from the labels (R33). -/
theorem State.BoundLaw.items_eq (h : s.BoundLaw) : s.items = s.unboundItems.map fun kx => (kx.1, { kx.2 with bound := s.boundTo kx.1 }) := by
  rw [State.unboundItems, List.map_map]
  refine (List.map_id _).symm.trans (List.map_congr_left fun kx member => ?_)
  have bound : kx.2.bound = s.boundTo kx.1 := h.1 kx member
  exact Prod.ext rfl (by simp [Item.unbound, ← bound])

/-- A record rewritten with its binding moves no item. -/
theorem State.BoundLaw.writeLabel_items (h : s.BoundLaw) (tables : s.TablesLaw) {k : Nat} {l' : Label} (here : s.label k = some l)
    (binding : l'.binding = l.binding) : (s.writeLabel k (some l')).items = s.items := by
  have after := h.rewrite tables here (.inl binding)
  have bound : (s.writeLabel k (some l')).boundTo = s.boundTo := funext fun i => by
    have count := Table.countP_write (fun kl : Nat × Label => kl.2.binding == some i) s.labels k (some l') tables.rising
    rw [show s.labels.find k = some l from here] at count
    rw [State.boundTo, State.writeLabel_labels k _ s tables.rising]
    simpa [State.boundTo, countOpt, binding] using count
  rw [after.items_eq, State.writeLabel_unbound k _ s tables.items_wf.1, bound, ← h.items_eq]

/-- The laws of the records that the abort of an entry rests on. -/
structure State.Sound (s : State) : Prop where
  tables : s.TablesLaw
  agrees : s.Agrees
  bound : s.BoundLaw

theorem State.Sound.edits (h : s.Sound) (edits : Edits s t) : t.Sound :=
  ⟨edits.tables h.tables, (edits.changes.keep (P := State.Agrees) Change.agrees h.tables h.agrees).2,
    (edits.changes.keep (P := State.BoundLaw) Change.bound h.tables h.bound).2⟩

/-- The entry of a slot among those aborted decides what becomes of its record. -/
def Label.abortedBy (work : List Entry) (j : Nat) (l : Label) : Label :=
  ((work.find? fun e => e.label == j).map fun e => l.abort e).getD l

/-- Entries `work` aborted: what each slot reads as, the queues that returned labels join, and what does not move. -/
structure State.Aborts (work : List Entry) (s t : State) : Prop where
  label : ∀ j, t.label j = (s.label j).map (Label.abortedBy work j)
  queue : ∀ z, t.queue z = s.queue z ++ (work.map Entry.label).filter fun k => (t.label k).any fun l => l.waitsIn z
  items : t.items = s.items
  zone : ∀ z, t.zone z = { s.zone z with counts := (t.zone z).counts }
  beside : (s.setEntries []).SameBesideLabels (t.setEntries [])

theorem State.SameBesideLabels.setEntries (h : s.SameBesideLabels t) (es : List Entry) :
    (s.setEntries es).SameBesideLabels (t.setEntries es) :=
  ⟨h.inReset, h.gateway, h.service, h.templates, h.epoch, h.radio, h.air, h.pointers, rfl, h.holdSet, h.holdsDue, h.notices, h.pending⟩

theorem Label.abortedBy_nil (j : Nat) (l : Label) : l.abortedBy [] j = l := rfl

theorem Label.abortedBy_cons (work : List Entry) (j : Nat) (l : Label) :
    l.abortedBy (e :: work) j = if e.label = j then l.abort e else l.abortedBy work j := by
  by_cases named : e.label = j <;> simp [Label.abortedBy, named]

/-- A slot that no aborted entry names keeps its record. -/
theorem Label.abortedBy_absent {work : List Entry} {j : Nat} (absent : j ∉ work.map Entry.label) (l : Label) : l.abortedBy work j = l := by
  have none : (work.find? fun e => e.label == j) = none :=
    List.find?_eq_none.2 fun e member named => absent (List.mem_map.2 ⟨e, member, by simpa using named⟩)
  rw [Label.abortedBy, none]
  rfl

/-- One entry aborted. -/
theorem State.Sound.aborts (h : s.Sound) (member : e ∈ s.entries) : State.Aborts [e] s (s.abortEntry e) := by
  obtain ⟨l, here, flies, -⟩ := h.agrees.flying e member
  have freed : s.abortEntry e = (s.freeEntry e).writeLabel e.label (some (l.abort e)) := by
    simp only [State.abortEntry, here]
  have read : ∀ j, (s.abortEntry e).label j = if j = e.label then some (l.abort e) else s.label j := fun j => by
    rw [freed]
    exact State.writeLabel_find e.label j (l.abort e) (s.freeEntry e)
  constructor
  case label =>
    intro j
    rw [read]
    by_cases same : j = e.label
    · subst same
      simp [here, Label.abortedBy_cons]
    · rw [if_neg same, funext (Label.abortedBy_cons [] j), funext fun l => if_neg (Ne.symm same)]
      exact Option.map_id'.symm
  case queue =>
    intro z
    have out : queueOf (s.label e.label) = none := by simp [here, queueOf, Label.inQueue, flies]
    have joins : (s.abortEntry e).label e.label = some (l.abort e) := by simp [read]
    have queue := State.writeLabel_queue e.label (some (l.abort e)) (s.freeEntry e) z
    rw [← freed, show (s.freeEntry e).label e.label = s.label e.label from rfl, out,
      show (s.freeEntry e).queue z = s.queue z from rfl] at queue
    rw [queue, List.map_singleton, List.filter_cons, joins]
    simp only [any_waitsIn_iff]
    cases queueOf (some (l.abort e)) with
    | none => simp
    | some w => by_cases here : w = z <;> simp [here]
  case items =>
    rw [freed]
    exact State.BoundLaw.writeLabel_items (s := s.freeEntry e) h.bound h.tables here (l.abort_binding e)
  case zone =>
    intro z
    rw [freed]
    exact State.writeLabel_zone_counts e.label _ (s.freeEntry e) z
  case beside =>
    rw [freed]
    exact (State.writeLabel_same e.label _ (s.freeEntry e)).setEntries []

/-- One more entry aborted first, of a slot that none of the others names. -/
theorem State.Aborts.cons {work : List Entry} {u : State} (first : State.Aborts [e] s t) (rest : State.Aborts work t u)
    (apart : e.label ∉ work.map Entry.label) : State.Aborts (e :: work) s u := by
  have kept : u.label e.label = t.label e.label := by
    rw [rest.label, funext (Label.abortedBy_absent apart)]
    exact Option.map_id'
  constructor
  case label =>
    intro j
    rw [rest.label, first.label, Option.map_map]
    refine Option.map_congr fun l _ => ?_
    by_cases same : e.label = j
    · subst same
      simp [Label.abortedBy_cons, Label.abortedBy_absent apart]
    · simp [Label.abortedBy_cons, Label.abortedBy_nil, same]
  case queue =>
    intro z
    rw [rest.queue, first.queue, List.append_assoc]
    simp only [List.map_cons, List.map_nil, List.filter_cons, List.filter_nil, kept]
    split <;> rfl
  case items => exact rest.items.trans first.items
  case zone => exact fun z => by rw [rest.zone z, first.zone z]
  case beside => exact first.beside.trans rest.beside

/-- Entries aborted one after another, each of them once. -/
theorem State.Sound.foldl_aborts (work : List Entry) (h : s.Sound) (all : work.Perm s.entries) :
    State.Aborts work s (work.foldl (fun t e => t.abortEntry e) s) := by
  induction work generalizing s with
  | nil => exact ⟨fun j => Option.map_id'.symm, by simp, rfl, fun z => rfl, .refl _⟩
  | cons e work ih =>
    obtain ⟨member, rest⟩ := List.cons_perm_iff_perm_erase.1 all
    have once : ((e :: work).map Entry.label).Nodup := (all.map Entry.label).nodup_iff.2 h.agrees.single
    exact (h.aborts member).cons (ih (h.edits (s.abortEntry_edits e member)) ((s.abortEntry_entries e).symm ▸ rest))
      (List.nodup_cons.1 once).1

end

/-! ## Every hold ended (R163, R165) -/

/-- `s` with what the end of holds moves as `t` has it. -/
def State.withHolds (t s : State) : State :=
  { s with zones := t.zones, holdSet := t.holdSet, holdsDue := t.holdsDue, notices := t.notices }

section
variable {s : State}

/-- The end of holds moves nothing but zone records, hold set, counts due and notices. -/
theorem State.foldl_endHold_eq (work : List ZoneNo) (s : State) :
    work.foldl (fun t z => t.endHold z) s = (work.foldl (fun t z => t.endHold z) s).withHolds s := by
  induction work generalizing s with
  | nil => rfl
  | cons z work ih => exact ih (s.endHold z)

/-- A zone record after holds are ended. -/
theorem State.foldl_endHold_zone (work : List ZoneNo) (s : State) (z : ZoneNo) :
    (work.foldl (fun t z => t.endHold z) s).zone z
      = if z ∈ work then { s.zone z with hold := .none, holdStart := none, holdFrames := 0 } else s.zone z := by
  induction work generalizing s with
  | nil => rfl
  | cons w work ih =>
    rw [List.foldl_cons, ih, State.endHold_zone]
    by_cases same : z = w
    · subst same
      simp
    · simp [same]

/-- One HOLD_ENDED where a hold has ended. -/
theorem State.foldl_endHold_notices (work : List ZoneNo) (s : State) :
    (work.foldl (fun t z => t.endHold z) s).notices
      = if work = [] then s.notices else { s.notices with pending := { s.notices.pending with holdEnded := true } } := by
  induction work generalizing s with
  | nil => rfl
  | cons z work ih =>
    rw [List.foldl_cons, ih, if_neg (List.cons_ne_nil z work), State.endHold_eq]
    split <;> rfl

/-- No count is due for holds that are all ended (assumption 23). -/
theorem State.HoldsSound.endAllHolds_holdsDue (h : s.HoldsSound) : s.endAllHolds.holdsDue = [] := by
  have ended : s.endAllHolds.HoldsSound := List.foldlRecOn (motive := State.HoldsSound) _ _ h fun u sound z _ => sound.endHold z
  refine List.eq_nil_iff_forall_not_mem.2 fun z due => ?_
  have held := ended.dueHeld z due
  rw [s.endAllHolds_kept.1] at held
  exact List.not_mem_nil held

end

/-! ## RADIO_STOP (R95, R156, R165) -/

section
variable {s t : State} {work : List Entry}

/-- An entry is the one found for its label, in whatever order the entries are listed. -/
theorem State.Agrees.find?_label (agrees : s.Agrees) (all : work.Perm s.entries) {e : Entry} (member : e ∈ s.entries) :
    (work.find? fun d => d.label == e.label) = some e := by
  cases found : work.find? fun d => d.label == e.label with
  | none => exact absurd (beq_self_eq_true e.label) (List.find?_eq_none.1 found e (all.mem_iff.2 member))
  | some d =>
    have same : d.label = e.label := by simpa using List.find?_some found
    rw [List.inj_on_of_nodup_map agrees.single (all.mem_iff.1 (List.mem_of_find?_eq_some found)) member same]

theorem State.Agrees.find?_perm (agrees : s.Agrees) (all : work.Perm s.entries) (j : Nat) :
    (work.find? fun d => d.label == j) = s.entries.find? fun d => d.label == j := by
  cases found : s.entries.find? fun d => d.label == j with
  | none => exact List.find?_eq_none.2 fun e member => List.find?_eq_none.1 found e (all.mem_iff.1 member)
  | some e =>
    obtain rfl : e.label = j := by simpa using List.find?_some found
    exact agrees.find?_label all (List.mem_of_find?_eq_some found)

/-- Where a label or an entry counts for R80, the record that its abort leaves does. -/
theorem State.Aborts.owes (h : State.Aborts work s t) (all : work.Perm s.entries) (before : s.TablesLaw) (after : t.TablesLaw)
    (agrees : s.Agrees) (staged : s.StagedLaw) (owed : 0 < s.owed) : 0 < t.owed := by
  suffices ∃ k l, t.label k = some l ∧ l.needs.staged = true by
    obtain ⟨k, l, there, needs⟩ := this
    have counted : 0 < t.labels.countP fun kl => kl.2.needs.staged :=
      List.countP_pos_iff.2 ⟨(k, l), (after.mem_labels k l).2 there, needs⟩
    rw [State.owed]
    omega
  have labelled : ∀ k l, s.label k = some l → t.label k = some (l.abortedBy work k) := fun k l here => by rw [h.label, here]; rfl
  rcases Nat.add_pos_iff_pos_or_pos.1 owed with label | entry
  · obtain ⟨⟨k, l⟩, member, needs⟩ := List.countP_pos_iff.1 label
    refine ⟨k, _, labelled k l ((before.mem_labels k l).1 member), ?_⟩
    unfold Label.abortedBy
    cases work.find? fun e => e.label == k with
    | none => exact needs
    | some e => exact (Label.abort_staged e l).trans (by simp [show l.needs.staged = true from needs])
  · obtain ⟨e, member, live⟩ := List.countP_pos_iff.1 entry
    obtain ⟨l, here, -⟩ := agrees.flying e member
    obtain ⟨-, remembered, -⟩ := staged
    refine ⟨e.label, _, labelled e.label l here, ?_⟩
    rw [Label.abortedBy, agrees.find?_label all member]
    exact (Label.abort_staged e l).trans (by simp [remembered e member, live])

end

section
variable {s : State}

/-- The records of the stopped radio rest on the laws that those of the running one do. -/
theorem State.Laws.stopped_sound (laws : s.Laws) : s.stopped.Sound :=
  ⟨laws.tables, ⟨laws.agrees.settled, laws.agrees.single, laws.agrees.flying, laws.agrees.entered⟩, laws.bound⟩

/-- What RADIO_STOP leaves while the radio runs, before its response (R95). -/
def State.stoppedState (s : State) : State := (s.stopped.abortAll.reportStaged s).endAllHolds

theorem serveRadioStop_runs (runs : s.radio.state = .running) :
    serveRadioStop s = s.stoppedState.accept (leBytes 1 s.entries.length) := by
  have running : s.running = true := by simp [State.running, runs]
  rw [serveRadioStop, if_pos running]
  rfl

/-- Every entry aborted when the radio stops (R156). -/
theorem State.Laws.abortAll (laws : s.Laws) : State.Aborts s.abortOrder s.stopped s.stopped.abortAll ∧ s.stopped.abortAll.entries = [] :=
  ⟨laws.stopped_sound.foldl_aborts _ s.abortOrder_perm, (State.foldl_abortEntry _ s.stopped s.abortOrder_perm).2⟩

/-- The change of the sum of R80 by the aborts reported: STAGED PAGEs in flight become labels with STAGED set, so that the count does not
fall to 0 and no notice is raised. -/
theorem State.Laws.abortAll_reported (laws : s.Laws) :
    s.stopped.abortAll.SameBesideCount (s.stopped.abortAll.reportStaged s)
      ∧ (s.stopped.abortAll.reportStaged s).epoch
          = { s.epoch with outstanding := s.stopped.abortAll.labels.countP fun kl => kl.2.needs.staged }
      ∧ (s.stopped.abortAll.reportStaged s).notices = s.notices := by
  obtain ⟨aborts, gone⟩ := laws.abortAll
  have epoch : s.stopped.abortAll.epoch = s.epoch := aborts.beside.epoch
  obtain ⟨same, total, notices⟩ := State.reportStaged_right s.stopped.abortAll s (by rw [epoch]; exact laws.owed)
  have owed : s.stopped.abortAll.owed = s.stopped.abortAll.labels.countP fun kl => kl.2.needs.staged := by
    rw [State.owed, gone]
    rfl
  refine ⟨same, by rw [same.epoch, total, owed, epoch], ?_⟩
  have after : s.stopped.abortAll.TablesLaw := (State.foldl_abortEntry _ s.stopped s.abortOrder_perm).1.tables laws.tables
  have owes := aborts.owes s.abortOrder_perm laws.tables after laws.stopped_sound.agrees laws.staged
  have stays : ¬(0 < s.epoch.outstanding ∧ s.stopped.abortAll.owed = 0) := fun ⟨before, gone⟩ =>
    Nat.lt_irrefl 0 (gone ▸ owes (laws.owed ▸ before))
  rw [notices, State.noticesAfterCount, total, epoch, if_neg fun ⟨before, gone, _⟩ => stays ⟨before, gone⟩]
  exact aborts.beside.notices

/-- The aborts and their report leave the holds as they were. -/
theorem State.Laws.abortAll_holdsSound (laws : s.Laws) : (s.stopped.abortAll.reportStaged s).HoldsSound := by
  obtain ⟨sound, -⟩ := s.holdLaw_iff.1 laws.hold
  have stopped : s.stopped.HoldsSound := ⟨sound.once, sound.few, sound.listed, sound.zones, sound.dueOnce, sound.dueHeld⟩
  exact stopped.of_control (by simp)

/-- What RADIO_STOP leaves of a running radio, by its parts: records, queues, items, epoch record and zones by value, the rest as it was
but for the stopped radio and the ended work. -/
structure State.Stops (s t : State) : Prop where
  label : ∀ j, t.label j = (s.label j).map (Label.abortedBy s.abortOrder j)
  queue : ∀ z, t.queue z = s.queue z ++ (s.abortOrder.map Entry.label).filter fun k => (t.label k).any fun l => l.waitsIn z
  counts : t.CountsLaw
  items : t.items = s.items
  epoch : t.epoch = { s.epoch with outstanding := t.labels.countP fun kl => kl.2.needs.staged }
  zone : ∀ z, t.zone z = if z ∈ s.holdSet then
      { s.zone z with hold := .none, holdStart := none, holdFrames := 0, counts := (t.zone z).counts }
    else { s.zone z with counts := (t.zone z).counts }
  beside : { s with
    entries := [], holdSet := [], holdsDue := []
    radio := { s.radio with state := .stopped }
    air := { s.air with windowsOpen := false, beaconDue := false }
    notices := if s.holdSet = [] then s.notices
      else { s.notices with pending := { s.notices.pending with holdEnded := true } } : State }.BesideRecords t

/-- RADIO_STOP while the radio runs: the aborts, their report, the end of every hold (R95, R156, R165). -/
theorem State.Laws.stops (laws : s.Laws) (runs : s.radio.state = .running) : s.Stops s.stoppedState := by
  obtain ⟨aborts, gone⟩ := laws.abortAll
  obtain ⟨count, epoch, notices⟩ := laws.abortAll_reported
  have ended : s.stoppedState = s.stoppedState.withHolds (s.stopped.abortAll.reportStaged s) := State.foldl_endHold_eq _ _
  have holds : (s.stopped.abortAll.reportStaged s).holdSet = s.holdSet := count.holdSet.trans aborts.beside.holdSet
  have label : ∀ j, s.stoppedState.label j = s.stopped.abortAll.label j := fun j => by
    rw [ended]
    exact congrArg (Table.find · j) count.labels
  have zone : ∀ z, (s.stopped.abortAll.reportStaged s).zone z = s.stopped.abortAll.zone z := State.zone_congr count.zones
  constructor
  case label => exact fun j => (label j).trans (aborts.label j)
  case queue =>
    intro z
    have queue : s.stoppedState.queue z = s.stopped.abortAll.queue z := by rw [ended]; exact congrArg (·[z]) count.queues
    simp only [queue, label]
    exact aborts.queue z
  case counts =>
    have edits := (serveRadioStop_running s (by simp [State.running, runs])).1
    rw [serveRadioStop_runs runs] at edits
    exact (edits.changes.keep (P := fun u => u.QueueLaw ∧ u.CountsLaw) Change.queue_counts laws.tables ⟨laws.queue, laws.counts⟩).2.2
  case items => rw [ended]; exact count.items.trans aborts.items
  case epoch =>
    have labels : s.stoppedState.labels = s.stopped.abortAll.labels := by rw [ended]; exact count.labels
    rw [labels, ← epoch, ended]
    rfl
  case zone =>
    intro z
    have kept : s.stopped.abortAll.zone z = { s.zone z with counts := (s.stopped.abortAll.zone z).counts } := aborts.zone z
    rw [State.stoppedState, State.endAllHolds, State.foldl_endHold_zone, holds, zone, kept]
    split <;> rfl
  case beside =>
    have same := aborts.beside
    have epochs : s.stoppedState.epoch = { s.epoch with outstanding := s.stoppedState.epoch.outstanding } := by
      rw [(congrArg State.epoch ended).trans epoch]
    have raised : s.stoppedState.notices = _ := State.foldl_endHold_notices _ _
    rw [holds, notices] at raised
    exact ⟨(congrArg State.inReset ended).trans (count.inReset.trans same.inReset),
      (congrArg State.gateway ended).trans (count.gateway.trans same.gateway),
      (congrArg State.service ended).trans (count.service.trans same.service),
      (congrArg State.templates ended).trans (count.templates.trans same.templates),
      epochs,
      (congrArg State.radio ended).trans (count.radio.trans same.radio),
      (congrArg State.air ended).trans (count.air.trans same.air),
      (congrArg State.pointers ended).trans (count.pointers.trans same.pointers),
      (congrArg State.entries ended).trans (count.entries.trans gone),
      (State.endAllHolds_kept _).1,
      laws.abortAll_holdsSound.endAllHolds_holdsDue,
      raised,
      (congrArg State.pending ended).trans (count.pending.trans same.pending)⟩

end

/-- RADIO_STOP of a stopped radio. -/
theorem serveRadioStop_idle {s : State} (stopped : s.radio.state = .stopped) : serveRadioStop s = s.accept [0] :=
  if_neg (by simp [State.running, stopped])

/-- Settles O33: RADIO_START by the record it writes; RADIO_STOP by the aborts in their order, their report, and the holds ended. -/
theorem radioStartAndStop : Obligations.RadioStartAndStop := by
  refine ⟨fun tag s awake => State.request_accepted rfl awake (serveRadioStart_eq _), fun tag s awake laws =>
    ⟨fun stopped => State.request_answered rfl awake (serveRadioStop_idle stopped), fun runs => ?_⟩⟩
  intro aborted
  let taken : State := s.collect (Request.radioStop.frame tag)
  have h : taken.Stops taken.stoppedState := (laws.collect _).stops runs
  have perm : s.abortOrder.Perm s.entries := s.abortOrder_perm
  refine ⟨taken.stoppedState.holdResponse tag (.ok, leBytes 1 s.entries.length), s.abortOrder,
    State.request_served (r := .radioStop) rfl awake (serveRadioStop_runs (s := taken) runs), perm, s.abortOrder_ordered, ?label, h.queue,
    h.counts, h.items, h.epoch, ?zone, ?rest⟩
  case label =>
    intro j
    refine (h.label j).trans (Option.map_congr fun l here => ?_)
    have find := laws.agrees.find?_perm perm j
    rw [Label.abortedBy, show (taken.abortOrder.find? fun e => e.label == j) = _ from find]
    cases found : s.entries.find? fun e => e.label == j with
    | none => rfl
    | some e =>
      obtain rfl : e.label = j := by simpa using List.find?_some found
      obtain ⟨m, there, flies, -⟩ := laws.agrees.flying e (List.mem_of_find?_eq_some found)
      obtain rfl := Option.some.inj (here.symm.trans there)
      have unset : l.retryFrame = none := by
        have retry := (laws.settled here).tidy.2.1
        simpa [flies] using retry
      exact l.abort_eq e unset
  case zone =>
    intro z
    obtain ⟨sound, -⟩ := s.holdLaw_iff.1 laws.hold
    have zone := h.zone z
    by_cases held : (s.zone z).hold = .held
    · rw [if_pos held]
      exact zone.trans (if_pos ((sound.listed z).2 held))
    · rw [if_neg held]
      exact zone.trans (if_neg fun member => held ((sound.listed z).1 member))
  case rest => exact State.withRecords_hold h.beside.eq tag _

end Sys2Proof.Machine
end

