-- ==== Sys2Proof/Proofs/SlotArbitration.lean ====
section
/-! The Slot Arbiter (chapter 6): ZONE_SET, the winning zone of a slot, and the slots left unused. -/

namespace Sys2Proof.Machine

/-! ## ZONE_SET (R116, R119, R120) -/

section
variable {b : Byte} {s : State} {z : ZoneNo}

/-- A boost byte is refused from 2 on (R198). -/
theorem enableOf_isNone (b : Byte) : (enableOf b).isNone = true ↔ 1 < b.toNat := by
  unfold enableOf
  split
  · simp_all
  · split
    · simp_all
    · simp only [Option.isNone_none, true_iff]
      bv_omega

/-- A boost byte that is taken is yes at 1 (R198). -/
theorem enableOf_eq (small : b.toNat ≤ 1) : enableOf b = some (b == 1) := by
  have two : b = 0 ∨ b = 1 := by bv_omega
  rcases two with rfl | rfl <;> rfl

/-- A given priority as it is stored (R119). -/
theorem priorityOf_eq (n : Nat) : Fin.ofNat 8 (min n 7) = if 7 < n then 7 else Fin.ofNat 8 n := by
  split
  · rw [Nat.min_eq_right (by omega)]; rfl
  · rw [Nat.min_eq_left (by omega)]

/-- The zone record a ZONE_SET writes, value by value (R119, R120). -/
theorem zoneWith_eq (v : ZoneWords) (boost : Option Bool) (x : Zone) : zoneWith v boost x =
    { x with
      priority := match v.priority with
        | none => x.priority
        | some p => if 7 < p.toNat then 7 else Fin.ofNat 8 p.toNat
      boost := boost.getD x.boost
      reload := (v.reload.map BitVec.toNat).getD x.reload
      counter := (v.reload.map BitVec.toNat).getD x.counter
      promoted := v.reload.isNone && x.promoted } := by
  have priority : v.priority.elim x.priority (fun b => Fin.ofNat 8 (min b.toNat 7)) = match v.priority with
      | none => x.priority
      | some p => if 7 < p.toNat then 7 else Fin.ofNat 8 p.toNat := by
    cases v.priority with
    | none => rfl
    | some p => exact priorityOf_eq p.toNat
  simp only [zoneWith, priority]
  cases v.reload <;> rfl

theorem serveZoneSet_refused {zone : Byte} {v : ZoneWords} (bad : 63 < zone.toNat ∨ ∃ b ∈ v.boost, 1 < b.toNat) :
    serveZoneSet zone v s = s.refuse .badValue := by
  unfold serveZoneSet
  split
  · rfl
  · rename_i z named
    have inRange : ¬63 < zone.toNat := fun out => by simp [zoneOf_eq_none out] at named
    obtain ⟨b, given, large⟩ := bad.resolve_left inRange
    exact if_pos (by simpa [Option.mem_def.1 given] using (enableOf_isNone b).2 large)

/-- An accepted ZONE_SET: the record written, and the zone reported as it then is (R119). -/
theorem serveZoneSet_eq {zone : Byte} {v : ZoneWords} (named : z.val = zone.toNat) (small : ∀ b ∈ v.boost, b.toNat ≤ 1) :
    let x := zoneWith v (v.boost.map (· == 1)) (s.zone z)
    serveZoneSet zone v s = (s.setZone z x).accept (leBytes 1 x.priority.val ++ [flagByte x.boost] ++ leBytes 1 x.reload
      ++ leBytes 1 x.counter ++ [flagByte x.promoted] ++ leBytes 1 ((s.setZone z x).effectivePriority z)) := by
  have taken : ¬v.boost.any (fun b => (enableOf b).isNone) = true := by
    simp only [Option.any_eq_true, enableOf_isNone, not_exists, not_and, Nat.not_lt]
    exact small
  have boost : v.boost.bind enableOf = v.boost.map (· == 1) := by
    cases given : v.boost with
    | none => rfl
    | some b => exact enableOf_eq (small b given)
  simp only [serveZoneSet, zoneOf_eq named, if_neg taken, boost, State.setZone_zone, if_pos]

end

/-- Settles O34: the two checks, then the record written and its report, the effective priority by R116. -/
theorem zoneSet : Obligations.ZoneSet := by
  intro tag zone v s awake
  refine ⟨fun bad => State.request_refused rfl awake (serveZoneSet_refused bad), fun z named small => ?_⟩
  intro old priority boost reload counter promoted waiting effective
  have written : zoneWith v (v.boost.map (· == 1)) old
      = { old with priority := priority, boost := boost, reload := reload, counter := counter, promoted := promoted } := by
    rw [zoneWith_eq]
    simp only [priority, boost, reload, counter, promoted]
    cases v.boost <;> rfl
  refine State.request_accepted (t := s.setZone z _) rfl awake ((serveZoneSet_eq (s := s.collect _) named small).trans ?_)
  rw [show (s.collect ((Request.zoneSet zone v).frame tag)).zone z = old from rfl, written, State.effectivePriority_eq,
    State.setZone_zone, if_pos rfl]
  rfl

/-! ## The winning zone (R126) -/

/-- The first zone counted upward from a pointer that meets a test is the one fewest steps above it (R126). -/
theorem find?_zonesFrom_eq_some (test : ZoneNo → Bool) (pointer z : ZoneNo) :
    (zonesFrom pointer).find? test = some z
      ↔ test z = true ∧ ∀ y, test y = true → (z - pointer).val ≤ (y - pointer).val := by
  have at_ : ∀ (i : Nat) (below : i < (zonesFrom pointer).length), (zonesFrom pointer)[i]
      = pointer + ⟨i, by simpa [zonesFrom, allZones] using below⟩ := fun i below => by simp [zonesFrom, allZones]
  have length : (zonesFrom pointer).length = 64 := by simp [zonesFrom, allZones]
  have back : ∀ y : ZoneNo, pointer + ⟨(y - pointer).val, (y - pointer).isLt⟩ = y := fun y => by simp
  rw [List.find?_eq_some_iff_getElem]
  refine and_congr_right fun meets => ⟨?_, fun least => ?_⟩
  · rintro ⟨i, below, here, before⟩ y other
    rw [at_] at here
    subst here
    by_contra closer
    have earlier := before (y - pointer).val (by simpa using closer)
    simp [at_, back, other] at earlier
  · refine ⟨(z - pointer).val, length.symm ▸ (z - pointer).isLt, by rw [at_, back], fun j earlier => ?_⟩
    rw [at_]
    by_contra sooner
    have far := least (pointer + ⟨j, earlier.trans (z - pointer).isLt⟩) (by simpa using sooner)
    simp only [add_sub_cancel_left] at far
    omega

/-- The zones that compete for a slot (R126): the promoted candidates if there is one, all candidates otherwise. -/
def State.competing (s : State) (zones : List ZoneNo) : List ZoneNo :=
  if (zones.filter fun z => (s.zone z).promoted).isEmpty then zones else zones.filter fun z => (s.zone z).promoted

/-- The competing zones of the highest effective priority (R126). -/
def State.bestZones (s : State) (zones : List ZoneNo) : List ZoneNo :=
  (s.competing zones).filter fun z => (s.competing zones).all fun y => s.effectivePriority y ≤ s.effectivePriority z

section
variable {s : State} {zones : List ZoneNo} {z : ZoneNo}

theorem State.winner_eq (s : State) (pointer : ZoneNo) (zones : List ZoneNo) :
    s.winner pointer zones = (zonesFrom pointer).find? fun z => (s.bestZones zones).contains z := rfl

theorem State.mem_competing : z ∈ s.competing zones ↔
    z ∈ zones ∧ ((∃ y ∈ zones, (s.zone y).promoted = true) → (s.zone z).promoted = true) := by
  unfold State.competing
  split
  · rename_i none
    have unpromoted : ¬∃ y ∈ zones, (s.zone y).promoted = true := by simpa using none
    simp [unpromoted]
  · rename_i some
    have promoted : ∃ y ∈ zones, (s.zone y).promoted = true := by simpa using some
    simp [promoted]

theorem State.mem_bestZones : z ∈ s.bestZones zones ↔
    z ∈ s.competing zones ∧ ∀ y ∈ s.competing zones, s.effectivePriority y ≤ s.effectivePriority z := by
  simp [State.bestZones]

/-- Of candidate zones one competes (R126). -/
theorem State.competing_ne_nil (some : zones ≠ []) : s.competing zones ≠ [] := by
  unfold State.competing
  split
  · exact some
  · simp_all

/-- Of candidate zones one has the highest effective priority of those that compete (R126). -/
theorem State.bestZones_ne_nil (some : zones ≠ []) : s.bestZones zones ≠ [] := by
  obtain ⟨z, member, highest⟩ := (s.competing zones).toFinset.exists_max_image s.effectivePriority
    ((List.toFinset_nonempty_iff _).2 (State.competing_ne_nil some))
  exact List.ne_nil_of_mem (State.mem_bestZones.2 ⟨List.mem_toFinset.1 member, fun y other => highest y (List.mem_toFinset.2 other)⟩)

/-- No zone wins a slot exactly when there is no candidate zone (R125). -/
theorem State.winner_eq_none (s : State) (pointer : ZoneNo) (zones : List ZoneNo) : s.winner pointer zones = none ↔ zones = [] := by
  refine ⟨fun none => ?_, fun empty => ?_⟩
  · by_contra some
    obtain ⟨z, best⟩ := List.exists_mem_of_ne_nil _ (State.bestZones_ne_nil (s := s) some)
    have passed := List.find?_eq_none.1 (s.winner_eq pointer zones ▸ none) z
      (List.mem_map.2 ⟨z - pointer, List.mem_finRange _, by simp⟩)
    simp [best] at passed
  · rw [State.winner_eq, List.find?_eq_none]
    intro z _
    simp [State.mem_bestZones, State.mem_competing, empty]

end

/-- Settles O41: the zones that compete, those of the highest effective priority, and the first of them from the pointer. -/
theorem slotWinner : Obligations.SlotWinner := by
  intro s pointer zones competes best
  have best_iff : ∀ z, (s.bestZones zones).contains z = true ↔ best z := fun z => by
    rw [List.contains_iff_mem, State.mem_bestZones]
    simp only [State.mem_competing]
    rfl
  refine ⟨fun z => ?_, s.winner_eq_none pointer zones⟩
  rw [State.winner_eq, find?_zonesFrom_eq_some]
  simp only [best_iff]

/-! ## Slots left unused (R123, R125) -/

section
variable {s : State} {lane : Lane} {slot : SlotNo}

/-- A lane whose partition is full is granted nothing (R123). -/
theorem State.decideSlot_full (full : s.partition ≤ s.laneEntries lane) : s.decideSlot lane slot = s.transmit lane none := if_pos full

/-- A slot with no candidate zone is left unused (R125). -/
theorem State.decideSlot_noZone (empty : s.candidateZones lane = []) : s.decideSlot lane slot = s.transmit lane none := by
  have none := (s.winner_eq_none s.pointers[lane.val] (s.candidateZones lane)).2 empty
  simp only [State.decideSlot, none, ite_self]

/-- A slot of a lane with room goes to the winning zone's candidate nearest the head of its queue (R124, R128, R130). -/
theorem State.decideSlot_grants {z : ZoneNo} {k : Nat} (room : s.laneEntries lane < s.partition)
    (wins : s.winner s.pointers[lane.val] (s.candidateZones lane) = some z) (first : (s.queue z).find? (s.candidate lane) = some k) :
    s.decideSlot lane slot
      = ((s.setPointers (s.pointers.set lane.val (z + 1))).updateGuards (s.candidateZones lane) z).grant lane slot k := by
  simp only [State.decideSlot, if_neg (Nat.not_le.2 room), wins, first]

/-- A candidate is a label of its queue's zone that is QUEUED and eligible (R6, R124). -/
theorem State.Laws.candidate_spec (laws : s.Laws) {z : ZoneNo} {k : Nat} (member : k ∈ s.queue z) (fits : s.candidate lane k = true) :
    ∃ l, (k, l) ∈ s.labels ∧ l.adminZone = z ∧ l.state = .queued ∧ s.eligible lane k l = true := by
  obtain ⟨l, here, fits⟩ := (Option.any_eq_true _ _).1 fits
  simp only [Bool.and_eq_true, beq_iff_eq] at fits
  obtain ⟨l', here', zone, -⟩ := (queueOf_eq_some _ z).1
    ((((s.queueLaw_iff laws.tables.rising).1 laws.queue z).2 k).1 member)
  obtain rfl : l' = l := Option.some.inj (here'.symm.trans here)
  exact ⟨l', (laws.tables.mem_labels k l').2 here, zone, fits⟩

/-- Without a QUEUED and eligible label in a zone of priority 1 to 7 there is no candidate zone (R124). -/
theorem State.Laws.candidateZones_eq_nil (laws : s.Laws) (none : ∀ kl ∈ s.labels, kl.2.state = .queued →
    (s.zone kl.2.adminZone).priority ≠ 0 → s.eligible lane kl.1 kl.2 = false) : s.candidateZones lane = [] := by
  refine List.filter_eq_nil_iff.2 fun z _ offers => ?_
  simp only [Bool.and_eq_true, bne_iff_ne, List.any_eq_true] at offers
  obtain ⟨priority, k, member, fits⟩ := offers
  obtain ⟨l, here, rfl, queued, eligible⟩ := laws.candidate_spec member fits
  exact absurd eligible (by simp [none _ here queued priority])

end

/-- Settles O42: in a settled frame the opening is that one slot, and it is decided without a grant. -/
theorem slotLeftUnused : Obligations.SlotLeftUnused := by
  intro lane slot s awake laws settled windows active next idle
  have onAir : s.laneOnAir lane = true := (s.laneOnAir_iff lane).2 ⟨awake, windows, active⟩
  refine (execDataSlotOpening_next lane slot s onAir settled next).trans (congrArg Host.Outcome.next ?_)
  rcases idle with full | none
  · exact State.decideSlot_full (Nat.le_of_eq full.symm)
  · exact State.decideSlot_noZone (laws.candidateZones_eq_nil none)

end Sys2Proof.Machine
end

