-- ==== Sys2Proof/Proofs/Grants.lean ====
section
/-! The granted slot (R124, R127 to R130, R135 to R137): the guards it moves, the message it sends, and the record and entry it leaves. -/

namespace Sys2Proof.Machine

section
variable {s t : State} {lane : Lane} {slot : SlotNo} {z : ZoneNo} {k : Nat} {l : Label} {T : Template}

/-! ## The guards (R129) -/

/-- Zone records of a list rewritten, each once and by its zone's number. -/
theorem State.foldl_setZone_at (f : Zone → ZoneNo → Zone) (work : List ZoneNo) (s : State) (once : work.Nodup) (y : ZoneNo) :
    (work.foldl (fun t w => t.setZone w (f (t.zone w) w)) s).zone y = if y ∈ work then f (s.zone y) y else s.zone y := by
  induction work generalizing s with
  | nil => simp
  | cons w work ih =>
    obtain ⟨fresh, once⟩ := List.nodup_cons.1 once
    rw [List.foldl_cons, ih _ once, State.setZone_zone]
    by_cases here : y = w
    · subst here
      simp [fresh]
    · simp [here]

/-- The guard of a zone passed over, by the law of the guard: the zone is promoted when its counter comes to 1 (R117, R129). -/
theorem Zone.GuardSound.passedOver_eq {x : Zone} (sound : x.GuardSound) : x.passedOver =
    if 1 ≤ x.reload then
      { x with counter := if 1 < x.counter then x.counter - 1 else x.counter, promoted := x.promoted || decide (x.counter ≤ 2) }
    else x := by
  obtain ⟨-, -, between⟩ := sound
  unfold Zone.passedOver
  by_cases guarded : x.reload = 0
  · rw [if_pos guarded, if_neg (show ¬1 ≤ x.reload by omega)]
  · rw [if_neg guarded, if_pos (show 1 ≤ x.reload by omega)]
    have low := (between (by omega)).1
    have comes : ((if x.counter > 1 then x.counter - 1 else x.counter) == 1) = decide (x.counter ≤ 2) := by
      rw [Bool.eq_iff_iff, beq_iff_eq, decide_eq_true_eq]
      split <;> omega
    dsimp only
    rw [comes]

/-- The zone table after the guard update of a grant, record by record (R129). -/
theorem State.updateGuards_eq (law : s.GuardLaw) {zones : List ZoneNo} (once : zones.Nodup) (member : z ∈ zones) :
    s.updateGuards zones z = s.setZones (Vector.ofFn fun y =>
      if y = z then { s.zone y with counter := (s.zone y).reload, promoted := false }
      else if y ∈ zones ∧ 1 ≤ (s.zone y).reload then
        { s.zone y with counter := if 1 < (s.zone y).counter then (s.zone y).counter - 1 else (s.zone y).counter,
                        promoted := (s.zone y).promoted || decide ((s.zone y).counter ≤ 2) }
      else s.zone y) := by
  obtain ⟨after, moved, -⟩ := State.updateGuards_zones zones z s
  refine moved.trans (congrArg (State.setZones · s) (State.zones_eq_ofFn (s := s.setZones after) fun y => ?_))
  have guard := State.foldl_setZone_at (fun x y => if y = z then x.won else x.passedOver) zones s once y
  rw [← moved]
  refine guard.trans ?_
  by_cases wins : y = z
  · subst wins
    simp only [if_pos member, if_pos]
    rfl
  · rw [if_neg wins, if_neg wins, Zone.GuardSound.passedOver_eq (law y)]
    by_cases listed : y ∈ zones <;> simp only [listed, if_true, if_false, true_and, false_and]

/-- The guard update leaves what the writing of a label record needs (R7, R129). -/
theorem State.Writable.updateGuards {new : Option Label} (h : s.Writable k new) (zones : List ZoneNo) (z : ZoneNo) :
    (s.updateGuards zones z).Writable k new := by
  obtain ⟨after, moved, counts⟩ := State.updateGuards_zones zones z s
  have counted : (s.setZones after).CountsLaw := by
    simp only [State.CountsLaw, counts]
    exact h.counts
  rw [moved]
  exact { h with counts := counted }

/-! ## The message (R102, R135, R136) -/

/-- A page overflows when a field of a bound label's page does (R65). -/
theorem pageOverflows_any (T : Template) (content : Option (Nat × PriceSet)) :
    pageOverflows T content = T.fields.any fun g => content.any fun c => overflows g.digits (fieldValue c.1 c.2 g.kind) := by
  cases content with
  | none => simp [pageOverflows]
  | some c => rfl

/-- The flags that the chosen message satisfies: one page's flag, QUERY where no page is sent, and LOCATE (R136). -/
theorem satisfied_eq (n : Needs) :
    satisfied n = ⟨n.shown, !n.shown && n.staged, !(n.shown || n.staged) && n.query, n.locate⟩ := by
  cases shown : n.shown <;> cases staged : n.staged <;> simp [satisfied, messageSide, shown, staged]

/-- The flags a grant leaves (R136). -/
theorem Needs.minus_satisfied (n : Needs) :
    n.minus (satisfied n) = ⟨false, n.shown && n.staged, (n.shown || n.staged) && n.query, false⟩ := by
  rw [satisfied_eq]
  cases shown : n.shown <;> cases staged : n.staged <;> simp [Needs.minus, shown, staged]

/-- A page of the staged side carries the last issued epoch (R70, R78, R102). -/
theorem State.Laws.pending_of_staged (laws : s.Laws) (here : s.label k = some l) (staged : l.needs.staged = true) :
    s.epoch.pending = some s.epoch.lastIssued := by
  obtain ⟨-, outside, -⟩ := laws.epoch
  obtain ⟨-, -, steady, -⟩ := laws.staged
  refine (outside fun still => ?_).1
  have unset := ((steady still).1 _ ((laws.tables.mem_labels k l).2 here)).1
  exact (Bool.eq_false_iff.1 unset staged).elim

/-- What a grant sends, side by side with what its entry records and what the render found (R55, R65, R79, R102, R135). -/
theorem State.chooseMessage_eq (found : s.templates.find l.template.val = some T)
    (pending : l.needs.staged = true → s.epoch.pending = some s.epoch.lastIssued) :
    let settings := l.requested.getD l.confirmed
    let content : Option (Nat × PriceSet) := (l.binding.bind s.item).map fun x =>
      (x.number, if l.needs.shown = true then x.current else x.next.getD x.current)
    let page := pageBytes T content
    let check := crc16 (includedBytes T.mask 0 page)
    let isPage := l.needs.shown || l.needs.staged
    let epoch : Epoch := if l.needs.shown = true then 0 else s.epoch.lastIssued
    s.chooseMessage l =
      (if l.needs.shown = true then .page .shown 0 check else if l.needs.staged = true then .page (.staged .live) epoch check else .query,
       if isPage = true then
        sealAir ([2] ++ leBytes 3 l.address.toNat ++ [if l.needs.shown = true then 0 else 1] ++ leBytes 2 epoch.toNat
          ++ settings.bytes ++ [if l.needs.locate = true then 1 else 0] ++ leBytes 1 l.template.val ++ leBytes 1 page.length ++ page
          ++ leBytes 2 check.toNat)
       else sealAir ([3] ++ leBytes 3 l.address.toNat ++ settings.bytes ++ [if l.needs.locate = true then 1 else 0]),
       if isPage = true then
        some (T.fields.any fun g => content.any fun c => overflows g.digits (fieldValue c.1 c.2 g.kind)) else none) := by
  intro settings content page check isPage epoch
  by_cases shown : l.needs.shown = true
  · have side : messageSide l.needs = some .shown := if_pos shown
    have rendered : s.pageContent .shown l = content := by simp only [State.pageContent, content, shown, if_true]
    simp only [State.chooseMessage, side, found, rendered, pageOverflows_any, isPage, epoch, shown, if_true, Bool.true_or]
    rfl
  by_cases staged : l.needs.staged = true
  · have side : messageSide l.needs = some (.staged .live) := by simp [messageSide, shown, staged]
    have rendered : s.pageContent (.staged .live) l = content := by simp only [State.pageContent, content, shown, Bool.false_eq_true, if_false]
    have carried : s.pageEpoch (.staged .live) = epoch := by simp [State.pageEpoch, pending staged, epoch, shown]
    simp only [State.chooseMessage, side, found, rendered, carried, pageOverflows_any, isPage, shown, staged, if_true,
      Bool.or_true]
    rfl
  · have side : messageSide l.needs = none := by simp [messageSide, shown, staged]
    simp only [State.chooseMessage, side, isPage, shown, staged, if_false, Bool.or_self, Bool.false_eq_true]
    rfl

/-! ## The grant (R10, R65, R80, R137) -/

/-- The entry of a grant is a LIVE staged PAGE where STAGED is what it satisfies (R135, R136). -/
theorem State.grantEntry_liveStaged (s : State) (lane : Lane) (slot : SlotNo) (k : Nat) (l : Label) :
    (s.grantEntry lane slot k l).liveStaged = (!l.needs.shown && l.needs.staged) := by
  cases shown : l.needs.shown <;> cases staged : l.needs.staged <;>
    simp [State.grantEntry, State.chooseMessage, messageSide, Entry.liveStaged, shown, staged]

/-- The record and the entry of a grant, written. -/
def State.recordGrant (s : State) (lane : Lane) (slot : SlotNo) (k : Nat) (l : Label) : State :=
  (s.setEntries (s.entries ++ [s.grantEntry lane slot k l])).writeLabel k (some (s.grantedLabel l))

/-- A grant moves a staged page's label from one number of R80 to the other: the sum stays. -/
theorem State.recordGrant_owed (tables : s.TablesLaw) (here : s.label k = some l) : (s.recordGrant lane slot k l).owed = s.owed := by
  have written := State.writeLabel_owed k (some (s.grantedLabel l)) (s.setEntries (s.entries ++ [s.grantEntry lane slot k l]))
    tables.rising
  have filled : (s.setEntries (s.entries ++ [s.grantEntry lane slot k l])).owed
      = s.owed + if (!l.needs.shown && l.needs.staged) = true then 1 else 0 := by
    simp only [State.owed, State.setEntries_entries, State.setEntries_labels, List.countP_append, List.countP_singleton,
      State.grantEntry_liveStaged, Nat.add_assoc]
  have left : (s.grantedLabel l).needs.staged = (l.needs.shown && l.needs.staged) := by
    rw [State.grantedLabel, Needs.minus_satisfied]
  rw [filled, show (s.setEntries (s.entries ++ [s.grantEntry lane slot k l])).label k = some l from here] at written
  simp only [stagedShare, Option.any_some, left] at written
  rw [State.recordGrant]
  cases shown : l.needs.shown <;> cases staged : l.needs.staged <;> simp [shown, staged] at written <;> omega

/-- Where the two numbers of R80 have kept their sum there is nothing to report. -/
theorem State.reportStaged_of_owed {before : State} (kept : t.owed = before.owed) : t.reportStaged before = t := by
  rw [State.reportStaged_eq, kept, Nat.add_sub_cancel, if_neg fun falls => by omega]
  rfl

/-- A grant beside the records: the message sent, and RENDER_OVERFLOW where its render overflowed (R65, R99). -/
def State.announceGrant (lane : Lane) (chosen : Sent × List Byte × Option Bool) (s : State) : State :=
  if chosen.2.2 = some true then (s.transmit lane (some chosen.2.1)).raise .renderOverflow else s.transmit lane (some chosen.2.1)

theorem State.grant_eq_announced (tables : s.TablesLaw) (here : s.label k = some l) :
    s.grant lane slot k = (s.recordGrant lane slot k l).announceGrant lane (s.chooseMessage l) := by
  have kept : ((s.recordGrant lane slot k l).transmit lane (some (s.chooseMessage l).2.1)).owed = s.owed :=
    State.recordGrant_owed tables here
  have reported := State.reportStaged_of_owed kept
  simp only [State.grant, here]
  exact congrArg (fun t : State => if (s.chooseMessage l).2.2 = some true then t.raise .renderOverflow else t) reported

theorem State.announceGrant_eq (lane : Lane) (chosen : Sent × List Byte × Option Bool) (s : State) :
    s.announceGrant lane chosen = { s with
      air := { s.air with sent := s.air.sent.set lane.val (some chosen.2.1) }
      notices := if chosen.2.2 = some true then { s.notices with pending := { s.notices.pending with renderOverflow := true } }
        else s.notices } := by
  unfold State.announceGrant
  split <;> rfl

/-- What is announced is a part of its own. -/
theorem State.withRecords_announce {r : State} (h : t = t.withRecords r) (chosen : Sent × List Byte × Option Bool) :
    t.announceGrant lane chosen = (t.announceGrant lane chosen).withRecords (r.announceGrant lane chosen) := by
  have sent : t.transmit lane (some chosen.2.1) = (t.transmit lane (some chosen.2.1)).withRecords (r.transmit lane (some chosen.2.1)) :=
    congrArg (State.transmit lane (some chosen.2.1)) h
  unfold State.announceGrant
  split
  · exact State.withRecords_raise sent .renderOverflow
  · exact sent

/-- A grant as one record written: what each slot reads as, what follows, and the entry, the message and the notice beside it. -/
theorem State.Writable.grants (h : s.Writable k (some (s.grantedLabel l))) (right : s.epoch.outstanding = s.owed)
    (here : s.label k = some l) :
    s.Writes k (some (s.grantedLabel l))
      ((s.setEntries (s.entries ++ [s.grantEntry lane slot k l])).announceGrant lane (s.chooseMessage l)) (s.grant lane slot k) := by
  have filled : (s.setEntries (s.entries ++ [s.grantEntry lane slot k l])).Writable k (some (s.grantedLabel l)) := { h with }
  have same := State.writeLabel_same k (some (s.grantedLabel l)) (s.setEntries (s.entries ++ [s.grantEntry lane slot k l]))
  have count : (s.recordGrant lane slot k l).epoch.outstanding = (s.recordGrant lane slot k l).owed := by
    rw [State.recordGrant_owed h.tables here, State.recordGrant, same.epoch]
    exact right
  refine ⟨fun j => State.grant_label here j, ?_, ?_⟩
  · rw [State.grant_eq_announced h.tables here, State.announceGrant]
    split
    · exact filled.follows rfl rfl rfl rfl count
    · exact filled.follows rfl rfl rfl rfl count
  · rw [State.grant_eq_announced h.tables here]
    exact State.withRecords_announce same.eq_withRecords _

end

/-! ## The granted slot (R123 to R130) -/

section
variable {s : State} {lane : Lane} {k : Nat}

theorem State.candidate_iff : s.candidate lane k = true ↔ ∃ l, s.label k = some l ∧ l.state = .queued ∧ s.eligible lane k l = true := by
  simp [State.candidate, Option.any_eq_true]

/-- The candidate nearest the head of a queue is the first that no candidate stands before (R130). -/
theorem State.find?_candidate {queue before after : List Nat} (split : queue = before ++ k :: after)
    (passed : ∀ j ∈ before, ¬s.candidate lane j = true) (fits : s.candidate lane k = true) :
    queue.find? (s.candidate lane) = some k :=
  List.find?_eq_some_iff_append.2 ⟨fits, before, after, split, fun j member => by simpa using passed j member⟩

/-- The zone that wins is a candidate zone (R126). -/
theorem State.winner_mem {pointer z : ZoneNo} {zones : List ZoneNo} (wins : s.winner pointer zones = some z) : z ∈ zones := by
  obtain ⟨⟨⟨member, -⟩, -⟩, -⟩ := ((slotWinner s pointer zones).1 z).1 wins
  exact member

end

/-- Settles O43: in a settled frame the opening is that one slot; its decision moves pointer and guards and is one grant. -/
theorem slotGrant : Obligations.SlotGrant := by
  intro lane slot z before after k l T s awake laws settled windows active next room candidate zones wins queue passed fits here found
    settings content page check isPage epoch overflow message entry granted
  have onAir : s.laneOnAir lane = true := (s.laneOnAir_iff lane).2 ⟨awake, windows, active⟩
  have head : (s.queue z).find? (s.candidate lane) = some k := State.find?_candidate queue
    (fun j member meets => passed j member (State.candidate_iff.1 meets)) (State.candidate_iff.2 fits)
  have chosen : s.chooseMessage l = (entry.message, message, if isPage = true then some overflow else none) :=
    State.chooseMessage_eq found (laws.pending_of_staged here)
  have taken : s.grantEntry lane slot k l = entry := by
    simp only [State.grantEntry, chosen, satisfied_eq]
    rfl
  have record : s.grantedLabel l = { l with
      state := .inFlight
      needs := ⟨false, l.needs.shown && l.needs.staged, isPage && l.needs.query, false⟩
      overflow := if isPage = true then overflow else l.overflow
      changed := false } := by
    rw [State.grantedLabel, Needs.minus_satisfied, chosen]
    dsimp only
    split <;> rfl
  have raised : (if isPage = true then some overflow else none) = some true ↔ isPage = true ∧ overflow = true := by
    split <;> simp_all
  let opened : State := s.setWindows lane { s.air.windows[lane.val] with opened := slot.val + 1 }
  let pointed : State := opened.setPointers (s.pointers.set lane.val (z + 1))
  have guards : pointed.updateGuards zones z = pointed.setZones granted.zones :=
    State.updateGuards_eq (s := pointed) laws.guard ((List.nodup_finRange 64).filter _) (State.winner_mem wins)
  have decided : opened.decideSlot lane slot = (pointed.updateGuards zones z).grant lane slot k :=
    State.decideSlot_grants (s := opened) room wins head
  have writable : pointed.Writable k (some (s.grantedLabel l)) := { laws.writable here (s.grantedLabel l) (.inl rfl) with }
  have guarded := writable.updateGuards zones z
  rw [guards] at decided guarded
  obtain ⟨label, follows, beside⟩ := State.Writable.grants (s := pointed.setZones granted.zones) (lane := lane) (slot := slot)
    guarded laws.owed here
  have same : ((pointed.setZones granted.zones).setEntries (s.entries ++ [s.grantEntry lane slot k l])).announceGrant lane
      (s.chooseMessage l) = granted := by
    rw [State.announceGrant_eq, taken, chosen]
    simp only [raised]
    rfl
  refine ⟨_, (execDataSlotOpening_next lane slot s onAir settled next).trans (congrArg Host.Outcome.next decided), fun j => ?_, follows,
    beside.trans (congrArg _ same)⟩
  rw [← record]
  exact label j

end Sys2Proof.Machine
end

