-- ==== Sys2Proof/Proofs/ZoneRetries.lean ====
section
/-! ZONE_RETRY (R24, R151): the FAILED labels of a zone revived in slot order. -/

namespace Sys2Proof.Machine

section
variable {s : State} {z : ZoneNo}

theorem serveZoneRetry_badValue {zone : Byte} (out : 63 < zone.toNat) : serveZoneRetry zone s = s.refuse .badValue := by
  rw [serveZoneRetry, zoneOf_eq_none out]

theorem serveZoneRetry_revives {zone : Byte} (named : z.val = zone.toNat) : serveZoneRetry zone s
    = (s.updateLabels (fun _ l => l.failedIn z) fun _ l => l.revive).accept
        (leBytes 2 (s.labels.countP fun kv => kv.2.failedIn z)) := by
  rw [serveZoneRetry, zoneOf_eq named]

/-- A revival leaves every record but a FAILED one of the zone as it is (R9, R151). -/
theorem Label.revive_of_failedIn (z : ZoneNo) (l : Label) : (if l.failedIn z = true then l.revive else l)
    = if l.state = .failed ∧ l.adminZone = z then { l with state := .queued, attempts := 0 } else l := by
  have meets : l.failedIn z = true ↔ l.state = .failed ∧ l.adminZone = z := by simp [Label.failedIn]
  by_cases failed : l.state = .failed ∧ l.adminZone = z
  · rw [if_pos (meets.2 failed), if_pos failed, Label.revive, if_pos failed.1]
  · rw [if_neg (mt meets.1 failed), if_neg failed]

/-- The FAILED labels of a zone revived: what each slot reads as, what follows, and nothing else; no revival touches STAGED, so the
sum of R80 stays. -/
theorem State.Laws.reviveFailed (laws : s.Laws) (z : ZoneNo) :
    let t := s.updateLabels (fun _ l => l.failedIn z) fun _ l => l.revive
    (∀ j, t.label j = (s.label j).map fun l =>
        if l.state = .failed ∧ l.adminZone = z then { l with state := .queued, attempts := 0 } else l)
      ∧ s.Follows t ∧ t = t.withRecords s := by
  intro t
  have staged : t.Staged :=
    laws.stagedWork.updateLabels (test := fun _ l => l.failedIn z) (change := fun _ l => l.revive) laws.tables
      (fun _ l => l.revive_setup.address) (by simp) (by simp)
  refine ⟨fun j => ?_, ?_, (State.updateLabels_same _ _ s).eq_withRecords⟩
  · simp only [← Label.revive_of_failedIn]
    exact State.updateLabels_label (fun _ l => l.failedIn z) (fun _ l => l.revive) s j laws.tables.rising
  · exact State.updateLabels_follows (test := fun _ l => l.failedIn z) (change := fun _ l => l.revive) laws.tables laws.queue laws.counts
      laws.bound (fun _ l u => l.revive_kept u) rfl rfl rfl rfl staged.count

end

/-- Settles O35: the refusal, else the labels revived and their number. -/
theorem zoneRetry : Obligations.ZoneRetry := by
  refine fun tag zone s awake laws => ⟨fun out => State.request_refused rfl awake (serveZoneRetry_badValue out), fun z named => ?_⟩
  exact State.request_rewrites (r := .zoneRetry zone) rfl awake (serveZoneRetry_revives named) ((laws.collect _).reviveFailed z)

end Sys2Proof.Machine
end

