-- ==== Sys2Proof/Proofs/Successes.lean ====
section
/-! The matched arrival that passes the test of R140 (R11, R110, R138 to R145). -/

namespace Sys2Proof.Machine

/-! ## What a success writes into the record (R141 to R144) -/

/-- The shown side of a successful QUERY (R144): a check not yet known is noted, and one that differs from the record's is a mismatch
that owes the SHOWN side. -/
theorem Label.compareShown_eq (a : Ack) (l : Label) :
    let differs := l.shownCheck.any (· != a.shownCheck)
    l.compareShown a = { l with
      shownCheck := some (l.shownCheck.getD a.shownCheck), mismatch := l.mismatch || differs,
      needs := { l.needs with shown := l.needs.shown || differs } } := by
  unfold Label.compareShown
  cases known : l.shownCheck with
  | none => simp
  | some c =>
    by_cases same : c = a.shownCheck
    · have unchanged : l = { l with shownCheck := some a.shownCheck } := by rw [← same, ← known]
      simpa [same] using unchanged
    · simp [same]

/-- The staged side of a successful QUERY (R144): the check reported for the pending epoch is the recorded page's, and no page is
recorded where another epoch is reported; otherwise the staged page is lost, and STAGED owed again. -/
theorem Label.compareStaged_eq (pending : Option Epoch) (a : Ack) (l : Label) :
    let lost := if pending = some a.stagedEpoch then !l.stagedPage.any (·.check == a.stagedCheck) else l.stagedPage.isSome
    l.compareStaged pending a = { l with
      needs := { l.needs with staged := l.needs.staged || lost }, stagedPage := if lost = true then none else l.stagedPage } := by
  unfold Label.compareStaged
  by_cases current : pending = some a.stagedEpoch
  · cases page : l.stagedPage with
    | none => simp [current]
    | some p =>
      have unchanged : l = { l with stagedPage := some p } := by rw [← page]
      by_cases same : p.check = a.stagedCheck
      · simpa [current, same] using unchanged
      · simp [current, same]
  · cases page : l.stagedPage with
    | none =>
      have unchanged : l = { l with stagedPage := none } := by rw [← page]
      simpa [current] using unchanged
    | some p => simp [current]

section
variable {s : State} {e : Entry} {a : Ack} {l : Label}

/-- Both sides of a successful QUERY (R144); the staged side is compared outside STEADY alone. -/
theorem State.confirmMessage_query (sent : e.message = .query) :
    let differs := l.shownCheck.any (· != a.shownCheck)
    let lost := s.epochOpen && if s.epoch.pending = some a.stagedEpoch then
      !l.stagedPage.any (·.check == a.stagedCheck) else l.stagedPage.isSome
    s.confirmMessage e a l = { l with
      shownCheck := some (l.shownCheck.getD a.shownCheck), mismatch := l.mismatch || differs,
      needs := { l.needs with shown := l.needs.shown || differs, staged := l.needs.staged || lost },
      stagedPage := if lost = true then none else l.stagedPage } := by
  intro differs lost
  have compared : s.confirmMessage e a l
      = if s.epochOpen = true then (l.compareShown a).compareStaged s.epoch.pending a else l.compareShown a := by
    simp only [State.confirmMessage, sent]
  rw [compared, Label.compareStaged_eq, Label.compareShown_eq]
  cases open_ : s.epochOpen <;> simp [open_, lost, differs]

/-- What a success writes of the message does not hang on settings and observations, and leaves them. -/
theorem State.confirmMessage_beside (s : State) (e : Entry) (a : Ack) (l : Label) (c : Settings) (r : Option Settings)
    (b : Option (Fin 16)) (f : Option Frame) (low : Bool) :
    s.confirmMessage e a { l with confirmed := c, requested := r, battery := b, lastHeard := f, lowBattery := low }
      = { s.confirmMessage e a l with confirmed := c, requested := r, battery := b, lastHeard := f, lowBattery := low } := by
  cases sent : e.message with
  | query => simp only [State.confirmMessage_query sent]
  | page side epoch check => rcases side with _ | _ | _ <;> simp only [State.confirmMessage, sent]

/-- The record that a success with its observations leaves (R11, R139, R143, R145). -/
theorem State.successLabel_observed (s : State) (e : Entry) (a : Ack) (l : Label) (f : Frame) :
    let returned := { s.confirmMessage e a l with
      confirmed := e.settings, requested := if l.requested = some e.settings then none else l.requested,
      battery := some a.battery, lastHeard := some f, lowBattery := decide (a.battery.val ≤ 2), attempts := 0 }
    s.successLabel e a (l.observe f a) = { returned with state := if returned.hasNeed = true then .queued else .current } := by
  intro returned
  have confirmed : (l.observe f a).confirm e.settings = { l with
      confirmed := e.settings, requested := if l.requested = some e.settings then none else l.requested,
      battery := some a.battery, lastHeard := some f, lowBattery := decide (a.battery.val ≤ 2) } := by
    rw [Label.confirm, Label.dropRequested_eq]
    rfl
  rw [State.successLabel, confirmed, State.confirmMessage_beside]
  rfl

/-! ## The arrival (R110, R138, R140) -/

/-- The frame on the air has no part in a report of staged work. -/
theorem State.setAir_reportStaged (x : Air) (t before : State) : (t.setAir x).reportStaged before = (t.reportStaged before).setAir x := by
  have moved : (t.setAir x).reportStaged before
      = if t.epoch.outstanding + t.owed - before.owed = 0 ∧ 0 < t.epoch.outstanding ∧ t.epochOpen = true then
          ((t.setAir x).setEpoch { t.epoch with outstanding := t.epoch.outstanding + t.owed - before.owed }).raise .stagingComplete
        else (t.setAir x).setEpoch { t.epoch with outstanding := t.epoch.outstanding + t.owed - before.owed } :=
    State.reportStaged_eq _ _
  rw [moved, State.reportStaged_eq]
  split <;> rfl

/-- A success resolved: the record it leaves, its entry freed, the label noted for the rest of the frame, the count reported. -/
theorem State.Laws.succeeds (laws : s.Laws) (lane : Lane) (windows : LaneWindows) (member : e ∈ s.entries) {m : Label}
    (here : s.label e.label = some l) (binding : m.binding = l.binding) :
    let w := s.setWindows lane windows
    let t := (w.succeedEntry e a m).reportStaged w
    s.Writes e.label (some (s.successLabel e a m)) { s with
      entries := s.entries.filter fun e' => e'.label != e.label
      air := { s.air with
        windows := s.air.windows.set lane.val windows
        confirmedNow := e.label :: s.air.confirmedNow }
      notices := s.noticesAfterCount t } t := by
  intro w t
  let new := s.successLabel e a m
  let air : Air := { w.air with confirmedNow := e.label :: w.air.confirmedNow }
  have kept : new.binding = l.binding := (s.successLabel_returned e a m).binding.trans binding
  have freed : (w.freeEntry e).Writable e.label (some new) := { laws.writable here new (.inl kept) with }
  obtain ⟨label, follows, beside⟩ := freed.reported w laws.owed
  have same := State.writeLabel_same e.label (some new) (w.freeEntry e)
  have resolved : t = (((w.freeEntry e).writeLabel e.label (some new)).reportStaged w).setAir air := by
    rw [← State.setAir_reportStaged]
    have noted : w.succeedEntry e a m = ((w.freeEntry e).writeLabel e.label (some new)).setAir
        { ((w.freeEntry e).writeLabel e.label (some new)).air with
          confirmedNow := e.label :: ((w.freeEntry e).writeLabel e.label (some new)).air.confirmedNow } := rfl
    rw [same.air] at noted
    exact congrArg (State.reportStaged · w) noted
  rw [← laws.agrees.erase_eq_filter member, resolved]
  exact ⟨label, follows, congrArg (State.setAir air) beside⟩

/-- The windows have no part in which entry an arrival matches (R138). -/
theorem State.setWindows_matchArrival (lane lane' : Lane) (windows : LaneWindows) (slot : SlotNo) (address : Address) :
    (s.setWindows lane windows).matchArrival lane' slot address = s.matchArrival lane' slot address := rfl

theorem State.setWindows_label (lane : Lane) (windows : LaneWindows) (k : Nat) : (s.setWindows lane windows).label k = s.label k := rfl

/-- An arrival matched to an entry that passes the test of R140 is a success of the record with its observations (R139). -/
theorem State.takeAck_succeeds {lane : Lane} {slot : SlotNo} (found : s.matchArrival lane slot a.address = some e)
    (here : s.label e.label = some l) (passes : e.succeeds a = true) :
    let w := s.setWindows lane { s.air.windows[lane.val] with taken := slot :: s.air.windows[lane.val].taken }
    s.takeAck lane slot a = (w.succeedEntry e a (l.observe s.radio.frame a)).reportStaged w := by
  simp only [State.takeAck, State.setWindows_matchArrival, found, State.resolveArrival, State.setWindows_label, here, passes, if_true]
  rfl

end

/-- Settles O44: in a settled frame with every data slot opened the window is one success of the one entry it concerns. -/
theorem arrivalSucceeds : Obligations.ArrivalSucceeds := by
  intro lane slot a e l s awake laws settled windows opened still first only here accepted answered differs known lost written returned
  obtain ⟨found, member, meets⟩ := find?_of_filter_eq only
  obtain rfl : e.lane = lane := by simp_all
  have passes : e.succeeds a = true := by
    unfold Entry.succeeds
    split at answered <;> simp_all
  have confirmed : s.confirmMessage e a l = written := by
    have sides : differs = l.shownCheck.any (· != a.shownCheck) ∧ known = l.stagedPage.any (·.check == a.stagedCheck) := by
      constructor
      · cases shown : l.shownCheck <;> simp [differs, shown]
      · cases page : l.stagedPage <;> simp [known, page]
    cases sent : e.message with
    | query =>
      rw [State.confirmMessage_query sent, ← sides.1, ← sides.2]
      simp only [written, sent]
      rfl
    | page side epoch check => rcases side with _ | _ | _ <;> simp only [State.confirmMessage, written, sent]
  have record : s.successLabel e a (l.observe s.radio.frame a)
      = { returned with state := if returned.hasNeed = true then .queued else .current } := by
    rw [State.successLabel_observed, confirmed]
  have taken := execAckArrival_next e.lane slot a.message s (laws.laneOnAir awake windows member) settled opened still first
  rw [receiveAck_message, Option.elim_some, State.takeAck_succeeds found here passes] at taken
  rw [← record]
  exact ⟨_, taken, laws.succeeds e.lane { s.air.windows[e.lane.val] with taken := slot :: s.air.windows[e.lane.val].taken } member
    (m := l.observe s.radio.frame a) here rfl⟩

end Sys2Proof.Machine
end

