-- ==== Sys2Proof/Proofs/HoldRequests.lean ====
section
/-! The Hold Unit (chapter 8): ZONE_HOLD and ZONE_RELEASE by the zone's hold state and the budget, and the due counts that end a hold
(R160 to R164). -/

namespace Sys2Proof.Machine

section
variable {s : State} {z : ZoneNo}

/-! ## ZONE_HOLD and ZONE_RELEASE (R160 to R163) -/

/-- The one response layout, its codes and its place in the set spelled out (R161, R198). -/
theorem State.holdBody_eq (s : State) (z : ZoneNo) : s.holdBody z
    = [if (s.zone z).hold = .held then 1 else 0] ++ leBytes 2 (s.zone z).budget ++ leBytes 1 (s.zone z).idle
      ++ optBytes 3 ((s.zone z).holdStart.map BitVec.toNat)
      ++ leBytes 1 (if z ∈ s.holdSet then s.holdSet.idxOf z + 1 else 0) ++ leBytes 1 s.holdSet.length := by
  simp only [State.holdBody, holdStateCode_eq, optFrame, State.holdPosition, List.contains_iff_mem]

theorem Zone.isHeld_of_held {x : Zone} (held : x.hold = .held) : x.isHeld = true := by rw [Zone.isHeld, held]; rfl

theorem Zone.isHeld_of_none {x : Zone} (free : x.hold = .none) : x.isHeld = false := by rw [Zone.isHeld, free]; rfl

theorem serveZoneHold_badValue {zone : Byte} {budget : BitVec 16} (out : 63 < zone.toNat) :
    serveZoneHold zone budget s = s.refuse .badValue := by
  rw [serveZoneHold, zoneOf_eq_none out]

theorem serveZoneRelease_badValue {zone : Byte} (out : 63 < zone.toNat) : serveZoneRelease zone s = s.refuse .badValue := by
  rw [serveZoneRelease, zoneOf_eq_none out]

section
variable {zone : Byte} {budget : BitVec 16} (named : z.val = zone.toNat)
include named

/-- ZONE_RELEASE of a HELD zone ends its hold (R163). -/
theorem serveZoneRelease_held (held : (s.zone z).hold = .held) :
    serveZoneRelease zone s = (s.endHold z).accept ((s.endHold z).holdBody z) := by
  simp only [serveZoneRelease, zoneOf_eq named, Zone.isHeld_of_held held, if_true]

/-- ZONE_RELEASE of another zone reports it (R163). -/
theorem serveZoneRelease_free (free : (s.zone z).hold = .none) : serveZoneRelease zone s = s.accept (s.holdBody z) := by
  simp only [serveZoneRelease, zoneOf_eq named, Zone.isHeld_of_none free, Bool.false_eq_true, if_false]

/-- ZONE_HOLD with budget 0 is ZONE_RELEASE (R161, R162). -/
theorem serveZoneHold_zero (s : State) : serveZoneHold zone 0 s = serveZoneRelease zone s := by
  simp only [serveZoneHold, serveZoneRelease, zoneOf_eq named, BitVec.ofNat_eq_ofNat, BitVec.toNat_zero, if_true]
  split <;> rfl

/-- ZONE_HOLD of a HELD zone replaces its budget and keeps its place and its hold start (R161). -/
theorem serveZoneHold_held (held : (s.zone z).hold = .held) (given : budget ≠ 0) :
    let t := s.setZone z { s.zone z with budget := budget.toNat, idle := 0 }
    serveZoneHold zone budget s = t.accept (t.holdBody z) := by
  have positive : budget.toNat ≠ 0 := BitVec.toNat_ne.1 given
  simp only [serveZoneHold, zoneOf_eq named, Zone.isHeld_of_held held, if_true, if_neg positive]

/-- ZONE_HOLD of a zone not HELD: the radio first, then the room in the set (R160). -/
theorem serveZoneHold_free (free : (s.zone z).hold = .none) (given : budget ≠ 0) : serveZoneHold zone budget s
    = if s.radio.state = .stopped then s.refuse .radioStopped
      else if 8 ≤ s.holdSet.length then s.refuse .holdFull
      else (s.beginHold z budget.toNat).accept ((s.beginHold z budget.toNat).holdBody z) := by
  have positive : budget.toNat ≠ 0 := BitVec.toNat_ne.1 given
  have stopped : (!s.running) = true ↔ s.radio.state = .stopped := by
    rw [State.running]
    cases s.radio.state <;> decide
  simp only [serveZoneHold, zoneOf_eq named, Zone.isHeld_of_none free, Bool.false_eq_true, if_false, if_neg positive, stopped]
  rfl

end

/-! ## Due counts that end a hold (R164) -/

/-- A due count that ends the hold: the zone counted, its hold ended as every end of a hold does (R163, R164). -/
theorem State.takeHoldCount_ended (once : s.holdsDue.Nodup) (due : z ∈ s.holdsDue)
    (ends : (s.zone z).counted.budget = 0 ∨ (s.zone z).counted.idle = s.radio.config.holdIdle) :
    s.takeHoldCount z = { s.setZone z { (s.zone z).counted with hold := .none, holdStart := none, holdFrames := 0 } with
      holdSet := s.holdSet.erase z, holdsDue := s.holdsDue.erase z,
      notices := { s.notices with pending := { s.notices.pending with holdEnded := true } } } := by
  have limit : s.countEnds z = true := by simpa [State.countEnds] using ends
  have dropped : (s.holdsDue.erase z).erase z = s.holdsDue.erase z := List.erase_of_not_mem once.not_mem_erase
  have counted : ((s.setZone z (s.zone z).counted).setHoldsDue (s.holdsDue.erase z)).zone z = (s.zone z).counted := by
    rw [State.setHoldsDue_zone, State.setZone_zone, if_pos rfl]
  rw [State.takeHoldCount, if_pos (List.contains_iff_mem.2 due), if_pos limit, State.endHold_eq, counted]
  simp only [State.setHoldsDue, State.setZone, State.setZones, Vector.set_set, dropped]
  rfl

/-- Where no count is due there is none to take (R164, assumption 3). -/
theorem State.takeHoldCount_of_not_due (free : z ∉ s.holdsDue) : s.takeHoldCount z = s :=
  if_neg (mt List.contains_iff_mem.1 free)

end

/-- Settles O36: the refusal of the zone number, then the two requests by the zone's hold state; budget 0 is a release. -/
theorem holdRequests : Obligations.HoldRequests := by
  intro tag zone budget s awake laws
  refine ⟨fun out => ⟨State.request_refused rfl awake (serveZoneHold_badValue out),
    State.request_refused rfl awake (serveZoneRelease_badValue out)⟩, fun z named => ?_⟩
  intro body ended
  have spelled : body = fun t => t.holdBody z := funext fun t => (t.holdBody_eq z).symm
  rw [spelled]
  refine ⟨fun free => ?_, fun held => ?_⟩
  · have released := serveZoneRelease_free (s := s.collect ((Request.zoneRelease zone).frame tag)) named free
    have begun := fun given => serveZoneHold_free (s := s.collect ((Request.zoneHold zone budget).frame tag)) named free
      (budget := budget) given
    have on : s.radio.state = .running → s.radio.state ≠ .stopped := fun running => by simp [running]
    refine ⟨State.request_answered rfl awake released, ?_, fun given stopped => ?_, fun given running full => ?_,
      fun given running room => ?_⟩
    · rintro rfl
      exact State.request_answered rfl awake ((serveZoneHold_zero named _).trans (serveZoneRelease_free named free))
    · exact State.request_refused rfl awake ((begun given).trans (if_pos stopped))
    · exact State.request_refused rfl awake ((begun given).trans ((if_neg (on running)).trans (if_pos full.ge)))
    · exact State.request_accepted (t := s.beginHold z budget.toNat) rfl awake
        ((begun given).trans ((if_neg (on running)).trans (if_neg (Nat.not_le.2 room))))
  · refine ⟨State.request_accepted (t := s.endHold z) rfl awake (serveZoneRelease_held named held), ?_, fun given => ?_⟩
    · rintro rfl
      exact State.request_accepted (t := s.endHold z) rfl awake ((serveZoneHold_zero named _).trans (serveZoneRelease_held named held))
    · exact State.request_accepted (t := s.setZone z _) rfl awake (serveZoneHold_held named held given)

/-- Settles O37: each row takes the due count when that count reaches its own limit, and does nothing else. -/
theorem holdEndsAtItsLimits : Obligations.HoldEndsAtItsLimits := by
  intro z s idle ended
  have once : s.Laws → s.holdsDue.Nodup := fun laws => (s.holdLaw_iff.1 laws.hold).1.dueOnce
  refine ⟨fun laws due last => ?_, fun laws due full => ?_, fun spared => ?_, fun spared => ?_⟩
  · have spent : (s.zone z).counted.budget = 0 := by rw [Zone.counted, last]
    exact congrArg _ ((if_pos spent).trans (State.takeHoldCount_ended (once laws) due (.inl spent)))
  · exact congrArg _ ((if_pos full).trans (State.takeHoldCount_ended (once laws) due (.inr full)))
  · refine congrArg _ (ite_eq_right_iff.2 fun spent => State.takeHoldCount_of_not_due (spared.resolve_right fun more => ?_))
    exact Nat.not_le.2 more (Nat.sub_eq_zero_iff_le.1 spent)
  · exact congrArg _ (ite_eq_right_iff.2 fun full => State.takeHoldCount_of_not_due (spared.resolve_right fun busy => busy full))

end Sys2Proof.Machine
end

