-- ==== Sys2Proof/Proofs/RequestFrames.lean ====
section
/-! A request's frame read back (R172, R173, R197 to R199): each value of a body where it was written, the length its kind requires, and
the Gateway Port's checks passed. -/

namespace Sys2Proof

/-! ## Values of a body (R198) -/

section
variable {body rest : List Byte} {off n : Nat}

@[simp] theorem leBytes_length (n v : Nat) : (leBytes n v).length = n := by
  induction n generalizing v with
  | zero => rfl
  | succ n ih => rw [leBytes, List.length_cons, ih]

@[simp] theorem optBytes_length (n : Nat) (o : Option Nat) : (optBytes n o).length = n + 1 := by
  cases o <;> simp [optBytes]

/-- A quantity read where it was written. -/
theorem leAt_of_drop {v : Nat} (here : body.drop off = leBytes n v ++ rest) : leAt body off n = v % 256 ^ n := by
  rw [leAt, here, List.take_left' (leBytes_length n v), leNat_leBytes]

/-- A word read where it was written. -/
theorem word_of_drop {w : Nat} {x : BitVec w} (here : body.drop off = leBytes n x.toNat ++ rest) (wide : w = 8 * n) :
    BitVec.ofNat w (leAt body off n) = x := by
  rw [leAt, here, List.take_left' (leBytes_length n _), ofNat_leNat_leBytes n x wide]

/-- A byte read where it was written. -/
theorem byteAt_of_drop {b : Byte} (here : body.drop off = b :: rest) : byteAt body off = b := by
  rw [byteAt, leAt, here]
  simp [leNat]

/-- An optional value read where it was written behind its presence byte. -/
theorem optAt_of_drop {w : Nat} {o : Option (BitVec w)} (here : body.drop off = optBytes n (o.map BitVec.toNat) ++ rest)
    (wide : w = 8 * n) : (optAt body off n).map (BitVec.ofNat w) = o := by
  cases o with
  | none =>
    have absent : flagAt body off = false := by rw [flagAt, leAt, here]; rfl
    simp [optAt, absent]
  | some x =>
    have present : flagAt body off = true := by rw [flagAt, leAt, here]; rfl
    have after : body.drop (off + 1) = leBytes n x.toNat ++ rest := by rw [← List.drop_drop, here]; rfl
    simp only [optAt, present, if_true, Option.map_some, word_of_drop after wide]

/-- Bit i of the presence bits says whether the i-th value is there. -/
theorem presenceBits_testBit (os : List (Option Byte)) (i : Nat) :
    (presenceBits os).testBit i = (os[i]?.getD none).isSome := by
  induction os generalizing i with
  | nil => simp [presenceBits]
  | cons o os ih =>
    cases i with
    | zero => cases o <;> simp [presenceBits, Nat.testBit_zero]
    | succ i =>
      have half : presenceBits (o :: os) / 2 = presenceBits os := by
        rw [presenceBits]
        split <;> omega
      rw [Nat.testBit_succ, half, ih, List.getElem?_cons_succ]

/-- A value selected by its presence bit, read where it was written. -/
theorem selectedAt_of_drop {os : List (Option Byte)} {i : Nat} {o : Option Byte} (listed : os[i]? = some o) (low : i < 8)
    (here : body.drop off = o.getD 0 :: rest) : selectedAt body (BitVec.ofNat 8 (presenceBits os)) i off = o := by
  have bit : (BitVec.ofNat 8 (presenceBits os)).getLsbD i = o.isSome := by
    rw [BitVec.getLsbD_ofNat, presenceBits_testBit, listed, decide_eq_true low]
    rfl
  rw [selectedAt, bit, byteAt_of_drop here]
  cases o <;> rfl

/-- What follows a field of known length. -/
theorem drop_after {field : List Byte} {k : Nat} (here : body.drop off = field ++ rest) (length : field.length = k) :
    body.drop (off + k) = rest := by
  rw [← List.drop_drop, here, ← length, List.drop_left]

/-- A price set read where it was written. -/
theorem priceAt_of_drop {p : PriceWords} (here : body.drop off = p.bytes ++ rest) : priceAt body off = p := by
  simp only [PriceWords.bytes, List.append_assoc] at here
  have old := drop_after here (leBytes_length 4 _)
  have promo := drop_after old (optBytes_length 4 _)
  have quantity := drop_after (k := 1) promo rfl
  have basis := drop_after quantity (leBytes_length 4 _)
  have kind := drop_after basis (leBytes_length 2 _)
  simp only [Nat.add_assoc, Nat.reduceAdd] at promo quantity basis kind
  simp only [priceAt, word_of_drop here rfl, optAt_of_drop old rfl, Machine.flagAt_flagByte promo, word_of_drop quantity rfl,
    word_of_drop basis rfl, byteAt_of_drop kind]

@[simp] theorem PriceWords.bytes_length (p : PriceWords) : p.bytes.length = 17 := by simp [PriceWords.bytes]

@[simp] theorem FieldWords.bytes_length (f : FieldWords) : f.bytes.length = 5 := by simp [FieldWords.bytes]

/-- A field entry read where it was written (R199). -/
theorem fieldAt_of_drop {f : FieldWords} (here : body.drop off = f.bytes ++ rest) : fieldAt body off = f := by
  simp only [FieldWords.bytes, List.append_assoc] at here
  have offset := drop_after (k := 1) here rfl
  have digits := drop_after offset (leBytes_length 2 _)
  have minimum := drop_after (field := [f.digits]) (k := 1) digits rfl
  simp only [Nat.add_assoc, Nat.reduceAdd] at digits minimum
  simp only [fieldAt, byteAt_of_drop here, word_of_drop offset rfl, byteAt_of_drop digits, byteAt_of_drop minimum]

/-- The field entries of a load read where they were written (R199). -/
theorem fieldsAt_of_drop {fields : List FieldWords} (here : body.drop off = fields.flatMap FieldWords.bytes) :
    fieldsAt body off fields.length = fields := by
  induction fields generalizing off with
  | nil => rfl
  | cons f fields ih =>
    rw [List.flatMap_cons] at here
    rw [List.length_cons, fieldsAt, fieldAt_of_drop here, ih (drop_after here f.bytes_length)]

end

/-! ## A request's body read back (R199) -/

/-- The field count of a load that a frame can carry is its byte (R199). -/
theorem TemplateWords.count_read {t : TemplateWords} (fits : t.fitsFrame = true) :
    leAt (Request.templateLoad t).body 8 1 = t.fields.length := by
  have few : t.fields.length ≤ 49 := of_decide_eq_true fits
  rw [leAt_of_drop (v := t.fields.length) rfl]
  omega

/-- A body that a frame can carry has the length its kind requires, and keeps within the port's capacity (R172, R199). -/
theorem Request.requiredLength_body {r : Request} (fits : r.fits = true) :
    requiredLength r.kind r.body = some r.body.length ∧ r.body.length ≤ 256 := by
  cases r with
  | templateLoad t =>
    have few : t.fields.length ≤ 49 := of_decide_eq_true fits
    have length : (Request.templateLoad t).body.length = 9 + 5 * t.fields.length := by
      simp [Request.body]
      omega
    refine ⟨?_, by omega⟩
    rw [length, ← TemplateWords.count_read fits]
    rfl
  | _ => constructor <;> simp [requiredLength, Request.kind, Request.body]

/-- A body that a frame can carry spells its request (R198, R199). -/
theorem Request.decodeBody_body {r : Request} (fits : r.fits = true) : decodeBody r.kind r.body = some r := by
  cases r with
  | itemPut n p => exact congrArg some (congrArg₂ Request.itemPut (word_of_drop rfl rfl) (priceAt_of_drop (List.append_nil _).symm))
  | itemSetNext n p =>
    exact congrArg some (congrArg₂ Request.itemSetNext (word_of_drop rfl rfl) (priceAt_of_drop (List.append_nil _).symm))
  | itemClearNext n => exact congrArg (some ∘ Request.itemClearNext) (word_of_drop (rest := []) rfl rfl)
  | itemGet n => exact congrArg (some ∘ Request.itemGet) (word_of_drop (rest := []) rfl rfl)
  | itemRetire n => exact congrArg (some ∘ Request.itemRetire) (word_of_drop (rest := []) rfl rfl)
  | labelAdd a =>
    obtain ⟨address, zone, lane, exponent, phase, template, item⟩ := a
    refine congrArg (some ∘ Request.labelAdd) ?_
    simp only [LabelAddWords.mk.injEq]
    exact ⟨word_of_drop rfl rfl, byteAt_of_drop rfl, byteAt_of_drop rfl, byteAt_of_drop rfl, byteAt_of_drop rfl, byteAt_of_drop rfl,
      optAt_of_drop (List.append_nil _).symm rfl⟩
  | labelBind a item =>
    exact congrArg some (congrArg₂ Request.labelBind (word_of_drop rfl rfl) (optAt_of_drop (List.append_nil _).symm rfl))
  | labelMove a m =>
    refine congrArg some (congrArg₂ Request.labelMove (word_of_drop rfl rfl) ?_)
    obtain ⟨zone, lane, exponent, phase, template⟩ := m
    have bits : byteAt (Request.labelMove a ⟨zone, lane, exponent, phase, template⟩).body 3
        = BitVec.ofNat 8 (presenceBits [zone, lane, exponent, phase, template]) := byteAt_of_drop rfl
    rw [bits, MoveWords.mk.injEq]
    exact ⟨selectedAt_of_drop rfl (by decide) rfl, selectedAt_of_drop rfl (by decide) rfl, selectedAt_of_drop rfl (by decide) rfl,
      selectedAt_of_drop rfl (by decide) rfl, selectedAt_of_drop rfl (by decide) rfl⟩
  | labelGet a => exact congrArg (some ∘ Request.labelGet) (word_of_drop (rest := []) rfl rfl)
  | labelRetire a => exact congrArg (some ∘ Request.labelRetire) (word_of_drop (rest := []) rfl rfl)
  | labelRetry a => exact congrArg (some ∘ Request.labelRetry) (word_of_drop (rest := []) rfl rfl)
  | labelQuery a => exact congrArg (some ∘ Request.labelQuery) (word_of_drop (rest := []) rfl rfl)
  | labelLocate a => exact congrArg (some ∘ Request.labelLocate) (word_of_drop (rest := []) rfl rfl)
  | labelScan start states flags =>
    refine congrArg some ?_
    simp only [Request.labelScan.injEq]
    exact ⟨word_of_drop rfl rfl, byteAt_of_drop rfl, byteAt_of_drop rfl⟩
  | templateLoad t =>
    refine congrArg (some ∘ Request.templateLoad) ?_
    rw [TemplateWords.count_read fits, fieldsAt_of_drop (fields := t.fields) rfl]
    obtain ⟨id, length, mask, fields⟩ := t
    simp only [TemplateWords.mk.injEq, and_true]
    exact ⟨byteAt_of_drop rfl, byteAt_of_drop rfl, word_of_drop rfl rfl⟩
  | templateGet b => exact congrArg (some ∘ Request.templateGet) (byteAt_of_drop (rest := []) rfl)
  | zoneSet z v =>
    refine congrArg some (congrArg₂ Request.zoneSet (byteAt_of_drop rfl) ?_)
    obtain ⟨priority, reload, boost⟩ := v
    have bits : byteAt (Request.zoneSet z ⟨priority, reload, boost⟩).body 1
        = BitVec.ofNat 8 (presenceBits [priority, reload, boost]) := byteAt_of_drop rfl
    rw [bits, ZoneWords.mk.injEq]
    exact ⟨selectedAt_of_drop rfl (by decide) rfl, selectedAt_of_drop rfl (by decide) rfl, selectedAt_of_drop rfl (by decide) rfl⟩
  | zoneGet b => exact congrArg (some ∘ Request.zoneGet) (byteAt_of_drop (rest := []) rfl)
  | zoneHold z budget => exact congrArg some (congrArg₂ Request.zoneHold (byteAt_of_drop rfl) (word_of_drop (rest := []) rfl rfl))
  | zoneRelease b => exact congrArg (some ∘ Request.zoneRelease) (byteAt_of_drop (rest := []) rfl)
  | zoneRetry b => exact congrArg (some ∘ Request.zoneRetry) (byteAt_of_drop (rest := []) rfl)
  | epochOpen n => exact congrArg (some ∘ Request.epochOpen) (word_of_drop (rest := []) rfl rfl)
  | epochSchedule n => exact congrArg (some ∘ Request.epochSchedule) (word_of_drop (rest := []) rfl rfl)
  | epochAbandon => rfl
  | epochStatus => rfl
  | radioConfig b =>
    obtain ⟨lanes, channel0, channel1, channel2, channel3, ackDelay, retryGap, maxAttempts, holdIdle⟩ := b
    refine congrArg (some ∘ Request.radioConfig) ?_
    simp only [RadioWords.mk.injEq]
    exact ⟨byteAt_of_drop rfl, byteAt_of_drop rfl, byteAt_of_drop rfl, byteAt_of_drop rfl, byteAt_of_drop rfl, byteAt_of_drop rfl,
      byteAt_of_drop rfl, byteAt_of_drop rfl, byteAt_of_drop rfl⟩
  | radioStart => rfl
  | radioStop => rfl
  | radioStatus => rfl
  | noticeRead => rfl
  | noticeClear b => exact congrArg (some ∘ Request.noticeClear) (byteAt_of_drop (rest := []) rfl)
  | noticeMask b => exact congrArg (some ∘ Request.noticeMask) (byteAt_of_drop (rest := []) rfl)
  | portConfig enable polarity =>
    have bits : byteAt (Request.portConfig enable polarity).body 0 = BitVec.ofNat 8 (presenceBits [enable, polarity]) :=
      byteAt_of_drop rfl
    refine congrArg some (congrArg₂ Request.portConfig ?_ ?_) <;> rw [bits]
    · exact selectedAt_of_drop rfl (by decide) rfl
    · exact selectedAt_of_drop rfl (by decide) rfl
  | deviceInfo => rfl
  | deviceReset => rfl

/-- The last two checks of R173 pass. -/
theorem Request.judgeBody_body {r : Request} (fits : r.fits = true) : judgeBody r.kind r.body = .ok r := by
  rw [judgeBody, (Request.requiredLength_body fits).1, Request.decodeBody_body fits]
  exact if_pos rfl

/-! ## A request's frame (R172, R173, R197) -/

section
variable (tag : Byte) (r : Request)

theorem Request.frame_drop : (r.frame tag).drop 4 = r.body := rfl

theorem Request.frame_length : (r.frame tag).length = 4 + r.body.length := by
  simp [Request.frame]
  omega

theorem Request.frame_kind : byteAt (r.frame tag) 0 = r.kind := byteAt_of_drop rfl

theorem Request.frame_tag : byteAt (r.frame tag) 1 = tag := byteAt_of_drop rfl

/-- READ_RESPONSE is the kind of no request (R175, R199). -/
theorem Request.kind_ne_readResponse : r.kind ≠ readResponseKind := by
  cases r <;> simp [Request.kind, readResponseKind]

/-- A frame declares the length of its body. -/
theorem Request.frame_declared (fits : r.fits = true) : leAt (r.frame tag) 2 2 = r.body.length := by
  have short := (Request.requiredLength_body fits).2
  rw [leAt_of_drop (v := r.body.length) (rest := r.body) rfl]
  omega

/-- The frame of a request passes every check of R173 and spells the request. -/
theorem Request.judgeFrame_frame (fits : r.fits = true) : judgeFrame (r.frame tag) = .ok r := by
  have short := (Request.requiredLength_body fits).2
  have long := r.frame_length tag
  have kept : ¬r.body.length > Config.bodyCapacity := Nat.not_lt.2 short
  rw [judgeFrame, r.frame_declared tag fits, if_neg (by omega), if_neg kept, if_neg (by omega), r.frame_kind, r.frame_drop,
    Request.judgeBody_body fits]

end

end Sys2Proof
end

