-- ==== Sys2Proof/Proofs/GatewayPort.lean ====
section
/-! The Gateway Port (chapter 9): what its checks refuse, what it reads out, a request refused, a reset taken, PORT_CONFIG and
DEVICE_INFO. -/

namespace Sys2Proof.Machine

/-! ## The checks of a frame (R173, R199) -/

section
variable {kind : Byte} {body bytes : List Byte}

/-- The kinds that R199 gives a length are the kinds that name a request. -/
theorem requiredLength_isSome (kind : Byte) (body : List Byte) :
    (requiredLength kind body).isSome = requestKinds.contains kind.toNat := by
  unfold requiredLength
  split <;> simp_all [requestKinds]

/-- A body is read for every kind that names a request. -/
theorem decodeBody_isSome (kind : Byte) (body : List Byte) : (decodeBody kind body).isSome = requestKinds.contains kind.toNat := by
  unfold decodeBody
  dsimp only
  split <;> simp_all [requestKinds]

theorem judgeBody_unknown (unknown : requestKinds.contains kind.toNat = false) : judgeBody kind body = .error .unknownKind := by
  have none : requiredLength kind body = none := by rw [← Option.not_isSome_iff_eq_none, requiredLength_isSome, unknown]; decide
  rw [judgeBody, none]

theorem judgeBody_badLength (known : requestKinds.contains kind.toNat = true) (wrong : requiredLength kind body ≠ some body.length) :
    judgeBody kind body = .error .badLength := by
  obtain ⟨n, length⟩ := Option.isSome_iff_exists.1 ((requiredLength_isSome kind body).trans known)
  obtain ⟨r, decoded⟩ := Option.isSome_iff_exists.1 ((decodeBody_isSome kind body).trans known)
  have other : body.length ≠ n := fun same => wrong (by rw [length, same])
  rw [judgeBody, length, decoded]
  exact if_neg other

/-- A byte at an offset, 0 beyond the end. -/
theorem byteAt_eq (bytes : List Byte) (off : Nat) : byteAt bytes off = bytes.getD off 0 := by
  have item : (bytes.drop off)[0]? = bytes[off]? := by rw [List.getElem?_drop, Nat.add_zero]
  rw [byteAt, leAt, List.getD_eq_getElem?_getD, ← item]
  cases bytes.drop off <;> simp [leNat]

/-- A two-byte quantity by its bytes. -/
theorem leAt_two (bytes : List Byte) (off : Nat) :
    leAt bytes off 2 = (byteAt bytes off).toNat + 256 * (byteAt bytes (off + 1)).toNat := by
  rw [byteAt, byteAt, leAt_add bytes off 1, leAt, leAt, leAt]
  rcases bytes.drop off with _ | ⟨a, _ | ⟨b, rest⟩⟩ <;> simp [leNat]

/-- The Gateway Port judges a frame in R173's order. -/
theorem judgeFrame_refused {result : Result} (refused : portRefusal bytes = some result) : judgeFrame bytes = .error result := by
  simp only [portRefusal] at refused
  simp only [judgeFrame, leAt_two, gt_iff_lt, Config.bodyCapacity, Nat.reduceAdd]
  split at refused
  case isTrue short => exact Option.some.inj refused ▸ if_pos short
  rw [if_neg ‹_›]
  split at refused
  case isTrue large => exact Option.some.inj refused ▸ if_pos large
  rw [if_neg ‹_›]
  split at refused
  case isTrue unequal => exact Option.some.inj refused ▸ if_pos (by omega)
  case isFalse equal =>
  rw [if_neg (by omega)]
  split at refused
  case isTrue unknown => exact Option.some.inj refused ▸ judgeBody_unknown (by simpa using unknown)
  case isFalse known =>
  split at refused
  case isTrue wrong =>
    have length : (bytes.drop 4).length = (byteAt bytes 2).toNat + 256 * (byteAt bytes 3).toNat := by rw [List.length_drop]; omega
    exact Option.some.inj refused ▸ judgeBody_badLength (by simpa using known) (length ▸ wrong)
  case isFalse => contradiction

end

/-! ## Transactions (R172 to R175) -/

section
variable {s : State} {bytes : List Byte} (awake : s.inReset = false) (given : bytes ≠ [])
  (request : byteAt bytes 0 ≠ readResponseKind)
include awake given request

/-- A frame that fails a check is answered by the port (R173). -/
theorem exec_refusedFrame {result : Result} (refused : judgeFrame bytes = .error result) :
    exec (.unknownKindFrame bytes) s = .next ((s.collect bytes).holdResponse (frameTag bytes) (result, [])) := by
  simp only [exec, execUnknownKindFrame, State.gatewayTransaction, awake, given, request, refused, Bool.false_eq_true, or_self, if_false]

/-- A frame that passes every check is taken by its owning block (R174). -/
theorem exec_takenFrame {r : Request} (taken : judgeFrame bytes = .ok r) :
    exec (.unknownKindFrame bytes) s = .next ((serve .gateway r (s.collect bytes)).held (frameTag bytes)) := by
  simp only [exec, execUnknownKindFrame, State.gatewayTransaction, awake, given, request, taken, Bool.false_eq_true, or_self, if_false]

end

/-- Settles O7: the frame passes the port's checks and spells the request, which is then taken as its own row takes it. -/
theorem rawFrameDoesWhatItsCommandDoes : Obligations.RawFrameDoesWhatItsCommandDoes := by
  intro c tag r s row fits
  rw [exec_request row]
  by_cases awake : s.inReset = false
  · have given : r.frame tag ≠ [] := nofun
    rw [exec_takenFrame awake given (r.frame_kind tag ▸ r.kind_ne_readResponse) (r.judgeFrame_frame tag fits),
      State.gatewayTake_eq _ _ _ _ awake, frameTag, r.frame_tag]
  · have off : s.inReset = true := by simpa using awake
    rw [State.gatewayTake_reset _ _ _ _ off]
    exact congrArg _ (if_pos (.inl off))

/-- Settles O8: the port's judgement is R173's, and a refused frame is collected and answered. -/
theorem portRefusesBadFrames : Obligations.PortRefusesBadFrames := by
  intro bytes result s awake given request refused
  exact exec_refusedFrame awake given request (judgeFrame_refused refused)

/-! ## READ_RESPONSE (R175) -/

/-- The bytes of a read of at least one byte: 0xFF, the response, 0xFF beyond it. -/
theorem readBytes_spec (r : Response) {n : Nat} (clocked : 1 ≤ n) : (readBytes r n).length = n ∧ (readBytes r n)[0]? = some 0xFF
    ∧ ∀ i, 1 ≤ i → i < n → (readBytes r n)[i]? = some (r.bytes.getD (i - 1) 0xFF) := by
  refine ⟨?_, ?_, fun i low high => ?_⟩
  · simp [readBytes]
    omega
  · rw [readBytes, List.getElem?_take_of_lt clocked]
    rfl
  · obtain ⟨j, rfl⟩ : ∃ j, i = j + 1 := ⟨i - 1, by omega⟩
    rw [readBytes, List.getElem?_take_of_lt high, List.getElem?_cons_succ, Nat.add_sub_cancel, List.getD_eq_getElem?_getD]
    rcases Nat.lt_or_ge j r.bytes.length with inside | beyond
    · rw [List.getElem?_append_left inside, List.getElem?_eq_getElem inside]
      rfl
    · rw [List.getElem?_append_right beyond, List.getElem?_eq_none beyond, List.getElem?_replicate, if_pos (by omega)]
      rfl

/-- Settles O9: a read by the response held, and the raw transaction that is the same read. -/
theorem readResponseShiftsOut : Obligations.ReadResponseShiftsOut := by
  intro n s clocked awake
  have taken : exec (.readResponse n) s = .next (s.readResponse n) :=
    congrArg _ (if_neg (by simp only [awake, Bool.false_eq_true, false_or]; omega))
  refine ⟨⟨s.readResponse n, taken, ?_⟩, fun bytes length kind => ?_⟩
  · cases held : s.gateway.held with
    | none =>
      have shifts : s.readResponse n = s.setGateway { s.gateway with shifted := readBytes .nothing n } := by rw [State.readResponse, held]
      rw [shifts]
      refine ⟨?_, readBytes_spec .nothing clocked⟩
      rw [ite_self, ← held]
      rfl
    | some r =>
      have shifts : s.readResponse n = s.setGateway
          { s.gateway with shifted := readBytes r n, held := if r.bytes.length ≤ n - 1 then none else some r } := by
        have whole : 1 + r.bytes.length ≤ n ↔ r.bytes.length ≤ n - 1 := by omega
        simp only [State.readResponse, held, whole]
      rw [shifts]
      exact ⟨rfl, readBytes_spec r clocked⟩
  · have given : bytes ≠ [] := List.ne_nil_of_length_pos (by omega)
    rw [taken]
    simp only [exec, execUnknownKindFrame, State.gatewayTransaction, awake, given, kind, readResponseKind, length, Bool.false_eq_true,
      or_self, if_false, if_true]

/-! ## What an owning block answers (R174, R181) -/

/-- What an owning block can make of a request that is no reset: it accepts, or it refuses with an empty body, or it refuses a layout
with the index of a field; a refusal leaves the state as it was. -/
inductive Served.Answers (s : State) : Served → Prop
  | accepts (t : State) (body : List Byte) : Answers s (t.accept body)
  | refuses (result : Result) (plain : result ≠ .layoutBad) : Answers s (s.refuse result)
  | layoutBad (index : Nat) : Answers s ⟨some (.layoutBad, leBytes 1 index), s⟩

section
variable {s : State}

/-- A request that is no reset is answered (R174). -/
theorem Served.Answers.replies {v : Served} (h : Served.Answers s v) : ∃ result body, v.reply = some (result, body) := by
  cases h with
  | accepts t body => exact ⟨_, _, rfl⟩
  | refuses result plain => exact ⟨_, _, rfl⟩
  | layoutBad index => exact ⟨_, _, rfl⟩

/-- The lookup of a label refuses no layout (R1). -/
theorem State.resolve_error {a : Address} {ok : Bool} {result : Result} (h : s.resolve a ok = .error result) : result ≠ .layoutBad := by
  rintro rfl
  unfold State.resolve at h
  split at h
  · split at h <;> contradiction
  · have judged := Except.error.inj h
    split at judged
    · contradiction
    · split at judged <;> contradiction

/-- The checks of a staged change refuse no layout (R36, R38). -/
theorem State.stagingItem_error {n : Nat} {result : Result} (h : s.stagingItem n = .error result) : result ≠ .layoutBad := by
  rintro rfl
  unfold State.stagingItem at h
  split at h
  · split at h <;> contradiction
  · contradiction

/-- Every request but DEVICE_RESET is answered by its owning block, from either port. -/
theorem serve_answers (port : Port) {r : Request} (s : State) (answered : r ≠ .deviceReset) : Served.Answers s (serve port r s) := by
  cases r with
  | deviceReset => contradiction
  | epochStatus | radioStart | radioStatus | noticeRead | deviceInfo => exact .accepts _ _
  | zoneGet | zoneRelease | zoneRetry | noticeClear | noticeMask | portConfig =>
    simp only [serve, serveZoneGet, serveZoneRelease, serveZoneRetry, serveNoticeClear, serveNoticeMask, servePortConfig]
    split
    · exact .refuses _ nofun
    · exact .accepts _ _
  | labelGet a | labelRetire a | labelRetry a | labelQuery a | labelLocate a =>
    simp only [serve, serveLabelGet, serveLabelRetire, serveLabelRetry, serveLabelQuery, serveLabelLocate]
    split
    case h_1 wrong => exact .refuses _ (State.resolve_error wrong)
    · exact .accepts _ _
  | templateLoad b =>
    simp only [serve, serveTemplateLoad]
    split
    · exact .refuses _ nofun
    · split
      · exact .layoutBad _
      · split
        · exact .accepts _ _
        · split <;> exact .accepts _ _
  | itemPut n p =>
    simp only [serve, serveItemPut]
    split
    · split
      · split <;> exact .accepts _ _
      · split
        · exact .refuses _ nofun
        · exact .accepts _ _
    · exact .refuses _ nofun
  | itemSetNext n p =>
    simp only [serve, serveItemSetNext]
    split
    · split
      case h_1 wrong => exact .refuses _ (State.stagingItem_error wrong)
      · split <;> exact .accepts _ _
    · exact .refuses _ nofun
  | itemClearNext n =>
    simp only [serve, serveItemClearNext]
    split
    · exact .refuses _ nofun
    · split
      case h_1 wrong => exact .refuses _ (State.stagingItem_error wrong)
      · split <;> exact .accepts _ _
  | itemGet n =>
    simp only [serve, serveItemGet]
    split
    · exact .refuses _ nofun
    · split
      · exact .refuses _ nofun
      · exact .accepts _ _
  | itemRetire n =>
    simp only [serve, serveItemRetire]
    split
    · exact .refuses _ nofun
    · split
      · exact .refuses _ nofun
      · split
        · exact .refuses _ nofun
        · exact .accepts _ _
  | labelAdd b =>
    simp only [serve, serveLabelAdd]
    split
    · exact .refuses _ nofun
    · split
      · exact .refuses _ nofun
      · split
        · split
          · exact .refuses _ nofun
          · exact .accepts _ _
        · exact .refuses _ nofun
  | labelBind a n =>
    simp only [serve, serveLabelBind]
    split
    case h_1 wrong => exact .refuses _ (State.resolve_error wrong)
    · split
      · exact .refuses _ nofun
      · split <;> exact .accepts _ _
  | labelMove a m =>
    simp only [serve, serveLabelMove]
    split
    case h_1 wrong => exact .refuses _ (State.resolve_error wrong)
    · split
      · exact .refuses _ nofun
      · split <;> exact .accepts _ _
  | labelScan | templateGet | zoneSet =>
    simp only [serve, serveLabelScan, serveTemplateGet, serveZoneSet]
    split
    · exact .refuses _ nofun
    · split
      · exact .refuses _ nofun
      · exact .accepts _ _
  | zoneHold z b =>
    simp only [serve, serveZoneHold]
    split
    · exact .refuses _ nofun
    · split
      · split <;> exact .accepts _ _
      · split
        · exact .accepts _ _
        · split
          · exact .refuses _ nofun
          · split
            · exact .refuses _ nofun
            · exact .accepts _ _
  | epochOpen | radioConfig =>
    simp only [serve, serveEpochOpen, serveRadioConfig]
    split
    · exact .refuses _ nofun
    · split
      · exact .refuses _ nofun
      · split
        · exact .refuses _ nofun
        · exact .accepts _ _
  | epochSchedule n =>
    simp only [serve, serveEpochSchedule]
    split
    · exact .refuses _ nofun
    · split
      · exact .refuses _ nofun
      · exact .accepts _ _
  | epochAbandon =>
    simp only [serve, serveEpochAbandon]
    split
    · exact .refuses _ nofun
    · exact .accepts _ _
  | radioStop =>
    simp only [serve, serveRadioStop]
    split <;> exact .accepts _ _

end

/-- Settles O3: the block that refuses leaves the state as the port collected it. -/
theorem refusalChangesNothing : Obligations.RefusalChangesNothing := by
  intro c tag r s t p row awake ran held refused
  rw [exec_request row, State.gatewayTake_eq _ _ _ _ awake] at ran
  obtain rfl := Host.Outcome.next.inj ran
  by_cases reset : r = .deviceReset
  · subst reset
    contradiction
  have answers := serve_answers .gateway (s.collect (r.frame tag)) reset
  generalize serve .gateway r (s.collect (r.frame tag)) = v at answers held
  cases answers with
  | accepts t body =>
    obtain rfl := Option.some.inj held
    contradiction
  | refuses result plain =>
    obtain rfl := Option.some.inj held
    exact ⟨rfl, rfl, (if_neg plain).mpr rfl⟩
  | layoutBad index =>
    obtain rfl := Option.some.inj held
    exact ⟨rfl, rfl, rfl⟩

/-! ## Resets (R184, R185) -/

/-- Settles O4: each row by its own definition; during a reset the ports and the frame timer take nothing. -/
theorem resetsTaken : Obligations.ResetsTaken := by
  refine ⟨fun s => rfl, fun tag s awake => ?_, fun s => rfl, fun c s off ignored => ?_⟩
  · rw [exec_request (c := .deviceReset tag) rfl, State.gatewayTake_eq _ _ _ _ awake]
    rfl
  rcases ignored with request | ⟨n, rfl⟩ | ⟨bytes, rfl⟩ | ⟨b, e, rfl⟩ | ⟨o, rfl⟩
  · obtain ⟨⟨tag, r⟩, row⟩ := Option.isSome_iff_exists.1 request
    rw [exec_request row, State.gatewayTake_reset _ _ _ _ off]
  · exact congrArg _ (if_pos (.inl off))
  · exact congrArg _ (if_pos (.inl off))
  · exact congrArg _ (if_pos off)
  · exact congrArg _ (if_pos off)

/-! ## PORT_CONFIG and DEVICE_INFO (R180, R183, R189) -/

/-- A polarity byte is refused from 2 on (R198). -/
theorem polarityOf_isNone (b : Byte) : (polarityOf b).isNone = true ↔ 1 < b.toNat := by
  unfold polarityOf
  split
  · simp_all
  · split
    · simp_all
    · simp only [Option.isNone_none, true_iff]
      bv_omega

/-- A polarity byte that is taken is active high at 1 (R198). -/
theorem polarityOf_eq {b : Byte} (small : b.toNat ≤ 1) : polarityOf b = some (if b = 1 then .activeHigh else .activeLow) := by
  have two : b = 0 ∨ b = 1 := by bv_omega
  rcases two with rfl | rfl <;> rfl

theorem polarityCode_eq (p : Polarity) : polarityCode p = if p = .activeLow then 0 else 1 := by cases p <;> rfl

section
variable {enable polarity : Option Byte} {s : State}

/-- PORT_CONFIG checks both bytes before it writes either (R180). -/
theorem servePortConfig_eq (enable polarity : Option Byte) (s : State) : servePortConfig enable polarity s
    = if (∃ b ∈ enable, 1 < b.toNat) ∨ ∃ b ∈ polarity, 1 < b.toNat then s.refuse .badValue
      else
        let on := (enable.bind enableOf).getD s.gateway.serviceEnabled
        let p := (polarity.bind polarityOf).getD s.notices.polarity
        ((s.setGateway { s.gateway with serviceEnabled := on }).setNotices { s.notices with polarity := p }).accept
          [if on = true then 1 else 0, if p = .activeLow then 0 else 1] := by
  simp only [servePortConfig, Bool.or_eq_true, Option.any_eq_true, enableOf_isNone, polarityOf_isNone, polarityCode_eq]
  rfl

/-- An enable byte that is taken is enabled at 1 (R180, R198). -/
theorem bind_enableOf (small : ∀ b ∈ enable, b.toNat ≤ 1) : enable.bind enableOf = enable.map (· == 1) := by
  cases enable with
  | none => rfl
  | some b => exact enableOf_eq (small b rfl)

/-- A polarity byte that is taken is active high at 1 (R189, R198). -/
theorem bind_polarityOf (small : ∀ b ∈ polarity, b.toNat ≤ 1) :
    polarity.bind polarityOf = polarity.map fun b => if b = 1 then .activeHigh else .activeLow := by
  cases polarity with
  | none => rfl
  | some b => exact polarityOf_eq (small b rfl)

end

/-- Settles O52: PORT_CONFIG by its check and the two values it leaves; DEVICE_INFO reports constants. -/
theorem portConfigAndDeviceInfo : Obligations.PortConfigAndDeviceInfo := by
  refine ⟨fun tag enable polarity s awake => ⟨fun bad => ?_, fun enableOk polarityOk => ?_⟩, fun tag s awake => ?_, rfl⟩
  · exact State.request_refused rfl awake ((servePortConfig_eq enable polarity _).trans (if_pos bad))
  · intro on p
    have ok : ¬((∃ b ∈ enable, 1 < b.toNat) ∨ ∃ b ∈ polarity, 1 < b.toNat) := by
      simpa only [not_or, not_exists, not_and, Nat.not_lt] using ⟨enableOk, polarityOk⟩
    have enabled : (enable.bind enableOf).getD s.gateway.serviceEnabled = on := by
      rw [bind_enableOf enableOk]
      cases enable <;> rfl
    have driven : (polarity.bind polarityOf).getD s.notices.polarity = p := by
      rw [bind_polarityOf polarityOk]
      cases polarity <;> rfl
    rw [← enabled, ← driven]
    exact State.request_accepted rfl awake ((servePortConfig_eq enable polarity _).trans (if_neg ok))
  · exact State.request_answered rfl awake rfl

end Sys2Proof.Machine
end

