-- ==== Sys2Proof/Proofs/ServiceLineFrames.lean ====
section
/-! The Service Line (R176 to R179): the receiver byte by byte, the checks of a completed frame, and a permitted frame taken whole. -/

namespace Sys2Proof.Machine

section
variable {s : State} {buffer frame : List Byte} {b : Byte}

/-! ## The receiver (R176, R178) -/

theorem byteAt_append {off : Nat} (low : off < buffer.length) (rest : List Byte) : byteAt (buffer ++ rest) off = byteAt buffer off := by
  simp only [byteAt_eq, List.getD_eq_getElem?_getD, List.getElem?_append_left low]

/-- The declared length stands in the first four bytes (R197). -/
theorem declared_append (header : 4 ≤ buffer.length) (rest : List Byte) : leAt (buffer ++ rest) 2 2 = leAt buffer 2 2 := by
  rw [leAt_two, leAt_two, byteAt_append (by omega), byteAt_append (by omega)]

/-- A byte of a frame being received is appended (R176). -/
theorem exec_serviceLineByte (awake : s.inReset = false) (receiving : s.service.receiver = .assembling buffer) (b : Byte) :
    exec (.serviceLineByte b false) s = .next (s.assemble buffer b) := by
  simp only [exec, execServiceLineByte, awake, receiving, Bool.false_eq_true, if_false]

theorem State.assemble_short (few : buffer.length < 3) (s : State) :
    s.assemble buffer b = s.receive (.assembling (buffer ++ [b])) := by
  have header : (buffer ++ [b]).length < 4 := by
    rw [List.length_append, List.length_singleton]
    omega
  exact if_pos header

/-- What the byte after a header's third, or a later one, comes to: the frame is too long, goes on, or is complete (R176). -/
theorem State.assemble_eq (header : 3 ≤ buffer.length) (s : State) : s.assemble buffer b =
    if 256 < leAt (buffer ++ [b]) 2 2 then (s.receive .hunting).serviceTooLong (buffer ++ [b])
    else if buffer.length + 1 < 5 + leAt (buffer ++ [b]) 2 2 then s.receive (.assembling (buffer ++ [b]))
    else (s.receive .hunting).serviceFrame (buffer ++ [b]) := by
  have length : (buffer ++ [b]).length = buffer.length + 1 := by rw [List.length_append, List.length_singleton]
  have whole : buffer.length + 1 < 4 + leAt (buffer ++ [b]) 2 2 + 1 ↔ buffer.length + 1 < 5 + leAt (buffer ++ [b]) 2 2 := by omega
  simp only [State.assemble, length, if_neg (show ¬buffer.length + 1 < 4 by omega), whole]
  rfl

/-- The last byte of a frame completes it (R176). -/
theorem State.assemble_completes (kept : leAt (buffer ++ [b]) 2 2 ≤ 256)
    (whole : (buffer ++ [b]).length = 5 + leAt (buffer ++ [b]) 2 2) (s : State) :
    s.assemble buffer b = (s.receive .hunting).serviceFrame (buffer ++ [b]) := by
  have length : (buffer ++ [b]).length = buffer.length + 1 := by rw [List.length_append, List.length_singleton]
  rw [State.assemble_eq (by omega), if_neg (Nat.not_lt.2 kept), if_neg (by omega)]

/-- A byte that is not the last of its frame is appended (R176). -/
theorem State.assemble_goesOn {rest : List Byte} (kept : leAt frame 2 2 ≤ 256) (whole : frame.length = 5 + leAt frame 2 2)
    (parts : buffer ++ [b] ++ rest = frame) (more : rest ≠ []) (s : State) :
    s.assemble buffer b = s.receive (.assembling (buffer ++ [b])) := by
  have length : (buffer ++ [b]).length = buffer.length + 1 := by rw [List.length_append, List.length_singleton]
  have left : 0 < rest.length := List.length_pos_of_ne_nil more
  rcases Nat.lt_or_ge buffer.length 3 with few | header
  · exact State.assemble_short few s
  · have declared : leAt (buffer ++ [b]) 2 2 = leAt frame 2 2 := by rw [← parts, declared_append (by omega) rest]
    have total : frame.length = buffer.length + 1 + rest.length := by rw [← parts, List.length_append, length]
    rw [State.assemble_eq header, declared, if_neg (Nat.not_lt.2 kept), if_pos (by omega)]

/-- A frame given up for its length is answered BAD_LENGTH with its tag, unless a response is being sent (R176, R178). -/
theorem State.serviceTooLong_eq (frame : List Byte) (s : State) : (s.receive .hunting).serviceTooLong frame
    = s.setService ⟨.hunting, if s.service.transmitter = .idle then .sending (serviceFrameOf (byteAt frame 1) .badLength [])
        else s.service.transmitter⟩ := by
  rw [State.serviceTooLong, show (s.receive .hunting).service.transmitter = s.service.transmitter from rfl]
  split
  case isTrue => rfl
  case isFalse idle => rw [if_pos (not_not.1 idle)]; rfl

end

/-- Settles O12: the receiver by its state and the bytes it holds. -/
theorem serviceLineReceiver : Obligations.ServiceLineReceiver := by
  refine ⟨fun s awake hunting => ⟨?_, ?_, fun b e other => ?_⟩, fun buffer b s awake receiving => ⟨?_, fun few => ?_, ?_⟩,
    fun s => rfl, fun s => rfl⟩
  · simp only [exec, execServiceLineByte, awake, hunting]
    rfl
  · simp only [exec, execServiceLineByte, awake, hunting]
    rfl
  · simp only [exec, execServiceLineByte, awake, hunting, beq_eq_false_iff_ne.2 other, Bool.and_false, Bool.false_eq_true, if_false]
  · simp only [exec, execServiceLineByte, awake, receiving]
    rfl
  · rw [exec_serviceLineByte awake receiving, State.assemble_short few]
    rfl
  · rintro declared given header
    rw [← leAt_two] at given
    rw [exec_serviceLineByte awake receiving, State.assemble_eq header, ← given]
    refine ⟨fun large => ?_, fun kept more => ?_⟩
    · rw [if_pos large, State.serviceTooLong_eq, byteAt_append (by omega)]
    · rw [if_neg (Nat.not_lt.2 kept), if_pos more]
      rfl

/-! ## The checks of a completed frame (R177) -/

section
variable {s : State} {buffer frame : List Byte} {b : Byte}

/-- The Service Line's rights are R179's six kinds. -/
theorem serviceRight_eq (kind : Byte) : serviceRight kind = serviceKinds.contains kind.toNat := by
  rw [Bool.eq_iff_iff]
  simp [serviceRight, serviceKinds, BitVec.toNat_eq]
  omega

/-- The six kinds of the Service Line name requests. -/
theorem serviceKinds_known {kind : Nat} (permitted : serviceKinds.contains kind = true) : requestKinds.contains kind = true := by
  have known : ∀ k ∈ serviceKinds, requestKinds.contains k = true := by decide
  exact known kind (List.contains_iff_mem.1 permitted)

/-- A kind that names neither a request nor READ_RESPONSE (R177, R199). -/
theorem unnamed_iff {kind : Byte} {body : List Byte} : (!requestKinds.contains kind.toNat && kind.toNat != 0x5A) = true
    ↔ kind ≠ readResponseKind ∧ (requiredLength kind body).isNone = true := by
  have read : kind.toNat ≠ 0x5A ↔ kind ≠ readResponseKind :=
    (BitVec.toNat_ne (x := kind) (y := readResponseKind)).symm
  rw [← Option.not_isSome, requiredLength_isSome, Bool.and_eq_true, bne_iff_ne, read, and_comm]

/-- The body of a completed frame has the length it declares. -/
theorem service_body_length (whole : frame.length = 5 + leAt frame 2 2) :
    ((frame.drop 4).take (leAt frame 2 2)).length = leAt frame 2 2 := by
  rw [List.length_take, List.length_drop]
  omega

/-- A completed frame that fails a check, while no response is being sent, is answered (R177, R178). -/
theorem State.serviceFrame_refused {result : Result} (idle : s.service.transmitter = .idle)
    (judged : s.judgeService frame = .error result) :
    s.serviceFrame frame = s.sendService (byteAt frame 1) (result, []) := by
  rw [State.serviceFrame, if_neg (not_not.2 idle), judged]

/-- A completed frame that passes every check, while no response is being sent, is taken and answered (R174, R177, R178). -/
theorem State.serviceFrame_taken {r : Request} {reply : Result × List Byte} (idle : s.service.transmitter = .idle)
    (judged : s.judgeService frame = .ok r) (answered : (serve .service r s).reply = some reply) :
    s.serviceFrame frame = (serve .service r s).state.sendService (byteAt frame 1) reply := by
  rw [State.serviceFrame, if_neg (not_not.2 idle), judged]
  simp only [answered]

/-- The Service Line judges a completed frame in R177's order. -/
theorem State.judgeService_refused {result : Result} (whole : frame.length = 5 + leAt frame 2 2)
    (refused : serviceRefusal s.gateway.serviceEnabled frame = some result) : s.judgeService frame = .error result := by
  have length := service_body_length whole
  simp only [serviceRefusal, byteSum, ← leAt_two] at refused
  simp only [State.judgeService, serviceRight_eq]
  split at refused
  case isTrue sum => exact Option.some.inj refused ▸ if_pos sum
  case isFalse sum =>
  rw [if_neg sum]
  split at refused
  case isTrue disabled => exact Option.some.inj refused ▸ if_pos disabled
  case isFalse enabled =>
  rw [if_neg enabled]
  split at refused
  case isTrue unknown => exact Option.some.inj refused ▸ if_pos (unnamed_iff.1 unknown)
  case isFalse known =>
  rw [if_neg (mt unnamed_iff.2 known)]
  split at refused
  case isTrue foreign => exact Option.some.inj refused ▸ if_pos foreign
  case isFalse permitted =>
  rw [if_neg permitted]
  split at refused
  case isTrue wrong =>
    exact Option.some.inj refused ▸ judgeBody_badLength (serviceKinds_known (by simpa using permitted)) (length.symm ▸ wrong)
  case isFalse => contradiction

end

/-- Settles O11: a frame completed while the transmitter is idle is judged and answered, and otherwise dropped. -/
theorem serviceLineRefusesInOrder : Obligations.ServiceLineRefusesInOrder := by
  intro buffer b s awake receiving kept whole
  rw [← leAt_two] at kept whole
  have declared : leAt (buffer ++ [b]) 2 2 = leAt buffer 2 2 := declared_append (by omega) [b]
  have length : (buffer ++ [b]).length = 5 + leAt (buffer ++ [b]) 2 2 := by
    rw [List.length_append, List.length_singleton, declared]
    omega
  rw [exec_serviceLineByte awake receiving, State.assemble_completes (declared ▸ kept) length]
  refine ⟨fun result refused idle => ?_, fun busy => ?_⟩
  · have judged : (s.receive .hunting).judgeService (buffer ++ [b]) = .error result := State.judgeService_refused length refused
    rw [State.serviceFrame_refused (s := s.receive .hunting) idle judged, byteAt_append (by omega)]
    rfl
  · exact congrArg _ (if_pos busy)

/-! ## A permitted frame (R174, R177 to R179) -/

section
variable {s : State} {frame : List Byte}

/-- The bytes of a frame after those received, one after another, complete it (R176). -/
theorem run_serviceLine (kept : leAt frame 2 2 ≤ 256) (whole : frame.length = 5 + leAt frame 2 2) {buffer rest : List Byte}
    (parts : buffer ++ rest = frame) (more : rest ≠ []) (awake : s.inReset = false)
    (receiving : s.service.receiver = .assembling buffer) :
    run (rest.map fun b => .serviceLineByte b false) s = .next ((s.receive .hunting).serviceFrame frame) := by
  induction rest generalizing s buffer with
  | nil => contradiction
  | cons b rest ih =>
    rw [List.map_cons, run_cons (exec_serviceLineByte awake receiving b)]
    have parts' : buffer ++ [b] ++ rest = frame := by rw [← parts, List.append_assoc]; rfl
    by_cases last : rest = []
    · subst last
      rw [List.append_nil] at parts'
      subst parts'
      rw [State.assemble_completes kept whole]
      rfl
    · rw [State.assemble_goesOn kept whole parts' last]
      exact ih (s := s.receive _) parts' last awake rfl

/-- The bytes of a frame sum to 0 (R177, R197). -/
theorem byteSum_sealed (bytes : List Byte) : byteSum (bytes ++ [-(byteSum bytes)]) = 0 := by
  simp [byteSum]

/-- A permitted request is one that every frame can carry. -/
theorem fits_of_permitted {r : Request} (permitted : serviceKinds.contains r.kind.toNat = true) : r.fits = true := by
  cases r with
  | templateLoad t => exact absurd permitted (by simp [Request.kind, serviceKinds])
  | _ => rfl

section
variable (tag : Byte) {r : Request} (fits : r.fits = true)
include fits

/-- The bytes of a Service Line request declare the length of its body (R197). -/
theorem serviceBytes_declared : leAt (serviceBytes tag r) 2 2 = r.body.length := by
  have header : 4 ≤ (r.frame tag).length := by
    rw [r.frame_length tag]
    omega
  rw [serviceBytes, declared_append header, r.frame_declared tag fits]

theorem serviceBytes_whole : (serviceBytes tag r).length = 5 + leAt (serviceBytes tag r) 2 2 := by
  rw [serviceBytes_declared tag fits, serviceBytes, List.length_append, r.frame_length tag, List.length_singleton]
  omega

/-- The frame of a permitted request passes every check of R177 (R179). -/
theorem State.judgeService_permitted (enabled : s.gateway.serviceEnabled = true)
    (permitted : serviceKinds.contains r.kind.toNat = true) : s.judgeService (serviceBytes tag r) = .ok r := by
  have sum : ¬(serviceBytes tag r).foldl (· + ·) 0 ≠ 0 := not_not.2 (byteSum_sealed (r.frame tag))
  have kind : byteAt (serviceBytes tag r) 0 = r.kind := byteAt_of_drop rfl
  have body : ((serviceBytes tag r).drop 4).take r.body.length = r.body := List.take_left
  have named : ¬(r.kind ≠ readResponseKind ∧ (requiredLength r.kind r.body).isNone = true) := by
    rw [(Request.requiredLength_body fits).1]
    simp
  simp only [State.judgeService, serviceBytes_declared tag fits, kind, body, if_neg sum, enabled, if_neg named, serviceRight_eq, permitted,
    Bool.not_true, Bool.false_eq_true, if_false, Request.judgeBody_body fits]

end

/-- A report of staged work leaves the Service Line alone (R80). -/
theorem State.reportStaged_service (s before : State) : (s.reportStaged before).service = s.service := by
  rw [State.reportStaged_eq]
  split <;> rfl

/-- A request of the Service Line leaves the line itself alone (R179). -/
theorem serve_service {r : Request} (permitted : serviceKinds.contains r.kind.toNat = true) (port : Port) (s : State) :
    (serve port r s).state.service = s.service := by
  cases r with
  | itemGet n =>
    simp only [serve, serveItemGet]
    split
    · rfl
    · split <;> rfl
  | labelGet a =>
    simp only [serve, serveLabelGet]
    split
    · rfl
    · simp only [State.accept]
      split <;> rfl
  | labelBind a item =>
    simp only [serve, serveLabelBind]
    split
    · rfl
    · split
      · rfl
      · split
        · rfl
        · simp only [State.accept]
          split <;> exact (State.reportStaged_service _ _).trans (State.writeLabel_same _ _ s).service
  | labelRetry a | labelQuery a | labelLocate a =>
    simp only [serve, serveLabelRetry, serveLabelQuery, serveLabelLocate]
    split
    · rfl
    · exact (State.writeLabel_same _ _ s).service
  | _ => exact absurd permitted (by simp [Request.kind, serviceKinds])

/-- A request of the Service Line is answered (R174). -/
theorem serve_replies {r : Request} (permitted : serviceKinds.contains r.kind.toNat = true) (port : Port) (s : State) :
    ∃ result body, (serve port r s).reply = some (result, body) := by
  have answered : r ≠ .deviceReset := by
    rintro rfl
    contradiction
  exact (serve_answers port s answered).replies

end

/-- Settles O10: the frame is received byte by byte, judged and taken; the two ports' requests differ by LABEL_BIND and LABEL_GET
alone; a row is its owning block's work through the Gateway Port. -/
theorem serviceLineTakesPermittedFrame : Obligations.ServiceLineTakesPermittedFrame := by
  refine ⟨fun tag r s awake quiet enabled permitted => ?_, fun r s notBind notGet => ?_, fun c tag r s row awake => ?_⟩
  · obtain ⟨result, body, answered⟩ := serve_replies permitted .service s
    refine ⟨result, body, answered, ?_⟩
    have fits := fits_of_permitted permitted
    have hunting : s.service.receiver = .hunting := by rw [quiet]
    have idle : s.service.transmitter = .idle := by rw [quiet]
    have kept : leAt (serviceBytes tag r) 2 2 ≤ 256 :=
      (serviceBytes_declared tag fits).trans_le (Request.requiredLength_body fits).2
    have hunts : (s.receive (.assembling [])).receive .hunting = s := by
      have same : (⟨.hunting, s.service.transmitter⟩ : ServiceLine) = s.service := by rw [quiet]
      exact congrArg (State.setService · s) same
    have line : (serve .service r s).state.service = ⟨.hunting, .idle⟩ := (serve_service permitted .service s).trans quiet
    have named : byteAt (serviceBytes tag r) 1 = tag := byteAt_of_drop rfl
    calc run (((0xA5 : Byte) :: serviceBytes tag r).map fun b => .serviceLineByte b false) s
        = run ((serviceBytes tag r).map fun b => .serviceLineByte b false) (s.receive (.assembling [])) :=
          run_cons (serviceLineReceiver.1 s awake hunting).1
      _ = .next (((s.receive (.assembling [])).receive .hunting).serviceFrame (serviceBytes tag r)) :=
          run_serviceLine kept (serviceBytes_whole tag fits) rfl nofun awake rfl
      _ = .next ((serve .service r s).state.sendService tag (result, body)) := by
          rw [hunts, State.serviceFrame_taken idle (State.judgeService_permitted tag fits enabled permitted) answered, named]
      _ = _ := by rw [State.sendService, line]
  · cases r with
    | labelBind a item => exact absurd rfl (notBind a item)
    | labelGet a => exact absurd rfl (notGet a)
    | _ => rfl
  · intro v
    rw [exec_request row, State.gatewayTake_eq _ _ _ _ awake]
    show Host.Outcome.next (v.held tag) = _
    rw [Served.held]
    cases v.reply <;> rfl

end Sys2Proof.Machine
end

