-- ==== Sys2Proof/Proofs/NoticeRequests.lean ====
section
/-! The Notice Unit's requests (chapter 10): the sources a byte names, what each request leaves and answers, and the NOTICE line. -/

namespace Sys2Proof.Machine

/-! ## The sources a byte names (R198) -/

section
variable {sources : Byte} {named : SourceSet}

/-- A byte of sources with bit 6 or 7 set names no set (R191, R192, R198). -/
theorem sourceSetOf_eq_none (beyond : 63 < sources.toNat) : sourceSetOf sources = none :=
  if_neg (Nat.not_lt.2 beyond)

/-- A byte of sources below 64 names the sources of its bits (R198). -/
theorem sourceSetOf_eq_some (small : sources.toNat ≤ 63) : sourceSetOf sources
    = some ⟨sources.getLsbD 0, sources.getLsbD 1, sources.getLsbD 2, sources.getLsbD 3, sources.getLsbD 4, sources.getLsbD 5⟩ :=
  if_pos (Nat.lt_succ_of_le small)

/-! ## NOTICE_CLEAR and NOTICE_MASK (R191, R192) -/

theorem serveNoticeClear_refused (unnamed : sourceSetOf sources = none) (s : State) :
    serveNoticeClear sources s = s.refuse .badValue := by
  rw [serveNoticeClear, unnamed]

theorem serveNoticeMask_refused (unnamed : sourceSetOf sources = none) (s : State) :
    serveNoticeMask sources s = s.refuse .badValue := by
  rw [serveNoticeMask, unnamed]

/-- NOTICE_CLEAR takes the named sources from the pending set, and reports that set and the line as it then is (R191). -/
theorem serveNoticeClear_accepted (names : sourceSetOf sources = some named) (s : State) : serveNoticeClear sources s
    = (s.setNotices { s.notices with pending := s.notices.pending.without named }).accept
        [(s.notices.pending.without named).byte, flagByte ((s.notices.pending.without named).meets s.notices.enabled)] := by
  rw [serveNoticeClear, names]
  rfl

/-- NOTICE_MASK makes the named sources the enable set, and reports both sets and the line as it then is (R192). -/
theorem serveNoticeMask_accepted (names : sourceSetOf sources = some named) (s : State) : serveNoticeMask sources s
    = (s.setNotices { s.notices with enabled := named }).accept
        [named.byte, s.notices.pending.byte, flagByte (s.notices.pending.meets named)] := by
  rw [serveNoticeMask, names]
  rfl

end

/-! ## NOTICE_READ and the NOTICE line (R188, R190) -/

/-- NOTICE_READ reports both sets, the polarity and the line (R190). -/
theorem serveNoticeRead_eq (s : State) : serveNoticeRead s = s.accept [s.notices.pending.byte, s.notices.enabled.byte,
    if s.notices.polarity = .activeLow then 0 else 1, flagByte (s.notices.pending.meets s.notices.enabled)] := by
  rw [serveNoticeRead, polarityCode_eq, State.noticeActive]

/-- Settles O51: the line by its polarity, NOTICE_READ as it stands, and NOTICE_CLEAR and NOTICE_MASK by whether the byte names a
set. -/
theorem noticeRequests : Obligations.NoticeRequests := by
  intro tag s awake active bits yes
  refine ⟨?line, State.request_answered rfl awake (serveNoticeRead_eq _), fun sources => ⟨fun beyond => ?refused, fun small => ?taken⟩⟩
  case line =>
    rw [State.noticePin, awake, if_neg Bool.false_ne_true]
    cases s.notices.polarity <;> rfl
  case refused =>
    have unnamed := sourceSetOf_eq_none beyond
    exact ⟨State.request_refused rfl awake (serveNoticeClear_refused unnamed _),
      State.request_refused rfl awake (serveNoticeMask_refused unnamed _)⟩
  case taken =>
    have names := sourceSetOf_eq_some small
    exact ⟨State.request_accepted rfl awake (serveNoticeClear_accepted names _),
      State.request_accepted rfl awake (serveNoticeMask_accepted names _)⟩

end Sys2Proof.Machine
end

section
/-! The frame of a request, as the Gateway Port reads it (R172, R173, R197 to R199). -/

namespace Sys2Proof.Machine

/-- Settles O6: the frame passes the port's checks and spells the request, its header bytes stand where they were written, and its body
has the length its kind requires. -/
theorem requestFrameRoundTrip : Obligations.RequestFrameRoundTrip := by
  intro tag r fits
  obtain ⟨required, -⟩ := Request.requiredLength_body fits
  exact ⟨r.judgeFrame_frame tag fits, r.frame_tag tag, r.frame_kind tag, required, r.frame_length tag⟩

end Sys2Proof.Machine
end

section
/-! The waiting commands (assumption 11): a step takes the one at the front, and no command touches the rest. -/

namespace Sys2Proof.Machine

/-! ## Label records, notices, zones -/

@[simp] theorem State.writeLabel_pending (k : Nat) (new : Option Label) (s : State) : (s.writeLabel k new).pending = s.pending :=
  (s.writeLabel_same k new).pending

@[simp] theorem State.updateLabels_pending (test : Nat → Label → Bool) (change : Nat → Label → Label) (s : State) :
    (s.updateLabels test change).pending = s.pending :=
  (s.updateLabels_same test change).pending

@[simp] theorem State.noteLabel_pending (k : Nat) (l : Label) (s : State) : (s.noteLabel k l).pending = s.pending := rfl
@[simp] theorem State.setZone_pending (z : ZoneNo) (x : Zone) (s : State) : (s.setZone z x).pending = s.pending := rfl
@[simp] theorem State.raise_pending (x : Source) (s : State) : (s.raise x).pending = s.pending := rfl

@[simp] theorem State.reportStaged_pending (s before : State) : (s.reportStaged before).pending = s.pending := by
  rw [State.reportStaged_eq]
  split <;> rfl

/-- An operation that leaves the waiting commands, repeated over a list, leaves them. -/
theorem State.foldl_pending {α : Type} (f : State → α → State) (one : ∀ s a, (f s a).pending = s.pending) (work : List α) (s : State) :
    (work.foldl f s).pending = s.pending :=
  List.foldlRecOn (motive := fun u : State => u.pending = s.pending) work f rfl fun u same a _ => (one u a).trans same

/-! ## Content changes and changeovers (R40, R51, R77, R82 to R85) -/

@[simp] theorem State.markBound_pending (slot : Nat) (shown : Bool) (marks : Nat → Label → Bool) (s : State) :
    (s.markBound slot shown marks).pending = s.pending := s.updateLabels_pending _ _

@[simp] theorem State.markTemplate_pending (i : Fin 32) (s : State) : (s.markTemplate i).pending = s.pending :=
  s.updateLabels_pending _ _

@[simp] theorem State.cutover_pending (s : State) : s.cutover.pending = s.pending := by simp [State.cutover]

@[simp] theorem State.takeExpiry_pending (s : State) : s.takeExpiry.pending = s.pending := by
  unfold State.takeExpiry
  split
  · exact s.cutover_pending
  · rfl

@[simp] theorem State.countDown_pending (s : State) : s.countDown.pending = s.pending := by
  unfold State.countDown
  split
  · split <;> rfl
  · rfl

/-! ## Holds (R160 to R165) -/

@[simp] theorem State.endHold_pending (z : ZoneNo) (s : State) : (s.endHold z).pending = s.pending := rfl
@[simp] theorem State.beginHold_pending (z : ZoneNo) (budget : Nat) (s : State) : (s.beginHold z budget).pending = s.pending := rfl

@[simp] theorem State.takeHoldCount_pending (z : ZoneNo) (s : State) : (s.takeHoldCount z).pending = s.pending := by
  simp only [State.takeHoldCount]
  split
  · split <;> simp
  · rfl

@[simp] theorem State.takeDueHolds_pending (s : State) : s.takeDueHolds.pending = s.pending :=
  State.foldl_pending _ (fun u z => u.takeHoldCount_pending z) _ s

@[simp] theorem State.endAllHolds_pending (s : State) : s.endAllHolds.pending = s.pending :=
  State.foldl_pending _ (fun u z => u.endHold_pending z) _ s

@[simp] theorem State.ageHolds_pending (s : State) : s.ageHolds.pending = s.pending :=
  State.foldl_pending _ (fun u z => u.setZone_pending z { u.zone z with holdFrames := (u.zone z).holdFrames + 1 }) _ s

@[simp] theorem State.countHolds_pending (s : State) : s.countHolds.pending = s.pending :=
  State.foldl_pending _ (fun u z => by split <;> rfl) _ s

/-! ## Deliveries (R10 to R13, R135 to R147, R156) -/

@[simp] theorem State.freeEntry_pending (e : Entry) (s : State) : (s.freeEntry e).pending = s.pending := rfl
@[simp] theorem State.transmit_pending (lane : Lane) (m : Option (List Byte)) (s : State) : (s.transmit lane m).pending = s.pending := rfl

@[simp] theorem State.grant_pending (lane : Lane) (slot : SlotNo) (k : Nat) (s : State) : (s.grant lane slot k).pending = s.pending := by
  simp only [State.grant]
  split
  · rfl
  · split <;> simp

@[simp] theorem State.failEntry_pending (e : Entry) (l : Label) (s : State) : (s.failEntry e l).pending = s.pending := by
  simp only [State.failEntry]
  split <;> simp

@[simp] theorem State.succeedEntry_pending (e : Entry) (a : Ack) (l : Label) (s : State) :
    (s.succeedEntry e a l).pending = s.pending := by
  simp [State.succeedEntry]

@[simp] theorem State.resolveArrival_pending (e : Entry) (a : Ack) (s : State) : (s.resolveArrival e a).pending = s.pending := by
  simp only [State.resolveArrival]
  split
  · simp
  · split <;> simp

@[simp] theorem State.resolveClose_pending (e : Entry) (s : State) : (s.resolveClose e).pending = s.pending := by
  simp only [State.resolveClose]
  split <;> simp

@[simp] theorem State.abortAll_pending (s : State) : s.abortAll.pending = s.pending := by
  refine State.foldl_pending _ (fun u e => ?_) _ s
  simp only [State.abortEntry]
  split <;> simp

@[simp] theorem State.retireLabel_pending (k : Nat) (s : State) : (s.retireLabel k).pending = s.pending := by simp [State.retireLabel]

/-! ## Requests (R174, R181) -/

@[simp] theorem State.accept_pending (s : State) (body : List Byte) : (s.accept body).state.pending = s.pending := rfl
@[simp] theorem State.refuse_pending (s : State) (r : Result) : (s.refuse r).state.pending = s.pending := rfl

/-- No request touches the waiting commands, from either port; a reset keeps them too (R184). -/
@[simp] theorem serve_pending (port : Port) (r : Request) (s : State) : (serve port r s).state.pending = s.pending := by
  cases r with
  | epochStatus | radioStatus | noticeRead | deviceInfo | deviceReset => rfl
  | zoneGet | zoneRetry | noticeClear | noticeMask | portConfig =>
    simp only [serve, serveZoneGet, serveZoneRetry, serveNoticeClear, serveNoticeMask, servePortConfig]
    split <;> simp
  | labelRetire | labelRetry | labelQuery | labelLocate =>
    simp only [serve, serveLabelRetire, serveLabelRetry, serveLabelQuery, serveLabelLocate]
    split <;> simp
  | epochAbandon | radioStart | radioStop =>
    simp only [serve, serveEpochAbandon, serveRadioStart, serveRadioStop, State.accept]
    split <;> simp
  | itemGet | labelScan | templateGet | zoneSet =>
    simp only [serve, serveItemGet, serveLabelScan, serveTemplateGet, serveZoneSet]
    split
    · rfl
    · split <;> simp
  | labelGet | zoneRelease =>
    simp only [serve, serveLabelGet, serveZoneRelease, State.accept]
    split
    · rfl
    · split <;> simp
  | itemRetire | labelMove | epochOpen | radioConfig =>
    simp only [serve, serveItemRetire, serveLabelMove, serveEpochOpen, serveRadioConfig]
    split
    · rfl
    · split
      · rfl
      · split <;> simp
  | epochSchedule n =>
    simp only [serve, serveEpochSchedule, State.accept]
    split
    · rfl
    · split
      · rfl
      · split <;> simp
  | itemClearNext n =>
    simp only [serve, serveItemClearNext]
    split
    · rfl
    · split
      · rfl
      · split <;> simp
  | itemSetNext n p =>
    simp only [serve, serveItemSetNext]
    split
    · split
      · rfl
      · split <;> simp
    · rfl
  | itemPut n p =>
    simp only [serve, serveItemPut]
    split
    · split
      · split <;> simp
      · split <;> simp
    · rfl
  | labelAdd b =>
    simp only [serve, serveLabelAdd]
    split
    · rfl
    · split
      · rfl
      · split
        · split <;> simp
        · rfl
  | labelBind a n =>
    simp only [serve, serveLabelBind, State.accept]
    split
    · rfl
    · split
      · rfl
      · split
        · rfl
        · split <;> simp
  | templateLoad b =>
    simp only [serve, serveTemplateLoad]
    split
    · rfl
    · split
      · rfl
      · split
        · simp
        · split <;> simp
  | zoneHold z b =>
    simp only [serve, serveZoneHold]
    split
    · rfl
    · split
      · split <;> simp
      · split
        · rfl
        · split
          · rfl
          · split <;> simp

/-! ## The ports (chapter 9) -/

@[simp] theorem State.collect_pending (bytes : List Byte) (s : State) : (s.collect bytes).pending = s.pending := rfl

@[simp] theorem Served.held_pending (v : Served) (tag : Byte) : (v.held tag).pending = v.state.pending := by
  unfold Served.held
  split <;> rfl

@[simp] theorem State.gatewayTake_pending (tag : Byte) (r : Request) (s : State) :
    (s.gatewayTake tag r (serve .gateway r)).pending = s.pending := by
  unfold State.gatewayTake
  split <;> simp

@[simp] theorem State.readResponse_pending (n : Nat) (s : State) : (s.readResponse n).pending = s.pending := by
  unfold State.readResponse
  split <;> rfl

@[simp] theorem State.gatewayTransaction_pending (bytes : List Byte) (s : State) : (s.gatewayTransaction bytes).pending = s.pending := by
  unfold State.gatewayTransaction
  split
  · rfl
  · split
    · simp
    · split
      · rfl
      · simp

@[simp] theorem State.receive_pending (r : Receiver) (s : State) : (s.receive r).pending = s.pending := rfl

@[simp] theorem State.sendService_pending (tag : Byte) (r : Result × List Byte) (s : State) :
    (s.sendService tag r).pending = s.pending := rfl

@[simp] theorem State.serviceFrame_pending (frame : List Byte) (s : State) : (s.serviceFrame frame).pending = s.pending := by
  simp only [State.serviceFrame]
  split
  · rfl
  · split
    · rfl
    · split <;> simp

@[simp] theorem State.serviceTooLong_pending (frame : List Byte) (s : State) : (s.serviceTooLong frame).pending = s.pending := by
  unfold State.serviceTooLong
  split <;> rfl

@[simp] theorem State.assemble_pending (buffer : List Byte) (b : Byte) (s : State) : (s.assemble buffer b).pending = s.pending := by
  simp only [State.assemble]
  split
  · rfl
  · split
    · simp
    · split <;> simp

/-! ## The frame and its windows (R14, R97 to R101, R123 to R147) -/

@[simp] theorem State.takeRetries_pending (s : State) : s.takeRetries.pending = s.pending := s.updateLabels_pending _ _

@[simp] theorem State.composeBeacons_pending (s : State) : s.composeBeacons.pending = s.pending := by
  unfold State.composeBeacons
  split <;> rfl

@[simp] theorem State.settleFrame_pending (s : State) : s.settleFrame.pending = s.pending := by simp [State.settleFrame]

@[simp] theorem State.advanceFrame_pending (s : State) : s.advanceFrame.pending = s.pending := by simp [State.advanceFrame]

@[simp] theorem State.setWindows_pending (lane : Lane) (w : LaneWindows) (s : State) : (s.setWindows lane w).pending = s.pending := rfl

/-- A slot left silent transmits nothing; a granted one moves pointers and guards besides its label (R123 to R130). -/
@[simp] theorem State.decideSlot_pending (lane : Lane) (slot : SlotNo) (s : State) : (s.decideSlot lane slot).pending = s.pending := by
  rcases s.decideSlot_cases lane slot with silent | ⟨pointers, zones, k, l, -, -, -, -, -, granted⟩
  · rw [silent, State.transmit_pending]
  · rw [granted, State.grant_pending, State.setZones_pending, State.setPointers_pending]

theorem State.openSlots_pending (lane : Lane) (n : Nat) (s : State) : (s.openSlots lane n).pending = s.pending := by
  induction n generalizing s with
  | zero => rfl
  | succ n ih => exact (ih _).trans (State.decideSlot_pending _ _ _)

@[simp] theorem State.openUpTo_pending (lane : Lane) (n : Nat) (s : State) : (s.openUpTo lane n).pending = s.pending :=
  s.openSlots_pending lane _

@[simp] theorem State.closeSlot_pending (lane : Lane) (slot : SlotNo) (s : State) : (s.closeSlot lane slot).pending = s.pending := by
  simp only [State.closeSlot]
  split
  · rfl
  · split <;> simp

@[simp] theorem State.takeAck_pending (lane : Lane) (slot : SlotNo) (a : Ack) (s : State) :
    (s.takeAck lane slot a).pending = s.pending := by
  simp only [State.takeAck]
  split <;> simp

@[simp] theorem State.finishWindows_pending (s : State) : s.finishWindows.pending = s.pending := by
  simp only [State.finishWindows]
  split
  · exact (State.foldl_pending _ (fun u (w : Lane × SlotNo) => u.closeSlot_pending w.1 w.2) _ _).trans
      (State.foldl_pending _ (fun u (w : Lane × SlotNo) => u.openUpTo_pending w.1 _) _ s)
  · rfl

@[simp] theorem State.orderedWork_pending (o : FrameOrder) (s : State) : (s.orderedWork o).pending = s.pending := by
  have optional : ∀ (b : Bool) (u v : State), v.pending = u.pending → (if b then v else u).pending = u.pending := fun b u v same => by
    split
    · exact same
    · rfl
  exact (optional o.beacon _ _ (State.composeBeacons_pending _)).trans <| (optional o.holds _ _ (State.takeDueHolds_pending _)).trans <|
    (optional o.expiry _ _ (State.takeExpiry_pending _)).trans (optional o.retries s _ s.takeRetries_pending)

/-! ## Every command -/

/-- Settles O2: a request's row is its owning block's work through the Gateway Port; every other row is a state by its own definition. -/
theorem everyCommandKeepsTheQueue : Obligations.EveryCommandKeepsTheQueue := by
  intro c s
  cases row : c.request with
  | some tr => exact ⟨_, exec_request (tag := tr.1) (r := tr.2) row s, s.gatewayTake_pending _ _⟩
  | none =>
    cases c with
    | powerOnReset | resetEnd | serviceLineGapTimeout | serviceResponseSent => exact ⟨_, rfl, rfl⟩
    | unknownKindFrame bytes => exact ⟨_, rfl, s.gatewayTransaction_pending bytes⟩
    | countdownExpiry => exact ⟨_, rfl, s.takeExpiry_pending⟩
    | readResponse | holdBudgetSpent | holdIdleReached | dataSlotOpening | ackSlotClose =>
      refine ⟨_, rfl, ?_⟩
      split <;> simp
    | serviceLineByte b stopBitError =>
      refine ⟨_, rfl, ?_⟩
      split
      · rfl
      · split
        · split <;> rfl
        · split <;> simp
    | frameStart o =>
      by_cases on : s.inReset = false
      · exact ⟨_, execFrameStart_eq o s on, by simp⟩
      · exact ⟨s, congrArg _ (if_pos (by simpa using on)), rfl⟩
    | backoffRetryDue k =>
      refine ⟨_, rfl, ?_⟩
      split
      · rfl
      · split <;> simp
    | ackArrival lane slot m =>
      refine ⟨_, rfl, ?_⟩
      dsimp only
      split
      · split <;> simp
      · rfl
    | _ => contradiction

/-- Settles O1: the queue's front is matched by the definition of a step. -/
theorem stepRunsFrontCommand : Obligations.StepRunsFrontCommand := fun _ _ _ => rfl

end Sys2Proof.Machine
end
